-- ==== Sys2Proof/Word.lean ====
section
/-! DEFINITION. Sys2Proof/Word.lean: the word types of the FV960 and their plainest arithmetic (R16: little-endian,
bit 0 least significant). -/
namespace Sys2Proof

/-- One byte of a message, buffer or memory. -/
abbrev Byte := BitVec 8
/-- The bits of an fp32 value (IEEE 754 binary32). -/
abbrev F32 := BitVec 32
/-- The bits of a bfloat16 value. -/
abbrev B16 := BitVec 16
/-- The bits of an fp16 value (IEEE 754 binary16). -/
abbrev H16 := BitVec 16
/-- A 32-bit register. -/
abbrev Reg := BitVec 32

/-- The `k` little-endian bytes of `n` (R16). -/
def le : Nat → Nat → List Byte
  | 0, _ => []
  | k + 1, n => BitVec.ofNat 8 n :: le k (n / 256)

/-- The number whose little-endian bytes are `bs` (R16). -/
def unle : List Byte → Nat
  | [] => 0
  | b :: bs => b.toNat + 256 * unle bs

/-- `k` zero bytes: a reserved field on output (R18). -/
def zeros (k : Nat) : List Byte := List.replicate k 0

end Sys2Proof
end

