-- ==== Sys2Proof/Rows.lean ====
section
/-! DEFINITION. Sys2Proof/Rows.lean: what a collection is made of: its rows in every coding, segments, id map, tables and the
collection's own record. A shard copy (R351) carries one whole, so the commands' operands can hold it. -/
namespace Sys2Proof

/-- An entry of COLL_CREATE's ENTRIES: device id and, for a pooled TABLE, first row. -/
structure ShardEntry where
  device : Nat
  firstRow : Nat
  deriving DecidableEq, Repr

end Sys2Proof

namespace Sys2Proof.Machine

/-- A row record (R130 ff.), one per ordinal. -/
structure RowRec where
  ordinal : Nat
  extId : Nat
  birth : Nat
  death : Nat
  stand : Nat
  attrs : Nat
  deriving DecidableEq, Repr

/-- A TOK8 record (R129): block scales τ and one code list for each token. -/
structure Tok8 where
  scales : List H16
  codes : List (List Int)
  deriving DecidableEq, Repr

/-- A coded row (I4A or I8A): sc, oc and the codes (R125, R126). -/
structure Coded where
  sc : Nat
  oc : Nat
  codes : List Nat
  deriving DecidableEq, Repr

/-- A FORMAT row. -/
inductive FullRow where
  | none
  | i8a (c : Coded)
  | bf16 (v : List B16)
  deriving DecidableEq, Repr

/-- What of a row version a stored line holds (R212, R233, R234). -/
inductive Form where
  | sketch | epochs | int4 | green | full | tok
  deriving DecidableEq, Repr

/-- A row that scans skip: the version and the form whose line cannot be read (R233–R236). -/
structure Skip where
  ordinal : Nat
  form : Form
  deriving DecidableEq, Repr

/-- Where one row lies once migration has moved it (R157). -/
inductive RowPlace where
  | hbm (stack : Nat) | flash
  deriving DecidableEq, Repr

/-- The fresh location of a restored row's form: its local line address (R235). -/
structure Fresh where
  ordinal : Nat
  form : Form
  line : Nat
  deriving DecidableEq, Repr

/-- A green row version: BF16, SK1 and TOK8 (R133). -/
structure GreenRow where
  ordinal : Nat
  /-- the epoch trailer beside the sketch: BIRTH_EPOCH and DEATH_EPOCH (R212, R213). -/
  epochs : Nat × Nat
  sk1 : List Bool
  bf : List B16
  tok : Option Tok8
  deriving DecidableEq, Repr

/-- A seasoned row (R134). -/
structure SeasonedRow where
  ordinal : Nat
  /-- the epoch trailer beside the sketch (R212, R213). -/
  epochs : Nat × Nat
  sk1 : List Bool
  i4 : Coded
  full : FullRow
  tok : Option Tok8
  deriving DecidableEq, Repr

/-- A block: rows of one stand that share block scale entries (R126). -/
structure Block where
  stand : Nat
  sigma4 : H16
  omega4 : H16
  sigma8 : H16
  omega8 : H16
  rows : List SeasonedRow
  deriving DecidableEq, Repr

structure Segment where
  number : Nat
  blocks : List Block
  deriving DecidableEq, Repr

/-- An id map entry (R132): up to two (ordinal, birth epoch) slots. -/
structure IdEntry where
  id : Nat
  slots : List (Nat × Nat)
  deriving DecidableEq, Repr

/-- The COLL_CONFIG parameter set. -/
structure CollCfg where
  seasonEnable : Bool := true
  headroom : Nat := 4
  greenLimit : Nat := 4194304
  greenAgeMs : Nat := 10000
  compactDeadPct : Nat := 25
  tier : Nat := 2
  segmentTarget : Nat := 256
  deriving DecidableEq, Repr

/-- A stored TABLE row. -/
inductive TRow where
  | coded (c : Coded)
  | bf16 (v : List B16)
  deriving DecidableEq, Repr

/-- An add that has the row's lock, or waits for it behind the add that has it (R154, R155, R221). -/
structure Lease where
  row : Nat
  sq : Nat
  tag : Nat
  /-- the member of the pooled TABLE whose command the add belongs to; none for this device's own (R159). -/
  peer : Option Nat
  /-- entries of the command that the add stands for (R153). -/
  weight : Nat
  /-- number of the lease it holds; 0 while it waits. -/
  attempt : Nat
  /-- its leases run out before their switch: LEASE_EXPIRY settles it. -/
  stalls : Bool
  /-- stack and engine that run it; none on Canopy (R215). -/
  engine : Option (Nat × Nat)
  /-- rotate(ALPHA · g) (R152). -/
  delta : List F32
  deriving DecidableEq, Repr

/-- A written TABLE row: two slots, the active one and poison (R154, R237). -/
structure TableRow where
  index : Nat
  slot0 : TRow
  slot1 : TRow
  active1 : Bool
  poisoned : Bool
  /-- where the row lies (R157). -/
  place : RowPlace
  deriving DecidableEq, Repr

/-- The scales of a TABLE block (R151). -/
structure TableBlock where
  block : Nat
  sigma : H16
  omega : H16
  deriving DecidableEq, Repr

/-- Another shard of a collection: its present primary's device and its replica set, (number, device) (R350, R352). -/
structure OtherSet where
  shard : Nat
  primary : Nat
  replicas : List (Nat × Nat)
  deriving DecidableEq, Repr

structure Coll where
  num : Nat
  kind : Nat
  metric : Nat
  dim : Nat
  format : Nat
  tokens : Bool
  noRotate : Bool
  pooled : Bool
  stands : Nat
  shardOrdinal : Nat
  entries : List ShardEntry
  replicas : Nat
  seed : Nat
  /-- rotated centroids (R119). -/
  centroids : List (List B16)
  tableRows : Nat
  rowBase : Nat
  /-- OBJ range of a TABLE (R338, R339). -/
  base : Nat := 0
  cfg : CollCfg := {}
  committed : Nat := 0
  nextOrdinal : Nat := 0
  recs : List RowRec := []
  ids : List IdEntry := []
  green : List GreenRow := []
  /-- device time at which each epoch still in green became committed (R137). -/
  commitTimes : List (Nat × Nat) := []
  segs : List Segment := []
  nextSegment : Nat := 1
  /-- rows that scans skip, by the form that cannot be read (R233–R235). -/
  skipped : List Skip := []
  /-- fresh locations of restored rows (R235). -/
  fresh : List Fresh := []
  /-- INDEX rows that migration has moved: ordinal and place (R157). -/
  moved : List (Nat × RowPlace) := []
  /-- seasoning, compaction or requantisation ordered and not yet reported (R139). -/
  busy : Bool := false
  /-- 0 primary, else the replica's number (R350, R626). -/
  role : Nat := 0
  /-- device id of the present primary. -/
  primary : Nat := 0
  /-- replica set: (number, device id) (R350). -/
  replicaSet : List (Nat × Nat) := []
  /-- where the other shards lie, as their primaries tell it (R350). -/
  otherSets : List OtherSet := []
  /-- replicas being rebuilt (R351). -/
  rebuilding : List Nat := []
  blocks : List TableBlock := []
  rows : List TableRow := []
  /-- adds that hold or wait for a row lock, in order of arrival (R154, R155, R221). -/
  leases : List Lease := []
  saturations : Nat := 0
  deriving DecidableEq, Repr

end Sys2Proof.Machine
end

