-- ==== Sys2Proof/Syntax.lean ====
section
/-! DEFINITION. Sys2Proof/Syntax.lean: the commands and events of spec/opcode_table.json, one constructor of `Instr`
for each row, and their operands. What a command reads outside the device (a host buffer, a received packet, a pin,
a sensor) travels in its operand: the device shares no memory with any other component (R3). -/
namespace Sys2Proof

/-! ## Who sends, and the two carriers of SCI -/

/-- TLS identities of a management session (R515). -/
inductive Identity where
  | operator | meter | debug | tenantDebug (p : Nat) | setup
  deriving DecidableEq, Repr

/-- The path a mailbox request arrives by (R65, R78, R82, R518). `bar`: the host rings the doorbell now; `rung`: firmware takes
up the request whose doorbell an earlier register write has rung, by the host or another master (R8, R67). -/
inductive Path where
  | bar | rung | session (id : Nat) | i3c | jtag
  deriving DecidableEq, Repr

/-- One mailbox request: mailbox, path and the header fields of R70. -/
structure MbxReq where
  mbx : Nat
  path : Path := .bar
  tag : Nat
  partition : Nat
  length : Nat
  seq : BitVec 32
  deriving DecidableEq, Repr

/-- One submission entry as firmware begins it: the queue it stands in and its header fields. -/
structure SqReq where
  part : Nat
  sq : Nat
  tag : Nat
  fence : Bool := false
  noInt : Bool := false
  indirect : Bool := false
  context : Nat := 0
  paramAddr : Nat := 0
  paramLen : Nat := 0
  deriving DecidableEq, Repr

/-- The header fields of a submission entry as Landing fetches it (R91). -/
structure Entry where
  opcode : Nat
  tag : Nat
  fence : Bool := false
  noInt : Bool := false
  indirect : Bool := false
  context : Nat := 0
  deriving DecidableEq, Repr

/-- The carrier a command arrives on (R106). -/
inductive Carrier where
  | mailbox (r : MbxReq)
  | queue (q : SqReq)
  deriving DecidableEq, Repr

/-! ## Device, partition and queue commands -/

structure SetPowerArgs where
  target : Nat
  idleDisable : Nat
  idleAfterUs : Nat
  deriving DecidableEq, Repr

structure CruiseArgs where
  /-- MODE as DEV_CRUISE carries it: 0, or a value out of its range. -/
  mode : Nat := 0
  targetSlackPs : Nat
  excursionC : Nat
  vCeil : Nat
  spreadLimit : Nat
  deriving DecidableEq, Repr

structure QueueCreateArgs where
  typ : Nat
  queueId : Nat
  entries : Nat
  base : Nat
  cqId : Nat
  weight : Nat
  vector : Nat
  coalesceCount : Nat
  coalesceUs : Nat
  deriving DecidableEq, Repr

structure KeyLoadArgs where
  tenantPub : List Byte
  wrapNonce : List Byte
  wrappedRoot : List Byte
  wrapTag : List Byte
  deriving DecidableEq, Repr

/-! ## Collections -/

structure CollCreateArgs where
  coll : Nat
  kind : Nat
  metric : Nat
  dim : Nat
  format : Nat
  tokens : Bool
  noRotate : Bool
  pooled : Bool
  stands : Nat
  shardOrdinal : Nat
  replicas : Nat
  seed : Nat
  centroidAddr : Nat
  tableRows : Nat
  rowBase : Nat
  entryCount : Nat
  entries : List ShardEntry
  /-- The STANDS × D BF16 centroids the device reads at CENTROID_ADDR, one list per stand. -/
  centroids : List (List B16)
  deriving DecidableEq, Repr

structure CollConfigArgs where
  coll : Nat
  seasonEnable : Nat
  headroom : Nat
  greenLimit : Nat
  greenAgeMs : Nat
  compactDeadPct : Nat
  tier : Nat
  segmentTarget : Nat
  deriving DecidableEq, Repr

/-- One entry of ROW_INSERT or ROW_UPSERT, as read from the host buffers: id or row index, the D components as raw
bits of INPUT_TYPE, the attribute word and the token vectors (BF16, 128 components each). -/
structure RowIn where
  id : Nat
  vec : List Nat
  attr : Nat
  toks : List (List B16)
  deriving DecidableEq, Repr

structure RowWriteArgs where
  coll : Nat
  inputType : Nat
  tokensPresent : Bool
  attrPresent : Bool
  idsAddr : Nat
  vecAddr : Nat
  tokAddr : Nat
  attrAddr : Nat
  count : Nat
  rows : List RowIn
  deriving DecidableEq, Repr

structure RowDeleteArgs where
  coll : Nat
  count : Nat
  idsAddr : Nat
  ids : List Nat
  deriving DecidableEq, Repr

structure RowReadArgs where
  coll : Nat
  outType : Nat
  withAttr : Bool
  count : Nat
  idsAddr : Nat
  outAddr : Nat
  foundAddr : Nat
  attrOutAddr : Nat
  ids : List Nat
  deriving DecidableEq, Repr

/-- One gradient entry of ROW_ADD: row index and D fp32 components. -/
structure GradIn where
  row : Nat
  grad : List F32
  deriving DecidableEq, Repr

structure RowAddArgs where
  coll : Nat
  count : Nat
  idsAddr : Nat
  gradAddr : Nat
  alpha : F32
  grads : List GradIn
  /-- The order, as entry indices, in which the adds reach memory: the device does not fix it (R152). -/
  order : List Nat
  /-- Entry indices whose lease runs out before their switch (R155); LEASE_EXPIRY settles each of them. -/
  stalled : List Nat
  /-- Rows of this device that neither an engine nor the steps of R234 can read (R237). -/
  unreadable : List Nat := []
  deriving DecidableEq, Repr

/-! ## Queries -/

structure FilterTerm where
  op : Nat
  mask : Nat
  value : Nat
  deriving DecidableEq, Repr

/-- The QRY_SEARCH parameter block; `queries` holds the query vectors read at QUERY_ADDR as raw bits of INPUT_TYPE. -/
structure SearchParams where
  coll : Nat
  k : Nat
  queryCount : Nat
  inputType : Nat
  nprobe : Nat
  c1 : Nat
  c2 : Nat
  noInt4 : Bool
  noFull : Bool
  refill : Nat
  filterJoin : Nat
  filters : List FilterTerm
  queryAddr : Nat
  outAddr : Nat
  outLen : Nat
  queries : List (List Nat)
  /-- rows and records of this device's shard that prove uncorrectable when this command reads them, by form (R177,
  R236). -/
  deckBad : List Machine.Skip := []
  deriving DecidableEq, Repr

structure AuditArgs where
  coll : Nat
  k : Nat
  queryCount : Nat
  queryAddr : Nat
  paramAddr : Nat
  outAddr : Nat
  queries : List (List F32)
  block : SearchParams
  deriving DecidableEq, Repr

/-- A result record (32 bytes) with the places of the input order (R188) beside it. -/
structure Rec where
  extId : Nat
  score : F32
  shard : Nat
  stand : Nat
  segment : Nat
  ordinal : Nat
  version : Nat
  stage : Nat
  replica : Bool := false
  green : Bool := false
  noTokens : Bool := false
  passageMissing : Bool := false
  deriving DecidableEq, Repr

/-- What one shard returns for one query (R179). -/
structure ShardList where
  records : List Rec
  examined : Nat
  filteredOut : Nat
  ties : Nat
  skipped : Nat
  reduced : Nat
  isReduced : Bool
  refillRounds : Nat
  deriving DecidableEq, Repr

/-- One shard's whole answer: its status and one list for each query. -/
structure ShardAnswer where
  shard : Nat
  /-- the device that answers (R181, R182). -/
  device : Nat
  status : Nat
  epoch : Nat
  reissued : Bool
  lists : List ShardList
  deriving DecidableEq, Repr

/-- The PROMPT_PACK parameter block with the host text it names. -/
structure PackParams where
  vocab : Nat
  tokensOut : Bool
  textOut : Bool
  addBos : Bool
  trimTail : Bool
  tokenBudget : Nat
  passageMax : Nat
  template : List Byte
  query : List Byte
  passages : List (Nat × List Byte)
  templateLen : Nat
  queryLen : Nat
  passageCount : Nat
  outTokAddr : Nat
  outTextAddr : Nat
  outTextLen : Nat
  mapAddr : Nat
  deriving DecidableEq, Repr

structure RetrieveArgs where
  search : SearchParams
  embedModel : Nat
  vocab : Nat
  inputKind : Nat
  cross : Bool
  pack : Bool
  noLate : Bool
  finalK : Nat
  xencK : Nat
  xencModel : Nat
  inputLen : Nat
  inputAddr : Nat
  passageObject : Nat
  packAddr : Nat
  input : List Byte
  packParams : PackParams
  deriving DecidableEq, Repr

structure RerankArgs where
  coll : Nat
  count : Nat
  finalK : Nat
  late : Bool
  cross : Bool
  inputType : Nat
  qtokens : Nat
  xencModel : Nat
  vocab : Nat
  xencK : Nat
  idsAddr : Nat
  qtokAddr : Nat
  qtextAddr : Nat
  qtextLen : Nat
  outLen : Nat
  outAddr : Nat
  passageObject : Nat
  /-- (EXTERNAL_ID, SHARD_ORDINAL) of each candidate. -/
  cands : List (Nat × Nat)
  qtoks : List (List Nat)
  qtext : List Byte
  deriving DecidableEq, Repr

/-- One list entry of ATTEND. -/
structure AttendEntry where
  key : Nat
  device : Nat
  firstToken : Nat
  tokenCount : Nat
  deriving DecidableEq, Repr

/-- The running state of one query head (R223). -/
structure HeadState where
  m : F32
  l : F32
  o : List F32
  used : Nat
  masked : Nat
  deriving DecidableEq, Repr

/-- What one holder returns for one list entry. `mismatch`: stored with another DH or KV_HEADS (R358). -/
structure HolderAnswer where
  index : Nat
  missing : Bool
  mismatch : Bool
  blocks : Nat
  flashBlocks : Nat
  heads : List HeadState
  deriving DecidableEq, Repr

structure AttendArgs where
  mode : Nat := 0
  enc : Nat
  dh : Nat
  kvHeads : Nat
  qHeads : Nat
  inputType : Nat
  count : Nat
  scale : F32
  inAddr : Nat
  listAddr : Nat
  outAddr : Nat
  outLen : Nat
  entries : List AttendEntry
  /-- The Q_HEADS query vectors as raw bits of INPUT_TYPE. -/
  queries : List (List Nat)
  /-- (list index, token) of the home's own entries with an unreadable key or value line (R236). -/
  unreadable : List (Nat × Nat) := []
  deriving DecidableEq, Repr

structure StoreArgs where
  enc : Nat
  dh : Nat
  kvHeads : Nat
  inputType : Nat
  count : Nat
  key : Nat
  inAddr : Nat
  ttl : Nat
  /-- keys and values: per token, per head, DH components as raw bits of INPUT_TYPE. -/
  keys : List (List (List Nat))
  values : List (List (List Nat))
  deriving DecidableEq, Repr

structure DropArgs where
  count : Nat
  inAddr : Nat
  keys : List Nat
  deriving DecidableEq, Repr

/-- A query part as a home sends it to a shard device (R178), with vectors and the complete parameter set. -/
structure PartMsg where
  home : Nat
  part : Nat
  /-- SQ and tag of the home's command. -/
  sq : Nat
  tag : Nat
  shard : Nat
  /-- The answer is a replica's (R181). -/
  asReplica : Bool
  params : SearchParams
  /-- QRY_RERANK's part: the external ids to resolve in place of a search (R201). -/
  cands : Option (List Nat) := none
  /-- rounds of late interaction or passage text may follow (R181). -/
  rounds : Bool := false
  deriving DecidableEq, Repr

/-- Late interaction at a shard: rotated and coded query tokens with their scales, and the ordinals to score. -/
structure LateMsg where
  home : Nat
  part : Nat
  sq : Nat
  tag : Nat
  shard : Nat
  coll : Nat
  qcodes : List (List Int)
  qscales : List H16
  ordinals : List Nat
  /-- ordinals whose TOK8 record has an uncorrectable line (R236). -/
  unreadable : List Nat := []
  deriving DecidableEq, Repr

structure AttendMsg where
  home : Nat
  part : Nat
  sq : Nat
  tag : Nat
  index : Nat
  dh : Nat
  kvHeads : Nat
  qHeads : Nat
  scale : F32
  entry : AttendEntry
  queries : List (List F32)
  /-- (token, key or value line unreadable): tokens masked under R236. -/
  unreadable : List Nat
  deriving DecidableEq, Repr

/-- A home's request for the passage text of a shard's entries (R200). -/
structure PassageQuery where
  sq : Nat
  tag : Nat
  shard : Nat
  object : Nat
  deriving DecidableEq, Repr

/-- That request with the home that sends it and the ids it names. -/
structure PassageMsg extends PassageQuery where
  home : Nat
  part : Nat
  ids : List Nat
  deriving DecidableEq, Repr

/-- The command of a home, by its queue and its TAG. -/
structure CommandName where
  sq : Nat
  tag : Nat
  deriving DecidableEq, Repr

/-- COLL_SEASON: the collection, and a MODE of the payload that is 0 or out of range. -/
structure SeasonArgs where
  coll : Nat
  mode : Nat
  deriving DecidableEq, Repr

/-- VOCAB_LOAD or GRM_LOAD with IMAGE_LEN 0. -/
structure UnloadArgs where
  handle : Nat
  imageAddr : Nat
  deriving DecidableEq, Repr

/-- SEC_ATTEST: a KIND that is 0 or out of range, and the nonce. -/
structure AttestArgs where
  kind : Nat
  nonce : List Byte
  deriving DecidableEq, Repr

/-- SEC_FW_UPDATE: PHASE 0, or one out of range, and the image's length. -/
structure UpdateArgs where
  phase : Nat
  imageLen : Nat
  deriving DecidableEq, Repr

/-- A grove's timing monitor: its slack in ps, and the tile beside it. -/
structure MonitorRead where
  slack : Nat
  tile : Nat
  deriving DecidableEq, Repr

/-- The home's merge of one running query: the answers of the other shards, then the scores of the rounds that follow. -/
structure MergeArgs where
  part : Nat
  sq : Nat
  tag : Nat
  answers : List ShardAnswer
  /-- shards that refuse a later round, and the status (R183). -/
  refused : List (Nat × Nat) := []
  /-- late-interaction scores by (shard, ordinal): R196, R197. -/
  lateScores : List (Nat × Nat × F32)
  /-- entries of (shard, ordinal) whose record has no tokens (R196). -/
  noTokens : List (Nat × Nat)
  /-- entries dropped from late interaction by R236. -/
  lateDropped : List (Nat × Nat)
  /-- passage text by external id; absent or empty gives PASSAGE_MISSING (R200). -/
  passages : List (Nat × List Byte)
  /-- shards whose passage text is in. -/
  textFrom : List Nat := []
  deriving DecidableEq, Repr

structure ReissueArgs where
  part : Nat
  sq : Nat
  tag : Nat
  shard : Nat
  deriving DecidableEq, Repr

/-! ## Pooled tables, replicas -/

/-- One add of a pooled TABLE: row, addend unrotated, and the entries of the command it stands for (R153, R159). -/
structure PooledAdd where
  row : Nat
  v : List F32
  weight : Nat := 1
  deriving DecidableEq, Repr

inductive PooledOp where
  | read (rows : List Nat)
  | write (rows : List (Nat × List F32))
  | delete (rows : List Nat)
  | add (rows : List PooledAdd)
  deriving DecidableEq, Repr

/-- A member's request to the owner of a range, for its command (SQ, tag). -/
structure PooledMsg where
  src : Nat
  part : Nat
  sq : Nat := 0
  tag : Nat := 0
  coll : Nat
  op : PooledOp
  /-- rows of the adds whose lease runs out at the owner, and rows that nothing there can read (R155, R237): what happens
  at the owner, not what the message carries. -/
  stalled : List Nat := []
  unreadable : List Nat := []
  deriving DecidableEq, Repr

inductive ReplicaOp where
  | write (upsert : Bool) (rows : List RowIn) (inputType : Nat)
  | delete (ids : List Nat)
  | commit
  /-- COLL_CONFIG given at the primary (R627). -/
  | config (a : CollConfigArgs)
  deriving DecidableEq, Repr

/-- What a primary applied, for the command (SQ, tag) that waits for it (R121). -/
structure ReplicaMsg where
  src : Nat
  part : Nat
  sq : Nat := 0
  tag : Nat := 0
  coll : Nat
  shard : Nat := 0
  op : ReplicaOp
  deriving DecidableEq, Repr

structure ReplicaSeasonMsg where
  src : Nat
  part : Nat
  coll : Nat
  shard : Nat := 0
  compaction : Bool
  segment : Nat
  /-- stands that the compaction took. -/
  stands : List Nat := []
  ordinals : List Nat
  retired : List Nat
  deriving DecidableEq, Repr

structure LeaseArgs where
  part : Nat
  coll : Nat
  row : Nat
  /-- the reissued add switches within its own lease. -/
  switches : Bool
  /-- stack and engine that hold the row: marked faulted when the reissued add's lease expires too (R155). -/
  stack : Nat
  engine : Nat
  deriving DecidableEq, Repr

/-! ## Models -/

structure MdlLoadArgs where
  model : Nat
  freeze : Bool
  emaShift : Nat
  instances : Nat
  imageAddr : Nat
  imageLen : Nat
  image : List Byte
  deriving DecidableEq, Repr

structure ItemIn where
  lenA : Nat
  lenB : Nat
  a : List Byte
  b : List Byte
  deriving DecidableEq, Repr

structure MdlRunArgs where
  /-- MODE as MDL_RUN carries it: 0, or a value out of its range. -/
  mode : Nat := 0
  model : Nat
  vocab : Nat
  inputKind : Nat
  batch : Nat
  inAddr : Nat
  inLen : Nat
  outLen : Nat
  outAddr : Nat
  maxNew : Nat
  grammar : Nat
  items : List ItemIn
  deriving DecidableEq, Repr

structure CalibrateArgs where
  model : Nat
  vocab : Nat
  freezeAfter : Bool
  inputKind : Nat
  count : Nat
  inAddr : Nat
  inLen : Nat
  items : List ItemIn
  deriving DecidableEq, Repr

/-! ## Text -/

structure TextLoadArgs where
  handle : Nat
  vocab : Nat
  imageAddr : Nat
  imageLen : Nat
  image : List Byte
  deriving DecidableEq, Repr

structure TokenizeArgs where
  vocab : Nat
  stream : Nat
  useStream : Bool
  open_ : Bool
  end_ : Bool
  addBos : Bool
  addEos : Bool
  inLen : Nat
  outMax : Nat
  outAddr : Nat
  offsAddr : Nat
  text : List Byte
  deriving DecidableEq, Repr

structure DetokArgs where
  vocab : Nat
  stream : Nat
  open_ : Bool
  end_ : Bool
  renderSpecial : Bool
  eosEnds : Bool
  count : Nat
  stopCount : Nat
  tokAddr : Nat
  outAddr : Nat
  outLen : Nat
  stopAddr : Nat
  toks : List Nat
  stops : List (List Byte)
  deriving DecidableEq, Repr

structure GrmStepArgs where
  grammar : Nat
  stream : Nat
  open_ : Bool
  close : Bool
  hasToken : Bool
  noMask : Bool
  verify : Bool
  token : Nat
  maskAddr : Nat
  maskLen : Nat
  deriving DecidableEq, Repr

/-! ## Device traffic -/

/-- Device traffic that firmware's own queue pairs carry in class 6 (R53, R424). SQ and tag name the sender's or home's
command. -/
inductive FwMsg where
  | queryPart (m : PartMsg)
  | queryAnswer (sq tag : Nat) (a : ShardAnswer)
  | latePart (m : LateMsg)
  | lateAnswer (sq tag shard status : Nat) (scores : List (Nat × F32)) (noTokens dropped : List Nat)
  | passageRequest (m : PassageMsg)
  | passageAnswer (sq tag shard status : Nat) (texts : List (Nat × List Byte)) (missing : List Nat)
  | attendPart (m : AttendMsg)
  | attendAnswer (sq tag : Nat) (a : HolderAnswer)
  | cancel (part sq tag : Nat)
  | pooled (m : PooledMsg)
  | pooledAnswer (sq tag status failed first : Nat) (rows : List (Nat × List F32))
  | replica (m : ReplicaMsg)
  | replicaAnswer (sq tag status : Nat)
  | replicaSeason (m : ReplicaSeasonMsg)
  | replicaSet (coll shard primary : Nat) (set : List (Nat × Nat))
  | shardCopy (number : Nat) (copy : Machine.Coll)
  | poolStore (key : Nat) (data : List Byte)
  | poolRead (key : Nat)
  | poolData (key : Nat) (data : List Byte)
  | poolFree (key : Nat)
  deriving DecidableEq, Repr

/-! ## Fabric -/

structure PortConfigArgs where
  deviceId : Nat
  racks : Nat
  ySize : Nat
  zSize : Nat
  deriving DecidableEq, Repr

structure QpCreateArgs where
  qp : Nat
  /-- MODE: 0, or a value out of its range. -/
  mode : Nat := 0
  cls : Nat
  remoteDevice : Nat
  remoteQp : Nat
  sqEntries : Nat
  rqEntries : Nat
  sqBase : Nat
  rqBase : Nat
  cqId : Nat
  retryLimit : Nat
  rnrRetry : Nat
  retryTimeoutUs : Nat
  rnrDelayUs : Nat
  deriving DecidableEq, Repr

structure ShaperEntry where
  priority : Nat
  quantum : Nat
  idleRate : Nat
  hiCredit : Nat
  loCredit : Nat
  deriving DecidableEq, Repr

structure PolicerEntry where
  enable : Nat
  rate : Nat
  burst : Nat
  deriving DecidableEq, Repr

/-- Packet types of R421. -/
inductive PktType where
  | send | write | readReq | readResp | ack | nak | flushReq | flushAck | system
  deriving DecidableEq, Repr

/-- A link-state record (R620): the originating device, its sequence and the states of its eight ports. -/
structure FloodRec where
  device : Nat
  seq : Nat
  ports : BitVec 8
  deriving DecidableEq, Repr

/-- A Skyline packet: the header fields of R421 and the payload. -/
structure Packet where
  typ : PktType
  cls : Nat
  vc : Nat
  partition : Nat
  dest : Nat
  dirX : Bool := false
  dirY : Bool := false
  dirZ : Bool := false
  dirRow : Bool := false
  src : Nat
  destQp : Nat
  srcQp : Nat
  first : Bool := true
  last : Bool := true
  ackNow : Bool := false
  psn : Nat
  /-- what the sender has of the count of wraps of its PSNs: no header field (R422). -/
  wrap : Nat := 0
  aux : Nat := 0
  msgLen : Nat := 0
  addr : Nat := 0
  payload : List Byte := []
  /-- SYSTEM: the link-state record carried, one a packet (R620). -/
  record : Option FloodRec := none
  /-- the 16 bytes behind the payload (R421, R422). -/
  tag : List Byte := []
  /-- the message that a packet of a firmware queue pair carries (R424). -/
  fw : Option FwMsg := none
  /-- the sender's own note of the Forwarder channel whose remote access the packet is (R480). -/
  channel : Option Nat := none
  deriving DecidableEq, Repr

/-- A packet as it arrives: the port, the symbols in error of each of its codewords (R406), whether its header is well formed, the key
under which its sender sealed it, and whether its tag verifies under that key (R419, R422). -/
structure PacketIn where
  port : Nat
  errors : List Nat := []
  headerOk : Bool := true
  key : List Byte := []
  tagOk : Bool := true
  pkt : Packet
  deriving DecidableEq, Repr

/-- A work request of a queue pair (64 bytes) and, for SEND and WRITE, the bytes it names. -/
structure WorkReq where
  opcode : Nat
  signal : Bool
  localObj : Bool
  length : Nat
  context : Nat
  localAddr : Nat
  remoteAddr : Nat
  waitQp : Nat
  waitQueue : Nat
  waitTarget : Nat
  data : List Byte
  deriving DecidableEq, Repr

/-- The queue pair a work request is begun on. -/
structure QpRef where
  part : Nat
  qp : Nat
  /-- firmware's own queue pair of the partition toward this device, in place of a tenant's (R424, R621). -/
  peer : Option Nat := none
  deriving DecidableEq, Repr

/-! ## Metering, security, debug -/

structure ParamsFrame where
  block : List Byte
  auditSeq : Nat
  kind : Nat
  item : Nat
  newDigest : List Byte
  verifies : Bool
  deriving DecidableEq, Repr

structure TallyChangeArgs where
  item : Nat
  valueLen : Nat
  value : List Byte
  deriving DecidableEq, Repr

/-! ## Segments -/

structure Descriptor where
  handle : Nat
  size : Nat
  tierClass : Nat
  deriving DecidableEq, Repr

structure SegWriteArgs where
  handle : Nat
  offset : Nat
  length : Nat
  atomic : Bool
  fua : Bool
  srcAddr : Nat
  descAddr : Nat
  data : List Byte
  desc : Descriptor
  deriving DecidableEq, Repr

structure SegListEntry where
  handle : Nat
  offset : Nat
  length : Nat
  deriving DecidableEq, Repr

structure SegReadArgs where
  extentCount : Nat
  desc : Bool
  listAddr : Nat
  dstAddr : Nat
  dstLen : Nat
  descAddr : Nat
  descHandle : Nat
  list : List SegListEntry
  /-- extents, as (handle, extent), whose piece in flash proves uncorrectable (R387). -/
  bad : List (Nat × Nat)
  deriving DecidableEq, Repr

structure SegTrimArgs where
  handle : Nat
  offset : Nat
  length : Nat
  deriving DecidableEq, Repr

structure SegFlushArgs where
  reportAddr : Nat
  reportMax : Nat
  deriving DecidableEq, Repr

/-! ## Doorbells, registers, host port -/

structure TailArgs where
  part : Nat
  queue : Nat
  value : Nat
  /-- the entries Landing reads from the ring, in ring order. -/
  fetched : List Entry
  deriving DecidableEq, Repr

structure HeadArgs where
  part : Nat
  queue : Nat
  value : Nat
  /-- entries Landing reads from the SQs bound to the CQ once it has room: (SQ, entries) (R94). -/
  fetched : List (Nat × List Entry) := []
  deriving DecidableEq, Repr

structure QpTailArgs where
  part : Nat
  qp : Nat
  value : Nat
  fetched : List WorkReq
  deriving DecidableEq, Repr

/-- A host register access through BAR0 of function `fn` (0 the PF, 1 + p VF p). -/
structure RegWrite where
  fn : Nat
  offset : Nat
  size : Nat
  value : Nat
  deriving DecidableEq, Repr

structure Bar2Access where
  part : Nat
  offset : Nat
  length : Nat
  data : List Byte
  deriving DecidableEq, Repr

/-- One scatter/gather entry (R477). -/
structure SgEntry where
  addr : Nat
  length : Nat
  deriving DecidableEq, Repr

/-- A channel whose run goes on, and what the environment gives the run: the lists as read, the host bytes at its source entries,
remote reads, and the events of R484 that can befall it. -/
structure FwdRun where
  channel : Nat
  srcList : List SgEntry
  dstList : List SgEntry
  listsRead : Bool
  /-- bytes read from the host or from another device, by (address, byte). -/
  bytes : List (Nat × Byte)
  /-- holding-register load at which a read fails, and the error code it gives (2, 3 or 7). -/
  failAt : Option (Nat × Nat)
  deriving DecidableEq, Repr

structure HostTlp where
  fn : Nat
  isWrite : Bool
  /-- a read of BAR0: offset and size. -/
  bar0 : Option (Nat × Nat) := none
  deriving DecidableEq, Repr

structure IdeKeyArgs where
  stream : Nat
  /-- first function and count of the RID association (R470). -/
  firstFn : Nat
  fnCount : Nat
  /-- the PSK under which the SPDM session was made (R508). -/
  psk : List Byte
  deriving DecidableEq, Repr

inductive HostReadOf where
  | sqFetch (part sq : Nat)
  | command (part sq tag : Nat) (fieldOffset : Nat) (inParams : Bool)
  | channel (c : Nat)
  deriving DecidableEq, Repr

structure HostReadFail where
  what : HostReadOf
  /-- 1 Unsupported Request, 2 Completer Abort, 3 completion timeout (R468). -/
  cause : Nat
  deriving DecidableEq, Repr

/-! ## Pavé -/

structure Pass where
  engine : Nat
  kernel : Nat
  granules : Nat
  queries : Nat
  /-- local address of its first granule. -/
  first : Nat := 0
  /-- the granule group of a placement unit that it reads, by unit and number: none for data that R331 keeps in HBM. -/
  group : Option (Nat × Nat) := none
  /-- the query command served, if any: partition, SQ and tag. -/
  requester : Option (Nat × Nat × Nat)
  deriving DecidableEq, Repr

structure GrantArgs where
  stack : Nat
  /-- passes firmware has handed to the stack's engines since the last grant. -/
  arrivals : List Pass
  deriving DecidableEq, Repr

/-- A row version with bytes in a line: its partition, collection, ordinal and the form that the line holds (R233). -/
structure LineRow where
  part : Nat
  coll : Nat
  ordinal : Nat
  form : Machine.Form
  deriving DecidableEq, Repr

/-- One line that a pass read with wrong bits: its local address, which of its 576 stored bits the cells give wrongly, and the
rows that have bytes in it (R230–R233). -/
structure LineRead where
  line : Nat
  wrong : List Nat
  rows : List LineRow
  deriving DecidableEq, Repr

structure PassEndArgs where
  stack : Nat
  engine : Nat
  /-- the lines of the pass that were read with wrong bits. -/
  lines : List LineRead
  deriving DecidableEq, Repr

structure EngineArgs where
  stack : Nat
  engine : Nat
  deriving DecidableEq, Repr

structure RestoreArgs where
  part : Nat
  coll : Nat
  ordinal : Nat
  line : Nat
  /-- the stored form that the failing line holds. -/
  lost : Machine.Form
  /-- step 1: the wrong bits of each of the controller's reads of the line. -/
  rereads : List (List Nat)
  /-- step 2: another copy of the row's bytes reads. -/
  copy : Bool
  /-- stored forms of the version that can be read through the controller path or through Deck (step 3). -/
  readable : List Machine.Form := []
  deriving DecidableEq, Repr

/-! ## Reset, thermal, placement, deck, cruise -/

/-- What a LUN reports in its parameter page (R365, R366). -/
structure LunPage where
  channel : Nat
  lun : Nat
  /-- bits of a cell: 3 TLC, 4 QLC. -/
  cell : Nat
  planes : Nat
  pageBytes : Nat
  spareBytes : Nat
  /-- the rest of the geometry: pages of a block, blocks. -/
  pages : Nat
  blocks : Nat
  /-- it offers every option that R365 lists as supported. -/
  options : Bool
  /-- blocks that the factory marked bad. -/
  factoryBad : Nat
  sensor : Bool
  deriving DecidableEq, Repr

/-- What the environment decides about one bring-up (R564, R397, R366, R488, R498). -/
structure BringUp where
  seedOk : Bool
  slotAOk : Bool
  slotBOk : Bool
  /-- the LUNs that Deck finds. -/
  luns : List LunPage
  metadataOk : Bool
  /-- unpowered seconds that Deck estimates from its sentinels (R385). -/
  unpoweredS : Nat
  deriving DecidableEq, Repr

structure UnitMoveArgs where
  unit : Nat
  toHbm : Bool
  /-- a write to the unit arrives while it moves (R343, R344). -/
  dirtied : Bool
  deriving DecidableEq, Repr

/-- A migration of one row: of a TABLE its index, of an INDEX its ordinal (R157). -/
structure RowMoveArgs where
  part : Nat
  coll : Nat
  row : Nat
  /-- an HBM stack (NEAR), or flash (DECK). -/
  dest : Machine.RowPlace
  /-- the lease of step 1 or 5 expires (R158). -/
  leaseExpires : Bool
  deriving DecidableEq, Repr

structure CopyUpArgs where
  unit : Nat
  /-- the frame reads and passes its check (R346). -/
  ok : Bool
  addr : Nat
  data : List Byte
  deriving DecidableEq, Repr

structure ExtentArgs where
  part : Nat
  handle : Nat
  extent : Nat
  deriving DecidableEq, Repr

structure ProgramFailArgs where
  block : Nat
  isErase : Bool
  part : Nat
  handle : Nat
  extent : Nat
  /-- the retry on a fresh block fails as well (R383). -/
  again : Bool
  deriving DecidableEq, Repr

structure PieceReadArgs where
  /-- the host extent that the piece belongs to; device data names none that exists. -/
  part : Nat
  handle : Nat
  extent : Nat
  /-- piece index in the frame. -/
  piece : Nat
  channel : Nat
  lun : Nat
  address : Nat
  /-- WRITE_TIME and WRITE_TEMP in the tag of a piece of device data. -/
  writeTime : Nat
  writeTemp : Int
  /-- read-level offsets at which the hard decode of the piece succeeds. -/
  levels : List (List Int)
  softOk : Bool
  /-- the decoded piece authenticates (R370). -/
  authOk : Bool
  deriving DecidableEq, Repr

/-- The samples a Cruise run turns into its plan (R583–R587). -/
structure CruiseSamples where
  cause : Nat
  hottest : Nat
  /-- per grove: slack in ps at each 5 mV step, from 560 mV upward. -/
  groveSlack : List (List Nat)
  /-- the same after a spare has been substituted, for the groves that need one (R584). -/
  slackAfter : List (List Nat)
  /-- per grove: slowest logical tile found by the at-speed test. -/
  slowest : List Nat
  baseSlack : List Nat
  retentionMs : List Nat
  portEye : List Nat
  landingEye : Nat
  rber : List Nat
  deriving DecidableEq, Repr

/-- Each step of the FV960: one constructor for each row of spec/opcode_table.json. -/
inductive Instr where
  | devIdentify (r : MbxReq)
  | devStatus (r : MbxReq)
  | devFullReset (r : MbxReq) (dumpOk : Bool)
  | devFullResetFormatFlash (r : MbxReq) (dumpOk : Bool)
  | devSetPower (r : MbxReq) (a : SetPowerArgs)
  | devCruise (r : MbxReq) (a : CruiseArgs)
  | devCruiseRun (r : MbxReq) (a : CruiseArgs)
  | devLogRead (r : MbxReq) (startSeq maxEntries : Nat)
  | partCreate (r : MbxReq)
  | partRelease (r : MbxReq)
  | partitionReleaseScrub (p : Nat)
  | partQueueCreate (r : MbxReq) (a : QueueCreateArgs)
  | partQueueDelete (r : MbxReq) (typ queueId : Nat)
  | sqDeleteDone (p q : Nat)
  | partKeyLoad (r : MbxReq) (a : KeyLoadArgs)
  | collCreate (r : MbxReq) (a : CollCreateArgs)
  | collDrop (r : MbxReq) (coll : Nat)
  | collConfig (r : MbxReq) (a : CollConfigArgs)
  | collStats (r : MbxReq) (coll : Nat)
  | collSeason (r : MbxReq) (a : SeasonArgs)
  | collSeasonCompact (r : MbxReq) (coll : Nat)
  | collSeasonRequantise (r : MbxReq) (coll : Nat)
  | collAudit (r : MbxReq) (a : AuditArgs)
  | rowInsert (q : SqReq) (a : RowWriteArgs)
  | rowUpsert (q : SqReq) (a : RowWriteArgs)
  | rowDelete (q : SqReq) (a : RowDeleteArgs)
  | rowAdd (q : SqReq) (a : RowAddArgs)
  | rowAddMerged (q : SqReq) (a : RowAddArgs)
  | ingestCommit (q : SqReq) (coll : Nat)
  | rowRead (q : SqReq) (a : RowReadArgs)
  | pooledRowRequest (m : PooledMsg)
  | replicaIngest (m : ReplicaMsg)
  | replicaSeason (m : ReplicaSeasonMsg)
  | leaseExpiry (a : LeaseArgs)
  | qrySearch (q : SqReq) (a : SearchParams)
  | qryRetrieve (q : SqReq) (a : RetrieveArgs)
  | qryRerank (q : SqReq) (a : RerankArgs)
  | qryCancel (q : SqReq) (targetSq targetTag : Nat)
  | qryAttend (q : SqReq) (a : AttendArgs)
  | qryAttendStore (q : SqReq) (a : StoreArgs)
  | qryAttendDrop (q : SqReq) (a : DropArgs)
  | shardPart (m : PartMsg)
  | shardMerge (a : MergeArgs)
  | lateInteractionPart (m : LateMsg)
  | attendPart (m : AttendMsg)
  | shardReissue (a : ReissueArgs)
  | mdlLoad (r : MbxReq) (a : MdlLoadArgs)
  | mdlUnload (r : MbxReq) (model : Nat)
  | mdlRun (q : SqReq) (a : MdlRunArgs)
  | mdlRunGenerate (q : SqReq) (a : MdlRunArgs)
  | mdlCalibrate (r : MbxReq) (a : CalibrateArgs)
  | canopyRunStart
  | canopySegmentEnd (run : Nat)
  | canopyRunEnd (run : Nat)
  | tileFault (grove tile : Nat)
  | txtTokenize (q : SqReq) (a : TokenizeArgs)
  | txtDetokStream (q : SqReq) (a : DetokArgs)
  | grmLoad (r : MbxReq) (a : TextLoadArgs)
  | grmUnload (r : MbxReq) (a : UnloadArgs)
  | grmStep (q : SqReq) (a : GrmStepArgs)
  | promptPack (q : SqReq) (a : PackParams)
  | vocabLoad (r : MbxReq) (a : TextLoadArgs)
  | vocabUnload (r : MbxReq) (a : UnloadArgs)
  | trieRebuild (part vocab : Nat) (done : Bool)
  | streamContextTimeout (part stream : Nat)
  | fabPortConfig (r : MbxReq) (a : PortConfigArgs)
  | fabQpCreate (r : MbxReq) (a : QpCreateArgs)
  | fabQpDelete (r : MbxReq) (qp : Nat)
  | fabShaperSet (r : MbxReq) (entries : List ShaperEntry)
  | fabPolicerSet (r : MbxReq) (entries : List PolicerEntry)
  | fabStats (r : MbxReq) (qpFirst qpCount : Nat)
  | mtrRead (r : MbxReq) (sign cert : Bool) (nonce : List Byte)
  | mtrCompose (r : MbxReq) (compId : Nat) (customerRef : List Byte)
  | mtrDecompose (r : MbxReq) (compId : Nat) (nonce : List Byte)
  | mtrEvents (r : MbxReq) (startSeq maxEntries : Nat)
  | scalerParamsFrame (f : ParamsFrame)
  | paramsResend
  | secAttest (r : MbxReq) (a : AttestArgs)
  | secAttestCertificate (r : MbxReq)
  | secFwUpdateBegin (r : MbxReq) (a : UpdateArgs)
  | secFwUpdateData (r : MbxReq) (offset : Nat) (data : List Byte)
  | secFwUpdateCommit (r : MbxReq)
  | secFwUpdateAbort (r : MbxReq)
  | secTallyRead (r : MbxReq) (item : Nat)
  | secTallyChange (r : MbxReq) (a : TallyChangeArgs)
  | secAuditRead (r : MbxReq) (auditSeq : Nat)
  | dbgTrace (r : MbxReq) (startSeq maxEntries : Nat)
  | dbgCounters (r : MbxReq) (group : Nat)
  | dbgLoupe (r : MbxReq) (ctrl filter : Reg)
  | segWrite (q : SqReq) (a : SegWriteArgs)
  | segWriteDesc (q : SqReq) (a : SegWriteArgs)
  | segRead (q : SqReq) (a : SegReadArgs)
  | segTrim (q : SqReq) (a : SegTrimArgs)
  | segFlush (q : SqReq) (a : SegFlushArgs)
  | commandDone (opcode tag : Nat)
  | sqTailDoorbell (a : TailArgs)
  | cqHeadDoorbell (a : HeadArgs)
  | eqHeadDoorbell (a : HeadArgs)
  | cqCoalesceTimer (part cq : Nat)
  | qpSqTailDoorbell (a : QpTailArgs)
  | qpRqTailDoorbell (a : QpTailArgs)
  | wrSend (q : QpRef)
  | wrWrite (q : QpRef)
  | wrRead (q : QpRef)
  | wrFlush (q : QpRef)
  | wrWaitCount (q : QpRef)
  | wrRecv (q : QpRef)
  | pktSendRx (m : PacketIn)
  | pktWriteRx (m : PacketIn)
  | pktReadReqRx (m : PacketIn)
  | pktReadRespRx (m : PacketIn)
  | pktAckRx (m : PacketIn)
  | pktNakRx (m : PacketIn)
  | pktFlushReqRx (m : PacketIn)
  | pktFlushAckRx (m : PacketIn)
  | pktSystemRx (m : PacketIn)
  | pauseFrameRx (port : Nat) (states : BitVec 16)
  | pauseRepeatTimer (port : Nat)
  | heartbeatTimer
  | heartbeatRx (port device srcPort : Nat) (deviceFault : Bool)
  | heartbeatLoss (port : Nat)
  | pauseWatchdog (port pair : Nat)
  | laneFailure (port lane : Nat)
  | trainingNeighbourArrival (port device srcPort racks ySize zSize : Nat)
  | linkUp (port : Nat)
  | trainingTimeout (port : Nat)
  | retryTimeout (q : QpRef)
  | rnrDelayExpiry (q : QpRef)
  | ackDelayTimer (q : QpRef)
  | egressArbitration (port : Nat)
  | queueSampleTimer (ages : List Nat)
  | chkCommit (value : Reg)
  | pavCommit (value : Reg)
  | governorGrant (a : GrantArgs)
  | pavePassEnd (a : PassEndArgs)
  | passOverrun (a : EngineArgs)
  | engineFault (a : EngineArgs)
  | skippedRowRestore (a : RestoreArgs)
  | fwdCommit (value : Reg) (throughPf : Bool)
  | fwdAbort (value : Reg)
  | fwdChannelDone (run : FwdRun)
  | lndIntRearm (value : Reg)
  | lpeCommit (value : Reg)
  | registerWrite (w : RegWrite)
  | bar2Read (a : Bar2Access)
  | bar2Write (a : Bar2Access)
  | hostNonIdeTlp (t : HostTlp)
  | ideKmKeyProgram (a : IdeKeyArgs)
  | ideIntegrityFailure (stream : Nat)
  | hostReadFailure (a : HostReadFail)
  | busMasterEnableChange (fn : Nat) (enable : Bool)
  | flrVf (p : Nat)
  | flrPf
  | pcieLinkDown
  | pcieLinkUp
  | pfD3hotEntry
  | pfD0Return
  | idleGate (block : Nat)
  | idleWake (block : Nat)
  | coldPowerOn (ethSgmii : Bool)
  | aux3v3Loss
  | p48vFall (dumpOk : Bool)
  | p48vReturn
  | fullrstNAssert (lowNs : Nat) (dumpOk : Bool)
  | perstAssert (dumpOk : Bool)
  | resetRelease (b : BringUp)
  | rangerWatchdogExpiry
  | wedgedBlock (block : Nat)
  | tempAlert (temp : Nat)
  | tempLimit (temp : Nat)
  | tempLimitLift (temp : Nat)
  | thermtrip (temp : Nat)
  | powerLimit (watts : Nat)
  | powerLimitLift (watts : Nat)
  | i3cPrivateWrite (scaler : Bool) (bytes : List Byte)
  | i3cPrivateRead (scaler : Bool)
  | getstatus (scaler : Bool)
  | rstactTargetReset
  | rstactFullReset (dumpOk : Bool)
  | i3cAddressAssign (scaler : Bool) (address : Option Nat)
  | tlsHandshake (identity : Identity) (psk : List Byte)
  | tlsLockoutEnd
  | fabricKeySwitch
  | seasoning (part coll : Nat)
  | compaction (part coll stand : Nat)
  | heatDecay
  | placementPlan
  | unitMove (a : UnitMoveArgs)
  | rowMigration (a : RowMoveArgs)
  | copyUp (a : CopyUpArgs)
  | poolUnitRecopy (unit lostDevice newDevice : Nat)
  | replicaRebuild (part coll number device : Nat) (copy : Option Machine.Coll)
  | cacheEntryExpiry (part key : Nat)
  | extentProgram (a : ExtentArgs)
  | programFailure (a : ProgramFailArgs)
  | journalFlush
  | flashPieceRead (a : PieceReadArgs)
  | readSuspend (channel lun : Nat)
  | garbageCollection
  | wearLevelling
  | cruiseRun (a : CruiseSamples)
  | hwVoltageRaise (grove : Nat) (m : MonitorRead)
  | lmsTreeBuild (done : Bool)
  | apportionEnergy (weights : List Nat)
  | scl3v3Rise (firmwareOk : Bool)
  | scl3v3Fall
  | scalerSecond (microjoules : Nat)
  | scalerStoreTimer
  | signBucketRefill
  | clockFault
  | clockRestored
  | mainPowerLost
  | mainPowerRestored
  | undefinedOpcode (c : Carrier) (opcode : Nat)
  | packetForwarding (m : PacketIn)
  | passageFetch (home part : Nat) (q : PassageQuery) (ids : List Nat)
  | shardCancellation (home part : Nat) (c : CommandName)
  | poolHolderRequest (owner part op : Nat) (key : Nat) (data : List Byte)
  | managementSessionEnd (session : Nat)
  | referenceClockLoss (clock : Nat) (present : Bool)
  | bar2Resize (code : Nat)
  | adcFault (status : Nat)
  deriving DecidableEq, Repr

end Sys2Proof
end

