-- ==== Sys2Proof/Decode.lean ====
section
/-! DEFINITION. Sys2Proof/Decode.lean: the command that a word spells. The opcode table gives no row a bit pattern: a
command reaches the FV960 as a message, a ring entry, a packet, a register access or a pin, never as an instruction
word; no word spells one. -/
namespace Sys2Proof

/-- No row of the table gives bits, so no word spells a command. -/
def decodeTableWord (_nbits _w : Nat) : Option Instr := none

end Sys2Proof
end

