-- ==== Sys2Proof/Image.lean ====
section
/-! DEFINITION. Sys2Proof/Image.lean: what a configuration image holds behind its header (R256–R271): buffers, activation tensors,
integer layers, slices and the steps of its segments. Only Zilpan lays these sections out as bytes (R276), so an image is read
through the opaque functions of Config; what its parts compute is the device's, and stands in Machine/Layer.lean. -/
namespace Sys2Proof.Machine

/-- The roles of declared buffers (R256, R277, R284): weights; the ids, mask and segment ids of a token input; raw input bytes;
the three outputs; scratch. -/
inductive BufRole where
  | weights | ids | mask | segs | raw | pooled | tokens | logits | scratch
  deriving DecidableEq, Repr

/-- A declared buffer and its bytes. -/
structure BufDecl where
  role : BufRole
  size : Nat
  deriving DecidableEq, Repr

/-- The outlier transform of an activation tensor (R268). -/
inductive Transform where
  | none
  | rotate (seed : Nat)
  | smooth (lam : List H16)
  deriving DecidableEq, Repr

/-- An int8 or int4 activation tensor with its initial range and its mark (R272). -/
structure ActTensor where
  adaptive : Bool
  int4 : Bool
  lo : F32
  hi : F32
  channels : Nat
  transform : Transform
  deriving DecidableEq, Repr

/-- An integer layer (R266, R267, R270): weight format and zero point, where its codes begin in the weights, u codes, group
scales, biases (none without), input tensor, and output tensor, none where the consumer is fp32. -/
structure IntLayer where
  int4 : Bool
  zero : Int
  channels : Nat
  inputs : Nat
  codesAt : Nat
  u : List Nat
  g : List H16
  bias : List F32
  inTensor : Nat
  outTensor : Option Nat
  deriving DecidableEq, Repr

/-- What a variant of an image holds apart from its schedule. -/
structure ImageBody where
  buffers : List BufDecl
  weights : List Byte
  layers : List IntLayer
  /-- one slice for each logical tile of each grove of the set, loaded at `sliceAt` in the tile's SRAM (R262). -/
  slices : List (List Byte)
  sliceAt : Nat
  deriving DecidableEq, Repr, Inhabited

/-- A place that a move names: logical tile of a logical grove, grove SRAM, a declared buffer, or an absolute address, which no
valid image names (R256). -/
inductive Spot where
  | tile (grove tile off : Nat)
  | shared (grove off : Nat)
  | buf (b off : Nat)
  | abs (addr : Nat)
  deriving DecidableEq, Repr

/-- Floating formats of weights and activations. -/
inductive FloatFmt where
  | e4m3 | e5m2 | bf16
  deriving DecidableEq, Repr

/-- Element-wise fp32 work of the vector unit (R252): `special k` is one of its own special functions. -/
inductive Elem where
  | add | sub | mul | div | max | min | exp
  | special (k : Nat)
  deriving DecidableEq, Repr

/-- What a tile computes in one step of its slice, on vectors in its SRAM. -/
inductive Kernel where
  /-- fp32 values to the codes of a tensor (R268). -/
  | quantise (t : Nat)
  /-- codes of a tensor to s × (q − z). -/
  | dequantise (t : Nat)
  /-- an integer layer: its input codes, then its weight codes (R270). -/
  | layer (l : Nat)
  /-- the sum of `k` rescaled partials of `n` values in ascending split order (R254). -/
  | partials (n k : Nat)
  | elem (op : Elem) (n : Nat)
  /-- the fold of `n` values, in ascending order. -/
  | reduce (op : Elem) (n : Nat)
  /-- one value, `n` times. -/
  | spread (n : Nat)
  | toFloat (f : FloatFmt) (n : Nat)
  | fromFloat (f : FloatFmt) (n : Nat)
  /-- a floating layer of `c` channels over `n` inputs: inputs, then weights, with fp32 accumulators. -/
  | floatLayer (f : FloatFmt) (c n : Nat)
  deriving DecidableEq, Repr

/-- One step of the static schedule (R257): a data move, or a kernel of a tile with the offsets of its operands and result. -/
inductive ImageStep where
  | move (src dst : Spot) (n : Nat)
  | kernel (grove tile : Nat) (k : Kernel) (srcs : List Nat) (dst : Nat)
  deriving DecidableEq, Repr

/-- A segment: the cycles that its schedule takes and its steps in order (R259). -/
structure Sched where
  cycles : Nat
  steps : List ImageStep
  deriving DecidableEq, Repr, Inhabited

end Sys2Proof.Machine
end

