-- ==== Sys2Proof/Config.lean ====
section
/-! DEFINITION. Sys2Proof/Config.lean: what one device or implementation fixes and the spec leaves open, as opaque
constants: no proof can see a value of one, so a statement about one holds for every value. The log entries say which
rule leaves each open. -/
namespace Sys2Proof.Config

/-- Ordering code FV960-768 (true) or FV960-384 (R2). -/
opaque is768 : Bool
/-- IDENTITY_DIGEST and the identity public key are the device's own (R490). -/
opaque idPubKey : List Byte
/-- Serial number of the identity certificate (R501, R616), 16 bytes. -/
opaque serial : List Byte
/-- Manufacturing signature of the identity certificate (R501), 3,444 bytes. -/
opaque idCertSignature : List Byte
/-- Scaler's public key and the manufacturing signature of its certificate (R547, R548). -/
opaque scalerPubKey : List Byte
opaque scalerCertSignature : List Byte
/-- The seed that Hallmark reconstructs from the PUF (R486), and the setup code on the module label (R516), 16 characters. -/
opaque seed : List Byte
opaque setupCode : List Byte
/-- Major, minor, patch and build of the Scaler firmware (R532). -/
opaque scalerFwVersion : Nat

/-- V_GAIN, V_OFFSET, I_GAIN, I_OFFSET and SHUNT_TC as measured for the module, and CAL_REF (R550). -/
opaque calibration : Nat → BitVec 32
opaque calRef : List Byte
/-- The firmware images in slots A and B as shipped (R498). -/
opaque shippedImage : Bool → List Byte
/-- PREV_DIGEST of the first audit record, before which there is none (R530). -/
opaque firstPrevDigest : List Byte

/-- Draw `n` of the DRBG: 32 random bytes (R489). -/
opaque drbg : Nat → List Byte
/-- X25519 (R502, R504): the public key of a private key, and the shared secret. -/
opaque x25519Pub : List Byte → List Byte
opaque x25519 : List Byte → List Byte → List Byte
/-- AES-256-GCM decryption: key, nonce, ciphertext, tag and AAD; none when the tag fails (R504). -/
opaque gcmDecrypt : List Byte → List Byte → List Byte → List Byte → List Byte → Option (List Byte)
/-- AES-256-GCM authentication tag of a Skyline packet: key, IV, header as authenticated data, and payload (R422). -/
opaque packetTag : List Byte → List Byte → List Byte → List Byte → List Byte
/-- A POOL unit as its owner encrypts it (R349): partition flash key, unit and plaintext. The nonce is not given. -/
opaque poolSeal : List Byte → Nat → List Byte → List Byte
/-- Free donated flash of a device as it stands at count `n` (R348): how devices learn of it is not given. -/
opaque donatedFlash : Nat → Nat → Nat
/-- The identity-key signature of a message with leaf `n`, 3,444 bytes (R493, R494). -/
opaque idSign : Nat → List Byte → List Byte
/-- Scaler's signature of a message with leaf `n`, 1,776 bytes (R548). -/
opaque scalerSign : Nat → List Byte → List Byte
/-- The signature of a firmware image verifies (R498). -/
opaque fwSignatureOk : List Byte → Bool
/-- TARGET, SECURITY_VERSION and FW_VERSION of a firmware image: the image's layout is not given (R498). -/
opaque fwTarget : List Byte → Nat
opaque fwSecurity : List Byte → Nat
opaque fwVersion : List Byte → Nat

/-- Which of the four fp32 neighbours within 2 units in the last place the device's exponential gives (R223). -/
opaque expUlp : BitVec 32 → Fin 4
/-- Which of the seven fp32 values within 2 units in the last place of 1 the exponential of zero is. -/
opaque expZero : Fin 7

/-- The sections after an image's header, whose layout only Zilpan knows (R276): its activation tensors; the body of its primary
(false) or reduced (true) variant; and the schedule of a segment of a variant, at a padded length (R259, R277). -/
opaque imageTensors : List Byte → List Machine.ActTensor
opaque imageBody : List Byte → Bool → Machine.ImageBody
opaque imageSegment : List Byte → Bool → Nat → Nat → Machine.Sched
/-- The run's padded length for a sequence of `n` tokens (R277 names it and does not give it). -/
opaque padLength : List Byte → Nat → Nat
/-- Device address to which firmware binds buffer `b` of run `n` (R256): the choice is firmware's. -/
opaque bufferAt : Nat → Nat → Nat
/-- Special functions of the vector unit other than the exponential, identical on every tile (R252). -/
opaque special : Nat → BitVec 32 → BitVec 32 → BitVec 32
/-- An int32 value that a bias takes past its range (R254, R270), and a rescale entry whose quotient m is no positive finite
number, as with a group scale of 0 (R271): the spec states neither. -/
opaque int32Past : Int → BitVec 32
opaque rescaleOpen : BitVec 64 → Nat × Nat

/-- Which of the wire numbers 1,536–2,047 firmware gives its queue pair of a partition: own device, partition and peer (R424). -/
opaque fwWire : Nat → Nat → Nat → Fin 512
/-- Byte that a read of host memory or of another device returns to the Forwarder where no operand gives it: by the model's count and
the address. -/
opaque outsideByte : Nat → Nat → Byte

/-- Base addresses of the five reserved HBM ranges (R625 gives their sizes only). -/
opaque reservedBase : Nat → Nat
/-- A rotation seed chosen by the device for COLL_CREATE with seed 0: draw `n`. -/
opaque seedChoice : Nat → Nat
/-- Stored length of the Burl frame of an extent's bytes: R347 fixes the method and not the coder's choices. -/
opaque burlLen : List (Nat × Byte) → Nat
/-- Stored frame bytes of a unit of device data in flash: its number and its raw size (R347). -/
opaque unitFrame : Nat → Nat → Nat
/-- Burl stride, 1, 2 or 4, of a host object's extent: R346 gives the device's own data alone. -/
opaque burlStride : List (Nat × Byte) → Fin 3
/-- The channel of a frame's first piece and the block of its LUN that Deck opens for the `n`-th write, and the bytes of one block
(R365 fixes no block size). -/
opaque deckChannel : Nat → Nat
opaque deckBlock : Nat → Nat
opaque blockBytes : Nat
/-- Physical page of a piece in block `b` that carries WRITE_SEQ `n`, and of the block itself (R519 names the number only). -/
opaque flashPage : Nat → Nat → Nat
/-- °C at draw `n`: of a LUN's own sensor, and of the module's flash-area sensor nearest a channel (R385). -/
opaque lunSensor : Nat → Nat → Nat → Int
opaque areaSensor : Nat → Nat → Int
/-- A LUN's threshold table at THRESHOLD_GEN `g` (R385, R587): the read-level offsets of an entry, and those of its retry ladder's
step: channel, LUN, `g`, age, write-temperature and read-temperature bucket, and the step. -/
opaque readOffsets : Nat → Nat → Nat → Nat → Nat → Nat → List Int
opaque retryOffsets : Nat → Nat → Nat → Nat → Nat → Nat → Nat → List Int
/-- AES-256-GCM authentication tag of a piece: flash key, tag bytes 0–47 and data (R370). -/
opaque pieceTag : List Byte → List Byte → List (Nat × Byte) → List Byte
/-- Byte `n` of the stored form of a model, vocabulary or grammar, by OBJ address: no rule lays it out (R338). -/
opaque deviceByte : Nat → Byte
/-- Core voltage, mV, and slack, ps, of a grove that no Cruise run has set yet: no rule gives them (R583, R564). -/
opaque firstMv : Nat → BitVec 12
/-- Whether a power-fail dump stood whose outcome no operand gives: AUX3V3 falling first (R596), REF25M lost (R600), or a
DEV_FULL_RESET that came as I3C bytes. -/
opaque dumpStood : Nat → Bool
/-- Whether HBM held its contents through the loss of REF25M (R600 does not say). -/
opaque refLossKeepsHbm : Nat → Bool
/-- First stack of the stripe of data that R331 keeps in HBM: partition, kind and number. Free region that Skidder takes at draw
`n`. First of the consecutive places that a unit's copy takes among its owner's granules of a stack. No rule gives these
(R336, R507). -/
opaque fixedStack : Nat → Nat → Nat → Fin 8
opaque regionPick : Nat → Nat
opaque granuleAt : Nat → Nat → Nat → Nat
/-- First of the consecutive places that the SK1 granules of a stand of a segment take among their owner's granules of a stack:
partition, collection, segment index, stand and stack (R336). -/
opaque sketchPlace : Nat → Nat → Nat → Nat → Nat → Nat
/-- Address of the fresh line that Skidder takes for a restored row: draw `n` (R235). -/
opaque freshLine : Nat → Nat

/-- KIND, DETAIL0 and DETAIL1 of the device-log entries for which the spec names no kind: the loss of a dump (R397) and a
stack whose refresh falls short (R586). -/
opaque holdupLog : Nat × Nat × Nat
opaque refreshLog : Nat → Nat × Nat × Nat

end Sys2Proof.Config
end

