-- ==== Sys2Proof/Machine/State.lean ====
section
/-! DEFINITION. Sys2Proof/Machine/State.lean: the state of the FV960 as plain data, its reset value, and the outcomes
of a step. Each field's docstring names the rule of spec/ that gives it. -/
namespace Sys2Proof.Machine

/-! ## Responses, events, what leaves the device -/

/-- A mailbox response: the header fields of R70 that the device fills in, and the payload. -/
structure Reply where
  opcode : Nat
  tag : Nat
  partition : Nat
  async : Bool
  seq : BitVec 32
  status : Nat
  detail : Nat
  payload : List Byte
  deriving DecidableEq, Repr

/-- An event entry (R96) before delivery; EVENT_SEQ and LOST are stamped when it is delivered. -/
structure Event where
  code : Nat
  tag : Nat
  partition : Nat
  status : Nat
  time : Nat
  detail : Nat
  deriving DecidableEq, Repr

/-- Where events are delivered (R96). -/
inductive Dest where
  | part (p : Nat) | operator | sideband
  deriving DecidableEq, Repr

/-- A completion entry (32 bytes, R92). -/
structure CqEntry where
  tag : Nat
  status : Nat
  sqId : Nat
  sqHead : Nat
  context : Nat
  conditions : Nat
  detailA : Nat
  detailB : Nat
  deriving DecidableEq, Repr

/-- What the device issues at its boundary, in the order it issues it. -/
inductive Out where
  | hostWrite (fn addr : Nat) (bytes : List Byte)
  /-- a completion entry: one 32-byte posted write at `addr`, slot `slot` of the ring (R93). -/
  | completion (part cq slot addr : Nat) (bytes : List Byte)
  /-- an event entry into the slot of the partition's event ring (R96). -/
  | event (part slot addr : Nat) (bytes : List Byte)
  | msix (fn vector : Nat)
  /-- one TLS application-data message (R79). -/
  | frame (session : Nat) (bytes : List Byte)
  | jtagReply (bytes : List Byte)
  | i3cItem (isEvent : Bool)
  | i3cRead (bytes : List Byte)
  | i3cNack
  | i3cStatus (bits : BitVec 16)
  | tlpData (fn : Nat) (bytes : List Byte)
  | unsupportedRequest (fn : Nat)
  /-- a packet leaves a port, its 32-byte header first (R421). -/
  | packet (port : Nat) (header : List Byte) (p : Packet)
  | pause (port : Nat) (xoff : BitVec 16)
  | heartbeat (port device : Nat) (fault : Bool)
  | meterPulse
  | scalerReply (status : Nat) (bytes : List Byte)
  deriving DecidableEq, Repr

/-! ## Power, reset, pins -/

/-- Cold off, held in reset, or released (R558, R560). -/
inductive Phase where
  | auxOff | held | running
  deriving DecidableEq, Repr

/-- POWER_STATE (R558). -/
inductive PowerState where
  | active | idle | shardHold | d3hot
  deriving DecidableEq, Repr

structure Power where
  /-- Reset kind the device is in (R558, R560). -/
  phase : Phase := .held
  /-- POWER_STATE, 2 bits (R558). -/
  state : PowerState := .active
  /-- SERVICE_LEVEL, 2 bits (R65, R565). -/
  level : Nat := 0
  /-- FW_FAULT, 1 bit: the watchdog has expired (R63). -/
  fwFault : Bool := false
  /-- NEEDS_FULL_RESET, 1 bit (R103). -/
  needsReset : Bool := false
  /-- the 48 V input stands at 40 V or more (R594, R595). -/
  p48v : Bool := true
  /-- FULLRST_N low (R604). -/
  fullrstLow : Bool := false
  /-- PERST# asserted (R604). -/
  perst : Bool := false
  /-- THERMTRIP_N latch (R577, R607). -/
  thermtrip : Bool := false
  /-- hottest junction, °C (R577). -/
  hottest : Nat := 0
  /-- junction at which the last THERMAL event was sent (R577). -/
  thermalStep : Nat := 0
  /-- the 100 °C limits act (R577). -/
  thermalLimit : Bool := false
  /-- the 800 W limits act (R593). -/
  powerLimit : Bool := false
  /-- module input power, W (DEV_STATUS). -/
  inputPower : Nat := 0
  /-- IDLE_DISABLE active (R570). -/
  idleDisable : Bool := false
  /-- IDLE_AFTER_US active (R570, R571). -/
  idleAfterUs : Nat := 100
  /-- blocks whose clock is gated (R571). -/
  gated : List Nat := []
  /-- FORMAT_FLASH ordered for the next bring-up (R563). -/
  formatFlash : Bool := false
  /-- HBM contents were kept up to now (R560, R567). -/
  hbmKept : Bool := false
  /-- the last bring-up found HBM contents (R567). -/
  hbmFound : Bool := false
  /-- a power-fail dump is valid (R396, R397). -/
  dumpValid : Bool := true
  /-- a dump was owed and is missing: hold-up lost (R397). -/
  dumpLost : Bool := false
  /-- references present: REF25M, FABREF_A, FABREF_B, PCIE_REFCLK, SCL_TCXO (R600). -/
  refclk : List Bool := [true, true, true, true, true]
  /-- ETH_MODE as sampled: true SGMII (R608). -/
  ethSgmii : Bool := false
  /-- dynamic address of the main I3C target (R601). -/
  i3cAddr : Option Nat := none
  /-- dynamic address of Scaler's I3C target (R601). -/
  i3cScalerAddr : Option Nat := none
  deriving DecidableEq, Repr

/-! ## Mailboxes, sessions, events -/

structure Mailbox where
  /-- READY (R65). -/
  ready : Bool := false
  /-- BUSY: a doorbell was accepted and its response is not written (R65, R67). -/
  busy : Bool := false
  /-- DONE (R65). -/
  done : Bool := false
  /-- OVERRUN (R65, R67). -/
  overrun : Bool := false
  /-- RGR_MBX_LAST_SEQ (R65, R72). -/
  lastSeq : BitVec 32 := 0xFFFFFFFF
  /-- the stored response (R72), also what the response buffer holds. -/
  stored : Option Reply := none
  /-- request buffer bytes written by the host, by window offset (R65). -/
  request : List Host.Cell := []
  deriving DecidableEq, Repr

structure Session where
  id : Nat
  identity : Identity
  deriving DecidableEq, Repr

/-- One event destination (R96). -/
structure EventDest where
  held : List Event := []
  seq : Nat := 0
  lost : Nat := 0
  deriving DecidableEq, Repr

/-- A device log entry (R111). -/
structure LogEntry where
  time : Nat
  seq : Nat
  kind : Nat
  source : Nat
  partition : Nat
  detail0 : Nat
  detail1 : Nat
  deriving DecidableEq, Repr

/-- What ends with an accepted async command (R73). -/
inductive AsyncAction where
  | nothing
  | collReady (coll : Nat)
  /-- seasoning of a PINNED_HBM collection that waits for room (R333). -/
  | seasonLater (coll : Nat)
  | modelReady (model : Nat)
  | modelDrop (model : Nat)
  /-- by the serial of the model's load. -/
  | modelCalibrated (serial : Nat)
  | vocabReady (vocab : Nat)
  | vocabDrop (vocab : Nat)
  | grammarReady (grammar : Nat)
  | grammarDrop (grammar : Nat)
  deriving DecidableEq, Repr

/-- An accepted async command whose COMMAND_DONE is still to be delivered (R73). -/
structure AsyncJob where
  dest : Dest
  opcode : Nat
  tag : Nat
  partition : Nat
  status : Nat
  detail : Nat
  action : AsyncAction
  deriving DecidableEq, Repr

/-! ## Queues -/

structure Sq where
  id : Nat
  entries : Nat
  base : Nat
  cqId : Nat
  weight : Nat
  /-- TAIL last written (R89). -/
  tail : Nat := 0
  /-- next index the device fetches. -/
  head : Nat := 0
  error : Bool := false
  /-- TAG of the accepted delete (R87, R88). -/
  deleting : Option Nat := none
  /-- entries begun in the present round of the partition's weighted round robin (R91). -/
  served : Nat := 0
  /-- fetched, admitted, not yet begun (R91). -/
  fetched : List Entry := []
  /-- device time at which each of them was fetched (R452, FAB_STATS). -/
  arrived : List Nat := []
  deriving DecidableEq, Repr

structure Cq where
  id : Nat
  entries : Nat
  base : Nat
  vector : Nat
  coalesceCount : Nat
  coalesceUs : Nat
  /-- HEAD last accepted. -/
  head : Nat := 0
  /-- slot the device writes next. -/
  slot : Nat := 0
  /-- entries written and not consumed (R85). -/
  used : Nat := 0
  /-- PHASE of the present pass (R85). -/
  phase : Bool := true
  error : Bool := false
  /-- completions held back while full (R94). -/
  held : List (Bool × CqEntry) := []
  /-- completions not yet signalled (R86). -/
  unsignalled : Nat := 0
  deriving DecidableEq, Repr

structure Eq where
  entries : Nat
  base : Nat
  vector : Nat
  head : Nat := 0
  slot : Nat := 0
  used : Nat := 0
  phase : Bool := true
  error : Bool := false
  deriving DecidableEq, Repr

/-! ## Objects, models, text, cache -/

/-- A host object (R338–R341). -/
structure Obj where
  handle : Nat
  size : Nat
  base : Nat
  tier : Nat
  deriving DecidableEq, Repr

/-- One activation tensor's scale state (R272), with its channel count and transform (R268, R269). -/
structure Tensor where
  adaptive : Bool
  int4 : Bool
  lo : F32
  hi : F32
  s : F32
  z : Int
  channels : Nat := 0
  transform : Transform := .none
  deriving DecidableEq, Repr

/-- A scale set (R273): the tensors, and the rescale tables (M, SH) of each integer layer of the primary and of the reduced
variant (R270, R271). -/
structure ScaleSet where
  tensors : List Tensor := []
  tables : List (List (Nat × Nat)) := []
  redTables : List (List (Nat × Nat)) := []
  deriving DecidableEq, Repr

/-- A loaded model handle. -/
structure Model where
  handle : Nat
  /-- tells apart loads of one handle: runs of an unloaded model still finish (R282). -/
  serial : Nat
  /-- OBJ_BASE (R339). -/
  base : Nat
  loading : Bool
  /-- 0, or the image check reason found (R280). -/
  invalid : Nat
  width : Nat
  reducedWidth : Nat
  instances : Nat
  emaShift : Nat
  segments : Nat
  inputBinding : Nat
  outputRoles : Nat
  seqMax : Nat
  queryMax : Nat
  tokenDim : Nat
  pooledDim : Nat
  inputBytes : Nat
  cls : Nat
  sep : Nat
  pad : Nat
  eos : Nat
  vocabSize : Nat
  weightBytes : Nat
  digest : List Byte
  /-- the image, whose slices and schedules a run uses (R257, R262). -/
  image : List Byte
  /-- colsum of each channel of each integer layer, primary and reduced (R267). -/
  sums : List (List Int)
  redSums : List (List Int)
  /-- the active scale set (R273). -/
  set : ScaleSet
  /-- MDL_CALIBRATE commands accepted and not ended: while there are any, nothing folds (R287). -/
  calibrating : Nat
  /-- MDL_UNLOAD accepted; runs begun still finish (R282). -/
  unloaded : Bool
  deriving DecidableEq, Repr

structure Merge where
  left : Nat
  right : Nat
  result : Nat
  deriving DecidableEq, Repr

/-- A loaded vocabulary (R291 ff.). -/
structure Vocab where
  handle : Nat
  /-- OBJ_BASE (R339). -/
  base : Nat
  loading : Bool
  bpe : Bool
  presplit : Nat
  nfc : Bool
  spaceMark : Bool
  addPrefix : Bool
  byteLevel : Bool
  tokens : List (List Byte)
  byteBase : Nat
  merges : List Merge
  specials : List Nat
  bos : Nat
  eos : Nat
  byteScore : F32
  scores : List F32
  /-- the trie is built (R314). -/
  trie : Bool
  bytes : Nat
  deriving DecidableEq, Repr

structure Trans where
  lo : Nat
  hi : Nat
  top : Nat
  action : Nat
  push : Nat
  next : Nat
  deriving DecidableEq, Repr

structure Grammar where
  handle : Nat
  /-- OBJ_BASE (R339). -/
  base : Nat
  loading : Bool
  vocab : Nat
  start : Nat
  /-- per state: accepting, and its transitions. -/
  states : List (Bool × List Trans)
  /-- precomputed entries: state, top, mask. -/
  pre : List (Nat × Nat × List Byte)
  maskBytes : Nat
  bytes : Nat
  deriving DecidableEq, Repr

/-- A configuration of the automaton (R309). -/
structure Conf where
  state : Nat
  stack : List Nat
  deriving DecidableEq, Repr

inductive StreamKind where
  /-- TOKENIZE: pending bytes, held piece, offset of the first held byte, prefix already handled. -/
  | tok (vocab : Nat) (held : List Byte) (offset : Nat) (started : Bool)
  /-- DETOK: held output, stop strings, flags, stopped or ended. -/
  | detok (vocab : Nat) (held : List Byte) (stops : List (List Byte)) (render eosEnds halted : Bool)
  /-- GRAMMAR. -/
  | gram (grammar : Nat) (conf : Conf) (halted : Bool)
  deriving DecidableEq, Repr

structure Stream where
  num : Nat
  kind : StreamKind
  /-- device time of the last command that named it (R307). -/
  lastUse : Nat
  deriving DecidableEq, Repr

/-- A stored key or value: DH elements of 8 or 16 bits as the encoding has them, and σ for INT8 (R354, R356). -/
structure KvVec where
  codes : List Nat
  sigma : H16
  deriving DecidableEq, Repr

/-- One token of one head of a cache entry (R354). -/
structure KvTok where
  k : KvVec
  v : KvVec
  deriving DecidableEq, Repr

/-- A key and value cache entry (R354–R356); `heads`: per KV head, its tokens. -/
structure KvEntry where
  key : Nat
  enc : Nat
  dh : Nat
  kvHeads : Nat
  tokens : Nat
  heads : List (List KvTok)
  ttl : Nat
  named : Nat
  deriving DecidableEq, Repr

/-! ## Running commands -/

inductive UnitLoc where
  | hbm | flash | pool
  deriving DecidableEq, Repr

/-- What a placement unit is (R333 ff.). -/
inductive UnitKind where
  | i4Block (coll segment block : Nat)
  | tok8 (coll ordinal : Nat)
  | tableBlock (coll block : Nat)
  | extent (handle extent : Nat)
  | kv (key : Nat)
  deriving DecidableEq, Repr

/-- The cross-encoder and the vocabulary that a query took at its admission (R198). -/
structure Cross where
  model : Model
  vocab : Vocab
  deriving DecidableEq, Repr

/-- What a running query keeps at its home. -/
structure QueryRun where
  coll : Nat
  params : SearchParams
  epoch : Nat
  /-- the segment list captured at admission (R136). -/
  snap : Coll
  /-- I4A units that were not in HBM then. -/
  cold : List UnitKind
  /-- the query vectors as R124 and R166 prepare them. -/
  vecs : List (List F32)
  /-- the home shard's own answer. -/
  own : ShardAnswer
  /-- other shards and the device asked for each: (shard, device). -/
  asked : List (Nat × Nat)
  /-- (shard, replica device) reissued (R181). -/
  reissued : List (Nat × Nat)
  /-- 0 the embedding run is awaited, 1 the shard lists, 2 late-interaction scores, 3 passage text, 4 the cross-encoder's
  runs. -/
  phase : Nat
  /-- what the other shards have returned so far. -/
  ins : MergeArgs
  /-- the list that the rounds have reached, the ties beyond it, and entries dropped on the way (R236). -/
  recs : List Rec := []
  ties : Nat := 0
  dropped : Nat := 0
  /-- what the query's runs observed, by model serial, when they fold only once the prompt is packed (R109, R273). -/
  held : List (Nat × List (Nat × F32 × F32)) := []
  reduced : Bool
  /-- the embedding ran a reduced variant (R288). -/
  embedReduced : Bool
  retrieve : Option RetrieveArgs
  rerank : Option RerankArgs
  cross : Option Cross
  /-- the vocabulary that packs the prompt (R199). -/
  packVocab : Option Vocab
  /-- query token vectors as R195 codes them: codes and block scales. -/
  qtoks : List (List Int)
  qscales : List H16
  deriving DecidableEq, Repr

/-- What a ROW_READ, an ingest command or an INGEST_COMMIT still waits for (R121, R147, R155, R159). -/
structure IngestRun where
  coll : Nat
  isCommit : Bool := false
  /-- INGEST_COMMIT: ingest commands begun before it and not ended, as (SQ, tag). -/
  before : List (Nat × Nat) := []
  /-- devices asked and not answered, with the entries each stands for. -/
  waitFor : List (Nat × Nat) := []
  /-- entries for ranges of unreachable owners (R160). -/
  lost : Nat := 0
  /-- entries not applied, or poisoned rows read, and the first of their rows (R155, R237, R238). -/
  failed : Nat := 0
  first : Nat := 0
  /-- entries whose owner refused them, and its status (R572). -/
  refused : Nat := 0
  refusal : Nat := 0
  /-- DETAIL_A and DETAIL_B of a completion with OK. -/
  dA : Nat := 0
  dB : Nat := 0
  /-- ROW_READ: its operands and the rows that owners have returned. -/
  read : Option (RowReadArgs × List (Nat × List F32)) := none
  deriving DecidableEq, Repr

/-- A QRY_ATTEND whose holders are asked (R357, R358). -/
structure AttendRun where
  args : AttendArgs
  answers : List HolderAnswer
  /-- (list index, device) not answered yet. -/
  asked : List (Nat × Nat)
  deriving DecidableEq, Repr

inductive RunKind where
  | plain
  | query (q : QueryRun)
  | model (run : Nat)
  | ingest (w : IngestRun)
  | attend (a : AttendRun)
  deriving DecidableEq, Repr

/-- A part that this device ran for another home, whose later rounds may follow: what it captured (R134, R136, R204). -/
structure Guest where
  home : Nat
  sq : Nat
  tag : Nat
  coll : Nat
  epoch : Nat
  reduced : Bool
  snap : Coll
  deriving DecidableEq, Repr

/-- Adds that an owner applies for a member's command and that wait on leases (R155, R159). -/
structure PeerAdds where
  src : Nat
  sq : Nat
  tag : Nat
  coll : Nat
  failed : Nat
  first : Nat
  deriving DecidableEq, Repr

structure Running where
  sq : Nat
  tag : Nat
  opcode : Nat
  context : Nat
  noInt : Bool
  kind : RunKind
  /-- its queue went with a function level reset: it ends without a completion (R102). -/
  silent : Bool := false
  deriving DecidableEq, Repr

/-! ## Queue pairs -/

/-- A send-queue work request begun and not yet reported (R436). -/
structure WrRun where
  wr : WorkReq
  /-- its packets not yet handed to the egress, without their PSN. -/
  todo : List Packet := []
  /-- PSN of the last one handed over. -/
  psn : Nat := 0
  /-- READ: bytes placed. -/
  got : Nat := 0
  done : Bool := false
  status : Nat := 0
  deriving DecidableEq, Repr

structure Qp where
  index : Nat
  cls : Nat
  remoteDevice : Nat
  remoteQp : Nat
  sqEntries : Nat
  rqEntries : Nat
  sqBase : Nat
  rqBase : Nat
  cqId : Nat
  retryLimit : Nat
  rnrRetry : Nat
  retryTimeoutUs : Nat
  rnrDelayUs : Nat
  error : Bool := false
  /-- LAST_ERROR of FAB_STATS. -/
  lastError : Nat := 0
  /-- SKY_QP_SQ_TAIL and SKY_QP_RQ_TAIL. -/
  sqTail : Nat := 0
  rqTail : Nat := 0
  /-- next index the device fetches from each queue (R428). -/
  sqHead : Nat := 0
  rqHead : Nat := 0
  /-- fetched send work requests not yet begun, oldest first. -/
  sendQ : List WorkReq := []
  /-- receives fetched from the ring and not yet posted by WR_RECV. -/
  recvFetched : List WorkReq := []
  /-- posted receives, oldest first. -/
  recvQ : List WorkReq := []
  /-- the receive that the message now arriving consumes, its bytes placed and the message length. -/
  receiving : Option (WorkReq × Nat × Nat) := none
  /-- begun send work requests whose completion is not yet written, oldest first. -/
  active : List WrRun := []
  /-- READ data still to send: the packets of READ_RESP not yet numbered (R434). -/
  respQ : List Packet := []
  /-- completions since creation (R437). -/
  sqDone : Nat := 0
  rqDone : Nat := 0
  nextPsn : Nat := 0
  expPsn : Nat := 0
  /-- how often each of them has wrapped (R422). -/
  nextWrap : Nat := 0
  expWrap : Nat := 0
  /-- accepted packets not yet acknowledged (R430). -/
  unackedRx : Nat := 0
  /-- a NAK 1 was sent for the present gap (R429). -/
  gapNak : Bool := false
  /-- packets kept until acknowledged, oldest first (R430). -/
  unacked : List Packet := []
  retries : Nat := 0
  noQpRetries : Nat := 0
  rnrRetries : Nat := 0
  /-- waiting RNR_DELAY_US after a NAK of reason 2 (R432). -/
  rnrWait : Bool := false
  sent : Nat := 0
  retransmitted : Nat := 0
  rnrNaks : Nat := 0
  deriving DecidableEq, Repr

/-! ## Partitions -/

inductive PartState where
  | free | keysPending | active | releasing
  deriving DecidableEq, Repr

/-- A deferred-error record (R384). -/
structure Deferred where
  handle : Nat
  extent : Nat
  reason : Nat
  deriving DecidableEq, Repr

structure Part where
  /-- partition state (R99). -/
  state : PartState := .free
  /-- salt (R502); empty when destroyed. -/
  salt : List Byte := []
  /-- KEY_GENERATION, 32 bits (R502). -/
  keyGen : Nat := 0
  /-- X25519 public key (R101, R502). -/
  pub : List Byte := []
  /-- the private key is held (R502, R504). -/
  privHeld : Bool := false
  /-- index of the draw that gave salt or key pair (free values). -/
  draw : Nat := 0
  /-- key check value (R503). -/
  check : Option (List Byte) := none
  /-- partition root K inside Hallmark while keys are installed (R504, R506). -/
  root : Option (List Byte) := none
  /-- TAG of the PART_RELEASE in progress (R100). -/
  releaseTag : Nat := 0
  /-- created before the last bring-up and not loaded since (R567). -/
  firstLoad : Bool := false
  sqs : List Sq := []
  cqs : List Cq := []
  eq : Option Eq := none
  colls : List Coll := []
  running : List Running := []
  guests : List Guest := []
  peerAdds : List PeerAdds := []
  objs : List Obj := []
  models : List Model := []
  vocabs : List Vocab := []
  grammars : List Grammar := []
  streams : List Stream := []
  kv : List KvEntry := []
  qps : List Qp := []
  /-- deferred-error records, oldest first, and errors counted beyond 1,024 (R384). -/
  deferred : List Deferred := []
  deferredExtra : Nat := 0
  /-- ADMITTED and POLICED of FAB_STATS. -/
  admitted : Nat := 0
  policed : Nat := 0
  /-- what FAB_STATS reports: ADMITTED, POLICED, depth, delay and the QPs at the last whole ms (R454). -/
  seenHead : Nat × Nat × Nat × Nat := (0, 0, 0, 0)
  seenQps : List Qp := []
  /-- PARTITION_SHARE, mWh (R555). -/
  share : Nat := 0
  deriving DecidableEq, Repr

/-! ## Canopy -/

structure Grove where
  inService : Bool := false
  degraded : Bool := false
  sparesUsed : Nat := 0
  /-- logical index → physical tile, for substituted tiles (R263). -/
  remap : List (Nat × Nat) := []
  /-- the last run: its partition, image digest, variant, and which grove of its set this one was (R262). -/
  last : Option (Nat × List Byte × Bool × Nat) := none
  /-- 64-byte lines whose written bit is set (R253): 4,096 for each logical tile, then those of the grove's own SRAM. -/
  written : List Nat := []
  /-- core voltage, mV, worst slack, ps (R583, CRU_GROVE). -/
  mv : Nat := 0
  slack : Nat := 0
  deriving DecidableEq, Repr

/-- One item ready for Canopy (R277): its tokens with CLS and SEP (none for pixels, samples and tensors), how many of them
have segment id 0, its bytes, and whether it was cut. -/
structure RunIn where
  seq : List Nat
  front : Nat
  bytes : List Byte
  cut : Bool
  deriving DecidableEq, Repr

/-- What an ENCODE item gives: pooled elements, token rows, clamps. -/
structure EncOut where
  pooled : List F32
  rows : List (List F32)
  clamps : Nat
  deriving DecidableEq, Repr

/-- What the runs of a command are for: the items of an MDL_RUN; the embedding or the pairs of a query, at the service level
that the query was admitted at (R204, R288); or the items of an MDL_CALIBRATE, with FREEZE_AFTER. -/
inductive RunFor where
  | items (a : MdlRunArgs)
  | query (reduced : Bool)
  | calibrate (freeze : Bool)
  deriving DecidableEq, Repr

/-- The runs of one command, one item after another (R257): each executes the image once, a GENERATE item once for each token. -/
structure CanopyRun where
  id : Nat
  part : Nat
  /-- SQ and tag of the command; a mailbox command has SQ 64. -/
  sq : Nat
  tag : Nat
  /-- serial of the model it runs. -/
  model : Nat
  use : RunFor
  generate : Bool
  /-- the items, tokenised at admission (R283). -/
  inputs : List RunIn
  /-- grammar and vocabulary taken at admission (R285). -/
  grammar : Option (Grammar × Vocab) := none
  /-- the run of the present item holds groves. -/
  started : Bool := false
  /-- it runs the reduced variant, and some run of the command has (R288). -/
  reduced : Bool := false
  everReduced : Bool := false
  groves : List Nat := []
  segment : Nat := 0
  cancelled : Bool := false
  /-- the scale set active when the present run began (R273). -/
  set : ScaleSet := {}
  /-- the padded length of the present run (R277). -/
  padded : Nat := 0
  /-- the present run's buffers other than the weights: the address each is bound to and its bytes (R256). -/
  bufs : List (Nat × List Byte) := []
  /-- ranges observed at the quantisers of the present run, as (tensor, lowest, highest), and its clamps (R255, R272). -/
  obs : List (Nat × F32 × F32) := []
  clamps : Nat := 0
  /-- clamps of the earlier runs of the present item. -/
  itemClamps : Nat := 0
  /-- items finished, and what the ENCODE items gave. -/
  item : Nat := 0
  encs : List EncOut := []
  /-- GENERATE: tokens of the present item, and the configuration of its stream context, which it holds from its first run to
  its end (R318): none within, once the grammar has halted. -/
  toks : List Nat := []
  conf : Option (Option Conf) := none
  /-- what earlier items observed, for a calibration. -/
  seen : List (Nat × F32 × F32) := []
  deriving DecidableEq, Repr

/-! ## Pavé -/

/-- An entry of Grader (R240). -/
structure GEntry where
  key : Nat
  ordinal : Nat
  shard : Nat
  stand : Nat
  segment : Nat
  source : Nat
  deriving DecidableEq, Repr

/-- What an engine keeps for one query of its scan job: the command it scans for, the query's index, its best 256 entries,
BEST_DROPPED and DROPPED_TIES (R219). -/
structure Kept where
  engine : Nat
  part : Nat
  coll : Nat
  query : Nat
  best : List GEntry
  bestDropped : Option GEntry
  droppedTies : Nat
  deriving DecidableEq, Repr

structure Stack where
  /-- PAV_CAP_OP shadow and active operator cap (R225, R227). -/
  opShadow : Nat := 32
  opActive : Nat := 32
  /-- Cruise cap: firmware's shadow and active (R229). -/
  cruiseShadow : Nat := 32
  cruiseActive : Nat := 32
  /-- PAV_FAULT_LO and _HI (64 engines). -/
  faulted : BitVec 64 := 0
  /-- passes running under a grant (R210). -/
  granted : List Pass := []
  /-- engine granted last (R226). -/
  lastGrant : Nat := 63
  /-- passes waiting for a grant. -/
  waiting : List Pass := []
  /-- REFRESH_RATE and RETENTION_MS (R586). -/
  refresh : Nat := 0
  retention : Nat := 0
  baseSlack : Nat := 0
  /-- lines that each engine's decoder has corrected, and the device time of its last ECC_CORRECTED entry (R232). -/
  corrected : List Nat := List.replicate 64 0
  eccLogged : List (Option Nat) := List.replicate 64 none
  /-- kept lists of each engine's present scan job (R219). -/
  kept : List Kept := []
  deriving DecidableEq, Repr

structure Pave where
  allStacks : List Stack := List.replicate 8 {}
  /-- PAV_INT_STATUS, 17 bits. -/
  intStatus : Reg := 0
  /-- PAV_INT_ENABLE, 17 bits. -/
  intEnable : Reg := 0
  /-- PAV_SKIP_COUNT. -/
  skipCount : Reg := 0
  deriving DecidableEq, Repr

/-! ## Choker -/

structure Shaper where
  entry : ShaperEntry
  /-- credit in bits (R445). -/
  credit : Int := 0
  /-- deficit in bytes (R444). -/
  deficit : Nat := 0
  deriving DecidableEq, Repr

structure Policer where
  entry : PolicerEntry := { enable := 0, rate := 0, burst := 0 }
  /-- tokens in the bucket, in millionths (R447). -/
  level : Nat := 0
  /-- CHK_DROPS. -/
  drops : Reg := 0
  deriving DecidableEq, Repr

/-- The active shaper entry of `class` after full reset (FAB_SHAPER_SET, Default column; R446). -/
def defaultShaper (i : Nat) : Shaper :=
  { entry := { priority := if i % 8 = 6 then 6 else 0, quantum := 256, idleRate := 0, hiCredit := 65536,
               loCredit := 65536 } }

structure Choker where
  shapers : List Shaper := (List.range 64).map defaultShaper
  policers : List Policer := List.replicate 24 {}
  /-- CHK_SAMPLE_CTRL shadow. -/
  sampleShadow : Reg := 0x00010064
  /-- CHK_SAMPLE_CTRL active set. -/
  sampleActive : Reg := 0x00010064
  /-- CHK_QDEPTH and CHK_QDELAY, 76 each. -/
  qdepth : List Reg := List.replicate 76 0
  qdelay : List Reg := List.replicate 76 0
  /-- CHK_INT_STATUS. -/
  intStatus : Reg := 0
  /-- CHK_INT_ENABLE. -/
  intEnable : Reg := 0
  /-- class last served by deficit round robin at each port (R444). -/
  lastClass : List Nat := List.replicate 8 7
  /-- virtual channel served last, per port × class (R444). -/
  lastVc : List Nat := List.replicate 64 1
  /-- source served last, per port × class × virtual channel: a port, or 8 for local injection (R444). -/
  lastSrc : List Nat := List.replicate 128 8
  deriving DecidableEq, Repr

/-! ## Skyline -/

/-- A port: disabled; at step 1 of training; at steps 6 and 7; up at width 8 or 4; down (R409, R454). -/
inductive PortState where
  | disabled | training | joining | up8 | up4 | down
  deriving DecidableEq, Repr

/-- After a DEVICE_FAULT a port retrains once the neighbour's heartbeats have stopped and resumed (R441). -/
inductive FaultHold where
  | none | untilStop | untilResume
  deriving DecidableEq, Repr

/-- A packet waiting at an egress: the port it came from (8 for local injection), the virtual channel of the input
region that holds it, the packet as it will leave, and the device time since which it waits (R452). -/
structure Waiting where
  src : Nat
  vcIn : Nat
  pkt : Packet
  since : Nat := 0
  deriving DecidableEq, Repr

/-- Why Skyline discards a packet (R419). -/
inductive Discard where
  | codeword | header | partitionValue | linkDown | policer | authentication | otherPartition | noQueuePair | cleared
  deriving DecidableEq, Repr

structure Port where
  state : PortState := .training
  /-- REASON of the port view (R454). -/
  reason : Nat := 0
  neighbour : Nat := 0xFFFF
  downEvents : Nat := 0
  /-- lanes that have failed (R407). -/
  failed : BitVec 8 := 0
  /-- heartbeats received in a row during training (R409). -/
  beats : Nat := 0
  /-- waiting for the neighbour's heartbeats to stop and resume (R441). -/
  faultHold : FaultHold := .none
  /-- XOFF states received: pairs class × vc that this port must not send (R417). -/
  xoffRx : BitVec 16 := 0
  /-- XOFF states this port has sent (R416). -/
  xoffTx : BitVec 16 := 0
  /-- packets waiting at egress, oldest first; one that came from a port still fills that port's input region (R416). -/
  egress : List Waiting := []
  /-- counters of the port view (R454). -/
  txBytes : Nat := 0
  rxBytes : Nat := 0
  pausedNs : Nat := 0
  fecCorrected : Nat := 0
  fecUncorrected : Nat := 0
  /-- packets discarded, by reason (R419). -/
  discards : List (Discard × Nat) := []
  policed : Nat := 0
  eyeMv : Nat := 0
  deriving DecidableEq, Repr

/-- Firmware's own queue pair of a partition toward one device (R424, R621): the packets that may not begin yet and those kept until
they are acknowledged, oldest first, and the next PSN to send and expected. -/
structure FwQp where
  device : Nat
  part : Nat
  nextPsn : Nat := 0
  expPsn : Nat := 0
  /-- how often each of them has wrapped (R422). -/
  nextWrap : Nat := 0
  expWrap : Nat := 0
  todo : List Packet := []
  unacked : List Packet := []
  /-- accepted packets not yet acknowledged (R430). -/
  unackedRx : Nat := 0
  /-- a NAK 1 was sent for the present gap (R429). -/
  gapNak : Bool := false
  /-- waiting RNR_DELAY_US after a NAK of reason 2 (R432). -/
  rnrWait : Bool := false
  deriving DecidableEq, Repr

structure Fabric where
  /-- device id set by FAB_PORT_CONFIG (R453); none until set. -/
  deviceId : Option Nat := none
  racks : Nat := 1
  ySize : Nat := 1
  zSize : Nat := 1
  ports : List Port := List.replicate 8 {}
  /-- link table, one record for each device heard of (R442, R620). -/
  links : List FloodRec := []
  /-- count of link records originated since BOOT_COUNT took its value (R620). -/
  floodCount : Nat := 0
  /-- devices declared lost (R414, R443). -/
  lost : List Nat := []
  /-- SYSTEM CSEQ count (R423). -/
  sysCseq : Nat := 0
  /-- device time until which SYSTEM packets go under the previous fabric key, and until which it is accepted (R529). -/
  prevKeySend : Option Nat := none
  prevKeyAccept : Option Nat := none
  /-- the credential root before the last change of item 3 (R509, R510, R529). -/
  prevRoot : List Byte := []
  /-- CSEQ counts of ACK, NAK and FLUSH_ACK by wire queue-pair number, since BOOT_COUNT took its value (R423). -/
  qpCseq : List (Nat × Nat) := []
  /-- firmware's own queue pairs that have carried a message. -/
  fwQps : List FwQp := []
  deriving DecidableEq, Repr

/-! ## Landing, Forwarder, Loupe -/

inductive IdeState where
  | off | secure | insecure
  deriving DecidableEq, Repr

structure IdeStream where
  firstFn : Nat := 0
  fnCount : Nat := 0
  state : IdeState := .off
  deriving DecidableEq, Repr

structure Landing where
  /-- LND_INT_STATUS. -/
  intStatus : Reg := 0
  /-- LND_INT_ENABLE. -/
  intEnable : Reg := 0
  /-- BAR2 size code: 0 64 GiB … 4 1 TiB (R458). -/
  bar2Code : Nat := 0
  /-- VF Enable (R475). -/
  vfEnable : Bool := false
  /-- Bus Master Enable of the PF and each VF (R466). -/
  bme : List Bool := List.replicate 13 false
  /-- requests that wait for a function to be allowed to issue, oldest first (R466, R473). -/
  waiting : List Out := []
  /-- the link is in DL_Active (R469). -/
  linkActive : Bool := true
  ide : List IdeStream := List.replicate 4 {}
  eyeMv : Nat := 0
  deriving DecidableEq, Repr

structure FwdSet where
  ctrl : Reg := 0x00E00066
  srcCount : Nat := 0
  dstCount : Nat := 0
  srcList : BitVec 64 := 0
  dstList : BitVec 64 := 0
  deriving DecidableEq, Repr

structure Channel where
  shadow : FwdSet := {}
  active : FwdSet := {}
  busy : Bool := false
  done : Bool := false
  error : Bool := false
  startIgnored : Bool := false
  errCode : Nat := 0
  progress : Nat := 0
  /-- destination bytes and the error with which the present run will end. -/
  runBytes : Nat := 0
  runError : Nat := 0
  /-- INT_EN of the set captured at the start (R485). -/
  runInt : Bool := false
  /-- started, its bytes not moved yet, and the set captured at the start (R485). -/
  due : Bool := false
  captured : FwdSet := {}
  deriving DecidableEq, Repr

structure TraceRec where
  time : Nat
  seq : Nat
  source : Nat
  partition : Nat
  kind : Nat
  data0 : Nat
  data1 : Nat
  deriving DecidableEq, Repr

structure Loupe where
  ctrlShadow : Reg := 0x1FFF0000
  ctrl : Reg := 0x1FFF0000
  filterShadow : Reg := 0x00FFFFFF
  filter : Reg := 0x00FFFFFF
  running : Bool := false
  full : Bool := false
  lost : Nat := 0
  count : Nat := 0
  ring : List TraceRec := []
  intStatus : Reg := 0
  intEnable : Reg := 0
  deriving DecidableEq, Repr

/-! ## Hallmark -/

/-- A tally-limited setting (R524). -/
structure TallyItem where
  budget : Nat
  remaining : Nat
  value : List Byte
  lastAudit : Nat := 0xFFFFFFFF
  deriving DecidableEq, Repr

/-- An audit record without its signature (R530). -/
structure AuditRec where
  seq : Nat
  kind : Nat
  item : Nat
  aflags : Nat
  time : Nat
  remaining : Nat
  cost : Nat
  oldDigest : List Byte
  newDigest : List Byte
  prevDigest : List Byte
  leaf : Nat
  deriving DecidableEq, Repr

/-- An open firmware update (R499). -/
structure FwUpdate where
  length : Nat
  image : List Host.Cell
  /-- ranges written, (offset, length) (R500). -/
  got : List (Nat × Nat) := []
  deriving DecidableEq, Repr

/-- What the boot NOR holds in one slot. -/
structure FwSlot where
  image : List Byte := []
  version : Nat := 0
  security : Nat := 0
  deriving DecidableEq, Repr

structure Hallmark where
  /-- the seed register holds a seed (R486, R488). -/
  seed : Bool := false
  /-- NEXT_LEAF in the tally store (R495). -/
  nextLeaf : Nat := 0
  /-- next leaf of the open reservation and its end. -/
  leaf : Nat := 0
  leafEnd : Nat := 0
  signed : Nat := 0
  forfeited : Nat := 0
  nextTree : Nat := 0
  /-- device times of the signatures made in the last second (R497). -/
  signTimes : List Nat := []
  assays : Nat := 0
  keyLoads : Nat := 0
  keyFailures : Nat := 0
  tlsFailures : Nat := 0
  ideInsecure : Nat := 0
  tallyWrites : Nat := 0
  /-- BOOT_COUNT, 24 bits (R423). -/
  bootCount : Nat := 0
  /-- tally items 1–6. -/
  items : List TallyItem
  audit : List AuditRec := []
  auditNewest : Nat := 0
  /-- running slot (true B), preferred slot (true B), slots A and B (R498). -/
  runB : Bool := false
  preferB : Bool := false
  slotA : FwSlot := {}
  slotB : FwSlot := {}
  update : Option FwUpdate := none
  /-- device times of failed handshakes within 60 s (R517). -/
  tlsFails : List Nat := []
  /-- connections on port 4960 are refused (R517). -/
  lockout : Bool := false
  /-- draws taken from the DRBG (R489): the model's counter for free values. -/
  draws : Nat := 0
  deriving DecidableEq, Repr

/-! ## Cruise -/

structure LedgerEntry where
  seq : Nat
  cause : Nat
  result : Nat
  hottest : Nat
  time : Nat
  hours : Nat
  groveMv : List Nat
  groveSlack : List Nat
  groveState : List Nat
  caps : List Nat
  refresh : List Nat
  retention : List Nat
  baseSlack : List Nat
  portEye : List Nat
  landingEye : Nat
  rber : List Nat
  faulted : List (BitVec 64)
  thresholdGen : Nat
  deriving DecidableEq, Repr

structure Cruise where
  targetSlackPs : Nat := 80
  excursionC : Nat := 15
  vCeil : Nat := 800
  spreadLimit : Nat := 400
  /-- the newest 240 entries, oldest first (R589). -/
  ledger : List LedgerEntry := []
  ledgerSeq : Nat := 0
  running : Bool := false
  /-- the CAUSE that a run which has begun will report, where its beginning fixes one (R581). -/
  startCause : Option Nat := none
  /-- device time of the latest run since the reset (R581). -/
  lastRun : Option Nat := none
  /-- a COMMAND_DONE awaits the run: tag and partition (R582). -/
  doneTags : List (Nat × Nat) := []
  intStatus : Reg := 0
  intEnable : Reg := 0
  thresholdGen : Nat := 0
  lastHottest : Nat := 0
  poweredHours : Nat := 0
  rber : List Nat := List.replicate 32 0
  deriving DecidableEq, Repr

/-! ## Deck -/

/-- A whole extent in the write buffer: dirty when acknowledged and not yet programmed (R375). -/
structure BufExtent where
  part : Nat
  handle : Nat
  extent : Nat
  dirty : Bool
  /-- atomic group of the write that dirtied it (R380). -/
  group : Option Nat
  deriving DecidableEq, Repr

/-- One piece of a frame in flash: its block, and WRITE_SEQ, WRITE_TIME, WRITE_TEMP and GROUP_DELTA of its page tag (R368). -/
structure FlashPiece where
  block : Nat
  seq : Nat
  time : Nat
  temp : Int
  delta : Nat
  deriving DecidableEq, Repr

/-- The flash image of one extent: its bytes (non-zero cells by offset), RAW_LEN, FRAME_LEN, GROUP_PIECES (0: not ATOMIC) and the
pieces of its frame (R368, R372). -/
structure FlashImage where
  part : Nat
  handle : Nat
  extent : Nat
  cells : List Host.Cell
  rawLen : Nat
  frameLen : Nat
  groupPieces : Nat
  pieces : List FlashPiece
  deriving DecidableEq, Repr

structure FlashBlock where
  id : Nat
  /-- program/erase count (R389). -/
  pe : Nat
  /-- holds pieces, valid or trimmed; false once erased. -/
  written : Bool
  deriving DecidableEq, Repr

structure Deck where
  inService : Bool := false
  readOnly : Bool := false
  holdupLost : Bool := false
  formatted : Bool := true
  channels : Nat := 32
  luns : Nat := 16
  rawBytes : Nat := 131072000000000
  goodBytes : Nat := 131072000000000
  /-- CAPACITY (R374). -/
  capacity : Nat := 114688000000000
  buffer : List BufExtent := []
  images : List FlashImage := []
  /-- poisoned extents: partition, handle, extent (R384). -/
  poisoned : List (Nat × Nat × Nat) := []
  /-- journal records not flushed (R394). -/
  journal : Nat := 0
  /-- device time of the last journal flush. -/
  lastFlush : Nat := 0
  /-- journal records newer than the map checkpoint (R394). -/
  sinceCheckpoint : Nat := 0
  /-- LUNs, by channel and number, whose parameter page declares a temperature sensor of their own (R385). -/
  sensors : List (Nat × Nat) := []
  writeSeq : Nat := 0
  /-- Deck time, seconds (R385). -/
  deckTime : Nat := 0
  groups : Nat := 0
  blocks : List FlashBlock := []
  /-- blocks retired since format (R391). -/
  bad : List Nat := []
  suspends : Nat := 0
  /-- suspensions of the operation now on each LUN: (channel, lun, count) (R367). -/
  suspended : List (Nat × Nat × Nat) := []
  retryReads : Nat := 0
  softReads : Nat := 0
  uncorrectable : Nat := 0
  deferredCount : Nat := 0
  wearMoved : Nat := 0
  programmed : Nat := 0
  hostWritten : Nat := 0
  deriving DecidableEq, Repr

/-! ## Skidder -/

structure PUnit where
  id : Nat
  part : Nat
  kind : UnitKind
  cls : Nat
  loc : UnitLoc
  size : Nat
  heat : Nat
  copies : Nat
  addr : Nat
  /-- first stack of its stripe (R336). -/
  s0 : Nat
  holders : List Nat
  deriving DecidableEq, Repr

/-- A unit held for another owner, as ciphertext (R349). -/
structure PoolHeld where
  owner : Nat
  part : Nat
  key : Nat
  data : List Byte
  deriving DecidableEq, Repr

/-- A 2 MiB region of HBM in the owner table of its base die: the stack, its number there, the partition that owns it. Regions
that are listed nowhere are the device's or free (R507). -/
structure Region where
  die : Nat
  index : Nat
  owner : Nat
  deriving DecidableEq, Repr

structure Skidder where
  units : List PUnit := []
  nextUnit : Nat := 0
  held : List PoolHeld := []
  promotions : Nat := 0
  demotions : Nat := 0
  copyUps : Nat := 0
  kvEvicted : Nat := 0
  /-- device time of the last plan (R335). -/
  lastPlan : Nat := 0
  /-- HBM lines retired because they could not be read (R235). -/
  retiredLines : List Nat := []
  /-- the base dies' owner tables (R507). -/
  regions : List Region := []
  /-- regions granted so far: the model's counter for free values. -/
  regionDraws : Nat := 0
  deriving DecidableEq, Repr

/-! ## Scaler -/

structure ScalerEvent where
  seq : Nat
  kind : Nat
  startCount : Nat
  time : Nat
  energy : Nat
  detail : Nat
  deriving DecidableEq, Repr

/-- A composition, open or last closed (R541–R546). -/
structure Composition where
  id : Nat
  customer : List Byte
  /-- accumulator at the opening, µJ. -/
  startUj : Nat
  seconds : Nat
  cflags : Nat
  /-- energy at the close, mWh; running value while open is computed. -/
  closedMwh : Nat
  deriving DecidableEq, Repr

structure Scaler where
  /-- SCL3V3 above 3.05 V and the island started (R531, R597). -/
  on : Bool := true
  /-- the Scaler firmware verified (R532, R533). -/
  firmwareOk : Bool := true
  /-- the energy accumulator, µJ (R536). -/
  accUj : Nat := 0
  /-- µJ since the last pulse (R539). -/
  pulseUj : Nat := 0
  /-- POWER, units of 10 mW (R536). -/
  power : Nat := 0
  /-- SCALER_TIME, seconds (R538). -/
  time : Nat := 0
  startCount : Nat := 1
  rejected : Nat := 0
  eventCount : Nat := 0
  events : List ScalerEvent := []
  paramChanges : Nat := 0
  /-- the active parameter block, 512 bytes. -/
  params : List Byte
  /-- accepted block waiting for the decompose, with its AUDIT_SEQ (R552). -/
  pendingParams : Option (Nat × List Byte) := none
  /-- AUDIT_SEQ of the last block applied (R551). -/
  lastAudit : Nat := 0
  clockFault : Bool := false
  /-- seconds not counted since the fault. -/
  faultSeconds : Nat := 0
  adcFault : Bool := false
  mainPower : Bool := true
  /-- seconds since the input was lost. -/
  lostSeconds : Nat := 0
  openComp : Option Composition := none
  lastComp : Option Composition := none
  /-- the stored receipt: reading, NONCE, and signature, empty while unsigned (R543, R549). -/
  receipt : Option (List Byte × List Byte × List Byte) := none
  /-- signatures in the bucket, at most 96 (R549). -/
  bucket : Nat := 96
  leaf : Nat := 0
  leafEnd : Nat := 0
  /-- the accumulator as last written to Scaler's store (R546). -/
  storedUj : Nat := 0
  /-- reply that waits on Scaler's own sideband target (R534). -/
  sideReply : Option (List Byte) := none
  deriving DecidableEq, Repr

/-- Apportioned energy that is no partition's (R555). -/
structure Apportion where
  deviceShare : Nat := 0
  restarted : Bool := true
  /-- ENERGY_TOTAL at the last split; none until firmware has read it since the full reset. -/
  lastTotal : Option Nat := none
  deriving DecidableEq, Repr

/-! ## The whole state -/

structure State where
  /-- commands waiting, first in, first out. -/
  pending : List Instr
  /-- device time counter, µs (R36). -/
  time : Nat
  power : Power
  mbx : List Mailbox
  sessions : List Session
  nextSession : Nat
  /-- partition destinations 0–11. -/
  partEvents : List EventDest
  operatorEvents : EventDest
  sidebandEvents : EventDest
  /-- event or response now signalled on I3C (R82): the bytes a private read returns. -/
  i3cSignalled : Option (Bool × List Byte)
  /-- responses of mailbox 13 that wait to be signalled, oldest first (R82). -/
  i3cResponses : List (List Byte)
  log : List LogEntry
  logSeq : Nat
  jobs : List AsyncJob
  parts : List Part
  groves : List Grove
  runs : List CanopyRun
  nextRun : Nat
  pave : Pave
  choker : Choker
  fabric : Fabric
  landing : Landing
  channels : List Channel
  loupe : Loupe
  hallmark : Hallmark
  cruise : Cruise
  deck : Deck
  skidder : Skidder
  scaler : Scaler
  apportion : Apportion
  /-- bytes of SRAM, placed HBM scratch and host objects by local address (R38). -/
  mem : List Host.Cell
  /-- what the device has issued at its boundary, oldest first. -/
  issued : List Out
  /-- the model's own counter for free values. -/
  freeCount : Nat
  deriving DecidableEq, Repr

/-- No command or event of the FV960 stops the machine: a faulted or unpowered device ignores, or answers with a
status. The type has no constructor, so no step ends in a fault. -/
inductive Fault where
  deriving DecidableEq, Repr

/-- A refusal of the model. -/
inductive Refusal where
  /-- raised by an arm of `exec` whose command has no meaning yet; safe. No arm raises it. -/
  | notModelled (mnemonic : String)
  deriving DecidableEq, Repr

/-! ## Reset -/

/-- PARTITION_LAYOUT as shipped: every partition enabled, no ceilings (R524). -/
def shippedLayout : List Byte :=
  (List.replicate 12 [(0 : Byte), 0, 0, 1]).flatten ++ zeros 16

/-- `n` bytes of a text, zero-padded. -/
def padTo (n : Nat) (bs : List Byte) : List Byte := (List.range n).map (fun i => bs.getD i 0)

/-- The Scaler parameter block as shipped (R550): the values measured for the module are the module's own. -/
def shippedParams : List Byte :=
  le 2 1 ++ le 2 0 ++ (List.range 5).flatMap (fun i => le 4 (Config.calibration i).toNat) ++ le 4 0 ++ le 2 200 ++
    le 2 20 ++ padTo 16 Config.serial ++ padTo 16 Config.calRef ++ zeros 448

/-- A firmware slot as shipped (R498). -/
def shippedSlot (isB : Bool) : FwSlot :=
  let img := Config.shippedImage isB
  { image := img, version := Config.fwVersion img, security := Config.fwSecurity img }

/-- The tally items as shipped (R524). -/
def shippedItems : List TallyItem :=
  [{ budget := 32, remaining := 32, value := shippedParams },
   { budget := 64, remaining := 64, value := shippedLayout },
   { budget := 16, remaining := 16, value := [] },
   { budget := 255, remaining := 255, value := [0] },
   { budget := 64, remaining := 64, value := [0xFF] },
   { budget := 16, remaining := 16, value := [0, 0] }]

/-- The machine at the end of a full-reset entry, before reset release (R560), with the tally store as shipped (R524). -/
def State.reset : State where
  pending := []
  time := 0
  power := {}
  mbx := List.replicate 16 {}
  sessions := []
  nextSession := 0
  partEvents := List.replicate 12 {}
  operatorEvents := {}
  sidebandEvents := {}
  i3cSignalled := none
  i3cResponses := []
  log := []
  logSeq := 0
  jobs := []
  parts := List.replicate 12 {}
  groves := List.replicate 16 {}
  runs := []
  nextRun := 0
  pave := {}
  choker := {}
  fabric := {}
  landing := {}
  channels := List.replicate 32 {}
  loupe := {}
  hallmark := { items := shippedItems, slotA := shippedSlot false, slotB := shippedSlot true }
  cruise := {}
  deck := {}
  skidder := {}
  scaler := { params := shippedParams }
  apportion := {}
  mem := []
  issued := []
  freeCount := 0

end Sys2Proof.Machine
end

