-- ==== Sys2Proof/Machine/Flags.lean ====
section
/-! DEFINITION. Sys2Proof/Machine/Flags.lean: status codes (R107 and each chapter's table), opcodes (R106), event codes,
completion conditions (R95) and the interrupt summary (R465). -/
namespace Sys2Proof.Machine

namespace St
def ok : Nat := 0x0000
def okReduced : Nat := 0x0001
def okShort : Nat := 0x0002
def okFilterShort : Nat := 0x0003
def okTieAtK : Nat := 0x0004
def invalidOpcode : Nat := 0x0101
def invalidField : Nat := 0x0102
def invalidPartition : Nat := 0x0103
def invalidLength : Nat := 0x0104
def notPermitted : Nat := 0x0105
def invalidAddress : Nat := 0x0106
def hostAccessFailed : Nat := 0x0107
def noSuchCollection : Nat := 0x0110
def invalidRowId : Nat := 0x0111
def invalidValue : Nat := 0x0112
def wrongKind : Nat := 0x0113
def modelMismatch : Nat := 0x0120
def noSuchHandle : Nat := 0x0121
def imageInvalid : Nat := 0x0122
def textImageInvalid : Nat := 0x0123
def noSuchStream : Nat := 0x0130
def invalidToken : Nat := 0x0131
def templateInvalid : Nat := 0x0132
def queueLimit : Nat := 0x0201
def noMemory : Nat := 0x0202
def busy : Nat := 0x0203
def collectionLimit : Nat := 0x0210
def greenFull : Nat := 0x0211
def modelLimit : Nat := 0x0212
def streamLimit : Nat := 0x0213
def textLimit : Nat := 0x0214
def bufferTooSmall : Nat := 0x0215
def promptTooLong : Nat := 0x0216
def flashFull : Nat := 0x0220
def signLimit : Nat := 0x0230
def notReady : Nat := 0x0301
def wrongState : Nat := 0x0302
def cancelled : Nat := 0x0303
def queueDeleted : Nat := 0x0304
def keysNotLoaded : Nat := 0x0305
def rowExists : Nat := 0x0311
def collectionExists : Nat := 0x0312
def epochExhausted : Nat := 0x0313
def rangeUnreachable : Nat := 0x0314
def shardUnavailable : Nat := 0x0320
def handleExists : Nat := 0x0322
def streamExists : Nat := 0x0330
def streamHalted : Nat := 0x0331
def qpExists : Nat := 0x0340
def alreadyComposed : Nat := 0x0350
def notComposed : Nat := 0x0351
def compositionUsed : Nat := 0x0352
def meterFault : Nat := 0x0353
def policed : Nat := 0x0401
def deferredWriteError : Nat := 0x0501
def uncorrectable : Nat := 0x0502
def rowSkipped : Nat := 0x0503
def flashReadOnly : Nat := 0x0504
def grammarDeadEnd : Nat := 0x0601
def tokenNotAllowed : Nat := 0x0602
def maskMismatch : Nat := 0x0603
def tallyExhausted : Nat := 0x0701
def keyMismatch : Nat := 0x0702
def keyUnwrapFailed : Nat := 0x0703
def fwRejected : Nat := 0x0704
def shardReissued : Nat := 0x0801
def peerLost : Nat := 0x0802
def transportTimeout : Nat := 0x0803
def receiverNotReady : Nat := 0x0804
def remoteAccess : Nat := 0x0805
def messageTooLong : Nat := 0x0806
def qpError : Nat := 0x0807
def noRemoteQp : Nat := 0x0808
def waitAbandoned : Nat := 0x0809
def needsFullReset : Nat := 0x0F01
end St

namespace Op
def devIdentify : Nat := 0x0101
def devStatus : Nat := 0x0102
def devFullReset : Nat := 0x0103
def devSetPower : Nat := 0x0104
def devCruise : Nat := 0x0105
def devLogRead : Nat := 0x0106
def partCreate : Nat := 0x0201
def partRelease : Nat := 0x0202
def partQueueCreate : Nat := 0x0203
def partQueueDelete : Nat := 0x0204
def partKeyLoad : Nat := 0x0205
def collCreate : Nat := 0x0301
def collDrop : Nat := 0x0302
def collConfig : Nat := 0x0303
def collStats : Nat := 0x0304
def collSeason : Nat := 0x0305
def collAudit : Nat := 0x0306
def rowInsert : Nat := 0x0401
def rowUpsert : Nat := 0x0402
def rowDelete : Nat := 0x0403
def rowAdd : Nat := 0x0404
def rowAddMerged : Nat := 0x0405
def ingestCommit : Nat := 0x0406
def rowRead : Nat := 0x0407
def qrySearch : Nat := 0x0501
def qryRetrieve : Nat := 0x0502
def qryRerank : Nat := 0x0503
def qryAttend : Nat := 0x0504
def qryCancel : Nat := 0x0505
def mdlLoad : Nat := 0x0601
def mdlUnload : Nat := 0x0602
def mdlRun : Nat := 0x0603
def mdlCalibrate : Nat := 0x0604
def txtTokenize : Nat := 0x0701
def txtDetok : Nat := 0x0702
def grmLoad : Nat := 0x0703
def grmStep : Nat := 0x0704
def promptPack : Nat := 0x0705
def vocabLoad : Nat := 0x0706
def fabPortConfig : Nat := 0x0801
def fabQpCreate : Nat := 0x0802
def fabShaperSet : Nat := 0x0803
def fabPolicerSet : Nat := 0x0804
def fabStats : Nat := 0x0805
def mtrRead : Nat := 0x0901
def mtrCompose : Nat := 0x0902
def mtrDecompose : Nat := 0x0903
def mtrEvents : Nat := 0x0904
def secAttest : Nat := 0x0A01
def secFwUpdate : Nat := 0x0A02
def secTallyRead : Nat := 0x0A03
def secTallyChange : Nat := 0x0A04
def secAuditRead : Nat := 0x0A05
def dbgTrace : Nat := 0x0B01
def dbgCounters : Nat := 0x0B02
def dbgLoupe : Nat := 0x0B03
def segWrite : Nat := 0x0C01
def segRead : Nat := 0x0C02
def segTrim : Nat := 0x0C03
def segFlush : Nat := 0x0C04
end Op

/-- Where an opcode is accepted (R106): carried on a mailbox or on a queue, and the sources P, O, S, M, D. -/
structure Carried where
  queue : Bool
  p : Bool := false
  o : Bool := false
  s : Bool := false
  m : Bool := false
  d : Bool := false
  deriving DecidableEq, Repr

/-- The table of R106; none where the opcode is not defined. -/
def carried (op : Nat) : Option Carried :=
  if op = 0x0101 ∨ op = 0x0102 then some { queue := false, p := true, o := true, s := true, d := true }
  else if op = 0x0103 ∨ op = 0x0104 then some { queue := false, o := true, s := true }
  else if op = 0x0105 then some { queue := false, o := true }
  else if op = 0x0106 then some { queue := false, o := true, d := true }
  else if op = 0x0201 ∨ op = 0x0202 then some { queue := false, o := true }
  else if 0x0203 ≤ op ∧ op ≤ 0x0205 then some { queue := false, p := true }
  else if 0x0301 ≤ op ∧ op ≤ 0x0306 then some { queue := false, p := true }
  else if 0x0401 ≤ op ∧ op ≤ 0x0407 then some { queue := true, p := true }
  else if 0x0501 ≤ op ∧ op ≤ 0x0505 then some { queue := true, p := true }
  else if op = 0x0603 then some { queue := true, p := true }
  else if 0x0601 ≤ op ∧ op ≤ 0x0604 then some { queue := false, p := true }
  else if op = 0x0703 ∨ op = 0x0706 then some { queue := false, p := true }
  else if 0x0701 ≤ op ∧ op ≤ 0x0705 then some { queue := true, p := true }
  else if op = 0x0801 ∨ op = 0x0803 ∨ op = 0x0804 then some { queue := false, o := true }
  else if op = 0x0802 then some { queue := false, p := true }
  else if op = 0x0805 then some { queue := false, p := true, o := true }
  else if 0x0901 ≤ op ∧ op ≤ 0x0904 then some { queue := false, m := true }
  else if op = 0x0A01 then some { queue := false, p := true, o := true, s := true }
  else if op = 0x0A03 then some { queue := false, o := true, s := true }
  else if op = 0x0A02 ∨ op = 0x0A04 ∨ op = 0x0A05 then some { queue := false, o := true }
  else if 0x0B01 ≤ op ∧ op ≤ 0x0B03 then some { queue := false, d := true }
  else if 0x0C01 ≤ op ∧ op ≤ 0x0C04 then some { queue := true, p := true }
  else none

/-- The source of a mailbox (R106). -/
def Carried.fromMailbox (c : Carried) (m : Nat) : Bool :=
  if m < 12 then c.p else if m = 12 then c.o else if m = 13 then c.s else if m = 14 then c.m else c.d

/-- Commands that run while the state of R103 holds. -/
def runsAtNeedsReset (op : Nat) : Bool :=
  op = Op.devIdentify ∨ op = Op.devStatus ∨ op = Op.devLogRead ∨ op = Op.devFullReset ∨ op / 256 = 0x0B

/-- Commands that run at SERVICE_LEVEL 0 (R565). -/
def runsAtLevel0 (op : Nat) : Bool :=
  op = Op.devIdentify ∨ op = Op.devStatus ∨ op = Op.devLogRead ∨ op = Op.devFullReset ∨ op = Op.secAttest ∨
    op = Op.secFwUpdate ∨ op = Op.secTallyRead ∨ op = Op.secAuditRead ∨ op = Op.fabPortConfig ∨ op / 256 = 0x09 ∨
    op / 256 = 0x0B

/-- Commands that complete with NOT_READY at SERVICE_LEVEL 1 whatever their operands (R565). -/
def refusedAtLevel1 (op : Nat) : Bool :=
  op = Op.qryRerank ∨ op = Op.collAudit ∨ op = Op.collSeason ∨ op / 256 = 0x0C

/-- Mailbox commands a partition in KEYS_PENDING accepts (R99). -/
def runsAtKeysPending (op : Nat) : Bool :=
  op = Op.devIdentify ∨ op = Op.devStatus ∨ op = Op.secAttest ∨ op = Op.partKeyLoad ∨ op = Op.partQueueCreate ∨
    op = Op.partQueueDelete

/-- QRY commands, which queue deletion, FLR and COLL_DROP cancel (R87, R102, R122). -/
def isQry (op : Nat) : Bool := 0x0501 ≤ op ∧ op ≤ 0x0505

/-! ## Completion conditions (R95) -/

def condReduced : Nat := 1
def condShort : Nat := 2
def condFilterShort : Nat := 4
def condTie : Nat := 8
def condSkipped : Nat := 16
def condReissued : Nat := 32

/-- STATUS of a command that delivered its result: that of the highest condition bit set (R95). -/
def statusOfConditions (c : Nat) : Nat :=
  if c.testBit 5 then St.shardReissued
  else if c.testBit 4 then St.rowSkipped
  else if c.testBit 3 then St.okTieAtK
  else if c.testBit 2 then St.okFilterShort
  else if c.testBit 1 then St.okShort
  else if c.testBit 0 then St.okReduced
  else St.ok

/-! ## The interrupt summary (R465) -/

def summary (s : State) : Nat :=
  (if s.landing.intStatus &&& s.landing.intEnable = 0 then 0 else 1) +
  (if s.pave.intStatus &&& s.pave.intEnable = 0 then 0 else 2) +
  (if s.choker.intStatus &&& s.choker.intEnable = 0 then 0 else 4) +
  (if s.cruise.intStatus &&& s.cruise.intEnable = 0 then 0 else 8) +
  (if s.loupe.intStatus &&& s.loupe.intEnable = 0 then 0 else 16)

/-- ALERT_N is asserted (R606). -/
def alert (s : State) : Bool :=
  s.power.fwFault || s.power.needsReset || decide (95 ≤ s.power.hottest) || s.power.thermtrip

/-- A device in reduced service (R565). -/
def reducedService (s : State) : Bool := s.power.level = 1

/-- SERVICE_LEVEL as RGR_MBX_STATUS reports it: 3 while the state of R103 holds. -/
def serviceLevel (s : State) : Nat := if s.power.needsReset then 3 else s.power.level

def powerCode : PowerState → Nat
  | .active => 0 | .idle => 1 | .shardHold => 2 | .d3hot => 3

def partCode : PartState → Nat
  | .free => 0 | .keysPending => 1 | .active => 2 | .releasing => 3

end Sys2Proof.Machine
end

