-- ==== Sys2Proof/Machine/Fp.lean ====
section
/-! DEFINITION. Sys2Proof/Machine/Fp.lean: the floating-point arithmetic the spec names (fp32, bfloat16, fp16, fp64), bit
exact: every operation computes the exact value and rounds once (R123, R217, R252). NaN results are the quiet pattern
0x7FC00000 (log entry 4). -/
namespace Sys2Proof.Machine

/-- A binary format: fraction bits and exponent bits. -/
structure Fmt where
  mb : Nat
  eb : Nat
  deriving DecidableEq, Repr

def fmt32 : Fmt := ⟨23, 8⟩
def fmt16 : Fmt := ⟨10, 5⟩
def fmtB16 : Fmt := ⟨7, 8⟩
def fmt64 : Fmt := ⟨52, 11⟩

/-- Exponent of the format's smallest normal value. -/
def Fmt.emin (f : Fmt) : Int := 2 - (2 : Int) ^ (f.eb - 1)
/-- The pattern of +∞ without its sign. -/
def Fmt.inf (f : Fmt) : Nat := (2 ^ f.eb - 1) * 2 ^ f.mb

/-- A decoded value: the magnitude is `m · 2^e`. -/
inductive Val where
  | nan
  | inf (neg : Bool)
  | fin (neg : Bool) (m : Nat) (e : Int)
  deriving DecidableEq, Repr

def Fmt.decode (f : Fmt) (bits : Nat) : Val :=
  let frac := bits % 2 ^ f.mb
  let ex := bits / 2 ^ f.mb % 2 ^ f.eb
  let neg := bits / 2 ^ (f.mb + f.eb) % 2 = 1
  if ex = 2 ^ f.eb - 1 then (if frac = 0 then .inf neg else .nan)
  else if ex = 0 then .fin neg frac (f.emin - f.mb)
  else .fin neg (2 ^ f.mb + frac) (f.emin - f.mb + (ex - 1 : Int))

/-- Rounding of a magnitude: to nearest even, or up (away from zero). -/
inductive Rnd where
  | even | up | down
  deriving DecidableEq, Repr

/-- `m / 2^k` rounded; `sticky` says that the exact magnitude lies a little above `m`. -/
def roundShift (r : Rnd) (m k : Nat) (sticky : Bool) : Nat :=
  let q := m / 2 ^ k
  let rem := m % 2 ^ k
  match r with
  | .down => q
  | .up => if rem ≠ 0 ∨ sticky then q + 1 else q
  | .even =>
    if k = 0 then q
    else if rem > 2 ^ (k - 1) then q + 1
    else if rem = 2 ^ (k - 1) then (if sticky ∨ q % 2 = 1 then q + 1 else q)
    else q

/-- The magnitude pattern of `m · 2^e` in format `f`, as if its exponents had no end. -/
def Fmt.patternOf (f : Fmt) (r : Rnd) (m : Nat) (e : Int) (sticky : Bool) : Nat :=
  if m = 0 then 0
  else
    let top := e + (Nat.log2 m : Int)
    let q := max top f.emin - f.mb
    let sh := q - e
    let n := if sh ≤ 0 then m * 2 ^ (-sh).toNat else roundShift r m sh.toNat sticky
    (q - (f.emin - f.mb)).toNat * 2 ^ f.mb + n

/-- The magnitude pattern of `m · 2^e` in format `f`: infinity beyond the largest finite value. -/
def Fmt.encodeMag (f : Fmt) (r : Rnd) (m : Nat) (e : Int) (sticky : Bool) : Nat := min (f.patternOf r m e sticky) f.inf

def Fmt.sign (f : Fmt) (neg : Bool) : Nat := if neg then 2 ^ (f.mb + f.eb) else 0
def Fmt.nan (f : Fmt) : Nat := f.inf + 2 ^ (f.mb - 1)

/-- Encode a value, rounding to nearest even. -/
def Fmt.encode (f : Fmt) : Val → Nat
  | .nan => f.nan
  | .inf neg => f.sign neg + f.inf
  | .fin neg m e => f.sign neg + f.encodeMag .even m e false

/-! ## Exact signed arithmetic on decoded values -/

/-- The signed integer `m` scaled to exponent `e0 ≤ e`. -/
def scaled (neg : Bool) (m : Nat) (e e0 : Int) : Int :=
  let v : Int := (m : Int) * 2 ^ (e - e0).toNat
  if neg then -v else v

def addVal : Val → Val → Val
  | .nan, _ => .nan
  | _, .nan => .nan
  | .inf a, .inf b => if a = b then .inf a else .nan
  | .inf a, _ => .inf a
  | _, .inf b => .inf b
  | .fin na ma ea, .fin nb mb eb =>
    let e0 := min ea eb
    let s := scaled na ma ea e0 + scaled nb mb eb e0
    if s = 0 then .fin (na && nb) 0 e0 else .fin (s < 0) s.natAbs e0

def negVal : Val → Val
  | .nan => .nan
  | .inf a => .inf (!a)
  | .fin n m e => .fin (!n) m e

def mulVal : Val → Val → Val
  | .nan, _ => .nan
  | _, .nan => .nan
  | .inf a, .inf b => .inf (a != b)
  | .inf a, .fin b m _ => if m = 0 then .nan else .inf (a != b)
  | .fin a m _, .inf b => if m = 0 then .nan else .inf (a != b)
  | .fin na ma ea, .fin nb mb eb => .fin (na != nb) (ma * mb) (ea + eb)

/-- Division in format `f`. -/
def Fmt.div (f : Fmt) (a b : Val) : Nat :=
  match a, b with
  | .nan, _ => f.nan
  | _, .nan => f.nan
  | .inf _, .inf _ => f.nan
  | .inf x, .fin y _ _ => f.sign (x != y) + f.inf
  | .fin x _ _, .inf y => f.sign (x != y)
  | .fin na ma ea, .fin nb mb eb =>
    if mb = 0 then (if ma = 0 then f.nan else f.sign (na != nb) + f.inf)
    else
      let k := Nat.log2 mb + f.mb + 4
      let n := ma * 2 ^ k
      f.sign (na != nb) + f.encodeMag .even (n / mb) (ea - eb - k) (n % mb ≠ 0)

/-- Integer square root, from bit `k` down. -/
def isqrtFrom (n : Nat) : Nat → Nat → Nat
  | 0, r => r
  | k + 1, r => let c := r + 2 ^ k; isqrtFrom n k (if c * c ≤ n then c else r)

def isqrt (n : Nat) : Nat := isqrtFrom n (Nat.log2 n / 2 + 1) 0

/-- Square root, correctly rounded (R124). -/
def Fmt.sqrt (f : Fmt) (a : Val) : Nat :=
  match a with
  | .nan => f.nan
  | .inf neg => if neg then f.nan else f.inf
  | .fin neg m e =>
    if m = 0 then f.sign neg
    else if neg then f.nan
    else
      let k : Nat := 2 * (f.mb + 4) + (if (e % 2) = 0 then 0 else 1)
      let n := m * 2 ^ k
      let r := isqrt n
      f.encodeMag .even r ((e - k) / 2) (r * r ≠ n)

/-! ## fp32 -/

namespace F

def dec (x : F32) : Val := fmt32.decode x.toNat
def enc (v : Val) : F32 := BitVec.ofNat 32 (fmt32.encode v)
def add (x y : F32) : F32 := enc (addVal (dec x) (dec y))
def neg (x : F32) : F32 := x ^^^ 0x80000000
def sub (x y : F32) : F32 := enc (addVal (dec x) (negVal (dec y)))
def mul (x y : F32) : F32 := enc (mulVal (dec x) (dec y))
def div (x y : F32) : F32 := BitVec.ofNat 32 (fmt32.div (dec x) (dec y))
def sqrt (x : F32) : F32 := BitVec.ofNat 32 (fmt32.sqrt (dec x))
def zero : F32 := 0
def one : F32 := 0x3F800000
def negInf : F32 := 0xFF800000
def posInf : F32 := 0x7F800000
/-- 2^−14 and 2^−24, the floors of R126 and R272. -/
def two14 : F32 := 0x38800000
def two24 : F32 := 0x33800000

def isNan (x : F32) : Bool := decide (dec x = .nan)
/-- neither NaN nor infinite. -/
def finite (x : F32) : Bool :=
  match dec x with | .fin _ _ _ => true | _ => false
def abs (x : F32) : F32 := x &&& 0x7FFFFFFF
def isZero (x : F32) : Bool := abs x == 0

/-- Exact integer to fp32. -/
def ofInt (n : Int) : F32 := enc (.fin (n < 0) n.natAbs 0)
def ofNat (n : Nat) : F32 := ofInt n

/-- Order of non-NaN values as an integer key. -/
def key (x : F32) : Int :=
  if x &&& 0x80000000 = 0 then (x.toNat : Int) else -((x &&& 0x7FFFFFFF).toNat : Int)

/-- x < y; false when either is NaN. -/
def lt (x y : F32) : Bool := !isNan x && !isNan y && decide (key x < key y)
def max (x y : F32) : F32 := if lt x y then y else x
def min (x y : F32) : F32 := if lt y x then y else x

/-- Round half to even to an integer; an infinite or NaN value gives none (R618). -/
def roundInt (x : F32) : Option Int :=
  match dec x with
  | .fin neg m e =>
    let a : Nat := if e ≥ 0 then m * 2 ^ e.toNat else roundShift .even m (-e).toNat false
    some (if neg then -(a : Int) else a)
  | _ => none

def floorInt (x : F32) : Option Int :=
  match dec x with
  | .fin neg m e =>
    if e ≥ 0 then some (if neg then -((m * 2 ^ e.toNat : Nat) : Int) else ((m * 2 ^ e.toNat : Nat) : Int))
    else
      let a : Nat := m / 2 ^ (-e).toNat
      let exact := m % 2 ^ (-e).toNat == 0
      some (if neg then (if exact then -(a : Int) else -(a : Int) - 1) else a)
  | _ => none

def ceilInt (x : F32) : Option Int := (floorInt (neg x)).map (fun v => -v)

/-- An integer function of a value that may be infinite, clamped to [lo, hi]: an infinity gives the bound on its
side (R618). -/
def clampOpt (v : Option Int) (x : F32) (lo hi : Int) : Int :=
  match v with
  | some n => Max.max lo (Min.min n hi)
  | none => if x &&& 0x80000000 = 0 then hi else lo

end F

/-! ## bfloat16 and fp16 -/

/-- bfloat16 to fp32, exact. -/
def bfTo32 (b : B16) : F32 := (b.setWidth 32) <<< 16

/-- fp32 to bfloat16, to nearest even; beyond the largest finite value, that value with its sign (R128). -/
def bfOf32 (x : F32) : B16 :=
  let bits := fmtB16.encode (F.dec x)
  let mag := bits % 2 ^ 15
  match F.dec x with
  | .nan => BitVec.ofNat 16 bits
  | _ => BitVec.ofNat 16 (bits - mag + Min.min mag 0x7F7F)

/-- The value lies beyond the largest finite bfloat16 value, before any rounding: a clamp under R152. -/
def bfClamps (x : F32) : Bool :=
  match F.dec x with
  | .nan => false
  | _ => decide (0x7F7F0000 < x.toNat % 2 ^ 31)

/-- fp16 to fp32, exact. -/
def hTo32 (h : H16) : F32 := F.enc (fmt16.decode h.toNat)

/-- fp16_up of R126: toward +∞, at most 65,504. -/
def fp16Up (x : F32) : H16 :=
  match F.dec x with
  | .fin neg m e => BitVec.ofNat 16 (fmt16.sign neg + Min.min (fmt16.encodeMag (if neg then .down else .up) m e false) 0x7BFF)
  | _ => 0x7BFF

/-- A component of INPUT_TYPE (0 fp32, 1 BF16) given by its raw bits. -/
def ofRaw (inputType raw : Nat) : F32 :=
  if inputType = 1 then bfTo32 (BitVec.ofNat 16 raw) else BitVec.ofNat 32 raw

/-! ## The exponential of R223

`expDown` is e^x rounded down to fp32, from a fixed-point enclosure with 160 fraction bits; the device's exponential
lies within 2 units in the last place of the exact value, so it is one of the four neighbours that `expUlp`
chooses (Config.expUlp, a free value). -/

/-- Σ_{i ≤ n} r^i / i! in fixed point with `p` fraction bits, by Horner's rule from the term `n` down. -/
def expHorner (p : Nat) (r : Int) : Nat → Int → Int
  | 0, acc => acc
  | n + 1, acc => expHorner p r n (2 ^ p + r * acc / (2 ^ p * ((n : Int) + 1)))

/-- `v ^ (2^k)` in fixed point with `p` fraction bits. -/
def squareTimes (p : Nat) : Nat → Int → Int
  | 0, v => v
  | k + 1, v => squareTimes p k (v * v / 2 ^ p)

/-- e^x rounded down, as an fp32 pattern. -/
def expDown (x : F32) : F32 :=
  match F.dec x with
  | .nan => BitVec.ofNat 32 fmt32.nan
  | .inf neg => if neg then 0 else F.posInf
  | .fin neg m e =>
    if m = 0 then F.one
    else if ¬ neg ∧ (m : Int) * 2 ^ (e + 40).toNat > 89 * 2 ^ (40 : Nat) then F.posInf
    else if neg ∧ (m : Int) * 2 ^ (e + 40).toNat > 104 * 2 ^ (40 : Nat) then 0
    else
      let p : Nat := 320
      let k : Nat := 10
      -- x / 2^k in fixed point, rounded down
      let xi : Int := (if neg then -(m : Int) else m) * 2 ^ (e + (p : Int) - k + 200).toNat / 2 ^ 200
      let v := squareTimes p k (expHorner p xi 40 (2 ^ p))
      BitVec.ofNat 32 (fmt32.encodeMag .down v.toNat (-(p : Int)) true)

end Sys2Proof.Machine
end

