-- ==== Sys2Proof/Machine/Sha.lean ====
section
/-! DEFINITION. Sys2Proof/Machine/Sha.lean: SHA-256, SHA-384, HMAC and HKDF, which the spec names by their standards and
uses in R123, R276, R503, R504, R509, R515, R530, and CRC-32C of R347. Their definitions come from the standards (log entry 5). -/
namespace Sys2Proof.Machine

/-- What a member of the SHA-2 family fixes: the bits of a word, its rounds, their constants and the initial hash value, eight words to a
number, the first in the highest bits; and the turns and shifts of its schedule and of its rounds. A block has 16 words. -/
structure ShaForm where
  width : Nat
  rounds : Nat
  constants : List Nat
  start : Nat
  far : List Nat × Nat
  near : List Nat × Nat
  turnE : List Nat
  turnA : List Nat

/-- SHA-256. -/
def form256 : ShaForm where
  width := 32
  rounds := 64
  constants := [
    0x428a2f9871374491b5c0fbcfe9b5dba53956c25b59f111f1923f82a4ab1c5ed5,
    0xd807aa9812835b01243185be550c7dc372be5d7480deb1fe9bdc06a7c19bf174,
    0xe49b69c1efbe47860fc19dc6240ca1cc2de92c6f4a7484aa5cb0a9dc76f988da,
    0x983e5152a831c66db00327c8bf597fc7c6e00bf3d5a7914706ca635114292967,
    0x27b70a852e1b21384d2c6dfc53380d13650a7354766a0abb81c2c92e92722c85,
    0xa2bfe8a1a81a664bc24b8b70c76c51a3d192e819d6990624f40e3585106aa070,
    0x19a4c1161e376c082748774c34b0bcb5391c0cb34ed8aa4a5b9cca4f682e6ff3,
    0x748f82ee78a5636f84c878148cc7020890befffaa4506cebbef9a3f7c67178f2]
  start := 0x6a09e667bb67ae853c6ef372a54ff53a510e527f9b05688c1f83d9ab5be0cd19
  far := ([7, 18], 3)
  near := ([17, 19], 10)
  turnE := [6, 11, 25]
  turnA := [2, 13, 22]

/-- SHA-384. -/
def form384 : ShaForm where
  width := 64
  rounds := 80
  constants := [
    0x428a2f98d728ae227137449123ef65cdb5c0fbcfec4d3b2fe9b5dba58189dbbc3956c25bf348b53859f111f1b605d019923f82a4af194f9bab1c5ed5da6d8118,
    0xd807aa98a303024212835b0145706fbe243185be4ee4b28c550c7dc3d5ffb4e272be5d74f27b896f80deb1fe3b1696b19bdc06a725c71235c19bf174cf692694,
    0xe49b69c19ef14ad2efbe4786384f25e30fc19dc68b8cd5b5240ca1cc77ac9c652de92c6f592b02754a7484aa6ea6e4835cb0a9dcbd41fbd476f988da831153b5,
    0x983e5152ee66dfaba831c66d2db43210b00327c898fb213fbf597fc7beef0ee4c6e00bf33da88fc2d5a79147930aa72506ca6351e003826f142929670a0e6e70,
    0x27b70a8546d22ffc2e1b21385c26c9264d2c6dfc5ac42aed53380d139d95b3df650a73548baf63de766a0abb3c77b2a881c2c92e47edaee692722c851482353b,
    0xa2bfe8a14cf10364a81a664bbc423001c24b8b70d0f89791c76c51a30654be30d192e819d6ef5218d69906245565a910f40e35855771202a106aa07032bbd1b8,
    0x19a4c116b8d2d0c81e376c085141ab532748774cdf8eeb9934b0bcb5e19b48a8391c0cb3c5c95a634ed8aa4ae3418acb5b9cca4f7763e373682e6ff3d6b2b8a3,
    0x748f82ee5defb2fc78a5636f43172f6084c87814a1f0ab728cc702081a6439ec90befffa23631e28a4506cebde82bde9bef9a3f7b2c67915c67178f2e372532b,
    0xca273eceea26619cd186b8c721c0c207eada7dd6cde0eb1ef57d4f7fee6ed17806f067aa72176fba0a637dc5a2c898a6113f9804bef90dae1b710b35131c471b,
    0x28db77f523047d8432caab7b40c724933c9ebe0a15c9bebc431d67c49c100d4c4cc5d4becb3e42b6597f299cfc657e2a5fcb6fab3ad6faec6c44198c4a475817]
  start :=
    0xcbbb9d5dc1059ed8629a292a367cd5079159015a3070dd17152fecd8f70e593967332667ffc00b318eb44a8768581511db0c2e0d64f98fa747b5481dbefa4fa4
  far := ([1, 8], 7)
  near := ([19, 61], 6)
  turnE := [14, 18, 41]
  turnA := [28, 34, 39]

/-- Bytes of a word and of a block. -/
def ShaForm.word (f : ShaForm) : Nat := f.width / 8
def ShaForm.block (f : ShaForm) : Nat := 16 * f.word

/-- The constant of round `i`. -/
def ShaForm.constant (f : ShaForm) (i : Nat) : BitVec f.width :=
  BitVec.ofNat f.width (f.constants.getD (i / 8) 0 >>> (f.width * (7 - i % 8)))

/-- The initial hash value. -/
def ShaForm.initial (f : ShaForm) : List (BitVec f.width) :=
  (List.range 8).map (fun i => BitVec.ofNat f.width (f.start >>> (f.width * (7 - i))))

/-- The exclusive or of a word turned right by each of `rs`. -/
def turned (rs : List Nat) {w : Nat} (x : BitVec w) : BitVec w := rs.foldl (fun acc r => acc ^^^ x.rotateRight r) 0

/-- A word of the schedule mixed into one far ahead. -/
def mixed (m : List Nat × Nat) {w : Nat} (x : BitVec w) : BitVec w := turned m.1 x ^^^ x >>> m.2

/-- A block's words, the last one first: the schedule grows at its head. -/
def ShaForm.load (f : ShaForm) (blk : List Byte) : List (BitVec f.width) :=
  (List.range 16).foldl (fun ws i => BitVec.ofNat f.width (unle ((blk.drop (f.word * i)).take f.word).reverse) :: ws) []

/-- The schedule with its next word in front, from the words 2, 7, 15 and 16 places back. -/
def ShaForm.grow (f : ShaForm) (ws : List (BitVec f.width)) : List (BitVec f.width) :=
  (ws.getD 15 0 + mixed f.far (ws.getD 14 0) + ws.getD 6 0 + mixed f.near (ws.getD 1 0)) :: ws

/-- Round `i` on the working words `a` to `h`. -/
def ShaForm.turn (f : ShaForm) (v : List (BitVec f.width)) (i : Nat) (w : BitVec f.width) : List (BitVec f.width) :=
  match v with
  | [a, b, c, d, e, x, g, h] =>
    let picked := g ^^^ (e &&& (x ^^^ g))
    let agreed := (a &&& b) ||| (c &&& (a ||| b))
    let moved := h + turned f.turnE e + picked + f.constant i + w
    [moved + turned f.turnA a + agreed, a, b, c, d + moved, e, x, g]
  | _ => v

/-- One block into the hash value. -/
def ShaForm.absorb (f : ShaForm) (v : List (BitVec f.width)) (blk : List Byte) : List (BitVec f.width) :=
  let ws := (List.range (f.rounds - 16)).foldl (fun ws _ => f.grow ws) (f.load blk)
  let r := (List.range f.rounds).foldl (fun acc i => f.turn acc i (ws.getD (f.rounds - 1 - i) 0)) v
  List.zipWith (· + ·) v r

def ShaForm.stream (f : ShaForm) : Nat → List Byte → List (BitVec f.width) → List (BitVec f.width)
  | 0, _, v => v
  | n + 1, bs, v => f.stream n (bs.drop f.block) (f.absorb v (bs.take f.block))

/-- The hash value of a message: the message, the bit 1, zeros, and its bit length in the last two words of a block, big-endian. -/
def ShaForm.hash (f : ShaForm) (msg : List Byte) : List Byte :=
  let m := msg ++ [0x80] ++ zeros ((2 * f.block - 1 - 2 * f.word - msg.length % f.block) % f.block) ++
    (le (2 * f.word) (8 * msg.length)).reverse
  (f.stream (m.length / f.block) m f.initial).flatMap (fun w => (le f.word w.toNat).reverse)

/-- SHA-256 of a message, and SHA-384, the first 48 bytes of its form's hash value. -/
def sha256 (msg : List Byte) : List Byte := form256.hash msg
def sha384 (msg : List Byte) : List Byte := (form384.hash msg).take 48

/-- HMAC under a hash of blocks of `n` bytes. -/
def hmacOf (hash : List Byte → List Byte) (n : Nat) (key msg : List Byte) : List Byte :=
  let k0 := if key.length > n then hash key else key
  let k := k0 ++ zeros (n - k0.length)
  hash (k.map (· ^^^ 0x5C) ++ hash (k.map (· ^^^ 0x36) ++ msg))

def hmac (key msg : List Byte) : List Byte := hmacOf sha256 64 key msg
def hmac384 (key msg : List Byte) : List Byte := hmacOf sha384 128 key msg

/-- The output blocks of HKDF's second step under an HMAC. -/
def hkdfBlocks (mac : List Byte → List Byte → List Byte) (prk info : List Byte) : Nat → Nat → List Byte → List Byte
  | 0, _, _ => []
  | n + 1, i, prev =>
    let t := mac prk (prev ++ info ++ [BitVec.ofNat 8 i])
    t ++ hkdfBlocks mac prk info n (i + 1) t

/-- HKDF (RFC 5869) with SHA-256, and with SHA-384. -/
def hkdfExtract (salt ikm : List Byte) : List Byte := hmac salt ikm
def hkdfExpand (prk info : List Byte) (len : Nat) : List Byte := (hkdfBlocks hmac prk info ((len + 31) / 32) 1 []).take len
def hkdfExtract384 (salt ikm : List Byte) : List Byte := hmac384 salt ikm
def hkdfExpand384 (prk info : List Byte) (len : Nat) : List Byte := (hkdfBlocks hmac384 prk info ((len + 47) / 48) 1 []).take len

/-- The ASCII bytes of a quoted string (R503). -/
def ascii (s : String) : List Byte := s.toList.map (fun c => BitVec.ofNat 8 c.toNat)

def crcBits : Nat → BitVec 32 → BitVec 32
  | 0, c => c
  | n + 1, c => crcBits n (if c &&& 1 = 1 then (c >>> 1) ^^^ 0x82F63B78 else c >>> 1)

/-- CRC-32C (R347). -/
def crc32c (bs : List Byte) : BitVec 32 :=
  ~~~(bs.foldl (fun c b => crcBits 8 (c ^^^ b.setWidth 32)) 0xFFFFFFFF)

end Sys2Proof.Machine
end

