-- ==== Sys2Proof/Machine/Ops.lean ====
section
/-! DEFINITION. Sys2Proof/Machine/Ops.lean: the named operations over the state that every command's meaning is made of:
memory, partitions, the host boundary, events, the device log, Loupe records, completions and interrupts. -/
namespace Sys2Proof.Machine

/-- The outcome of a command. -/
abbrev Result := Host.Outcome State Fault Refusal

/-! ## Memory: sparse bytes in canonical form -/

/-- What the memory holds at `a`: 0 where no cell is listed (R340, R341; log entry 6). -/
def cellsRead : List Host.Cell → Nat → Byte
  | [], _ => 0
  | (x, b) :: r, a => if x = a then b else cellsRead r a

/-- Write one byte, keeping the cells in rising order with no zero listed. -/
def cellsWrite : List Host.Cell → Nat → Byte → List Host.Cell
  | [], a, v => if v = 0 then [] else [(a, v)]
  | (x, b) :: r, a, v =>
    if a < x then (if v = 0 then (x, b) :: r else (a, v) :: (x, b) :: r)
    else if a = x then (if v = 0 then r else (a, v) :: r)
    else (x, b) :: cellsWrite r a v

/-- Write bytes at consecutive addresses. -/
def cellsWriteBytes : List Host.Cell → Nat → List Byte → List Host.Cell
  | m, _, [] => m
  | m, a, b :: bs => cellsWriteBytes (cellsWrite m a b) (a + 1) bs

/-- Read `n` consecutive bytes. -/
def cellsReadBytes (m : List Host.Cell) : Nat → Nat → List Byte
  | _, 0 => []
  | a, n + 1 => cellsRead m a :: cellsReadBytes m (a + 1) n

/-- Every listed byte of [a, a + n) becomes unlisted, that is zero (R373). -/
def cellsClear (m : List Host.Cell) (a n : Nat) : List Host.Cell :=
  m.filter (fun c => decide (c.1 < a ∨ a + n ≤ c.1))

/-- Addresses strictly rising from `lo` on, no byte zero. -/
def Memory.wfFrom : Nat → List Host.Cell → Bool
  | _, [] => true
  | lo, (x, b) :: r => decide (lo ≤ x) && decide (b ≠ 0) && Memory.wfFrom (x + 1) r

/-- The canonical form of a memory. -/
def Memory.wf (m : List Host.Cell) : Bool := Memory.wfFrom 0 m

def readMem (s : State) (a n : Nat) : List Byte := cellsReadBytes s.mem a n
def writeMem (a : Nat) (bs : List Byte) (s : State) : State := { s with mem := cellsWriteBytes s.mem a bs }

/-! ## Lists -/

/-- Replace every element that satisfies `p` by its image under `f`. -/
def mapWhere {α : Type} (p : α → Bool) (f : α → α) (l : List α) : List α :=
  l.map (fun x => if p x then f x else x)

/-- The elements after the last `n` dropped from the front: at most `n` remain (oldest out). -/
def keepLast {α : Type} (n : Nat) (l : List α) : List α := l.drop (l.length - n)

/-- Insert by a strict order, behind every element not ranked after it. -/
def insertBy {α : Type} (lt : α → α → Bool) (x : α) : List α → List α
  | [] => [x]
  | y :: ys => if lt x y then x :: y :: ys else y :: insertBy lt x ys

/-- Stable sort by a strict order. -/
def sortBy {α : Type} (lt : α → α → Bool) (l : List α) : List α := l.foldr (insertBy lt) []

/-! ## Partitions and other indexed parts of the state -/

def part (s : State) (p : Nat) : Part := s.parts.getD p {}
def onPart (p : Nat) (f : Part → Part) (s : State) : State := { s with parts := s.parts.modify p f }
def mailboxOf (s : State) (m : Nat) : Mailbox := s.mbx.getD m {}
def onMailbox (m : Nat) (f : Mailbox → Mailbox) (s : State) : State := { s with mbx := s.mbx.modify m f }
def portOf (s : State) (n : Nat) : Port := s.fabric.ports.getD n {}
def onPort (n : Nat) (f : Port → Port) (s : State) : State :=
  { s with fabric := { s.fabric with ports := s.fabric.ports.modify n f } }
def stackOf (s : State) (n : Nat) : Stack := s.pave.allStacks.getD n {}
def onStack (n : Nat) (f : Stack → Stack) (s : State) : State :=
  { s with pave := { s.pave with allStacks := s.pave.allStacks.modify n f } }
def groveOf (s : State) (n : Nat) : Grove := s.groves.getD n {}
def onGrove (n : Nat) (f : Grove → Grove) (s : State) : State := { s with groves := s.groves.modify n f }
def channelOf (s : State) (c : Nat) : Channel := s.channels.getD c {}
def onChannel (c : Nat) (f : Channel → Channel) (s : State) : State := { s with channels := s.channels.modify c f }

/-- A new value of the model's counter for free values. -/
def bumpFree (s : State) : State := { s with freeCount := s.freeCount + 1 }

/-- The device runs firmware: released from reset, watchdog not expired (R63, R64). -/
def firmwareRuns (s : State) : Bool := decide (s.power.phase = .running) && !s.power.fwFault

/-- The device is in shard hold or D3hot, where fetching stops and peers get NOT_READY (R572, R573). -/
def holding (s : State) : Bool := s.power.state = .shardHold || s.power.state = .d3hot

/-- The device's own id, if set (R453). -/
def ownId (s : State) : Nat := s.fabric.deviceId.getD 0xFFFF

/-! ## The host boundary -/

def emit (o : Out) (s : State) : State := { s with issued := s.issued ++ [o] }

/-- Function `fn` lies in an IDE stream in the Insecure state (R473). -/
def insecureFn (s : State) (fn : Nat) : Bool :=
  s.landing.ide.any (fun i => decide (i.state = .insecure) && decide (i.firstFn ≤ fn) && decide (fn < i.firstFn + i.fnCount))

/-- Landing may issue no request for `fn` (R466, R473, R573). -/
def landingBlocked (s : State) (fn : Nat) : Bool :=
  !(s.landing.bme.getD fn false) || insecureFn s fn || decide (s.power.state = .d3hot)

/-- Issue a posted write for `fn`: discarded while the link is not active (R469), waiting while blocked (R466). -/
def issueHost (fn : Nat) (o : Out) (s : State) : State :=
  if !s.landing.linkActive then s
  else if landingBlocked s fn then { s with landing := { s.landing with waiting := s.landing.waiting ++ [o] } }
  else emit o s

/-- Result data to host memory for `fn`. -/
def hostWrite (fn addr : Nat) (bs : List Byte) (s : State) : State :=
  if bs = [] then s else issueHost fn (.hostWrite fn addr bs) s

/-- Send an MSI-X message: none to a function of an Insecure stream (R473). -/
def sendMsix (fn vector : Nat) (s : State) : State :=
  if insecureFn s fn then s else issueHost fn (.msix fn vector) s

/-- Do `f`, then send PF vector 1 if LND_INT_SUMMARY rose from zero (R465). -/
def raising (f : State → State) (s : State) : State :=
  let t := f s
  if summary s = 0 ∧ summary t ≠ 0 then sendMsix 0 1 t else t

def setLndStatus (bits : Reg) (s : State) : State :=
  raising (fun s => { s with landing := { s.landing with intStatus := s.landing.intStatus ||| bits } }) s
def setPavStatus (bits : Reg) (s : State) : State :=
  raising (fun s => { s with pave := { s.pave with intStatus := s.pave.intStatus ||| bits } }) s
def setChkStatus (bits : Reg) (s : State) : State :=
  raising (fun s => { s with choker := { s.choker with intStatus := s.choker.intStatus ||| bits } }) s
def setCruStatus (bits : Reg) (s : State) : State :=
  raising (fun s => { s with cruise := { s.cruise with intStatus := s.cruise.intStatus ||| bits } }) s
def setLpeStatus (bits : Reg) (s : State) : State :=
  raising (fun s => { s with loupe := { s.loupe with intStatus := s.loupe.intStatus ||| bits } }) s

/-! ## Device log and Loupe -/

/-- Append a device log entry; the latest 4,096 are held (R111). -/
def logAdd (kind source partition detail0 detail1 : Nat) (s : State) : State :=
  { s with
    log := keepLast 4096 (s.log ++ [{ time := s.time, seq := s.logSeq, kind := kind, source := source,
                                      partition := partition, detail0 := detail0, detail1 := detail1 }])
    logSeq := s.logSeq + 1 }

/-- DECODE_ERROR of R30: source, address, 1 for a write. -/
def logDecode (source address dir : Nat) (s : State) : State := logAdd 1 source 14 address dir s

/-- Ring capacity in records (R518). -/
def ringSize : Nat := 8000000

/-- Loupe records one trace record when running and both filters admit it; with STOP_ON_FULL it stops at the record that fills the ring
(R519). -/
def trace (source partition kind data0 data1 : Nat) (s : State) : State :=
  let l := s.loupe
  if l.running && l.ctrl.toNat.testBit (16 + source) && l.filter.toNat.testBit partition && l.filter.toNat.testBit (16 + kind) then
    let r : TraceRec :=
      { time := s.time, seq := l.count, source := source, partition := partition, kind := kind, data0 := data0,
        data1 := data1 }
    let l := { l with ring := keepLast ringSize (l.ring ++ [r]), count := l.count + 1 }
    if ringSize ≤ l.ring.length ∧ l.ctrl.toNat.testBit 1 then setLpeStatus 1 { s with loupe := { l with running := false, full := true } }
    else { s with loupe := l }
  else s

/-! ## Events (R96) -/

def destOf (s : State) : Dest → EventDest
  | .part p => s.partEvents.getD p {}
  | .operator => s.operatorEvents
  | .sideband => s.sidebandEvents

def onDest (d : Dest) (f : EventDest → EventDest) (s : State) : State :=
  match d with
  | .part p => { s with partEvents := s.partEvents.modify p f }
  | .operator => { s with operatorEvents := f s.operatorEvents }
  | .sideband => { s with sidebandEvents := f s.sidebandEvents }

/-- The destination can take an event now: an event queue with room (R97), an open session (R81), nothing signalled
on I3C (R82). -/
def canTake (s : State) : Dest → Bool
  | .part p =>
    match (part s p).eq with
    | some e => !e.error && decide (e.used < e.entries)
    | none => false
  | .operator => !s.sessions.isEmpty
  | .sideband => s.i3cSignalled.isNone && s.i3cResponses.isEmpty

/-- A frame of the management Ethernet port (R79): mailbox, kind (1 a response, 2 an event), body. -/
def frameBytes (mbx kind : Nat) (body : List Byte) : List Byte := le 1 mbx ++ le 1 kind ++ zeros 2 ++ body

/-- The 32 bytes of an event entry. -/
def eventBytes (e : Event) (phase : Bool) (seq lost : Nat) : List Byte :=
  le 2 e.code ++ le 2 e.tag ++ le 1 e.partition ++ le 1 (if phase then 1 else 0) ++ le 2 e.status ++ le 8 e.time ++
    le 8 e.detail ++ le 4 seq ++ le 2 lost ++ zeros 2

/-- Advance the event queue past the slot just written; PHASE inverts on each later pass (R85). -/
def Eq.advance (q : Eq) : Eq :=
  { q with slot := if q.slot + 1 = q.entries then 0 else q.slot + 1, used := q.used + 1,
           phase := if q.slot + 1 = q.entries then !q.phase else q.phase }

/-- Where slot `n` of a ring of 32-byte entries stands in host memory (R83). -/
def ringSlot (base n : Nat) : Nat := base + 32 * n

/-- Hand one event to a destination that can take it, with EVENT_SEQ and LOST (R96): into the slot of the event ring with its
PHASE, as a frame to every open session (R81), or signalled on I3C (R82). -/
def deliver (d : Dest) (e : Event) (s : State) : State :=
  let x := destOf s d
  let seq := x.seq + 1
  let s := onDest d (fun x => { x with seq := seq, lost := 0 }) s
  match d with
  | .part p =>
    match (part s p).eq with
    | some q =>
      sendMsix (1 + p) q.vector
        (issueHost (1 + p) (.event p q.slot (ringSlot q.base q.slot) (eventBytes e q.phase seq x.lost))
          (onPart p (fun t => { t with eq := some q.advance }) s))
    | none => s
  | .operator =>
    s.sessions.foldl (fun s y => emit (.frame y.id (frameBytes 12 2 (eventBytes e false seq x.lost))) s) s
  | .sideband =>
    emit (.i3cItem true) { s with i3cSignalled := some (true, eventBytes e false seq x.lost) }

/-- Send an event: delivered, or held (at most 256), or dropped and counted in LOST, which saturates (R96). -/
def sendEvent (d : Dest) (e : Event) (s : State) : State :=
  let x := destOf s d
  if x.held = [] ∧ canTake s d then deliver d e s
  else if x.held.length < 256 then onDest d (fun x => { x with held := x.held ++ [e] }) s
  else onDest d (fun x => { x with lost := min (x.lost + 1) 65535 }) s

/-- Deliver up to `n` held events while the destination can take them. -/
def drainHeld (d : Dest) : Nat → State → State
  | 0, s => s
  | n + 1, s =>
    match (destOf s d).held with
    | e :: es => if canTake s d then drainHeld d n (deliver d e (onDest d (fun x => { x with held := es }) s)) else s
    | [] => s

/-- Discard a partition's held events and its unreported drop count (R97). -/
def discardHeld (p : Nat) (s : State) : State := onDest (.part p) (fun x => { x with held := [], lost := 0 }) s

/-- TIME of an event: whole milliseconds for partition destinations (R37). -/
def eventTime (s : State) : Dest → Nat
  | .part _ => s.time / 1000 * 1000
  | _ => s.time

def mkEvent (s : State) (d : Dest) (code tag partition status detail : Nat) : Event :=
  { code := code, tag := tag, partition := partition, status := status, time := eventTime s d, detail := detail }

def notify (d : Dest) (code tag partition status detail : Nat) (s : State) : State :=
  sendEvent d (mkEvent s d code tag partition status detail) s

def foldParts (f : Nat → State → State) (s : State) : State := (List.range 12).foldl (fun s p => f p s) s

/-- SERVICE_LEVEL event: operator, sideband, every ACTIVE partition. -/
def notifyLevel (level : Nat) (s : State) : State :=
  let s := notify .operator 2 0 14 0 level s
  let s := notify .sideband 2 0 14 0 level s
  foldParts (fun p s => if (part s p).state = .active then notify (.part p) 2 0 p 0 level s else s) s

/-- PARTITION_STATE event: operator, and the partition unless FREE. -/
def notifyPartState (p : Nat) (s : State) : State :=
  let st := (part s p).state
  let d := p + partCode st * 256
  let s := notify .operator 4 0 p 0 d s
  if st = .free then s else notify (.part p) 4 0 p 0 d s

/-- NEEDS_FULL_RESET event: operator, sideband, every partition. -/
def notifyNeedsReset (s : State) : State :=
  let s := notify .operator 8 0 14 0 0 s
  let s := notify .sideband 8 0 14 0 0 s
  foldParts (fun p s => notify (.part p) 8 0 p 0 0 s) s

/-- Firmware finds a subsystem wedged (R103). -/
def needsFullReset (s : State) : State :=
  notifyNeedsReset { s with power := { s.power with needsReset := true } }

/-! ## Completions -/

def findCq (t : Part) (id : Nat) : Option Cq := t.cqs.find? (fun c => c.id = id)
def findSq (t : Part) (id : Nat) : Option Sq := t.sqs.find? (fun q => q.id = id)
def Part.onCq (t : Part) (id : Nat) (f : Cq → Cq) : Part := { t with cqs := mapWhere (fun c => c.id = id) f t.cqs }
def Part.onSq (t : Part) (id : Nat) (f : Sq → Sq) : Part := { t with sqs := mapWhere (fun q => q.id = id) f t.sqs }

def Cq.full (c : Cq) : Bool := decide (c.entries ≤ c.used)

def Cq.advance (c : Cq) : Cq :=
  { c with slot := if c.slot + 1 = c.entries then 0 else c.slot + 1, used := c.used + 1,
           phase := if c.slot + 1 = c.entries then !c.phase else c.phase }

/-- The 32 bytes of a completion entry (R92, R95). -/
def completionBytes (phase : Bool) (e : CqEntry) : List Byte :=
  le 2 e.tag ++ le 2 e.status ++ le 1 e.sqId ++ le 1 (if phase then 1 else 0) ++ le 2 e.sqHead ++ le 8 e.context ++
    le 2 e.conditions ++ zeros 2 ++ le 4 e.detailA ++ le 8 e.detailB

/-- Write one completion entry into a CQ with room, and its MSI-X when coalescing is satisfied (R86, R93). -/
def writeCompletion (p : Nat) (c : Cq) (noInt : Bool) (e : CqEntry) (s : State) : State :=
  let s := issueHost (1 + p) (.completion p c.id c.slot (ringSlot c.base c.slot) (completionBytes c.phase e)) s
  let un := if noInt then c.unsignalled else c.unsignalled + 1
  let fire := !noInt && decide (max c.coalesceCount 1 ≤ un)
  let s := onPart p (fun t => t.onCq c.id (fun c => { c.advance with unsignalled := if fire then 0 else un })) s
  if fire then sendMsix (1 + p) c.vector s else s

/-- Complete into CQ `cq` of partition `p`: discarded in the error state (R89), held while full (R94). -/
def complete (p cq : Nat) (noInt : Bool) (e : CqEntry) (s : State) : State :=
  match findCq (part s p) cq with
  | none => s
  | some c =>
    if c.error then s
    else if c.full || !c.held.isEmpty then
      onPart p (fun t => t.onCq cq (fun c => { c with held := c.held ++ [(noInt, e)] })) s
    else writeCompletion p c noInt e s

/-- Write held completions, oldest first, while the CQ has room. -/
def drainCq (p cq : Nat) : Nat → State → State
  | 0, s => s
  | n + 1, s =>
    match findCq (part s p) cq with
    | some c =>
      match c.held with
      | (ni, e) :: rest =>
        if c.error || c.full then s
        else drainCq p cq n
          (writeCompletion p c ni e (onPart p (fun t => t.onCq cq (fun c => { c with held := rest })) s))
      | [] => s
    | none => s

/-- The completion entry of a command of SQ `sq`. -/
def sqEntry (s : State) (p sq tag context status cond a b : Nat) : CqEntry :=
  { tag := tag, status := status, sqId := sq, sqHead := ((findSq (part s p) sq).map Sq.head).getD 0,
    context := context, conditions := cond, detailA := a, detailB := b }

/-- Complete a command of SQ `sq` into the CQ the SQ is bound to (R92). -/
def completeSq (p sq tag context : Nat) (noInt : Bool) (status cond a b : Nat) (s : State) : State :=
  match findSq (part s p) sq with
  | none => s
  | some q => complete p q.cqId noInt (sqEntry s p sq tag context status cond a b) s

/-- Runs of a model have begun and not ended, or a query took it at its admission as its cross-encoder (R198, R282). -/
def modelUsed (s : State) (p n : Nat) : Bool :=
  s.runs.any (fun x => decide (x.part = p) && decide (x.model = n)) ||
    (part s p).running.any (fun r => match r.kind with
      | .query q => match q.cross with | some x => decide (x.model.serial = n) | none => false
      | _ => false)

/-- The weight space of an unloaded model returns after its last run (R282). -/
def sweepModels (p : Nat) (s : State) : State :=
  onPart p (fun t => { t with models := t.models.filter (fun m => !m.unloaded || modelUsed s p m.serial) }) s

/-- DATA0 of CMD_BEGIN and CMD_END for a command of a queue (R519). -/
def entryTrace (op tag sq status : Nat) : Nat := op + tag * 65536 + sq * 2 ^ 32 + 0xFF * 2 ^ 40 + status * 2 ^ 48

/-- A running command ends: it leaves the running list and its completion is written. -/
def endRunning (p : Nat) (r : Running) (status cond a b : Nat) (s : State) : State :=
  let s := sweepModels p (onPart p (fun t => { t with running := t.running.filter (fun x => !(x.sq = r.sq && x.tag = r.tag)) })
    (trace 0 p 1 (entryTrace r.opcode r.tag r.sq status) cond s))
  if r.silent then s else completeSq p r.sq r.tag r.context r.noInt status cond a b s

/-- Register an accepted async command (R73). -/
def addJob (d : Dest) (opcode tag partition status detail : Nat) (act : AsyncAction) (s : State) : State :=
  { s with jobs := s.jobs ++ [{ dest := d, opcode := opcode, tag := tag, partition := partition, status := status,
                                detail := detail, action := act }] }

/-- The job is the calibration whose runs `r` stands for. -/
def calibrationOf (r : CanopyRun) (j : AsyncJob) : Bool :=
  decide (j.opcode = Op.mdlCalibrate) && decide (r.sq = 64) && decide (r.part = j.partition) && decide (r.tag = j.tag) &&
    decide (j.action = .modelCalibrated r.model)

/-- A calibration's runs are not over, so its COMMAND_DONE is not due. -/
def calibrationRuns (s : State) (j : AsyncJob) : Bool := s.runs.any (fun r => calibrationOf r j)

/-- Deliver a COMMAND_DONE event (R73): DETAIL[15:0] opcode, [63:16] result. -/
def commandDoneEvent (d : Dest) (opcode tag partition status detail : Nat) (s : State) : State :=
  notify d 1 tag partition status (opcode + detail * 65536) s

/-! ## The address map (R38–R43) -/

def sramBase : Nat := 0x4000000000
def hbmBase : Nat := 0x100000000000
def objRegion : Nat := 0x1000000000000
/-- Populated bytes of one stack (R2, R38). -/
def stackBytes : Nat := if Config.is768 then 96000000000 else 48000000000

/-- SRAM offsets that are populated (R40). -/
def sramPopulated (o : Nat) : Bool := decide (o < 0x9000000) || (decide (0x10000000 ≤ o) && decide (o < 0x18000000))
/-- HBM offsets that are populated (R42). -/
def hbmPopulated (o : Nat) : Bool := decide (o < 8 * 0x20000000000) && decide (o % 0x20000000000 < stackBytes)

/-- Where the SRAM of a logical tile and a grove's own SRAM begin (R40). -/
def tileAddr (g t : Nat) : Nat := sramBase + (g * 36 + t) * 0x40000
def sharedAddr (g : Nat) : Nat := sramBase + 0x10000000 + g * 0x800000

/-- The stack of an HBM address, and the pseudo-channel of the stack that holds it: offset bits [17:12], which engine of that
number serves (R43, R208). -/
def addrStack (a : Nat) : Nat := (a - hbmBase) / 0x20000000000
def addrEngine (a : Nat) : Nat := (a - hbmBase) / 4096 % 64

/-! ## Pavé caps -/

/-- Effective cap of a stack (R225), with the thermal or power limit on the Cruise cap (R577, R593). -/
def effectiveCap (s : State) (k : Stack) : Nat :=
  let cruise := if s.power.thermalLimit || s.power.powerLimit then min k.cruiseActive 16 else k.cruiseActive
  min 32 (min k.opActive cruise)

/-! ## Routing and device ids -/

/-- x, y, z and rack of a device id (R46). -/
def coordX (d : Nat) : Nat := d % 4
def coordY (d : Nat) : Nat := d / 4 % 4
def coordZ (d : Nat) : Nat := d / 16 % 4
def rackOf (d : Nat) : Nat := d / 64

end Sys2Proof.Machine
end

