-- ==== Sys2Proof/Machine/Keys.lean ====
section
/-! DEFINITION. Sys2Proof/Machine/Keys.lean: the secrets of the device, the keys of a partition, the device fabric key and the PSKs of
management sessions (R489, R503, R508–R510, R515). -/
namespace Sys2Proof.Machine

/-! ## The device's own secrets (R489) -/

def devicePrk : List Byte := hkdfExtract (ascii "FV960 device") Config.seed

/-- What the LMS seed and identifier of the identity key come from. -/
def identitySecret : List Byte := hkdfExpand devicePrk (ascii "identity") 48
def tallyKey : List Byte := hkdfExpand devicePrk (ascii "tally") 32
/-- The device flash key: pieces of KIND 2–6. -/
def deckKey : List Byte := hkdfExpand devicePrk (ascii "deck") 32

/-- The MAC address of the management port: locally administered, from IDENTITY_DIGEST (R514). -/
def macAddress : List Byte := 0x02 :: (sha256 Config.idPubKey).take 5

/-! ## Keys of a partition (R503) -/

/-- The partition's root K; nothing while no keys are installed. -/
def rootOf (t : Part) : List Byte := t.root.getD []

def partPrk (t : Part) : List Byte := hkdfExtract t.salt (rootOf t)
def hbmKey (t : Part) : List Byte := hkdfExpand (partPrk t) (ascii "hbm") 64
/-- The flash key: pieces of KIND 0 and 1, and POOL units. -/
def flashKey (t : Part) : List Byte := hkdfExpand (partPrk t) (ascii "flash") 32
/-- The key check value of root `k` under the partition's salt. -/
def checkValue (t : Part) (k : List Byte) : List Byte := hmac (hkdfExtract t.salt k) (ascii "check")
def linkPrk (t : Part) : List Byte := hkdfExtract (ascii "FV960 link") (rootOf t)
def linkKey (p : Nat) (t : Part) : List Byte := hkdfExpand (linkPrk t) (ascii "link" ++ le 1 p) 32
def idePsk (p : Nat) (t : Part) : List Byte := hkdfExpand (linkPrk t) (ascii "ide" ++ le 1 p) 32

/-! ## Keys of the credential root (R508–R510, R515) -/

def tallyItem (s : State) (i : Nat) : TallyItem := s.hallmark.items.getD (i - 1) { budget := 0, remaining := 0, value := [] }

/-- The credential root, tally item 3; while unset, 32 zero bytes for the fabric key and the device IDE PSK only. -/
def credentialRoot (s : State) : List Byte := let v := (tallyItem s 3).value; if v = [] then zeros 32 else v

/-- The device fabric key of a credential root. -/
def fabricKey (root : List Byte) : List Byte := hkdfExpand (hkdfExtract (ascii "FV960 fabric") root) (ascii "fabric") 32

def credentialPrk (root : List Byte) : List Byte := hkdfExtract384 (ascii "FV960 credential") root
def deviceIdePsk (s : State) : List Byte := hkdfExpand384 (credentialPrk (credentialRoot s)) (ascii "ide") 32

/-- The PSK identity as its bytes: the tenant-debug one spells its partition in decimal. -/
def identityName : Identity → List Byte
  | .operator => ascii "operator"
  | .meter => ascii "meter"
  | .debug => ascii "debug"
  | .tenantDebug p => ascii "tenant-debug-" ++ ascii (toString p)
  | .setup => ascii "setup"

/-- The PSK of an identity: "setup" from the setup code, the others from the credential root. -/
def sessionPsk (s : State) (i : Identity) : List Byte :=
  match i with
  | .setup => hkdfExpand384 (hkdfExtract384 (ascii "FV960 setup") Config.setupCode) (ascii "setup") 48
  | _ => hkdfExpand384 (credentialPrk (credentialRoot s)) (identityName i) 48

/-! ## Keys of packets (R422, R505, R509, R529) -/

/-- The key under which this device sends packets of a partition value. -/
def sendKey (s : State) (p : Nat) : List Byte :=
  if p < 12 then linkKey p (part s p)
  else if s.fabric.prevKeySend.isSome then fabricKey s.fabric.prevRoot
  else fabricKey (credentialRoot s)

/-- The device accepts a packet of the partition value under `key`: a link key only while the partition's keys are installed, the fabric
key in use, or the previous one while it is accepted. -/
def keyAccepted (s : State) (p : Nat) (key : List Byte) : Bool :=
  if p < 12 then (part s p).root.isSome && decide (key = linkKey p (part s p))
  else decide (key = fabricKey (credentialRoot s)) || (s.fabric.prevKeyAccept.isSome && decide (key = fabricKey s.fabric.prevRoot))

end Sys2Proof.Machine
end

