-- ==== Sys2Proof/Machine/Route.lean ====
section
/-! DEFINITION. Sys2Proof/Machine/Route.lean: the torus and the row, routes and what is reachable (R54–R60, R411–R414), the
link table (R620), and a packet's place at an egress and in an input region (R415, R416). -/
namespace Sys2Proof.Machine

/-! ## The rings -/

/-- The four rings in the order a packet travels them: the row, X, Y and Z, each by its rising port (R59, R55). -/
def rings : List Nat := [6, 0, 2, 4]

/-- Devices around the ring of rising port `k`. -/
def ringLen (f : Fabric) (k : Nat) : Nat :=
  if k = 6 then f.racks else if k = 0 then 4 else if k = 2 then f.ySize else f.zSize

/-- Coordinate of a device on the ring of rising port `k` (R46). -/
def ringCoord (k d : Nat) : Nat :=
  if k = 6 then rackOf d else if k = 0 then coordX d else if k = 2 then coordY d else coordZ d

/-- The weight of that coordinate in a device id. -/
def ringWeight (k : Nat) : Nat := if k = 6 then 64 else if k = 0 then 1 else if k = 2 then 4 else 16

def risingOf (port : Nat) : Nat := port / 2 * 2

/-- The partner of a port across its link (R410). -/
def partner (port : Nat) : Nat := if port % 2 = 0 then port + 1 else port - 1

/-- The next coordinate round a ring of `n`, falling through the odd port. -/
def nextCoord (n c : Nat) (falling : Bool) : Nat := if falling then (c + n - 1) % n else (c + 1) % n

/-- The device that a port reaches (R55, R58, R60). -/
def neighbourAt (f : Fabric) (d port : Nat) : Nat :=
  let k := risingOf port
  let c := ringCoord k d
  d - c * ringWeight k + nextCoord (ringLen f k) c (port % 2 = 1) * ringWeight k

/-- The link through a port is its ring's dateline (R56, R59, R411). -/
def atDateline (f : Fabric) (d port : Nat) : Bool :=
  let k := risingOf port
  if port % 2 = 0 then decide (ringCoord k d + 1 = ringLen f k) else decide (ringCoord k d = 0)

/-- Hops from coordinate `a` to `b`. -/
def ringDist (n a b : Nat) (falling : Bool) : Nat := if falling then (a + n - b) % n else (b + n - a) % n

/-- Every device id of the system (R46, R54). -/
def sysDevices (f : Fabric) : List Nat :=
  (List.range f.racks).flatMap (fun r => (List.range f.zSize).flatMap (fun z =>
    (List.range f.ySize).flatMap (fun y => (List.range 4).map (fun x => r * 64 + z * 16 + y * 4 + x))))

/-! ## Links -/

def Port.isUp (p : Port) : Bool := p.state = .up8 || p.state = .up4

/-- One end of a link is down: this device's own port, or as the record of the device says; up where there is no
record (R620). -/
def endDown (f : Fabric) (own d port : Nat) : Bool :=
  if d = own then !(f.ports.getD port {}).isUp
  else
    match f.links.find? (fun r => r.device = d) with
    | some r => !r.ports.getLsbD port
    | none => false

/-- The link through `port` of `d` is down at either end. -/
def linkIsDown (f : Fabric) (own d port : Nat) : Bool :=
  endDown f own d port || endDown f own (neighbourAt f d port) (partner port)

/-- A link on the way of `n` hops through `port`, from `d`, is down. -/
def wayDown (f : Fabric) (own port : Nat) : Nat → Nat → Bool
  | 0, _ => false
  | n + 1, d => linkIsDown f own d port || wayDown f own port n (neighbourAt f d port)

/-! ## Routes -/

/-- The directions of the four rings, falling where true, and whether the destination is reachable (R413, R414). -/
structure Route where
  row : Bool := false
  x : Bool := false
  y : Bool := false
  z : Bool := false
  reachable : Bool := true
  deriving DecidableEq, Repr

/-- The direction taken round one ring from `d` to the coordinate of `dest`: the shorter, rising on a tie, the other where
a link on that way is down (R55, R412, R413); and whether both ways are down. -/
def ringChoice (f : Fabric) (own k d dest : Nat) : Bool × Bool :=
  let n := ringLen f k
  let a := ringCoord k d
  let b := ringCoord k dest
  if a = b then (false, false)
  else
    let falls := decide (ringDist n a b true < ringDist n a b false)
    let down (v : Bool) : Bool := wayDown f own (if v then k + 1 else k) (ringDist n a b v) d
    (if down falls then !falls else falls, down false && down true)

/-- `d` moved to the coordinate of `dest` on the ring of `k`. -/
def moveTo (k d dest : Nat) : Nat := d - ringCoord k d * ringWeight k + ringCoord k dest * ringWeight k

/-- The route from this device to `dest`, in dimension order. -/
def routeTo (f : Fabric) (own dest : Nat) : Route :=
  let a := ringChoice f own 6 own dest
  let d1 := moveTo 6 own dest
  let b := ringChoice f own 0 d1 dest
  let d2 := moveTo 0 d1 dest
  let c := ringChoice f own 2 d2 dest
  let d3 := moveTo 2 d2 dest
  let e := ringChoice f own 4 d3 dest
  { row := a.1, x := b.1, y := c.1, z := e.1, reachable := !(a.2 || b.2 || c.2 || e.2) }

/-- Devices of the system that are reachable from this one. -/
def isReachable (f : Fabric) (own d : Nat) : Bool := (routeTo f own d).reachable

/-- The direction a packet's header names for the ring of `k` (R421). -/
def headerFalls (p : Packet) (k : Nat) : Bool :=
  if k = 6 then p.dirRow else if k = 0 then p.dirX else if k = 2 then p.dirY else p.dirZ

/-- The port by which a packet leaves device `d`; none at its destination. -/
def egressPort (p : Packet) (d : Nat) : Option Nat :=
  (rings.find? (fun k => decide (ringCoord k d ≠ ringCoord k p.dest))).map
    (fun k => if headerFalls p k then k + 1 else k)

/-- The virtual channel on the next hop: 1 on a dateline link, kept on the same ring, 0 on entering a ring (R56, R411). -/
def nextVc (f : Fabric) (d port : Nat) (arrival : Option Nat) (vc : Nat) : Nat :=
  if atDateline f d port then 1
  else
    match arrival with
    | some a => if risingOf a = risingOf port then vc else 0
    | none => 0

/-! ## Sizes, regions and pause (R416) -/

/-- Header, payload and tag (R421, R444). -/
def packetSize (p : Packet) : Nat := 48 + p.payload.length

/-- The pair of a class and a virtual channel, numbered class × 2 + channel. -/
def pairOf (cls vc : Nat) : Nat := cls * 2 + vc

/-- Bytes in one input region of port `n`. -/
def regionUsed (s : State) (n pair : Nat) : Nat :=
  (s.fabric.ports.flatMap (fun p => p.egress.map (fun w =>
    if w.src = n ∧ pairOf w.pkt.cls w.vcIn = pair then packetSize w.pkt else 0))).sum

/-- The pause states that port `n` shows its neighbour: XOFF below 128 KiB free, XON from 192 KiB free. -/
def pauseStates (s : State) (n : Nat) : BitVec 16 :=
  (List.range 16).foldl (fun b pair =>
    let u := regionUsed s n pair
    let on := decide (131072 < u) || (decide (65536 < u) && (portOf s n).xoffTx.getLsbD pair)
    if on then b ||| (1 <<< pair) else b) 0

/-- A pause frame goes out on every change of the states. -/
def refreshPause (n : Nat) (s : State) : State :=
  let x := pauseStates s n
  if x = (portOf s n).xoffTx ∨ !(portOf s n).isUp then s
  else emit (.pause n x) (onPort n (fun p => { p with xoffTx := x }) s)

/-- Count `n` discards of one reason. -/
def countDiscard (why : Discard) (n : Nat) (l : List (Discard × Nat)) : List (Discard × Nat) :=
  if n = 0 then l
  else if l.any (fun x => decide (x.1 = why)) then l.map (fun x => if x.1 = why then (why, x.2 + n) else x)
  else l ++ [(why, n)]

/-- Discard a packet, counted at a port by its reason (R419). -/
def discardAt (n : Nat) (why : Discard) (s : State) : State := onPort n (fun p => { p with discards := countDiscard why 1 p.discards }) s

/-- Put a packet at the egress of port `n`, or discard it when the link is down (R415). -/
def enqueueAt (n src vcIn : Nat) (p : Packet) (s : State) : State :=
  if (portOf s n).isUp then
    onPort n (fun q => { q with egress := q.egress ++ [{ src := src, vcIn := vcIn, pkt := p, since := s.time }] }) s
  else discardAt n .linkDown s

/-! ## The header and the tag (R421, R422) -/

/-- TYPE of the header, and KIND of the IV. -/
def typeCode : PktType → Nat
  | .send => 1 | .write => 2 | .readReq => 3 | .readResp => 4 | .ack => 5 | .nak => 6 | .flushReq => 7 | .flushAck => 8 | .system => 16

def kindCode : PktType → Nat
  | .send | .write | .readReq | .flushReq => 0
  | .ack | .nak | .flushAck => 1
  | .readResp => 2
  | .system => 3

def flagBit (b : Bool) (n : Nat) : Nat := if b then 2 ^ n else 0

/-- The 32-byte header, its reserved bits zero. -/
def headerBytes (p : Packet) : List Byte :=
  le 1 (typeCode p.typ) ++ le 1 (p.cls + 8 * p.vc + 16 * p.partition) ++
    le 2 (p.dest % 4096 + flagBit p.dirX 12 + flagBit p.dirY 13 + flagBit p.dirZ 14 + flagBit p.dirRow 15) ++ le 2 (p.src % 4096) ++
    le 2 p.destQp ++ le 2 p.srcQp ++ le 2 (flagBit p.first 0 + flagBit p.last 1 + flagBit p.ackNow 2) ++ le 4 p.psn ++
    le 2 p.payload.length ++ le 2 p.aux ++ le 4 p.msgLen ++ le 8 p.addr

/-- The 96-bit IV: SRC, SRC_QP, the extended PSN or the CSEQ, and KIND. -/
def packetIv (p : Packet) : List Byte :=
  let k := kindCode p.typ
  le 2 (p.src % 4096) ++ le 2 p.srcQp ++ le 7 (if k = 0 ∨ k = 2 then p.wrap * 2 ^ 32 + p.psn else p.addr) ++ le 1 k

/-- The packet with its tag: the header counts with the virtual channel bit zero. -/
def sealed (s : State) (p : Packet) : Packet :=
  { p with tag := padTo 16 (Config.packetTag (sendKey s p.partition) (packetIv p) (headerBytes { p with vc := 0 }) p.payload) }

/-- The record of a packet that Loupe keeps: header bytes 0–7 and 8–15 (R519). -/
def tracePacket (kind : Nat) (p : Packet) (s : State) : State :=
  let h := headerBytes p
  trace 3 p.partition kind (unle (h.take 8)) (unle ((h.drop 8).take 8)) s

/-- Local injection: the source writes the directions into the header, seals the packet and hands it to its egress (R413, R422). -/
def inject (p : Packet) (s : State) : State :=
  let f := s.fabric
  let own := ownId s
  let r := routeTo f own p.dest
  let p := { p with src := own, dirRow := r.row, dirX := r.x, dirY := r.y, dirZ := r.z }
  match egressPort p own with
  | some n => enqueueAt n 8 0 (sealed s { p with vc := nextVc f own n none 0 }) s
  | none => s

/-! ## CSEQ (R423) -/

/-- BOOT_COUNT advances with one tally write, and every count starts afresh. -/
def advanceBoot (s : State) : State :=
  { s with
    hallmark := { s.hallmark with bootCount := (s.hallmark.bootCount + 1) % 2 ^ 24, tallyWrites := s.hallmark.tallyWrites + 1 }
    fabric := { s.fabric with sysCseq := 0, qpCseq := [] } }

def cseqOf (l : List (Nat × Nat)) (q : Nat) : Nat := ((l.find? (fun x => x.1 = q)).map (fun x => x.2)).getD 0
def cseqSet (l : List (Nat × Nat)) (q n : Nat) : List (Nat × Nat) := (q, n) :: l.filter (fun x => x.1 ≠ q)

/-- The CSEQ of the next ACK, NAK or FLUSH_ACK of a queue pair, by its wire number. -/
def takeQpCseq (q : Nat) (s : State) : Nat × State :=
  let n := cseqOf s.fabric.qpCseq q
  let c := s.hallmark.bootCount * 2 ^ 32 + n
  let t := { s with fabric := { s.fabric with qpCseq := cseqSet s.fabric.qpCseq q (n + 1) } }
  (c, if n + 1 = 2 ^ 32 - 1 then advanceBoot t else t)

/-- The CSEQ of the next SYSTEM packet. -/
def takeSysCseq (s : State) : Nat × State :=
  let n := s.fabric.sysCseq
  let t := { s with fabric := { s.fabric with sysCseq := n + 1 } }
  (s.hallmark.bootCount * 2 ^ 32 + n, if n + 1 = 2 ^ 32 - 1 then advanceBoot t else t)

/-! ## Link-state records (R442, R620) -/

def upPorts (s : State) : List Nat := (List.range 8).filter (fun n => (portOf s n).isUp)

/-- The states of this device's eight ports. -/
def ownPorts (s : State) : BitVec 8 := (upPorts s).foldl (fun b n => b ||| (1 <<< n)) 0

def putRecord (l : List FloodRec) (r : FloodRec) : List FloodRec := r :: l.filter (fun x => x.device ≠ r.device)

/-- One record as a SYSTEM packet to the neighbour at port `n` (R442, R620). -/
def sendRecord (n : Nat) (r : FloodRec) (s : State) : State :=
  let x := takeSysCseq s
  let own := ownId s
  let k := risingOf n
  let v := n % 2 = 1
  enqueueAt n 8 0 (sealed s
    { typ := .system, cls := 7, vc := nextVc s.fabric own n none 0, partition := 15, dest := neighbourAt s.fabric own n
      dirRow := k = 6 && v, dirX := k = 0 && v, dirY := k = 2 && v, dirZ := k = 4 && v, src := own, destQp := 0xFFFF
      srcQp := 0xFFFF, psn := 0, addr := x.1, record := some r }) x.2

/-- Flood one record on every up port but those left out. -/
def floodRecord (r : FloodRec) (skip : Nat → Bool) (s : State) : State :=
  ((upPorts s).filter (fun n => !skip n)).foldl (fun s n => sendRecord n r s) s

/-- A new record of this device's own ports enters the table and is flooded. -/
def floodOwn (s : State) : State :=
  let r : FloodRec :=
    { device := ownId s, seq := s.hallmark.bootCount * 2 ^ 32 + s.fabric.floodCount, ports := ownPorts s }
  floodRecord r (fun _ => false)
    { s with fabric := { s.fabric with floodCount := s.fabric.floodCount + 1, links := putRecord s.fabric.links r } }

end Sys2Proof.Machine
end

