-- ==== Sys2Proof/Machine/Peers.lean ====
section
/-! DEFINITION. Sys2Proof/Machine/Peers.lean: firmware's own queue pairs, by which this device's messages and the Forwarder's remote
accesses reach other devices (R48, R53, R424, R480, R621), and what ends a command that other devices run parts of. -/
namespace Sys2Proof.Machine

/-! ## PSNs (R422, R429) -/

/-- The number before PSN `n`, and after it. -/
def psnBefore (n : Nat) : Nat := (n + 2 ^ 32 - 1) % 2 ^ 32
def psnAfter (n : Nat) : Nat := (n + 1) % 2 ^ 32

/-- `n` lies before `m` in the order of PSNs. -/
def psnOlder (n m : Nat) : Bool := decide (0 < (m + 2 ^ 32 - n) % 2 ^ 32) && decide ((m + 2 ^ 32 - n) % 2 ^ 32 < 2 ^ 31)

/-- The 32-bit wrap count after PSN `n` has been counted. -/
def wrapAfter (n wraps : Nat) : Nat := if n + 1 = 2 ^ 32 then psnAfter wraps else wraps

/-- The wrap count of PSN `n`, where `expected` is the next one, of wrap count `wraps`. -/
def wrapAt (expected wraps n : Nat) : Nat :=
  if psnOlder n expected then (if expected < n then psnBefore wraps else wraps)
  else if n < expected then psnAfter wraps else wraps

/-- A packet that carries a PSN of its own was sealed under the wrap count that this end keeps too. -/
def wrapAgrees (expected wraps : Nat) (x : Packet) : Bool :=
  kindCode x.typ = 1 || decide (x.wrap = wrapAt expected wraps x.psn)

/-! ## Firmware's own queue pairs (R53, R424, R621) -/

def isFwQp (d p : Nat) (q : FwQp) : Bool := q.device = d && q.part = p

/-- Firmware's queue pair of partition `p` toward device `d`: a new one until it has carried a packet. -/
def fwQpOf (s : State) (d p : Nat) : FwQp := (s.fabric.fwQps.find? (isFwQp d p)).getD { device := d, part := p }

def setFwQp (q : FwQp) (s : State) : State :=
  { s with fabric := { s.fabric with fwQps := s.fabric.fwQps.filter (fun x => !isFwQp q.device q.part x) ++ [q] } }

/-- Wire number of firmware's queue pair of partition `p` on device `own` toward device `d`: one of the numbers that R424 leaves to
firmware (log entry 106). -/
def fwWire (own p d : Nat) : Nat := 1536 + (Config.fwWire own p d).val

/-- The wire number is one of firmware's. -/
def isFwWire (n : Nat) : Bool := decide (1536 ≤ n) && decide (n < 2048)

/-- A packet of firmware's queue pair before its PSN: class 6, a message of its own (R424). -/
def fwPacket (own d p : Nat) (t : PktType) : Packet :=
  { typ := t, cls := 6, vc := 0, partition := p, dest := d, src := own, destQp := fwWire d p own, srcQp := fwWire own p d, psn := 0
    ackNow := true }

/-- Bytes that every queue pair holds in the retransmission store (R430). -/
def storeUsed (s : State) : Nat :=
  (s.parts.flatMap (fun t => t.qps.flatMap (fun q => q.unacked.map (fun x => x.payload.length)))).sum +
    (s.fabric.fwQps.flatMap (fun q => q.unacked.map (fun x => x.payload.length))).sum

/-- Number and hand over waiting packets, at most `f`, while they may begin (R430, R432). What firmware says to its own device leaves by no
port: it waits until firmware takes it (log entry 108). -/
def pumpFw (d p : Nat) : Nat → State → State
  | 0, s => s
  | f + 1, s =>
    let q := fwQpOf s d p
    match q.todo with
    | [] => s
    | x :: xs =>
      if d = ownId s ∨ q.rnrWait ∨ 1024 ≤ q.unacked.length ∨ 2000000000 < storeUsed s + x.payload.length then s
      else
        let x := { x with psn := q.nextPsn, wrap := q.nextWrap }
        pumpFw d p f (inject x (setFwQp { q with
          nextPsn := psnAfter q.nextPsn, nextWrap := wrapAfter q.nextPsn q.nextWrap, todo := xs, unacked := q.unacked ++ [x] } s))

/-- Every packet that may begin. -/
def drainFw (d p : Nat) (s : State) : State := pumpFw d p (fwQpOf s d p).todo.length s

/-- Give a packet to firmware's queue pair. Nothing goes to a device declared lost (R443). -/
def sendPeer (x : Packet) (s : State) : State :=
  if x.dest ∈ s.fabric.lost then s
  else
    let q := fwQpOf s x.dest x.partition
    drainFw x.dest x.partition (setFwQp { q with todo := q.todo ++ [x] } s)

/-- Send firmware device traffic to another device in partition `p` (R53). -/
def sendFw (dest p : Nat) (m : FwMsg) (s : State) : State := sendPeer { fwPacket (ownId s) dest p .send with fw := some m } s

/-- Firmware's queue pair of partition `p` toward `d` holds the message, to be sent or until it is acknowledged. -/
def fwHolds (s : State) (d p : Nat) (m : FwMsg) : Prop :=
  ∃ x ∈ (fwQpOf s d p).unacked ++ (fwQpOf s d p).todo, x.fw = some m

/-- Send again every kept packet, in order. -/
def resendFw (d p : Nat) (s : State) : State := (fwQpOf s d p).unacked.foldl (fun s x => inject x s) s

/-! ## The devices of a running command (R178, R181, R203, R357) -/

/-- Where a shard's part runs: its replica once re-issued. -/
def shardDevice (r : QueryRun) (shard : Nat) : Nat :=
  match r.reissued.find? (fun x => decide (x.1 = shard)) with
  | some x => x.2
  | none => ((r.asked.find? (fun x => decide (x.1 = shard))).map (fun x => x.2)).getD 0

/-- The other devices that run parts of a command. -/
def RunKind.devices : RunKind → List Nat
  | .query q => (q.asked.map (fun x => shardDevice q x.1)).eraseDups
  | .attend a => (a.asked.map (fun x => x.2)).eraseDups
  | _ => []

/-- Tell every device that runs a part of the command to stop it (R203). -/
def tellEnd (p : Nat) (r : Running) (s : State) : State :=
  r.kind.devices.foldl (fun s d => sendFw d p (.cancel p r.sq r.tag) s) s

/-- Cancel the running commands of `p` that satisfy `sel`; a cancelled query tells every shard (R203). -/
def cancelRunning (p : Nat) (sel : Running → Bool) (s : State) : State :=
  ((part s p).running.filter sel).foldl
    (fun s r =>
      let s := tellEnd p r { s with
        runs := mapWhere (fun x => x.part = p && x.sq = r.sq && x.tag = r.tag) (fun x => { x with cancelled := true }) s.runs }
      endRunning p r St.cancelled 0 0 0 s) s

end Sys2Proof.Machine
end

