-- ==== Sys2Proof/Machine/Vec.lean ====
section
/-! DEFINITION. Sys2Proof/Machine/Vec.lean: rotation, row formats, quantisation, metric scores, rank keys and the
attention kernel (R123–R129, R217–R224, R239, R240, R354). -/
namespace Sys2Proof.Machine

/-- Cut a list into chunks of `n`, at most `fuel` of them. -/
def chunksOf {α : Type} (n : Nat) : Nat → List α → List (List α)
  | 0, _ => []
  | f + 1, l => if l.isEmpty then [] else l.take n :: chunksOf n f (l.drop n)

/-- Chunks of `n ≥ 1` of the whole list. -/
def chunks {α : Type} (n : Nat) (l : List α) : List (List α) := chunksOf n l.length l

/-! ## Rotation (R123) -/

/-- s[i]: true where the sign is −1. -/
def signBits (seed d : Nat) : List Bool :=
  let bytes := (List.range ((d + 255) / 256)).flatMap (fun c => sha256 (le 8 seed ++ le 4 c))
  (bytes.flatMap (fun b => (List.range 8).map (fun k => b.toNat.testBit k))).take d

/-- B of R123. -/
def rotB (d : Nat) : Nat := if d % 256 = 0 then 256 else if d % 128 = 0 then 128 else if d % 64 = 0 then 64 else 32

/-- r_B of the table of R123. -/
def rotR (b : Nat) : F32 :=
  if b = 256 then 0x3D800000 else if b = 128 then 0x3DB504F3 else if b = 64 then 0x3E000000 else 0x3E3504F3

/-- One butterfly stage of stride `h`. -/
def butterfly (h : Nat) (w : List F32) : List F32 :=
  (chunks (2 * h) w).flatMap (fun c =>
    List.zipWith F.add (c.take h) (c.drop h) ++ List.zipWith F.sub (c.take h) (c.drop h))

/-- The stages of H_B in order of rising stride, then the factor r_B. -/
def hadamard (b : Nat) (w : List F32) : List F32 :=
  (([1, 2, 4, 8, 16, 32, 64, 128].filter (fun h => decide (h < b))).foldl (fun w h => butterfly h w) w).map
    (fun v => F.mul v (rotR b))

/-- Gather block j: components j, j + G, j + 2G … -/
def gather (g b j : Nat) (x : List F32) : List F32 := (List.range b).map (fun k => x.getD (j + g * k) 0)

/-- Put the blocks back: component i is element i / G of block i mod G. -/
def scatter (g d : Nat) (blocks : List (List F32)) : List F32 :=
  (List.range d).map (fun i => (blocks.getD (i % g) []).getD (i / g) 0)

def flipBy (ss : List Bool) (x : List F32) : List F32 := List.zipWith (fun s v => if s then F.neg v else v) ss x

def rotBlocks (x : List F32) : List F32 :=
  let d := x.length
  let b := rotB d
  let g := d / b
  scatter g d ((List.range g).map (fun j => hadamard b (gather g b j x)))

/-- The rotation of R123 with `seed`. -/
def rotate (seed : Nat) (x : List F32) : List F32 := rotBlocks (flipBy (signBits seed x.length) x)

/-- The inverse rotation of R123. -/
def unrotate (seed : Nat) (y : List F32) : List F32 := flipBy (signBits seed y.length) (rotBlocks y)

/-! ## Metric scores (R217) -/

/-- The 32-lane sum of one piece. -/
def sumPiece (terms : List F32) : F32 :=
  let acc := (chunks 32 terms).foldl (fun acc c => List.zipWith F.add acc (c ++ List.replicate (32 - c.length) 0))
    (List.replicate 32 F.zero)
  let half (n : Nat) (l : List F32) := List.zipWith F.add (l.take n) (l.drop n)
  (half 1 (half 2 (half 4 (half 8 (half 16 acc))))).headD 0

/-- Inner product as one piece. -/
def dot (a b : List F32) : F32 := sumPiece (List.zipWith F.mul a b)

def termsOf (metric : Nat) (q y : List F32) : List F32 :=
  if metric = 2 then List.zipWith (fun a b => F.mul (F.sub a b) (F.sub a b)) q y else List.zipWith F.mul q y

/-- The metric score, in two pieces where the row takes two (R211). -/
def score (metric : Nat) (twoPieces : Bool) (q y : List F32) : F32 :=
  let t := termsOf metric q y
  if twoPieces then F.add (sumPiece (t.take 2048)) (sumPiece (t.drop 2048)) else sumPiece t

/-- Unit L2 norm (R124); none for a vector that counts as a zero vector. -/
def normalise (x : List F32) : Option (List F32) :=
  let n2 := dot x x
  if F.isZero n2 ∨ n2 = F.posInf then none else some (x.map (fun v => F.div v (F.sqrt n2)))

/-- Higher scores are better under inner product and cosine. -/
def higherBetter (metric : Nat) : Bool := metric ≠ 2

/-- The rank key of R239: lower ranks ahead. -/
def rankKey (higher : Bool) (x : F32) : Nat :=
  if F.isNan x then 0xFFFFFFFF
  else
    let b := if x = 0x80000000 then (0 : F32) else x
    let u := if b &&& 0x80000000 = 0 then b ||| 0x80000000 else ~~~b
    (if higher then ~~~u else u).toNat

/-! ## Row formats (R125–R129) -/

def sk1 (y : List F32) : List Bool := y.map (fun v => F.lt F.zero v)

/-- Hamming distance of two sketches (R173). -/
def hamming (a b : List Bool) : Nat := (List.zipWith (fun x y => if x = y then 0 else 1) a b).sum

def maxOf (l : List F32) : F32 := l.foldl F.max F.negInf
def minOf (l : List F32) : F32 := l.foldl F.min F.posInf

/-- The largest magnitude. -/
def maxAbs (l : List F32) : F32 := l.foldl (fun a v => F.max a (F.abs v)) F.zero

/-- S*[r] of R126. -/
def rowSpan (qmax : Nat) (y : List F32) : F32 := F.div (F.sub (maxOf y) (minOf y)) (F.ofNat qmax)

/-- σ and ω of a block over `rows`, the maxima multiplied by `headroom` (R126, R151). -/
def blockScales (qmax headroom : Nat) (rows : List (List F32)) : H16 × H16 :=
  let h := F.ofNat headroom
  let ms := maxOf (rows.map (rowSpan qmax))
  let mm := maxAbs (rows.map minOf)
  (fp16Up (F.max (F.div (F.mul ms h) (F.ofNat 256)) F.two14), fp16Up (F.max (F.div (F.mul mm h) (F.ofNat 127)) F.two14))

def scaleOf (sigma : H16) (sc : Nat) : F32 := F.mul (F.ofNat (sc + 1)) (hTo32 sigma)
def offsetOf (omega : H16) (oc : Nat) : F32 := F.mul (F.ofInt ((oc : Int) - 128)) (hTo32 omega)

/-- The unclamped integer lies outside [lo, hi]. -/
def outside (v : Option Int) (lo hi : Int) : Bool :=
  match v with
  | some n => decide (n < lo) || decide (hi < n)
  | none => true

/-- Quantise one row under σ and ω (R126); the flag says that a value clamped in the sense of R152. -/
def quantRow (qmax : Nat) (sigma omega : H16) (y : List F32) : Coded × Bool :=
  let xs := F.div (rowSpan qmax y) (hTo32 sigma)
  let rawS := (F.ceilInt xs).map (fun n => n - 1)
  let sc := (F.clampOpt rawS xs 0 255).toNat
  let xo := F.div (minOf y) (hTo32 omega)
  let rawO := (F.floorInt xo).map (fun n => n + 128)
  let oc := (F.clampOpt rawO xo 1 255).toNat
  let s := scaleOf sigma sc
  let o := offsetOf omega oc
  let xq := y.map (fun v => F.div (F.sub v o) s)
  ({ sc := sc, oc := oc, codes := xq.map (fun x => (F.clampOpt (F.roundInt x) x 0 qmax).toNat) },
   outside rawS (-1) 255 || outside rawO 1 255 || xq.any (fun x => outside (F.roundInt x) 0 qmax))

/-- ŷ = S · q + O (R127). -/
def dequant (sigma omega : H16) (c : Coded) : List F32 :=
  let s := scaleOf sigma c.sc
  let o := offsetOf omega c.oc
  c.codes.map (fun q => F.add (F.mul s (F.ofNat q)) o)

/-- A NaN component of a vector that the device itself formed becomes +0 (R618). -/
def cleanNan (y : List F32) : List F32 := y.map (fun v => if F.isNan v then 0 else v)

def bfRow (y : List F32) : List B16 := y.map bfOf32
def bfVals (r : List B16) : List F32 := r.map bfTo32

/-- One int8 code under a scale: clamp(round_half_even(x / τ), −127, 127) (R129, R354). -/
def int8Code (tau : H16) (x : F32) : Int :=
  let v := F.div x (hTo32 tau)
  F.clampOpt (F.roundInt v) v (-127) 127

/-- The int8 scale over some components: fp16_up(max(max |z| / 127, 2^−14)). -/
def int8Scale (z : List F32) : H16 := fp16Up (F.max (F.div (maxAbs z) (F.ofNat 127)) F.two14)

/-- TOK8 of a passage's rotated token vectors (R129): scales of the blocks of 32 tokens, and codes. -/
def tok8 (toks : List (List F32)) : Tok8 :=
  let blocks := chunks 32 toks
  { scales := blocks.map (fun b => int8Scale b.flatten),
    codes := blocks.flatMap (fun b => let tau := int8Scale b.flatten; b.map (fun t => t.map (int8Code tau))) }

/-- The bytes of a coded row (I4A: two codes a byte, low nibble first; I8A: one). -/
def codedBytes (four : Bool) (c : Coded) : List Byte :=
  let codes := if four then (chunks 2 c.codes).map (fun p => BitVec.ofNat 8 (p.headD 0 + 16 * p.getD 1 0))
    else c.codes.map (BitVec.ofNat 8)
  BitVec.ofNat 8 c.sc :: BitVec.ofNat 8 c.oc :: codes

def bfBytes (r : List B16) : List Byte := r.flatMap (fun b => le 2 b.toNat)

/-- Output components of OUT_TYPE (0 fp32, 1 BF16). -/
def outBytes (outType : Nat) (v : List F32) : List Byte :=
  if outType = 0 then v.flatMap (fun x => le 4 x.toNat) else v.flatMap (fun x => le 2 (bfOf32 x).toNat)

/-! ## MaxSim (R222) -/

def intDot (a b : List Int) : Int := (List.zipWith (· * ·) a b).sum

/-- Σ_t max_j v(t, j): query codes and block scales, and a record. A record with no tokens gives −∞ (R196). -/
def maxSim (qcodes : List (List Int)) (qscales : List H16) (t : Tok8) : F32 :=
  if t.codes.isEmpty then F.negInf
  else
    (qcodes.zipIdx).foldl (fun s q =>
      let tq := hTo32 (qscales.getD (q.2 / 32) 0)
      let best := (t.codes.zipIdx).foldl (fun best d =>
        let v := F.mul (F.mul (F.ofInt (intDot q.1 d.1)) tq) (hTo32 (t.scales.getD (d.2 / 32) 0))
        F.max best v) F.negInf
      F.add s best) F.zero

/-! ## Partial attention (R223, R224) -/

/-- The device's fp32 exponential: within 2 units in the last place of the exact value (R223); which of those values
is open, so it is an opaque offset from the value rounded down. -/
def devExp (x : F32) : F32 :=
  if x = F.negInf then 0
  else if F.isNan x then BitVec.ofNat 32 fmt32.nan
  else if F.isZero x then BitVec.ofNat 32 (0x3F7FFFFC + Config.expZero.val)
  else
    let d := expDown x
    let up := d.toNat + (Config.expUlp x).val
    if d = 0 ∧ up < 1 then 0 else BitVec.ofNat 32 (min (up - 1) F.posInf.toNat)

def headStart (dh : Nat) : HeadState := { m := F.negInf, l := 0, o := List.replicate dh 0, used := 0, masked := 0 }

/-- One token of the block, with its key and value as they read. -/
def attendToken (q : List F32) (scale : F32) (h : HeadState) (masked : Bool) (key value : List F32) : HeadState :=
  let s := F.mul (dot q key) scale
  if masked ∨ ¬ F.finite s then { h with masked := h.masked + 1 }
  else
    let m2 := F.max h.m s
    let a := devExp (F.sub h.m m2)
    let p := devExp (F.sub s m2)
    { m := m2, l := F.add (F.mul h.l a) p,
      o := List.zipWith (fun o v => F.add (F.mul o a) (F.mul p v)) h.o value,
      used := h.used + 1, masked := h.masked }

/-- combine(A, B) of R224; the counts add. -/
def combineHeads (a b : HeadState) : HeadState :=
  let used := a.used + b.used
  let masked := a.masked + b.masked
  if a.m = F.negInf then { b with used := used, masked := masked }
  else if b.m = F.negInf then { a with used := used, masked := masked }
  else
    let m := F.max a.m b.m
    let ea := devExp (F.sub a.m m)
    let eb := devExp (F.sub b.m m)
    { m := m, l := F.add (F.mul a.l ea) (F.mul b.l eb),
      o := List.zipWith (fun x y => F.add (F.mul x ea) (F.mul y eb)) a.o b.o, used := used, masked := masked }

end Sys2Proof.Machine
end

