-- ==== Sys2Proof/Machine/Objects.lean ====
section
/-! DEFINITION. Sys2Proof/Machine/Objects.lean: objects and their OBJ ranges, placement units, and Deck's write buffer,
map images and durability (R330–R349, R372–R384). -/
namespace Sys2Proof.Machine

/-! ## Sizes -/

def granule : Nat := 4096
def ceilDiv (a b : Nat) : Nat := (a + b - 1) / b

/-- Granules of `n` rows of `b` bytes: whole rows to a granule, or two granules for a row above 4 KiB (R130, R211). -/
def rowGranules (b n : Nat) : Nat :=
  if n = 0 then 0 else if 4096 < b then n * ceilDiv b 4096 else ceilDiv n (4096 / b)

/-- SK1 rows of a granule (R212). -/
def sk1Rows (d : Nat) : Nat := 4096 / (d / 8 + 12)

/-- Stored size of one row (INDEX FORMAT 1 I8A, 2 BF16; TABLE also 3 I4A). -/
def formatBytes (format d : Nat) : Nat :=
  if format = 1 then 2 + d else if format = 2 then 2 * d else if format = 3 then 2 + d / 2 else 0

def tokBytes (t : Option Tok8) : Nat := match t with | some x => 64 + 128 * x.codes.length | none => 0

/-- Granules of SK1 rows: each stand of each segment begins a granule of its own (log entry 89). -/
def sk1Granules (d : Nat) (stands : List Nat) : Nat :=
  (stands.eraseDups.map (fun s => ceilDiv (stands.count s) (sk1Rows d))).sum

/-- Where a piece of `n` bytes that may not straddle a granule ends, when the bytes before it end at `pos` (R130). -/
def putPiece (n pos : Nat) : Nat := if pos % 4096 + n ≤ 4096 then pos + n else (pos / 4096 + 1) * 4096 + n

/-- Where a TOK8 record ends: its header, then whole tokens in each granule (R130). -/
def putTokRecord (pos : Nat) (t : Option Tok8) : Nat :=
  match t with
  | some x => x.codes.foldl (fun q _ => putPiece 128 q) (putPiece 64 pos)
  | none => pos

/-- Granules of TOK8 records laid one behind another. -/
def tokGranules (ts : List (Option Tok8)) : Nat := ceilDiv (ts.foldl putTokRecord 0) 4096

/-- Stored bytes of a block of `n` I4A rows: its rows in their granules and the block scale entry (R126, R619; log entry
89). -/
def i4Bytes (d n : Nat) : Nat := 4096 * rowGranules (2 + d / 2) n + 4

def standOf (c : Coll) (o : Nat) : Nat := ((c.recs.find? (fun r => r.ordinal = o)).map RowRec.stand).getD 0

def segRows (g : Segment) : List SeasonedRow := g.blocks.flatMap Block.rows

/-- SK1, green BF16 and green TOK8 bytes in HBM (R331, R619). -/
def Coll.fixedHbm (c : Coll) : Nat :=
  4096 * (sk1Granules c.dim (c.green.map (fun g => standOf c g.ordinal)) +
    rowGranules (2 * c.dim) c.green.length +
    tokGranules (c.green.map GreenRow.tok) +
    (c.segs.map (fun g => sk1Granules c.dim (g.blocks.flatMap (fun b => b.rows.map (fun _ => b.stand))))).sum)

/-- Raw bytes of the FORMAT rows, which stay in flash (R331). -/
def Coll.formatRaw (c : Coll) : Nat :=
  formatBytes c.format c.dim * ((c.segs.map (fun g => (segRows g).length)).sum)

/-- Stored frame bytes of a unit in flash: at most its raw size (R347), at least one byte. -/
def frameOf (id raw : Nat) : Nat :=
  let n := max 1 (Config.unitFrame id raw)
  if raw - raw / 16 < n then raw else n

/-! ## Units (R333–R337) -/

def sameUnit (p : Nat) (k : UnitKind) (u : PUnit) : Bool := u.part = p && u.kind = k
def findUnit (s : State) (p : Nat) (k : UnitKind) : Option PUnit := s.skidder.units.find? (sameUnit p k)
def onUnits (f : List PUnit → List PUnit) (s : State) : State :=
  { s with skidder := { s.skidder with units := f s.skidder.units } }

/-- Stored bytes of a unit in HBM, copies included. -/
def PUnit.hbm (u : PUnit) : Nat := if u.loc = .hbm then ceilDiv u.size 4096 * 4096 * (1 + u.copies) else 0
def PUnit.flash (u : PUnit) : Nat := if u.loc = .flash then frameOf u.id u.size else 0
def PUnit.pool (u : PUnit) : Nat := if u.loc = .pool then frameOf u.id u.size else 0

/-- Where a new unit of a class begins: HBM for PINNED_HBM and HOT, local flash else (R330; log entry 12). -/
def startLoc (cls : Nat) : UnitLoc := if cls ≤ 1 then .hbm else .flash

/-! ## Space -/

/-- Total of the reserved HBM ranges (R625): the Deck map takes 5 bytes per 16 KiB of raw flash, in 2 MiB. -/
def reservedSizes (s : State) : List Nat :=
  [4000000000, ceilDiv (5 * ceilDiv s.deck.rawBytes 16384) 2097152 * 2097152, 256000000, 2000000000, 2000000000]
def placeableHbm (s : State) : Nat := 8 * stackBytes - (reservedSizes s).sum

def collUnit (c : Nat) (u : PUnit) : Bool :=
  match u.kind with
  | .i4Block x _ _ => x = c
  | .tok8 x _ => x = c
  | .tableBlock x _ => x = c
  | _ => false

/-- HBM bytes of a partition: what R331 keeps in HBM, weights, text images, and placed units with copies. -/
def hbmOf (s : State) (p : Nat) : Nat :=
  let t := part s p
  (t.colls.map (fun c => c.fixedHbm + 2 * c.dim * c.centroids.length)).sum + (t.models.map Model.weightBytes).sum +
    (t.vocabs.map Vocab.bytes).sum + (t.grammars.map Grammar.bytes).sum +
    ((s.skidder.units.filter (fun u => u.part = p)).map PUnit.hbm).sum

def hbmUsed (s : State) : Nat := ((List.range 12).map (hbmOf s)).sum

/-- Placeable HBM outside the copy-up reserve of 1 GB that is free (R332). -/
def freeHbm (s : State) : Nat := placeableHbm s - 1000000000 - hbmUsed s

/-- PARTITION_LAYOUT of a partition: HBM_CEILING in GB, FLASH_SHARE, ENABLED (R524). -/
def layoutValue (s : State) : List Byte := ((s.hallmark.items.getD 1 { budget := 0, remaining := 0, value := [] }).value)
def ceilingIn (v : List Byte) (p : Nat) : Nat := unle ((v.drop (4 * p)).take 2)
def shareIn (v : List Byte) (p : Nat) : Nat := (v.getD (2 + 4 * p) 0).toNat
def enabledIn (v : List Byte) (p : Nat) : Bool := (v.getD (3 + 4 * p) 0).toNat.testBit 0

/-- `need` more HBM bytes fit in free HBM and under the partition's ceiling (R333, R525). -/
def hbmRoom (s : State) (p need : Nat) : Bool :=
  decide (need ≤ freeHbm s) &&
    (ceilingIn (layoutValue s) p = 0 || decide (hbmOf s p + need ≤ ceilingIn (layoutValue s) p * 1000000000))

/-- Units of device data; a host extent's flash is that of its image. -/
def PUnit.device (u : PUnit) : Bool := match u.kind with | .extent _ _ => false | _ => true

/-- Flash bytes of a partition: images, reservations of dirty extents, device data (R374, R393). -/
def flashOf (s : State) (p : Nat) : Nat :=
  ((s.deck.images.filter (fun i => i.part = p)).map FlashImage.frameLen).sum +
    65536 * (s.deck.buffer.filter (fun b => b.part = p && b.dirty)).length +
    ((s.skidder.units.filter (fun u => u.part = p && u.device)).map PUnit.flash).sum +
    ((part s p).colls.map (fun c => if c.formatRaw = 0 then 0 else frameOf c.num c.formatRaw)).sum

/-! ## Stripes (R336) and regions (R340, R507) -/

/-- How many of `m` groups, striped from stack `s0` on, lie on stack `k` (R336). -/
def stripeOn (m s0 k : Nat) : Nat := m / 8 + (if (k + 8 - s0 % 8) % 8 < m % 8 then 1 else 0)

/-- Granules of a group: two for the rows of a TABLE whose rows are larger than 4 KiB (R211, R336). -/
def groupGranules (t : Part) (u : PUnit) : Nat :=
  match u.kind with
  | .tableBlock n _ => match t.colls.find? (fun c => decide (c.num = n)) with
    | some c => if 4096 < formatBytes c.format c.dim then 2 else 1
    | none => 1
  | _ => 1

/-- Granules of a unit on stack `k`: copy `c` is striped from the stack `s0 + c` on (R336, R337). -/
def unitOn (t : Part) (u : PUnit) (k : Nat) : Nat :=
  if u.loc = .hbm then
    let g := groupGranules t u
    g * ((List.range (1 + u.copies)).map (fun c => stripeOn (ceilDiv (ceilDiv u.size 4096) g) (u.s0 + c) k)).sum
  else 0

/-- SK1 granules on stack `k`: each stand's are striped from the stack `stand mod 8` on (R336). -/
def sketchOn (d : Nat) (stands : List Nat) (k : Nat) : Nat :=
  (stands.eraseDups.map (fun x => stripeOn (ceilDiv (stands.count x) (sk1Rows d)) x k)).sum

/-- What a collection keeps in HBM whatever its TIER, on stack `k` (R331). -/
def collOn (p : Nat) (c : Coll) (k : Nat) : Nat :=
  let first (i : Nat) : Nat := (Config.fixedStack p i c.num).val
  let g := if 4096 < 2 * c.dim then 2 else 1
  sketchOn c.dim (c.green.map (fun x => standOf c x.ordinal)) k +
    (c.segs.map (fun x => sketchOn c.dim (x.blocks.flatMap (fun b => b.rows.map (fun _ => b.stand))) k)).sum +
    g * stripeOn (rowGranules (2 * c.dim) c.green.length / g) (first 0) k +
    stripeOn (tokGranules (c.green.map GreenRow.tok)) (first 1) k +
    stripeOn (ceilDiv (2 * c.dim * c.centroids.length) 4096) (first 2) k

/-- Granules of a partition on stack `k`. -/
def granulesOn (s : State) (p k : Nat) : Nat :=
  let t := part s p
  let fixed (i n bytes : Nat) : Nat := stripeOn (ceilDiv bytes 4096) (Config.fixedStack p i n).val k
  (t.colls.map (fun c => collOn p c k)).sum + (t.models.map (fun m => fixed 3 m.handle m.weightBytes)).sum +
    (t.vocabs.map (fun v => fixed 4 v.handle v.bytes)).sum + (t.grammars.map (fun g => fixed 5 g.handle g.bytes)).sum +
    ((s.skidder.units.filter (fun u => u.part = p)).map (fun u => unitOn t u k)).sum

/-- Reserved ranges with their bases (R625). -/
def reservedRanges (s : State) : List (Nat × Nat) := (reservedSizes s).zipIdx.map (fun x => (Config.reservedBase x.2, x.1))

/-- Free granules of stack `k`. -/
def freeGranules (s : State) (k : Nat) : Nat :=
  (stackBytes - ((reservedRanges s).map (fun r => if addrStack r.1 = k then r.2 else 0)).sum) / 4096 -
    ((List.range 12).map (fun p => granulesOn s p k)).sum

/-- The stack with the most free granules, the lower of equals: where the stripe of a new unit begins (R336). -/
def fullestStack (s : State) : Nat :=
  (List.range 8).foldl (fun b k => if freeGranules s b < freeGranules s k then k else b) 0

/-- 2 MiB regions of a stack, and the address of one. -/
def regionCount : Nat := stackBytes / 2097152
def regionAddr (die i : Nat) : Nat := hbmBase + die * 0x20000000000 + i * 2097152

/-- A region that Skidder may assign: owned by no partition, no part of a reserved range, populated. -/
def regionFree (s : State) (die i : Nat) : Bool :=
  decide (i < regionCount) && !s.skidder.regions.any (fun r => decide (r.die = die ∧ r.index = i)) &&
    (reservedRanges s).all (fun r => decide (regionAddr die i + 2097152 ≤ r.1) || decide (r.1 + r.2 ≤ regionAddr die i))

/-- The free region that Skidder takes next on a die: no rule says which (log entry 100). -/
def nextRegion (s : State) (die : Nat) : Option Nat :=
  ((List.range regionCount).map (fun n => (Config.regionPick s.skidder.regionDraws + n) % regionCount)).find? (regionFree s die)

/-- Assign one region of a die to a partition: the whole of it is overwritten with zeros first (R340). -/
def grantRegion (p die : Nat) (s : State) : State :=
  match nextRegion s die with
  | some i =>
    { s with
      mem := cellsClear s.mem (regionAddr die i) 2097152
      skidder := { s.skidder with
        regions := s.skidder.regions ++ [{ die := die, index := i, owner := p }], regionDraws := s.skidder.regionDraws + 1 } }
  | none => s

def regionsOf (s : State) (p die : Nat) : List Region := s.skidder.regions.filter (fun r => decide (r.die = die ∧ r.owner = p))

/-- The partition owns the regions that its granules on a die fill: more are granted, those it has no more use for return. -/
def settleDie (p : Nat) (s : State) (die : Nat) : State :=
  let need := ceilDiv (granulesOn s p die) 512
  let mine := regionsOf s p die
  if mine.length ≤ need then (List.range (need - mine.length)).foldl (fun s _ => grantRegion p die s) s
  else
    let back := mine.drop need
    { s with skidder := { s.skidder with regions := s.skidder.regions.filter (fun r => !decide (r ∈ back)) } }

def settlePart (p : Nat) (s : State) : State := (List.range 8).foldl (settleDie p) s
def settleRegions (s : State) : State := (List.range 12).foldl (fun s p => settlePart p s) s

/-- The granule at place `n` of those that a partition's data takes on a die: regions in order of grant, 512 granules each, and
within the region no pseudo-channel of a faulted engine (R507, R576). -/
def granuleAt (s : State) (p die n : Nat) : Nat :=
  let rs := regionsOf s p die
  let i := match rs[n / 512 % rs.length]? with | some r => r.index | none => 0
  let bad := (stackOf s die).faulted
  let ch := ((List.range 64).map (fun k => (n + k) % 64)).find? (fun e => !bad.getLsbD e)
  regionAddr die i + (n % 512 / 64 * 64 + ch.getD (n % 64)) * 4096

/-- Address of the first granule of group `g` of a unit's copy `c` (R336, R337): the unit's granules on a stack are consecutive,
from a first place that no rule gives (log entry 44). -/
def unitGranule (s : State) (u : PUnit) (g c : Nat) : Nat :=
  let k := (u.s0 + c + g) % 8
  granuleAt s u.part k (Config.granuleAt u.id c k + g / 8 * groupGranules (part s u.part) u)

/-- The copy that a reader takes of a group: of those whose engine is in service the one whose stack has the fewest engines
holding grants, the lower stack when equal (R337, R576). -/
def readerCopy (s : State) (u : PUnit) (g : Nat) : Nat :=
  let up (c : Nat) : Bool :=
    let a := unitGranule s u g c
    !(stackOf s (addrStack a)).faulted.getLsbD (addrEngine a)
  let rank (c : Nat) : Nat × Nat := let k := (u.s0 + c + g) % 8; ((stackOf s k).granted.length, k)
  let better (a b : Nat) : Bool :=
    if up a ≠ up b then up a
    else decide ((rank a).1 < (rank b).1) || (decide ((rank a).1 = (rank b).1) && decide ((rank a).2 < (rank b).2))
  (List.range u.copies).foldl (fun b c => if better (c + 1) b then c + 1 else b) 0

def onDeck (f : Deck → Deck) (s : State) : State := { s with deck := f s.deck }

/-- `n` map updates: the journal reaches flash after 8,192 of them, and a checkpoint comes before 640,000,000 (R394). -/
def journalAdd (now n : Nat) (d : Deck) : Deck :=
  { d with
    journal := if 8192 ≤ d.journal + n then 0 else d.journal + n
    lastFlush := if 8192 ≤ d.journal + n then now else d.lastFlush
    sinceCheckpoint := if 640000000 < d.sinceCheckpoint + n then n else d.sinceCheckpoint + n }

/-- The channel of a block: blocks are numbered across the populated channels, and across each channel's LUNs (log entry 102). -/
def Deck.channelOf (d : Deck) (b : Nat) : Nat := b % d.channels
def Deck.lunOf (d : Deck) (b : Nat) : Nat := b / d.channels % d.luns

/-- Loupe's record of a read (0), program (1) or erase (2) of a page (R519). -/
def traceFlash (p ch lun op page : Nat) (s : State) : State := trace 4 p 7 (ch + lun * 256 + op * 4096) page s

/-- Change Deck by `f`, with Loupe's records of the pages of host extents that it programmed and the blocks that it erased. -/
def onDeckPages (f : Deck → Deck) (s : State) : State :=
  let d := s.deck
  let t := onDeck f s
  let wrote := t.deck.images.flatMap (fun i => (i.pieces.filter (fun x => decide (d.writeSeq ≤ x.seq))).map (fun x => (i.part, x)))
  let erased := t.deck.blocks.filter (fun b => d.blocks.any (fun x => decide (x.id = b.id) && decide (x.pe < b.pe)))
  let t := wrote.foldl (fun t x =>
    traceFlash x.1 (d.channelOf x.2.block) (d.lunOf x.2.block) 1 (Config.flashPage x.2.block x.2.seq) t) t
  erased.foldl (fun t b => traceFlash 14 (d.channelOf b.id) (d.lunOf b.id) 2 (Config.flashPage b.id 0) t) t

/-- The block number that avoids nothing: no block carries it. -/
def noBlock : Nat := 2 ^ 64

/-- A block of a channel for Deck's next piece: not a retired one and not `avoid`. -/
def openBlock (d : Deck) (avoid ch : Nat) : Nat :=
  let b := Config.deckBlock d.writeSeq * d.channels + ch
  if b ∈ d.bad ∨ b = avoid then ((d.bad ++ d.blocks.map FlashBlock.id).foldl max (if avoid = noBlock then 0 else avoid) / d.channels + 1) * d.channels + ch else b

/-- Deck programs a frame of device data of partition `p`, or of a unit held for another device: pages, journal and bytes counted
(R369, R405). -/
def programDevice (p bytes : Nat) (s : State) : State :=
  let d := s.deck
  let t := onDeck (fun d => journalAdd s.time (ceilDiv bytes 16384)
    { d with writeSeq := d.writeSeq + ceilDiv bytes 16384, programmed := d.programmed + bytes }) s
  (List.range (ceilDiv bytes 16384)).foldl (fun t i =>
    let b := openBlock d noBlock ((Config.deckChannel d.writeSeq + i) % d.channels)
    traceFlash p (d.channelOf b) (d.lunOf b) 1 (Config.flashPage b (d.writeSeq + i)) t) t

/-! ## Units placed and dropped -/

/-- Add a unit, its stripe beginning on the stack with the most free granules; device data that begins in flash is programmed. -/
def addUnit (p : Nat) (k : UnitKind) (cls : Nat) (loc : UnitLoc) (size addr : Nat) (s : State) : State :=
  let host : Bool := match k with | .extent _ _ => true | _ => false
  let s := if loc = .flash ∧ ¬ host then programDevice p (frameOf s.skidder.nextUnit size) s else s
  settlePart p { s with skidder := { s.skidder with
      units := s.skidder.units ++ [{ id := s.skidder.nextUnit, part := p, kind := k, cls := cls, loc := loc,
                                     size := size, heat := 0, copies := 0, addr := addr,
                                     s0 := fullestStack s, holders := [] }]
      nextUnit := s.skidder.nextUnit + 1 } }

def dropUnits (sel : PUnit → Bool) (s : State) : State := settleRegions (onUnits (fun us => us.filter (fun u => !sel u)) s)

/-- One command reads or writes the unit: heat + 1, at most 65,535 (R334). -/
def heatUnit (p : Nat) (k : UnitKind) (s : State) : State :=
  onUnits (mapWhere (sameUnit p k) (fun u => { u with heat := min 65535 (u.heat + 1) })) s

/-- A place of a unit in Loupe's records: HBM, flash or pool. -/
def locCode : UnitLoc → Nat
  | .hbm => 0 | .flash => 1 | .pool => 2

/-- Change units by `f`, with Loupe's record of each that moved (R519). -/
def moveUnits (f : PUnit → PUnit) (s : State) : State :=
  (s.skidder.units.filter (fun u => decide (u.loc ≠ (f u).loc))).foldl
    (fun t u => trace 9 u.part 6 u.addr (locCode u.loc + 16 * locCode (f u).loc) t) (onUnits (fun us => us.map f) s)

/-- Change one unit. -/
def moveUnit (id : Nat) (f : PUnit → PUnit) (s : State) : State := moveUnits (fun u => if u.id = id then f u else u) s

/-- Set a unit's location. -/
def placeUnit (p : Nat) (k : UnitKind) (loc : UnitLoc) (s : State) : State :=
  settlePart p (moveUnits (fun u => if sameUnit p k u then { u with loc := loc, copies := 0, holders := [] } else u) s)

def poolHeldBytes (s : State) : Nat := (s.skidder.held.map (fun h => h.data.length)).sum

/-- Stored frame bytes charged against CAPACITY (R374). -/
def flashUsed (s : State) : Nat := ((List.range 12).map (flashOf s)).sum + poolHeldBytes s

/-! ## Objects (R338–R342) -/

/-- An OBJ range: partition, handle, base, size, and whether it is a host object. -/
structure ObjRange where
  part : Nat
  handle : Nat
  base : Nat
  size : Nat
  host : Bool
  deriving DecidableEq, Repr

def deviceHandle (kind n : Nat) : Nat := 0x8000000000000000 + kind * 2 ^ 48 + n

/-- Rows of a TABLE in one granule, and its OBJ extent (R342). -/
def tableSpan (c : Coll) : Nat :=
  let b := formatBytes c.format c.dim
  if b ≤ 4096 then ceilDiv c.tableRows (4096 / b) * 4096 else c.tableRows * (ceilDiv b 4096) * 4096

def rangesOf (s : State) (p : Nat) : List ObjRange :=
  let t := part s p
  t.objs.map (fun o => { part := p, handle := o.handle, base := o.base, size := o.size, host := true }) ++
  (t.colls.filter (fun c => c.kind = 1)).map (fun c =>
    { part := p, handle := deviceHandle 1 c.num, base := c.base, size := tableSpan c, host := false }) ++
  t.models.map (fun m => { part := p, handle := deviceHandle 2 m.handle, base := m.base, size := m.weightBytes, host := false }) ++
  t.vocabs.map (fun v => { part := p, handle := deviceHandle 3 v.handle, base := v.base, size := v.bytes, host := false }) ++
  t.grammars.map (fun g => { part := p, handle := deviceHandle 4 g.handle, base := g.base, size := g.bytes, host := false })

def allRanges (s : State) : List ObjRange := (List.range 12).flatMap (rangesOf s)

def roundUp2M (n : Nat) : Nat := ceilDiv n 2097152 * 2097152

/-- Slice of a partition in the OBJ region: 16 TiB (R461). -/
def sliceBase (p : Nat) : Nat := objRegion + p * 0x100000000000

/-- A free range in partition `p`'s slice: the lowest for a host object, the highest for a device object (R339, R461). -/
def allocObj (s : State) (p size : Nat) (host : Bool) : Option Nat :=
  let rs := rangesOf s p
  let n := roundUp2M size
  let fits (b : Nat) : Bool :=
    decide (sliceBase p ≤ b) && decide (b + n ≤ sliceBase (p + 1)) &&
      rs.all (fun r => decide (b + n ≤ r.base) || decide (r.base + roundUp2M r.size ≤ b))
  let cands := if host then sliceBase p :: rs.map (fun r => r.base + roundUp2M r.size)
    else (sliceBase (p + 1) - n) :: rs.map (fun r => r.base - n)
  (cands.filter fits).foldl (fun best b =>
    match best with | none => some b | some x => some (if host then min x b else max x b)) none

/-- The object whose SIZE bytes hold `a` (R44). The model's choice (log entry 88): of a range rounded up to 2 MiB (R339) only
the first SIZE bytes are populated, and a line is judged by its first byte. -/
def objAt (s : State) (a : Nat) : Option ObjRange :=
  (allRanges s).find? (fun r => decide (r.base ≤ a) && decide (a < r.base + r.size))

/-- A local address lies in a populated range (R38): registers, SRAM, HBM or a mapped object. -/
def populated (s : State) (a : Nat) : Bool :=
  decide (a < 0x4000000) ||
  (decide (sramBase ≤ a) && decide (a < sramBase + 0x40000000) && sramPopulated (a - sramBase)) ||
  (decide (hbmBase ≤ a) && decide (a < objRegion) && hbmPopulated (a - hbmBase)) ||
  (objAt s a).isSome

def findObj (s : State) (p h : Nat) : Option Obj := (part s p).objs.find? (fun o => o.handle = h)

/-- Extents that [off, off + n) touches. -/
def extentsOf (off n : Nat) : List Nat :=
  if n = 0 then [] else (List.range ((off + n - 1) / 65536 + 1 - off / 65536)).map (fun k => off / 65536 + k)

/-- Bytes of extent `e` that lie inside the object. -/
def extentLen (o : Obj) (e : Nat) : Nat := min 65536 (o.size - e * 65536)

/-- Cells of [a, a + n), by offset. -/
def sliceCells (m : List Host.Cell) (a n : Nat) : List Host.Cell :=
  (m.filter (fun c => decide (a ≤ c.1) && decide (c.1 < a + n))).map (fun c => (c.1 - a, c.2))

/-- [a, a + n) holds exactly `cs`, given by offset. -/
def placeCells (m : List Host.Cell) (a n : Nat) (cs : List Host.Cell) : List Host.Cell :=
  cs.foldl (fun m c => cellsWrite m (a + c.1) c.2) (cellsClear m a n)

/-! ## Deck: buffer, images, poison -/

def isBuf (p h e : Nat) (b : BufExtent) : Bool := b.part = p && b.handle = h && b.extent = e
def isImg (p h e : Nat) (b : FlashImage) : Bool := b.part = p && b.handle = h && b.extent = e
def isPoisoned (s : State) (p h e : Nat) : Bool := decide ((p, h, e) ∈ s.deck.poisoned)
def unpoison (p h e : Nat) (d : Deck) : Deck := { d with poisoned := d.poisoned.filter (fun x => x ≠ (p, h, e)) }

/-- Frame length of an extent's bytes: stored raw when coding would save less than one sixteenth (R347). -/
def burlFrame (raw : Nat) (cs : List Host.Cell) : Nat :=
  let n := max 1 (Config.burlLen cs)
  if raw - raw / 16 < n then raw else n

/-- The present temperature of a LUN (R385). -/
def lunTemp (d : Deck) (ch lun n : Nat) : Int :=
  if (ch, lun) ∈ d.sensors then Config.lunSensor ch lun n else Config.areaSensor ch n

/-- Count the block among those in use. -/
def useBlock (b : Nat) (d : Deck) : Deck :=
  if d.blocks.any (fun x => x.id = b) then { d with blocks := mapWhere (fun x => x.id = b) (fun x => { x with written := true }) d.blocks }
  else { d with blocks := d.blocks ++ [{ id := b, pe := 0, written := true }] }

/-- The pieces of a frame of `k` pieces, the first of its atomic group being WRITE_SEQ `first`: on different channels (R367), in
ascending WRITE_SEQ. -/
def newPieces (d : Deck) (avoid k first : Nat) : List FlashPiece :=
  (List.range k).map (fun i =>
    let b := openBlock d avoid ((Config.deckChannel d.writeSeq + i) % d.channels)
    { block := b, seq := d.writeSeq + i, time := d.deckTime
      temp := lunTemp d (d.channelOf b) (d.lunOf b) (d.writeSeq + i), delta := d.writeSeq + i - first })

/-- Pieces of the frame of an extent's present bytes. -/
def pieceCount (o : Obj) (e : Nat) (s : State) : Nat :=
  ceilDiv (burlFrame (extentLen o e) (sliceCells s.mem (o.base + e * 65536) (extentLen o e))) 16384

/-- Program one extent: new frame, new mapping, one journal record a piece, clean in the buffer (R377). `group`: WRITE_SEQ of the
first piece and the pieces of its atomic group (R380). -/
def programTo (avoid : Nat) (p : Nat) (o : Obj) (e : Nat) (group : Option (Nat × Nat)) (s : State) : State :=
  let cs := sliceCells s.mem (o.base + e * 65536) (extentLen o e)
  let n := burlFrame (extentLen o e) cs
  let k := ceilDiv n 16384
  onDeckPages (fun d =>
    let ps := newPieces d avoid k ((group.map (fun g => g.1)).getD d.writeSeq)
    let ps := if group.isSome then ps else ps.map (fun x => { x with delta := 0 })
    journalAdd s.time k ((ps.map FlashPiece.block).foldl (fun d b => useBlock b d) { d with
      images := d.images.filter (fun i => !isImg p o.handle e i) ++
        [{ part := p, handle := o.handle, extent := e, cells := cs, rawLen := extentLen o e, frameLen := n
           groupPieces := (group.map (fun g => g.2)).getD 0, pieces := ps }]
      buffer := mapWhere (isBuf p o.handle e) (fun b => { b with dirty := false, group := none }) d.buffer
      writeSeq := d.writeSeq + k
      programmed := d.programmed + n })) s

def programOne (p : Nat) (o : Obj) (e : Nat) (s : State) : State := programTo noBlock p o e none s

/-- Extents programmed together with (p, h, e): its whole atomic group (R380). -/
def groupOf (s : State) (p h e : Nat) : List (Nat × Nat × Nat) :=
  match s.deck.buffer.find? (isBuf p h e) with
  | some b =>
    match b.group with
    | some g => (s.deck.buffer.filter (fun x => x.group = some g)).map (fun x => (x.part, x.handle, x.extent))
    | none => [(p, h, e)]
  | none => [(p, h, e)]

/-- Program an extent with its atomic group, whose mappings switch together. -/
def programExtent (p h e : Nat) (s : State) : State :=
  let g := groupOf s p h e
  let pieces := (g.map (fun x => match findObj s x.1 x.2.1 with | some o => pieceCount o x.2.2 s | none => 0)).sum
  let atomic : Bool := match s.deck.buffer.find? (isBuf p h e) with | some b => b.group.isSome | none => false
  let group := if atomic then some (s.deck.writeSeq, pieces) else none
  g.foldl (fun s x =>
    match findObj s x.1 x.2.1 with
    | some o => programTo noBlock x.1 o x.2.2 group s
    | none => s) s

/-- The page tag of piece `n` of an image (R368). -/
def pageTag (s : State) (i : FlashImage) (n : Nat) : List Byte :=
  let x := i.pieces.getD n { block := 0, seq := 0, time := 0, temp := 0, delta := 0 }
  let raw := (List.range i.rawLen).map (fun k => ((i.cells.find? (fun c => decide (c.1 = k))).map (fun c => c.2)).getD 0)
  let head := le 1 0 ++ le 1 i.part ++ le 1 (n + 16 * i.pieces.length) ++
    le 1 ((if 0 < i.groupPieces then 1 else 0) + (if i.frameLen < i.rawLen then 2 else 0)) ++
    [BitVec.ofInt 8 x.temp] ++ le 1 (2 ^ (Config.burlStride i.cells).val) ++ le 2 (i.rawLen - 1) ++ le 8 i.handle ++
    le 4 i.extent ++ le 4 i.frameLen ++ le 8 x.seq ++ le 4 x.time ++ le 4 (crc32c raw).toNat ++ le 2 x.delta ++
    le 2 i.groupPieces ++ zeros 4
  head ++ padTo 16 (Config.pieceTag (flashKey (part s i.part)) head i.cells)

def dirtyList (s : State) : List BufExtent := s.deck.buffer.filter BufExtent.dirty

/-- Program the oldest dirty extents until `n` more fit under 512 MB (R375). -/
def makeRoom (n : Nat) : Nat → State → State
  | 0, s => s
  | f + 1, s =>
    if (dirtyList s).length + n ≤ 7812 then s
    else
      match dirtyList s with
      | b :: _ => makeRoom n f (programExtent b.part b.handle b.extent s)
      | [] => s

/-- The buffer holds the extent dirty. -/
def isDirty (s : State) (p h e : Nat) : Bool := s.deck.buffer.any (fun b => isBuf p h e b && b.dirty)

/-- Program every dirty extent that `sel` takes; one that its group has taken along is programmed once. -/
def programWhere (sel : BufExtent → Bool) (s : State) : State :=
  ((dirtyList s).filter sel).foldl (fun s b =>
    if isDirty s b.part b.handle b.extent then programExtent b.part b.handle b.extent s else s) s

/-- Mark an extent dirty at the young end of the buffer, in an atomic group or none; the groups of the extents written
are joined to the new one (R376, R380). The buffer holds 4 GB of extents, clean ones leaving oldest first (R377). -/
def dirtyExtent (p h e : Nat) (g : Option Nat) (d : Deck) : Deck :=
  let old := (d.buffer.find? (isBuf p h e)).bind BufExtent.group
  let g2 := if g.isSome then g else old
  let rest := d.buffer.filter (fun b => !isBuf p h e b)
  let rest := if g.isSome ∧ old.isSome then mapWhere (fun b => b.group = old) (fun b => { b with group := g }) rest else rest
  let all := rest ++ [{ part := p, handle := h, extent := e, dirty := true, group := g2 }]
  let clean := all.filter (fun b => !b.dirty)
  let drop := all.length - 61035
  { d with buffer := all.filter (fun b => b.dirty || !decide (b ∈ clean.take drop)) }

/-- Plain bytes of a unit as its owner seals them for holders: a host extent's present bytes; device data has no stored form
of its own outside its codings. -/
def unitPlain (s : State) (u : PUnit) : List Byte :=
  match u.kind with
  | .extent _ _ => readMem s u.addr u.size
  | _ => (List.range u.size).map (fun i => Config.deviceByte (u.id * 2 ^ 32 + i))

/-- Send a unit, encrypted under its partition's key, to its holders (R349). -/
def storeAtHolders (u : PUnit) (s : State) : State :=
  u.holders.foldl (fun t d =>
    sendFw d u.part (.poolStore u.id (Config.poolSeal (flashKey (part s u.part)) u.id (unitPlain s u))) t) s

/-- A write of a host extent reaches the holders of its unit (R382). -/
def refreshHolders (p : Nat) (k : UnitKind) (s : State) : State :=
  match findUnit s p k with
  | some u => if u.loc = .pool then storeAtHolders u s else s
  | none => s

/-- A write drops the copies of the unit it reaches (R337). -/
def dropUnitCopies (p : Nat) (k : UnitKind) (s : State) : State :=
  settlePart p (onUnits (mapWhere (sameUnit p k) (fun u => { u with copies := 0 })) s)

/-- Write bytes of a host object by SEG_WRITE: present bytes, buffer, poison cleared where a whole extent is covered. -/
def segStore (p : Nat) (o : Obj) (off : Nat) (data : List Byte) (g : Option Nat) (s : State) : State :=
  let es := extentsOf off data.length
  let s := makeRoom es.length (dirtyList s).length s
  let s := writeMem (o.base + off) data s
  es.foldl (fun s e =>
    let whole := decide (off ≤ e * 65536) && decide (e * 65536 + extentLen o e ≤ off + data.length)
    let s := onDeck (fun d => dirtyExtent p o.handle e g (if whole then unpoison p o.handle e d else d)) s
    let k := UnitKind.extent o.handle e
    let s := if (findUnit s p k).isSome then s else addUnit p k o.tier (startLoc o.tier) 65536 (o.base + e * 65536) s
    heatUnit p k (dropUnitCopies p k (refreshHolders p k s))) s

/-- Forget every stored copy of an extent: mapping, buffer copy and unit (R373). -/
def dropExtent (p h e : Nat) (s : State) : State :=
  dropUnits (sameUnit p (.extent h e))
    (onDeck (fun d => unpoison p h e { d with images := d.images.filter (fun i => !isImg p h e i),
                                              buffer := d.buffer.filter (fun b => !isBuf p h e b) }) s)

/-- Holders are told to free their copies of a unit's data (R345). -/
def freeHolders (p : Nat) (u : PUnit) (s : State) : State :=
  u.holders.foldl (fun s d => sendFw d p (.poolFree u.id) s) s

/-- Destroy a host object: bytes, extents, units, handle (R341, R402). -/
def destroyObj (p : Nat) (o : Obj) (s : State) : State :=
  let mine (u : PUnit) : Bool := u.part = p && (match u.kind with | .extent h _ => h = o.handle | _ => false)
  let s := (s.skidder.units.filter mine).foldl (fun s u => freeHolders p u s) s
  let s := dropUnits mine s
  let s := onDeck (fun d => { d with
    images := d.images.filter (fun i => !(i.part = p && i.handle = o.handle)),
    buffer := d.buffer.filter (fun b => !(b.part = p && b.handle = o.handle)),
    poisoned := d.poisoned.filter (fun x => !(x.1 = p && x.2.1 = o.handle)) }) s
  onPart p (fun t => { t with objs := t.objs.filter (fun x => x.handle ≠ o.handle) })
    { s with mem := cellsClear s.mem o.base (roundUp2M o.size) }

/-- A write through a host object's OBJ range: the unit is copied up, its flash image trimmed, holders released, hot
copies dropped (R337, R345, R382). A unit whose frame is poisoned cannot be copied up: the write is discarded (R346). -/
def objStore (r : ObjRange) (a : Nat) (data : List Byte) (s : State) : State :=
  match findObj s r.part r.handle with
  | none => s
  | some o =>
    let off := a - o.base
    let es := extentsOf off data.length
    if es.any (fun e => isPoisoned s r.part o.handle e) then logAdd 4 9 r.part a 3 s
    else
      let s := es.foldl (fun s e =>
        let k := UnitKind.extent o.handle e
        let u := findUnit s r.part k
        let s := match u with | some u => freeHolders r.part u s | none => s
        let up : Bool := match u with | some u => decide (u.loc ≠ .hbm) | none => false
        let s := if u.isSome then placeUnit r.part k .hbm s
          else addUnit r.part k o.tier .hbm 65536 (o.base + e * 65536) s
        let s := if up then { s with skidder := { s.skidder with copyUps := s.skidder.copyUps + 1 } } else s
        heatUnit r.part k (onDeck (fun d => { d with
          images := d.images.filter (fun i => !isImg r.part o.handle e i),
          buffer := d.buffer.filter (fun b => !isBuf r.part o.handle e b) }) s)) s
      writeMem a data s

/-- The bytes of a stored row. -/
def rowBytes (format : Nat) : TRow → List Byte
  | .coded x => codedBytes (format = 3) x
  | .bf16 v => bfBytes v

/-- A row above 4 KiB in its two granules: piece 0 holds any header and components 0–2,047, piece 1 the rest, each padded with
zeros (R211). -/
def rowPieces (format : Nat) (bs : List Byte) : List Byte :=
  let cut := if format = 2 then 4096 else 2 + 2048
  padTo 4096 (bs.take cut) ++ padTo 4096 (bs.drop cut)

/-- Present bytes of a TABLE object at offset `off` (R342): the active slot of the row, padded with zeros. -/
def tableByte (c : Coll) (off : Nat) : Byte :=
  let b := formatBytes c.format c.dim
  let per := 4096 / b
  let j := if b ≤ 4096 then off / 4096 * per + off % 4096 / b else off / 8192
  if b ≤ 4096 ∧ per ≤ off % 4096 / b then 0
  else
    match c.rows.find? (fun r => r.index = c.rowBase + j) with
    | some r =>
      let bs := rowBytes c.format (if r.active1 then r.slot1 else r.slot0)
      if b ≤ 4096 then bs.getD (off % 4096 % b) 0 else (rowPieces c.format bs).getD (off % 8192) 0
    | none => 0

/-- Bytes read at a populated address of the OBJ region (R44, R342, R346). -/
def objLoad (s : State) (r : ObjRange) (a n : Nat) : List Byte :=
  if r.host then
    (cellsReadBytes s.mem a n).zipIdx.map (fun b =>
      if isPoisoned s r.part r.handle ((a + b.2 - r.base) / 65536) then (0xFF : Byte) else b.1)
  else
    match (part s r.part).colls.find? (fun c => c.kind = 1 && deviceHandle 1 c.num = r.handle) with
    | some c => (List.range n).map (fun i => tableByte c (a + i - r.base))
    | none =>
      if (part s r.part).models.any (fun m => deviceHandle 2 m.handle = r.handle) then cellsReadBytes s.mem a n
      else (List.range n).map (fun i => Config.deviceByte (a + i))

/-- Record a deferred error: at most 1,024 records a partition, the rest counted (R384). -/
def deferError (p h e reason : Nat) (s : State) : State :=
  onDeck (fun d => { d with deferredCount := d.deferredCount + 1 })
    (onPart p (fun t =>
      if t.deferred.length < 1024 then { t with deferred := t.deferred ++ [{ handle := h, extent := e, reason := reason }] }
      else { t with deferredExtra := t.deferredExtra + 1 }) s)

/-- Deck becomes read-only when the good bytes beyond CAPACITY fall below 1 % of CAPACITY (R392). -/
def checkReadOnly (d : Deck) : Deck :=
  if (d.goodBytes - d.capacity) * 100 < d.capacity then { d with readOnly := true } else d

/-- The object descriptor of a range (R339, R341). -/
def descriptorBytes (s : State) (r : ObjRange) (tier : Nat) : List Byte :=
  let us := s.skidder.units.filter (fun u => u.part = r.part &&
    (match u.kind with | .extent h _ => h = r.handle | .tableBlock c _ => deviceHandle 1 c = r.handle | _ => false))
  let fixed := if r.host ∨ tier ≠ 0 then 0 else r.size
  let img := ((s.deck.images.filter (fun i => i.part = r.part && i.handle = r.handle)).map FlashImage.frameLen).sum
  let dev := if r.host then 0 else (us.map PUnit.flash).sum
  le 8 r.handle ++ le 8 r.size ++ le 8 r.base ++ le 1 tier ++ le 1 (if r.host then 0 else 1) ++ zeros 6 ++
    le 8 ((us.map PUnit.hbm).sum + fixed) ++ le 8 (img + dev) ++ le 8 ((us.map PUnit.pool).sum) ++ zeros 8

/-- After a reset: each host object reads its flash image, dirty extents that the dump carried read their buffered
bytes, and everything else of it zeros (R379–R382, R397). -/
def restoreObjects (dump : Bool) (s : State) : State :=
  let kept := if dump then dirtyList s else []
  let keep := kept.filterMap (fun b => (findObj s b.part b.handle).map (fun o =>
    (o.base + b.extent * 65536, extentLen o b.extent, sliceCells s.mem (o.base + b.extent * 65536) (extentLen o b.extent))))
  let imgs := s.deck.images.filterMap (fun i => (findObj s i.part i.handle).map (fun o =>
    (o.base + i.extent * 65536, extentLen o i.extent, i.cells)))
  { s with
    mem := (imgs ++ keep).foldl (fun m x => placeCells m x.1 x.2.1 x.2.2) (s.mem.filter (fun c => decide (c.1 < objRegion)))
    deck := { s.deck with buffer := kept } }

end Sys2Proof.Machine
end

