-- ==== Sys2Proof/Machine/Operands.lean ====
section
/-! DEFINITION. Sys2Proof/Machine/Operands.lean: how a command is carried: a mailbox request with its checks, replay and
response (R67–R82), and a submission entry with its checks and completion (R91–R95, R106, R624). -/
namespace Sys2Proof.Machine

/-! ## Operand checks -/

/-- A list of checks in order: (fails, status, detail). The first that fails answers. -/
def firstFail : List (Bool × Nat × Nat) → Option (Nat × Nat)
  | [] => none
  | (true, st, d) :: _ => some (st, d)
  | (false, _, _) :: r => firstFail r

/-- A field of a parameter block: its offset with bit 31 set (R623, DETAIL_A). -/
def inBlock (o : Nat) : Nat := o + 0x80000000

/-- `lo ≤ x ≤ hi` (R17). -/
def within (lo hi x : Nat) : Bool := decide (lo ≤ x) && decide (x ≤ hi)

/-- `n` is a power of two from `lo` to `hi` (`lo` a power of two): at most 17 doublings. -/
def isPow2From (lo hi n : Nat) : Bool :=
  within lo hi n && (List.range 18).any (fun k => decide (n = lo * 2 ^ k))

/-- The field `x` written as 0 takes its default. -/
def dflt (d x : Nat) : Nat := if x = 0 then d else x

/-- Exactly `n` bytes as Landing reads them. -/
def fitBytes (n : Nat) (bs : List Byte) : List Byte := bs.take n ++ zeros (n - bs.length)

/-! ## Mailboxes -/

/-- What a mailbox command's own rules answer. -/
structure MRes where
  st : State
  status : Nat := 0
  detail : Nat := 0
  async : Bool := false
  payload : List Byte := []

/-- A failure that leaves the state as it was (R109). -/
def MRes.fail (s : State) (e : Nat × Nat) : MRes := { st := s, status := e.1, detail := e.2 }

/-- Run `k` when no check fails. -/
def checked (s : State) (l : List (Bool × Nat × Nat)) (k : MRes) : MRes :=
  match firstFail l with
  | some e => .fail s e
  | none => k

/-- The bytes of a response (R70). -/
def replyBytes (r : Reply) : List Byte :=
  le 2 r.opcode ++ le 2 r.tag ++ le 1 r.partition ++ le 1 (if r.async then 3 else 1) ++ zeros 2 ++
    le 4 r.payload.length ++ le 4 r.seq.toNat ++ le 2 r.status ++ zeros 2 ++ le 4 r.detail ++ zeros 8 ++ r.payload

def sessionOf (s : State) (id : Nat) : Option Session := s.sessions.find? (fun x => x.id = id)

/-- Mailboxes that an identity's frames may name (R515). -/
def identityMailbox : Identity → Nat → Bool
  | .operator, m => m = 12 || m = 14 || m = 15
  | .meter, m => m = 14
  | .debug, m => m = 15
  | .tenantDebug _, m => m = 15
  | .setup, m => m = 12

/-- The identity a request came under, if it came by a session. -/
def requestIdentity (s : State) (r : MbxReq) : Option Identity :=
  match r.path with
  | .session id => (sessionOf s id).map Session.identity
  | _ => none

/-- Step 3 of R71 with R515, R516 and R523: the offset of DETAIL when the source may not send the command. -/
def notPermittedAt (s : State) (r : MbxReq) (op : Nat) (item : Option Nat) : Option Nat :=
  let byTable := ((carried op).map (fun c => !c.queue && c.fromMailbox r.mbx)).getD false
  if !byTable then some 0
  else if (op = Op.mtrCompose ∨ op = Op.mtrDecompose) ∧ (requestIdentity s r).isNone then some 0
  else
    match requestIdentity s r with
    | none => none
    | some .setup =>
      if op ≠ Op.secTallyChange then some 0
      else if r.length = 0 ∨ item ≠ some 3 then some 32 else none
    | some (.tenantDebug p) =>
      if op = Op.dbgTrace ∨ op = Op.dbgLoupe ∨ !identityMailbox (.tenantDebug p) r.mbx then some 0 else none
    | some i => if identityMailbox i r.mbx then none else some 0

/-- PARTITION is accepted by the mailbox and session (step 4 of R71; R523). -/
def partitionAccepted (s : State) (r : MbxReq) (op : Nat) : Bool :=
  let byMailbox :=
    if r.mbx < 12 then decide (r.partition = r.mbx)
    else if r.mbx = 13 then decide (r.partition = 14)
    else decide (r.partition < 12) || decide (r.partition = 14)
  let one := !(r.partition = 14 && (op = Op.partCreate || op = Op.partRelease))
  let own := match requestIdentity s r with
    | some (.tenantDebug p) => decide (r.partition = p)
    | _ => true
  byMailbox && one && own

/-- Steps 1 to 5 of R71, with DETAIL as R622 gives it. `step5` is the command's own length check. -/
def headerCheck (s : State) (r : MbxReq) (op : Nat) (item : Option Nat) (step5 : Option (Nat × Nat)) :
    Option (Nat × Nat) :=
  if 4096 < r.length then some (St.invalidLength, 8)
  else if (carried op).isNone then some (St.invalidOpcode, 0)
  else
    match notPermittedAt s r op item with
    | some d => some (St.notPermitted, d)
    | none => if partitionAccepted s r op then step5 else some (St.invalidPartition, 4)

/-- A command with fixed payload lengths (step 5 of R71). -/
def lengthIn (r : MbxReq) (ls : List Nat) : Option (Nat × Nat) :=
  if r.length ∈ ls then none else some (St.invalidLength, 8)

/-- R103, R565 and R99, in that order: the status that stops `op` for partition `p` before its own checks. -/
def gate (s : State) (op : Nat) (p : Option Nat) (byQueue : Bool) : Option Nat :=
  if s.power.needsReset && !runsAtNeedsReset op then some St.needsFullReset
  else if decide (s.power.level = 0) && !runsAtLevel0 op then some St.notReady
  else if decide (s.power.level = 1) && refusedAtLevel1 op then some St.notReady
  else
    match p with
    | none => none
    | some p =>
      match (part s p).state with
      | .active => none
      | .keysPending => if byQueue || !runsAtKeysPending op then some St.keysNotLoaded else none
      | .free => some St.wrongState
      | .releasing => some St.wrongState

/-- The function whose BAR0 exposes mailbox `m` (R66, R69). -/
def mailboxFn (m : Nat) : Nat := if m < 12 then 1 + m else 0

/-- Some function exposes the mailbox, so its MSI-X vector 0 tells of a response (R66, R69). -/
def onBar (m : Nat) : Bool := decide (m < 12) || decide (m = 14)

/-- Signal the next item on I3C when none is signalled, responses first (R82). -/
def signalI3c (s : State) : State :=
  if s.i3cSignalled.isSome then s
  else
    match s.i3cResponses with
    | b :: rest => emit (.i3cItem false) { s with i3cSignalled := some (false, b), i3cResponses := rest }
    | [] => drainHeld .sideband 1 s

/-- Carry a reply back over the path its request came by (R69, R79, R82). -/
def deliverReply (r : MbxReq) (rep : Reply) (s : State) : State :=
  match r.path with
  | .bar => sendMsix (mailboxFn r.mbx) 0 (onMailbox r.mbx (fun b => { b with done := true }) s)
  | .rung =>
    let s := onMailbox r.mbx (fun b => { b with busy := false, done := true }) s
    if onBar r.mbx then sendMsix (mailboxFn r.mbx) 0 s else s
  | .session id => emit (.frame id (frameBytes r.mbx 1 (replyBytes rep))) s
  | .i3c => signalI3c { s with i3cResponses := s.i3cResponses ++ [replyBytes rep] }
  | .jtag => emit (.jtagReply (replyBytes rep)) s

/-- A host access to function `fn` reaches the device: link up, VF there, not D3hot, no IDE stream Insecure (R66, R469, R473,
R475). -/
def hostReaches (s : State) (fn : Nat) : Bool :=
  decide (s.power.phase = .running) && s.landing.linkActive && (decide (fn = 0) || s.landing.vfEnable) &&
    !insecureFn s fn && decide (s.power.state ≠ .d3hot)

/-- The path leads to the mailbox (R65, R66, R78, R82, R518). -/
def pathServes (s : State) (r : MbxReq) : Bool :=
  match r.path with
  | .bar => onBar r.mbx && hostReaches s (mailboxFn r.mbx)
  | .rung => decide (r.mbx < 16)
  | .session id => (sessionOf s id).isSome
  | .i3c => decide (r.mbx = 13)
  | .jtag => decide (r.mbx = 15)

def mkReply (r : MbxReq) (op : Nat) (x : MRes) : Reply :=
  { opcode := op, tag := r.tag, partition := r.partition, async := x.async, seq := r.seq, status := x.status,
    detail := x.detail, payload := x.payload }

/-- DATA0 of CMD_BEGIN and CMD_END for a mailbox. -/
def mbxTrace (r : MbxReq) (op status : Nat) : Nat :=
  op + r.tag * 65536 + 0xFF * 2 ^ 32 + r.mbx * 2 ^ 40 + status * 2 ^ 48

/-- The command's own answer: the header checks, the gates, then `body`. -/
def answer (r : MbxReq) (op : Nat) (item : Option Nat) (step5 : Option (Nat × Nat)) (body : State → MRes)
    (s : State) : MRes :=
  match headerCheck s r op item step5 with
  | some e => .fail s e
  | none =>
    match gate s op (if r.mbx < 12 then some r.mbx else none) false with
    | some st => .fail s (st, 0)
    | none =>
      let x := body (trace 0 r.partition 0 (mbxTrace r op 0) r.seq.toNat s)
      { x with st := trace 0 r.partition 1 (mbxTrace r op x.status) 0 x.st }

/-- Store a fresh answer: its SEQUENCE becomes LAST_SEQ (R72), and the response goes out. -/
def settleAnswer (r : MbxReq) (op : Nat) (x : MRes) : State :=
  let rep := mkReply r op x
  deliverReply r rep (onMailbox r.mbx (fun b => { b with lastSeq := r.seq, stored := some rep }) x.st)

/-- The mailbox takes the request up: it is rung for it, or it is not busy and, on the BAR path, shows no response (R67, R80). -/
def Mailbox.takes (b : Mailbox) (path : Path) : Bool :=
  b.ready && (if path = .rung then b.busy else !b.busy && !(decide (path = .bar) && b.done))

/-- Whether the mailbox executes the request: firmware runs, the path and mailbox serve it, and it is neither ignored
(R67), refused with BUSY (R80) nor a replay (R72). -/
def executes (s : State) (r : MbxReq) : Bool :=
  let b := mailboxOf s r.mbx
  firmwareRuns s && pathServes s r && b.takes r.path && !(b.stored.isSome && decide (b.lastSeq = r.seq))

/-- A request that is not executed: ignored with OVERRUN, answered BUSY, answered again, or without effect. -/
def notExecuted (r : MbxReq) (op : Nat) (s : State) : State :=
  let b := mailboxOf s r.mbx
  if !pathServes s r || decide (s.power.phase ≠ .running) || (decide (r.path = .rung) && !b.busy) then s
  else if decide (r.path = .bar) && (!b.ready || s.power.fwFault || b.busy || b.done) then
    onMailbox r.mbx (fun b => { b with overrun := true }) s
  else if s.power.fwFault || !b.ready then
    match r.path with
    | .session id =>
      if firmwareRuns s then
        emit (.frame id (frameBytes r.mbx 1 (replyBytes (mkReply r op { st := s, status := St.notPermitted })))) s
      else s
    | _ => s
  else if b.busy && decide (r.path ≠ .rung) then deliverReply r (mkReply r op { st := s, status := St.busy }) s
  else
    match b.stored with
    | some rep => deliverReply r rep s
    | none => s

/-- The answer of a request that the mailbox executes. -/
def executedAnswer (r : MbxReq) (op : Nat) (item : Option Nat) (step5 : Option (Nat × Nat)) (body : State → MRes)
    (s : State) : Option MRes :=
  if executes s r then some (answer r op item step5 body s) else none

/-- One mailbox request. -/
def mailboxFull (r : MbxReq) (op : Nat) (item : Option Nat) (step5 : Option (Nat × Nat)) (body : State → MRes)
    (s : State) : State :=
  if executes s r then settleAnswer r op (answer r op item step5 body s) else notExecuted r op s

/-- One mailbox request of a command with fixed payload lengths. -/
def mailbox (r : MbxReq) (op : Nat) (lens : List Nat) (body : State → MRes) (s : State) : State :=
  mailboxFull r op none (lengthIn r lens) body s

/-! ## The order of waiting messages (R76) -/

/-- Put `c` among those that wait: a message of mailbox 12 or 13 stands ahead of the first waiting message of mailboxes 0 to
11, and anything else behind all that wait. `mbxOf` says which command is a message, and of which mailbox. -/
def enqueueMessage {α : Type} (mbxOf : α → Option Nat) (c : α) (waiting : List α) : List α :=
  let tenant (x : α) : Bool := match mbxOf x with | some k => decide (k < 12) | none => false
  if mbxOf c = some 12 ∨ mbxOf c = some 13 then
    waiting.takeWhile (fun x => !tenant x) ++ c :: waiting.dropWhile (fun x => !tenant x)
  else waiting ++ [c]

/-- The destination of a command's COMMAND_DONE (R73, R81). -/
def doneDest (r : MbxReq) : Dest := if r.mbx < 12 then .part r.mbx else .operator

/-- Accept an async command whose work ends with `status`, `detail` and `act` (R73). -/
def accept (r : MbxReq) (op status detail : Nat) (act : AsyncAction) (s : State) : MRes :=
  { st := addJob (doneDest r) op r.tag r.partition status detail act s, async := true }

/-! ## Submission queues -/

/-- What a queue-borne command's own rules answer: its completion, or that it goes on running. -/
structure QRes where
  st : State
  status : Nat := 0
  cond : Nat := 0
  dA : Nat := 0
  dB : Nat := 0
  run : Option RunKind := none

def QRes.fail (s : State) (e : Nat × Nat) : QRes := { st := s, status := e.1, dA := e.2 }

/-- Run `k` when no check fails. -/
def qchecked (s : State) (l : List (Bool × Nat × Nat)) (k : QRes) : QRes :=
  match firstFail l with
  | some e => .fail s e
  | none => k

/-- The entry as Landing fetched it. -/
def entryOf (q : SqReq) (op : Nat) : Entry :=
  { opcode := op, tag := q.tag, fence := q.fence, noInt := q.noInt, indirect := q.indirect, context := q.context }

/-- R624, then R106, then R103, R565 and R99. `blockLen`: the block length the opcode defines, if it has a block. An INDIRECT
entry of an opcode that defines no block, or of an undefined opcode, has no length to equal: it is answered INVALID_LENGTH 24
for every PARAM_LEN (log entry 87). -/
def entryCheck (s : State) (q : SqReq) (op : Nat) (blockLen : Option Nat) : Option (Nat × Nat) :=
  if q.indirect ∧ q.paramAddr % 64 ≠ 0 then some (St.invalidAddress, 16)
  else if q.indirect ∧ (q.paramLen < 1 ∨ 4096 < q.paramLen ∨ some q.paramLen ≠ blockLen) then
    some (St.invalidLength, 24)
  else
    match carried op with
    | none => some (St.invalidOpcode, 0)
    | some c =>
      if !c.queue then some (St.notPermitted, 0)
      else if !q.indirect && blockLen.isSome then some (St.invalidField, 4)
      else (gate s op (some q.part) true).map (fun st => (st, 0))

/-- FENCE is met: no earlier entry of the SQ runs. An entry whose completion is held back for a full CQ counts as completed
(R91, R94; log entry 87). -/
def fenceMet (t : Part) (sq : Nat) : Bool := t.running.all (fun r => decide (r.sq ≠ sq) || r.silent)

/-- The SQ waits with an entry that could begin. -/
def Sq.waits (t : Part) (x : Sq) : Bool :=
  match x.fetched.head? with
  | some e => !e.fence || fenceMet t x.id
  | none => false

/-- The SQ's turn in the weighted round robin (R91; log entry 19): in a round each SQ begins up to ARB_WEIGHT entries, and a
round ends when every SQ that waits has begun its share. -/
def hasTurn (t : Part) (x : Sq) : Bool :=
  decide (x.served < x.weight) || t.sqs.all (fun y => decide (y.id = x.id) || decide (y.weight ≤ y.served) || !y.waits t)

/-- Count an entry that SQ `x` begins, in this round or as the first of the next. -/
def takeTurn (t : Part) (x : Sq) : Part :=
  if x.served < x.weight then t.onSq x.id (fun y => { y with served := y.served + 1 })
  else { t with sqs := t.sqs.map (fun y => { y with served := if y.id = x.id then 1 else 0 }) }

/-- The entry at the head of its SQ's fetched entries may begin now: firmware runs, the device is not in shard hold, the
VF may reach host memory (R466, R473), FENCE is met and it is the SQ's turn (R91). -/
def mayBegin (s : State) (q : SqReq) (op : Nat) : Bool :=
  let t := part s q.part
  firmwareRuns s && !holding s && !landingBlocked s (1 + q.part) &&
    (match findSq t q.sq with
     | some x => decide (x.fetched.head? = some (entryOf q op)) && (!q.fence || fenceMet t q.sq) && hasTurn t x
     | none => false)

/-- Finish the beginning of an entry: write its completion, or keep it as a running command. -/
def settleEntry (q : SqReq) (op : Nat) (x : QRes) : State :=
  match x.run with
  | some k =>
    onPart q.part (fun t => { t with running := t.running ++
      [{ sq := q.sq, tag := q.tag, opcode := op, context := q.context, noInt := q.noInt, kind := k }] }) x.st
  | none => completeSq q.part q.sq q.tag q.context q.noInt x.status x.cond x.dA x.dB x.st

/-- The command's own answer: the entry checks, then `body`. -/
def answerEntry (q : SqReq) (op : Nat) (blockLen : Option Nat) (body : State → QRes) (s : State) : QRes :=
  match entryCheck s q op blockLen with
  | some e => .fail s e
  | none =>
    let x := body (trace 0 q.part 0 (entryTrace op q.tag q.sq 0) q.context s)
    if x.run.isSome then x else { x with st := trace 0 q.part 1 (entryTrace op q.tag q.sq x.status) x.cond x.st }

/-- Take the entry off its SQ's fetched entries, and count it in the round. -/
def takeEntry (q : SqReq) (s : State) : State :=
  onPart q.part (fun t =>
    match findSq t q.sq with
    | some x => (takeTurn t x).onSq q.sq (fun x => { x with fetched := x.fetched.tail, arrived := x.arrived.tail })
    | none => t) s

/-- One submission entry, as firmware begins it. -/
def queueFull (q : SqReq) (op : Nat) (blockLen : Option Nat) (body : State → QRes) (s : State) : State :=
  if mayBegin s q op then settleEntry q op (answerEntry q op blockLen body (takeEntry q s)) else s

/-- One submission entry of an opcode that has no parameter block. -/
def queue (q : SqReq) (op : Nat) (body : State → QRes) (s : State) : State := queueFull q op none body s

/-- A completion that delivers its result under the conditions `c` (R95). -/
def QRes.done (s : State) (c : Nat) (dA dB : Nat) : QRes :=
  { st := s, status := statusOfConditions c, cond := c, dA := dA, dB := dB }

end Sys2Proof.Machine
end

