-- ==== Sys2Proof/Machine/Regs.lean ====
section
/-! DEFINITION. Sys2Proof/Machine/Regs.lean: the BAR0 register window (R19, R20, R22, R39, R65, R66, R459, R460): what each
register reads as and what a write of it does. -/
namespace Sys2Proof.Machine

/-! ## Masks and fields -/

/-- `v` masked to the bits a register implements (R19). -/
def maskReg (m : Nat) (v : Reg) : Reg := v &&& BitVec.ofNat 32 m

/-- A write of 1 clears (R20). -/
def rw1c (old v : Reg) : Reg := old &&& ~~~v

def regOf (n : Nat) : Reg := BitVec.ofNat 32 n

/-- Signed 32-bit field, two's complement. -/
def regOfInt (n : Int) : Reg := BitVec.ofInt 32 n

/-! ## Commits (R22) -/

/-- PAV_COMMIT: every PAV_CAP_OP shadow becomes active; Cruise's shadow is not copied (R225, R229). -/
def pavCommit (v : Reg) (s : State) : State :=
  if v.toNat.testBit 0 then
    { s with pave := { s.pave with allStacks := s.pave.allStacks.map (fun k => { k with opActive := k.opShadow }) } }
  else s

/-- CHK_COMMIT: the sampling shadow becomes active, and nothing else (R451). -/
def chkCommit (v : Reg) (s : State) : State :=
  if v.toNat.testBit 0 then { s with choker := { s.choker with sampleActive := s.choker.sampleShadow } } else s

/-- Loupe takes both shadows; with ENABLE the ring and its count start again (R519). -/
def loupeCommit (s : State) : State :=
  let l := s.loupe
  let on := l.ctrlShadow.toNat.testBit 0
  { s with loupe :=
      if on then
        { l with ctrl := l.ctrlShadow, filter := l.filterShadow, running := true, full := false, lost := 0, count := 0, ring := [] }
      else { l with ctrl := l.ctrlShadow, filter := l.filterShadow, running := false } }

/-- LPE_COMMIT. -/
def lpeCommit (v : Reg) (s : State) : State := if v.toNat.testBit 0 then loupeCommit s else s

/-- Channels that an access through the PF may act on (R476). -/
def pfChannel (throughPf : Bool) (c : Nat) : Bool := !throughPf || decide (24 ≤ c)

/-- The PF vector of a host channel's run (R464, R482). -/
def channelVector (c : Nat) (s : State) : State :=
  if 24 ≤ c ∧ (channelOf s c).runInt then sendMsix 0 (8 + (c - 24)) s else s

/-- Remote accesses that are out for a channel count for none of its later runs. -/
def forgetChannel (c : Nat) (s : State) : State :=
  let drop (l : List Packet) : List Packet := l.map (fun x => if x.channel = some c then { x with channel := none } else x)
  { s with fabric := { s.fabric with fwQps := s.fabric.fwQps.map (fun q => { q with todo := drop q.todo, unacked := drop q.unacked }) } }

/-- Stop one busy channel with code 8 and end its run (R482, R484). -/
def abortChannel (c : Nat) (s : State) : State :=
  if (channelOf s c).busy then
    channelVector c (onChannel c (fun x => { x with busy := false, due := false, done := true, error := true, errCode := 8, progress := x.runBytes }) (forgetChannel c s))
  else s

/-- FWD_ABORT (R484). -/
def fwdAbort (throughPf : Bool) (v : Reg) (s : State) : State :=
  (List.range 32).foldl (fun s c => if v.toNat.testBit c ∧ pfChannel throughPf c then abortChannel c s else s) s

/-- LND_INT_REARM: vector 1 again while the summary is non-zero (R465). -/
def lndRearm (v : Reg) (s : State) : State :=
  if v.toNat.testBit 0 ∧ summary s ≠ 0 then sendMsix 0 1 s else s

/-! ## The ledger as registers (R589) -/

/-- A ledger entry, 256 bytes. -/
def ledgerBytes (e : LedgerEntry) : List Byte :=
  le 4 e.seq ++ le 1 e.cause ++ le 1 e.result ++ le 2 e.hottest ++ le 8 e.time ++ le 4 e.hours ++ zeros 4 ++
    (List.range 16).flatMap (fun g => le 2 (e.groveMv.getD g 0)) ++
    (List.range 16).flatMap (fun g => le 1 (min 255 (e.groveSlack.getD g 0))) ++
    (List.range 16).flatMap (fun g => le 1 (e.groveState.getD g 0)) ++
    (List.range 8).flatMap (fun k => le 1 (e.caps.getD k 0)) ++
    (List.range 8).flatMap (fun k => le 1 (e.refresh.getD k 0)) ++
    (List.range 8).flatMap (fun k => le 2 (e.retention.getD k 0)) ++
    (List.range 8).flatMap (fun k => le 1 (min 255 (e.baseSlack.getD k 0))) ++
    (List.range 8).flatMap (fun n => le 1 (min 255 (e.portEye.getD n 0))) ++ le 1 (min 255 e.landingEye) ++ zeros 3 ++
    (List.range 32).flatMap (fun c => le 1 (min 255 (e.rber.getD c 0))) ++
    (List.range 8).flatMap (fun k => le 8 (e.faulted.getD k 0).toNat) ++ le 4 e.thresholdGen ++ zeros 16

/-- The slot of a ledger entry: the first of the device's life, LEDGER_SEQ 1, stands in slot 0. -/
def ledgerSlot (seq : Nat) : Nat := (seq + 239) % 240

/-! ## Mailbox windows (R65) -/

def mbxStatus (s : State) (m : Nat) : Nat :=
  let b := mailboxOf s m
  (if b.ready && !s.power.fwFault then 1 else 0) + (if b.busy then 2 else 0) + (if b.done then 4 else 0) +
    (if b.overrun then 8 else 0) + (if s.power.fwFault then 16 else 0) + (if s.power.needsReset then 32 else 0) +
    64 * serviceLevel s

/-- Byte `o` of mailbox window `m`: buffers and reserved bytes. -/
def mbxByte (s : State) (m o : Nat) : Byte :=
  let b := mailboxOf s m
  if o < 0x1020 then cellsRead b.request o
  else if 0x2000 ≤ o ∧ o < 0x3020 then
    match b.stored with | some r => (replyBytes r).getD (o - 0x2000) 0 | none => 0
  else 0

def mbxRead (s : State) (m o : Nat) : Reg :=
  if o = 0x3F04 then regOf (mbxStatus s m)
  else if o = 0x3F08 then (mailboxOf s m).lastSeq
  else if o < 0x3F00 then regOf (unle ((List.range 4).map (fun k => mbxByte s m (o + k))))
  else 0

/-! ## Doorbell pages (R89, R426) -/

def doorbellRead (s : State) (p o : Nat) : Reg :=
  let t := part s p
  let i := o / 8
  if o < 0x200 then
    if o % 8 = 0 then regOf (((findSq t i).map Sq.tail).getD 0) else regOf (((findCq t i).map Cq.head).getD 0)
  else if o = 0x200 then regOf ((t.eq.map Eq.head).getD 0)
  else if 0x400 ≤ o ∧ o < 0x800 then
    match t.qps.find? (fun q => q.index = (o - 0x400) / 8) with
    | some q => regOf (if o % 8 = 0 then q.sqTail else q.rqTail)
    | none => 0
  else 0

/-! ## Block registers -/

def landingRead (s : State) (o : Nat) : Reg :=
  if o = 0 then regOf (summary s) else if o = 4 then s.landing.intStatus else if o = 8 then s.landing.intEnable else 0

def pavRead (s : State) (o : Nat) : Reg :=
  if 0x100 ≤ o ∧ o < 0x120 then regOf (stackOf s ((o - 0x100) / 4)).opShadow
  else if 0x200 ≤ o ∧ o < 0x220 then
    let k := stackOf s ((o - 0x200) / 4)
    regOf (effectiveCap s k + k.opActive * 2 ^ 8 + k.cruiseActive * 2 ^ 16 + k.granted.length * 2 ^ 24)
  else if 0x300 ≤ o ∧ o < 0x340 then
    let k := stackOf s ((o - 0x300) / 8)
    regOf (if o % 8 = 0 then k.faulted.toNat % 2 ^ 32 else k.faulted.toNat / 2 ^ 32)
  else if o = 0x400 then s.pave.intStatus
  else if o = 0x404 then s.pave.intEnable
  else if o = 0x408 then s.pave.skipCount
  else 0

def chkRead (s : State) (o : Nat) : Reg :=
  let c := s.choker
  if o = 0x10 then c.sampleShadow
  else if 0x100 ≤ o ∧ o < 0x200 then
    match c.shapers[(o - 0x100) / 4]? with | some x => regOfInt (x.credit / 8) | none => 0
  else if 0x200 ≤ o ∧ o < 0x260 then
    match c.policers[(o - 0x200) / 4]? with
    | some b => if b.entry.enable = 0 then 0 else regOf (b.level / 1000000)
    | none => 0
  else if 0x300 ≤ o ∧ o < 0x360 then
    match c.policers[(o - 0x300) / 4]? with | some b => b.drops | none => 0
  else if 0x400 ≤ o ∧ o < 0x660 then
    if o % 8 = 0 then c.qdepth.getD ((o - 0x400) / 8) 0 else c.qdelay.getD ((o - 0x400) / 8) 0
  else if o = 0x800 then c.intStatus
  else if o = 0x804 then c.intEnable
  else 0

def fwdStatus (x : Channel) : Nat :=
  (if x.busy then 1 else 0) + (if x.done then 2 else 0) + (if x.error then 4 else 0) +
    (if x.startIgnored then 8 else 0) + x.errCode * 256

def fwdRead (s : State) (o : Nat) : Reg :=
  if 0x100 ≤ o ∧ o < 0x900 then
    let x := channelOf s ((o - 0x100) / 0x40)
    let r := (o - 0x100) % 0x40
    if r = 0 then x.shadow.ctrl
    else if r = 4 then regOf (x.shadow.srcCount + x.shadow.dstCount * 65536)
    else if r = 8 then x.shadow.srcList.setWidth 32
    else if r = 0xC then (x.shadow.srcList >>> 32).setWidth 32
    else if r = 0x10 then x.shadow.dstList.setWidth 32
    else if r = 0x14 then (x.shadow.dstList >>> 32).setWidth 32
    else if r = 0x18 then regOf (fwdStatus x)
    else if r = 0x20 then regOf (x.progress % 2 ^ 32)
    else if r = 0x24 then regOf (x.progress / 2 ^ 32)
    else 0
  else 0

def cruRead (s : State) (o : Nat) : Reg :=
  let c := s.cruise
  if o = 0 then
    regOf ((if c.ledger = [] then 0 else ledgerSlot c.ledgerSeq) + c.ledger.length * 256 + (if c.running then 65536 else 0))
  else if 0x100 ≤ o ∧ o < 0x140 then
    let g := groveOf s ((o - 0x100) / 4)
    regOf (g.mv % 4096 + min 255 g.slack * 2 ^ 12 + g.sparesUsed * 2 ^ 20 + (if g.mv = c.vCeil then 2 ^ 22 else 0) +
      (if g.degraded then 2 ^ 23 else 0))
  else if 0x200 ≤ o ∧ o < 0x220 then
    let k := stackOf s ((o - 0x200) / 4)
    regOf (k.cruiseActive + k.refresh * 256 + k.retention % 65536 * 65536)
  else if o = 0x400 then c.intStatus
  else if o = 0x404 then c.intEnable
  else if 0x1000 ≤ o ∧ o < 0x1000 + 240 * 0x100 then
    match c.ledger.find? (fun e => ledgerSlot e.seq = (o - 0x1000) / 0x100) with
    | some e => regOf (unle (((ledgerBytes e).drop ((o - 0x1000) % 0x100)).take 4))
    | none => 0
  else 0

def lpeRead (s : State) (o : Nat) : Reg :=
  let l := s.loupe
  if o = 0x10 then l.ctrlShadow
  else if o = 0x14 then l.filterShadow
  else if o = 0x20 then regOf ((if l.running then 1 else 0) + (if l.full then 2 else 0) + min 0xFFFF l.lost * 65536)
  else if o = 0x28 then regOf (l.count % 2 ^ 32)
  else if o = 0x2C then regOf (l.count / 2 ^ 32)
  else if o = 0x40 then l.intStatus
  else if o = 0x44 then l.intEnable
  else 0

/-! ## The window as a whole -/

/-- The ranges of R459. -/
inductive RegRange where
  | landing | mbx (m : Nat) | doorbell (p : Nat) | pav | chk | fwd | cru | lpe
  deriving DecidableEq, Repr

/-- The listed range that an offset lies in, and the offset inside it (R459). -/
def regRange (o : Nat) : Option (RegRange × Nat) :=
  if o < 0x1000 then some (.landing, o)
  else if 0x100000 ≤ o ∧ o < 0x140000 then some (.mbx ((o - 0x100000) / 0x4000), (o - 0x100000) % 0x4000)
  else if 0x200000 ≤ o ∧ o < 0x20C000 then some (.doorbell ((o - 0x200000) / 0x1000), (o - 0x200000) % 0x1000)
  else if 0x300000 ≤ o ∧ o < 0x301000 then some (.pav, o - 0x300000)
  else if 0x340000 ≤ o ∧ o < 0x341000 then some (.chk, o - 0x340000)
  else if 0x380000 ≤ o ∧ o < 0x381000 then some (.fwd, o - 0x380000)
  else if 0x3C0000 ≤ o ∧ o < 0x3D0000 then some (.cru, o - 0x3C0000)
  else if 0x400000 ≤ o ∧ o < 0x500000 then some (.lpe, o - 0x400000)
  else none

/-- The function exposes the range: 0 the PF, 1 + p VF p (R66, R459). -/
def exposed (fn : Nat) : RegRange → Bool
  | .mbx m => if fn = 0 then m = 14 else decide (m + 1 = fn)
  | .doorbell p => decide (p + 1 = fn)
  | _ => decide (fn = 0)

/-- The 32-bit register at a 4-byte-aligned offset of the window; 0 where a listed range holds none. -/
def regRead (s : State) (o : Nat) : Reg :=
  match regRange o with
  | some (.landing, o) => landingRead s o
  | some (.mbx m, o) => mbxRead s m o
  | some (.doorbell p, o) => doorbellRead s p o
  | some (.pav, o) => pavRead s o
  | some (.chk, o) => chkRead s o
  | some (.fwd, o) => fwdRead s o
  | some (.cru, o) => cruRead s o
  | some (.lpe, o) => lpeRead s o
  | none => 0

/-! ## Doorbells (R67, R89) -/

/-- RING of a mailbox: taken, and the mailbox is busy until its response; or ignored, and OVERRUN shows it (R67). -/
def ringMailbox (m : Nat) (s : State) : State :=
  let b := mailboxOf s m
  if b.ready && !s.power.fwFault && !b.busy && !b.done then onMailbox m (fun b => { b with busy := true }) s
  else onMailbox m (fun b => { b with overrun := true }) s

/-- QUEUE_ERROR of a queue of the partition: type, id and cause (R89, R468). -/
def queueError (p typ id cause : Nat) (s : State) : State :=
  notify (.part p) 3 0 p 0 (typ + id * 256 + cause * 65536) s

/-- How many entries a HEAD value consumes: on a full ring the present HEAD consumes every entry (R85). -/
def consumed (entries used head v : Nat) : Nat :=
  if used = entries ∧ v = head then entries else (v + entries - head) % entries

/-- RGR_SQ_TAIL of a queue that exists takes the value; ENTRIES or more puts the queue into the error state (R20, R89). -/
def writeSqTail (p id v : Nat) (s : State) : State :=
  match findSq (part s p) id with
  | none => s
  | some q =>
    let bad := !q.error && decide (q.entries ≤ v)
    let s := onPart p (fun t => t.onSq id (fun x => { x with tail := v, error := x.error || bad })) s
    if bad then queueError p 0 id 0 s else s

/-- RGR_CQ_HEAD: slots are freed and held completions written, or the CQ enters the error state (R20, R85, R89, R94). -/
def writeCqHead (p id v : Nat) (s : State) : State :=
  match findCq (part s p) id with
  | none => s
  | some c =>
    let n := consumed c.entries c.used c.head v
    if c.error then onPart p (fun t => t.onCq id (fun c => { c with head := v })) s
    else if c.entries ≤ v ∨ c.used < n then
      queueError p 1 id 0 (onPart p (fun t => t.onCq id (fun c => { c with head := v, error := true, held := [] })) s)
    else drainCq p id c.held.length (onPart p (fun t => t.onCq id (fun c => { c with head := v, used := c.used - n })) s)

/-- RGR_EQ_HEAD: slots are freed and held events delivered, or the event queue enters the error state (R20, R89, R96). -/
def writeEqHead (p v : Nat) (s : State) : State :=
  match (part s p).eq with
  | none => s
  | some q =>
    let n := consumed q.entries q.used q.head v
    if q.error then onPart p (fun t => { t with eq := some { q with head := v } }) s
    else if q.entries ≤ v ∨ q.used < n then
      queueError p 2 0 0 (onPart p (fun t => { t with eq := some { q with head := v, error := true } }) s)
    else drainHeld (.part p) 256 (onPart p (fun t => { t with eq := some { q with head := v, used := q.used - n } }) s)

/-- A doorbell register of partition p's page as another interconnect master writes it (R8): it takes the value as from the
host. What Landing then fetches arrives with the next doorbell row of the queue (log entry 69). -/
def doorbellWrite (p o v : Nat) (s : State) : State :=
  let v := v % 65536
  if o < 0x200 then (if o % 8 = 0 then writeSqTail p (o / 8) v s else writeCqHead p (o / 8) v s)
  else if o = 0x200 then writeEqHead p v s
  else s

/-! ## Writes -/

def mbxWrite (m o : Nat) (v : Reg) (s : State) : State :=
  if o = 0x3F00 then (if v.toNat.testBit 0 then ringMailbox m s else s)
  else if o = 0x3F04 then
    onMailbox m (fun b => { b with done := b.done && !v.toNat.testBit 2, overrun := b.overrun && !v.toNat.testBit 3 }) s
  else if o < 0x1020 then
    onMailbox m (fun b => { b with request := cellsWriteBytes b.request o ((le 4 v.toNat).take (0x1020 - o)) }) s
  else s

def landingWrite (o : Nat) (v : Reg) (s : State) : State :=
  if o = 4 then { s with landing := { s.landing with intStatus := rw1c s.landing.intStatus v } }
  else if o = 8 then raising (fun s => { s with landing := { s.landing with intEnable := maskReg 0x7F v } }) s
  else if o = 0xC then lndRearm v s
  else s

def pavWrite (o : Nat) (v : Reg) (s : State) : State :=
  if o = 0 then pavCommit v s
  else if 0x100 ≤ o ∧ o < 0x120 then
    onStack ((o - 0x100) / 4) (fun k => { k with opShadow := min 32 (v.toNat % 64) }) s
  else if o = 0x400 then { s with pave := { s.pave with intStatus := rw1c s.pave.intStatus v } }
  else if o = 0x404 then raising (fun s => { s with pave := { s.pave with intEnable := maskReg 0x1FFFF v } }) s
  else s

/-- CHK_SAMPLE_CTRL as stored: INTERVAL in 1–1,000. -/
def sampleStored (v : Reg) : Reg := regOf (min 1000 (max 1 (v.toNat % 1024)) + v.toNat / 65536 % 2 * 65536)

def chkWrite (o : Nat) (v : Reg) (s : State) : State :=
  if o = 0 then chkCommit v s
  else if o = 0x10 then { s with choker := { s.choker with sampleShadow := sampleStored v } }
  else if o = 0x800 then { s with choker := { s.choker with intStatus := rw1c s.choker.intStatus v } }
  else if o = 0x804 then raising (fun s => { s with choker := { s.choker with intEnable := maskReg 0xFFFF v } }) s
  else s

/-- FWD_CH_CTRL as stored: width 7 as 6; HOST_FN 0 and PARTITION 14 for the host channels. -/
def ctrlStored (c : Nat) (v : Reg) : Reg :=
  let n := v.toNat
  let fnPart := if 24 ≤ c then 14 * 16 else n / 65536 % 256
  regOf (min 6 (n % 8) + min 6 (n / 16 % 8) * 16 + n / 256 % 32 * 256 + fnPart * 65536)

def setLow (x : BitVec 64) (v : Reg) : BitVec 64 := (x >>> 32 <<< 32) ||| v.setWidth 64
def setHigh (x : BitVec 64) (v : Reg) : BitVec 64 := (v.setWidth 64 <<< 32) ||| (x.setWidth 32).setWidth 64

/-- A write of one register of a channel. -/
def channelWrite (c r : Nat) (v : Reg) (x : Channel) : Channel :=
  if r = 0 then { x with shadow := { x.shadow with ctrl := ctrlStored c v } }
  else if r = 4 then { x with shadow := { x.shadow with srcCount := v.toNat % 65536, dstCount := v.toNat / 65536 } }
  else if r = 8 then { x with shadow := { x.shadow with srcList := setLow x.shadow.srcList v } }
  else if r = 0xC then { x with shadow := { x.shadow with srcList := setHigh x.shadow.srcList v } }
  else if r = 0x10 then { x with shadow := { x.shadow with dstList := setLow x.shadow.dstList v } }
  else if r = 0x14 then { x with shadow := { x.shadow with dstList := setHigh x.shadow.dstList v } }
  else if r = 0x18 then
    { x with done := x.done && !v.toNat.testBit 1, error := x.error && !v.toNat.testBit 2,
             startIgnored := x.startIgnored && !v.toNat.testBit 3 }
  else x

/-- FWD_COMMIT: every shadow becomes active, each idle channel whose START bit is set starts on the set it captures, and a busy one only
shows START_IGNORED (R485); through the PF, bits 0–23 are ignored (R476). -/
def fwdMark (throughPf : Bool) (v : Reg) (s : State) : State :=
  { s with channels := s.channels.zipIdx.map (fun x =>
      let c := { x.1 with active := x.1.shadow }
      if !v.toNat.testBit x.2 || !pfChannel throughPf x.2 then c
      else if c.busy then { c with startIgnored := true }
      else { c with busy := true, due := true, captured := c.active, progress := 0, runBytes := 0, runError := 0
                    runInt := c.active.ctrl.toNat.testBit 12 }) }

def fwdWrite (throughPf : Bool) (o : Nat) (v : Reg) (s : State) : State :=
  if o = 0 then fwdMark throughPf v s
  else if o = 8 then fwdAbort throughPf v s
  else if 0x100 ≤ o ∧ o < 0x900 then
    let c := (o - 0x100) / 0x40
    if pfChannel throughPf c then onChannel c (channelWrite c ((o - 0x100) % 0x40) v) s else s
  else s

def cruWrite (o : Nat) (v : Reg) (s : State) : State :=
  if o = 0x400 then { s with cruise := { s.cruise with intStatus := rw1c s.cruise.intStatus v } }
  else if o = 0x404 then raising (fun s => { s with cruise := { s.cruise with intEnable := maskReg 0x1F v } }) s
  else s

def lpeWrite (o : Nat) (v : Reg) (s : State) : State :=
  if o = 0 then lpeCommit v s
  else if o = 0x10 then { s with loupe := { s.loupe with ctrlShadow := maskReg 0x1FFF0003 v } }
  else if o = 0x14 then { s with loupe := { s.loupe with filterShadow := maskReg 0x00FFFFFF v } }
  else if o = 0x40 then { s with loupe := { s.loupe with intStatus := rw1c s.loupe.intStatus v } }
  else if o = 0x44 then raising (fun s => { s with loupe := { s.loupe with intEnable := maskReg 3 v } }) s
  else s

/-- Write the 32-bit register at a 4-byte-aligned offset. The host's writes of doorbell pages change nothing here:
they are commands of their own, which bring what the device reads when they ring (log entry 69). -/
def regWrite (throughPf : Bool) (o : Nat) (v : Reg) (s : State) : State :=
  match regRange o with
  | some (.landing, o) => landingWrite o v s
  | some (.mbx m, o) => mbxWrite m o v s
  | some (.pav, o) => pavWrite o v s
  | some (.chk, o) => chkWrite o v s
  | some (.fwd, o) => fwdWrite throughPf o v s
  | some (.cru, o) => cruWrite o v s
  | some (.lpe, o) => lpeWrite o v s
  | some (.doorbell p, o) => if throughPf then s else doorbellWrite p o v.toNat s
  | none => s

/-- The offset lies in a mailbox buffer, which takes any aligned access inside one line (R460). -/
def inMbxBuffer (o : Nat) : Bool :=
  match regRange o with
  | some (.mbx _, x) => decide (x < 0x1020) || (decide (0x2000 ≤ x) && decide (x < 0x3020))
  | _ => false

/-- An access of the form R460 allows. -/
def regAccessOk (o size : Nat) : Bool :=
  (regRange o).isSome &&
    (if inMbxBuffer o then within 1 64 size && decide (o % size = 0) && decide (o / 64 = (o + size - 1) / 64)
     else (decide (size = 4) || decide (size = 8)) && decide (o % size = 0))

/-- Write a mailbox buffer: the request buffer takes the bytes, the response buffer is read-only. -/
def mbxBufferWrite (o : Nat) (bs : List Byte) (s : State) : State :=
  match regRange o with
  | some (.mbx m, x) =>
    if x < 0x1020 then onMailbox m (fun b => { b with request := cellsWriteBytes b.request x (bs.take (0x1020 - x)) }) s else s
  | _ => s

/-- A well-formed access of the REG region by any master: one 4-byte register, two halves, or buffer bytes. -/
def regAccess (throughPf : Bool) (o : Nat) (bs : List Byte) (s : State) : State :=
  if inMbxBuffer o then mbxBufferWrite o bs s
  else
    let lo := regWrite throughPf o (regOf (unle (bs.take 4))) s
    if bs.length = 8 then regWrite throughPf (o + 4) (regOf (unle (bs.drop 4))) lo else lo

/-- Bytes of the REG region (R39). -/
def regBytes (s : State) (o n : Nat) : List Byte :=
  if inMbxBuffer o then
    (List.range n).map (fun k =>
      match regRange (o + k) with | some (.mbx m, x) => mbxByte s m x | _ => 0)
  else (le 4 (regRead s o).toNat ++ le 4 (regRead s (o + 4)).toNat).take n

/-! ## Host register writes and the commits as commands -/

/-- REGISTER_WRITE (R19, R20, R66, R459, R460). -/
def execRegisterWrite (w : RegWrite) (s : State) : Result :=
  .next
    (if !hostReaches s w.fn then s
     else if !regAccessOk w.offset w.size then logDecode 1 w.offset 1 s
     else
       match regRange w.offset with
       | some (r, _) => if exposed w.fn r then regAccess true w.offset (le w.size w.value) s else s
       | none => s)

/-- PAV_COMMIT through the PF (R22, R225–R229). -/
def execPavCommit (value : Reg) (s : State) : Result := .next (if hostReaches s 0 then pavCommit value s else s)

/-- CHK_COMMIT through the PF (R451). -/
def execChkCommit (value : Reg) (s : State) : Result := .next (if hostReaches s 0 then chkCommit value s else s)

/-- LPE_COMMIT through the PF (R519). -/
def execLpeCommit (value : Reg) (s : State) : Result := .next (if hostReaches s 0 then lpeCommit value s else s)

/-- FWD_ABORT through the PF (R484). -/
def execFwdAbort (value : Reg) (s : State) : Result := .next (if hostReaches s 0 then fwdAbort true value s else s)

/-- LND_INT_REARM (R465). -/
def execLndIntRearm (value : Reg) (s : State) : Result := .next (if hostReaches s 0 then lndRearm value s else s)

end Sys2Proof.Machine
end

