-- ==== Sys2Proof/Machine/Bus.lean ====
section
/-! DEFINITION. Sys2Proof/Machine/Bus.lean: accesses on the device interconnect (R26–R30, R38–R45, R342). Masters carry
their device-log SOURCE. -/
namespace Sys2Proof.Machine

/-- The pieces of [a, a + n) by 64-byte line, at most `f` of them. -/
def linesFrom : Nat → Nat → Nat → List (Nat × Nat)
  | 0, _, _ => []
  | f + 1, a, n =>
    if n = 0 then []
    else
      let k := min n (64 - a % 64)
      (a, k) :: linesFrom f (a + k) (n - k)

def linesOf (a n : Nat) : List (Nat × Nat) := linesFrom (n / 64 + 2) a n

/-- A read of `n` bytes inside one line; none is a decode error (R30, R38). -/
def lineRead (s : State) (a n : Nat) : Option (List Byte) :=
  if a < 0x4000000 then (if regAccessOk a n then some (regBytes s a n) else none)
  else
    match objAt s a with
    | some r => some (objLoad s r a n)
    | none => if populated s a then some (readMem s a n) else none

/-- A write inside one line: none is a decode error; a write into a device object's range is one too (R342). -/
def lineWrite (a : Nat) (bs : List Byte) (s : State) : Option State :=
  if a < 0x4000000 then (if regAccessOk a bs.length then some (regAccess false a bs s) else none)
  else
    match objAt s a with
    | some r => if r.host then some (objStore r a bs s) else none
    | none => if populated s a then some (writeMem a bs s) else none

/-- One access by a master: an erring read returns all-ones and is logged (R30). The flag says it was decoded. -/
def busRead1 (master a n : Nat) (s : State) : Bool × List Byte × State :=
  match lineRead s a n with
  | some bs => (true, bs, s)
  | none => (false, List.replicate n 0xFF, logDecode master a 0 s)

def busWrite1 (master a : Nat) (bs : List Byte) (s : State) : Bool × State :=
  match lineWrite a bs s with
  | some t => (true, t)
  | none => (false, logDecode master a 1 s)

/-- Read a range line by line (R343). The flag says that every access was decoded. -/
def busRead (master a n : Nat) (s : State) : Bool × List Byte × State :=
  (linesOf a n).foldl (fun x l =>
    let y := busRead1 master l.1 l.2 x.2.2
    (x.1 && y.1, x.2.1 ++ y.2.1, y.2.2)) (true, [], s)

/-- Write a range line by line. -/
def busWrite (master a : Nat) (bs : List Byte) (s : State) : Bool × State :=
  (linesOf a bs.length).foldl (fun x l =>
    let y := busWrite1 master l.1 ((bs.drop (l.1 - a)).take l.2) x.2
    (x.1 && y.1, y.2)) (true, s)

/-- Device id and local address of a pool address (R45). -/
def poolDevice (a : Nat) : Nat := a / 2 ^ 52
def poolLocal (a : Nat) : Nat := a % 2 ^ 52

/-- [a, a + n) lies inside one object's range of the partition; `write` asks for a host object (R427). -/
def insideObject (s : State) (p a n : Nat) (write : Bool) : Bool :=
  (rangesOf s p).any (fun r => decide (r.base ≤ a) && decide (a + n ≤ r.base + r.size) && (!write || r.host))

end Sys2Proof.Machine
end

