-- ==== Sys2Proof/Machine/Forwarder.lean ====
section
/-! DEFINITION. Sys2Proof/Machine/Forwarder.lean: FWD_COMMIT and the runs it starts (R476–R485). A run that
FWD_COMMIT has started moves its bytes whole at FWD_CHANNEL_DONE, hands its remote accesses to firmware's queue pairs, and ends once they
are acknowledged. -/
namespace Sys2Proof.Machine

/-- Access width of the source or destination side in bytes (R478). -/
def FwdSet.srcWidth (f : FwdSet) : Nat := 2 ^ (f.ctrl.toNat % 8)
def FwdSet.dstWidth (f : FwdSet) : Nat := 2 ^ (f.ctrl.toNat / 16 % 8)
def FwdSet.srcHost (f : FwdSet) : Bool := f.ctrl.toNat.testBit 8
def FwdSet.srcListHost (f : FwdSet) : Bool := f.ctrl.toNat.testBit 9
def FwdSet.dstHost (f : FwdSet) : Bool := f.ctrl.toNat.testBit 10
def FwdSet.dstListHost (f : FwdSet) : Bool := f.ctrl.toNat.testBit 11
def FwdSet.intEn (f : FwdSet) : Bool := f.ctrl.toNat.testBit 12
def FwdSet.hostFn (f : FwdSet) : Nat := f.ctrl.toNat / 65536 % 16
def FwdSet.partition (f : FwdSet) : Nat := f.ctrl.toNat / 2 ^ 20 % 16

/-- The pool address names this device (R48). -/
def ownPool (s : State) (a : Nat) : Bool := decide (s.fabric.deviceId = some (poolDevice a))

/-- The pool address names a device this one can reach: one not declared lost (code 7). -/
def reachable (s : State) (a : Nat) : Bool := s.fabric.deviceId.isSome && decide (poolDevice a ∉ s.fabric.lost)

/-- A list as the channel fetches it: from host memory or another device as given, from its own device by the
interconnect; none when it cannot be read. -/
def fetchList (s : State) (host : Bool) (addr count : Nat) (given : List SgEntry) (listsRead : Bool) :
    Option (List SgEntry) :=
  if host then (if listsRead ∧ given.length = count then some given else none)
  else if ownPool s addr then
    let x := busRead 2 (poolLocal addr) (16 * count) s
    if x.1 then
      some ((List.range count).map (fun i =>
        { addr := unle ((x.2.1.drop (16 * i)).take 8), length := unle ((x.2.1.drop (16 * i + 8)).take 4) }))
    else none
  else if reachable s addr ∧ listsRead ∧ given.length = count then some given
  else none

/-- The state after fetching a list: a list address that decodes to nothing is logged (R30). -/
def fetchLog (host : Bool) (addr count : Nat) (s : State) : State :=
  if !host && ownPool s addr then (busRead 2 (poolLocal addr) (16 * count) s).2.2 else s

def misaligned (w : Nat) (l : List SgEntry) : Bool :=
  l.any (fun e => decide (e.addr % w ≠ 0) || decide (e.length % w ≠ 0) || !within 1 0xFFFFFFC0 e.length)

def sgTotal (l : List SgEntry) : Nat := (l.map SgEntry.length).sum

/-- The accesses of one side, in order: address and width (R478). -/
def accesses (w : Nat) (l : List SgEntry) : List Nat :=
  l.flatMap (fun e => (List.range (e.length / w)).map (fun i => e.addr + i * w))

/-- Bytes the environment gives for a host or remote address; a byte it does not give is a free value. -/
def givenBytes (s : State) (g : List (Nat × Byte)) (a n : Nat) : List Byte :=
  (List.range n).map (fun i =>
    ((g.find? (fun b => b.1 = a + i)).map (fun b => b.2)).getD (Config.outsideByte s.freeCount (a + i)))

/-- A read of OBJ bytes that a poisoned extent holds is uncorrectable data (R346, code 2). -/
def poisonedAt (s : State) (a n : Nat) : Bool :=
  match objAt s a with
  | some r => r.host && (extentsOf (a - r.base) n).any (fun e => isPoisoned s r.part r.handle e)
  | none => false

/-- A remote access of the run's channel, as a packet of class 6 in the channel's partition (R480). -/
def fwdPacket (own : Nat) (f : FwdSet) (r : FwdRun) (t : PktType) (a : Nat) : Packet :=
  { fwPacket own (poolDevice a) f.partition t with addr := a, channel := some r.channel }

/-- One source access: its bytes, or the error code (R484). -/
def srcAccess (f : FwdSet) (r : FwdRun) (w a : Nat) (s : State) : Nat × List Byte × State :=
  if f.srcHost then (0, givenBytes s r.bytes a w, s)
  else if ownPool s a then
    let x := busRead1 2 (poolLocal a) w s
    if !x.1 then (1, [], x.2.2) else if poisonedAt s (poolLocal a) w then (2, [], s) else (0, x.2.1, s)
  else if reachable s a then (0, givenBytes s r.bytes a w, sendPeer { fwdPacket (ownId s) f r .readReq a with msgLen := w } s)
  else (7, [], s)

/-- One destination access: the error code, or 0. -/
def dstAccess (f : FwdSet) (r : FwdRun) (a : Nat) (bs : List Byte) (s : State) : Nat × State :=
  if f.dstHost then (0, hostWrite f.hostFn a bs s)
  else if ownPool s a then
    let x := busWrite1 2 (poolLocal a) bs s
    (if x.1 then 0 else 1, x.2)
  else if reachable s a then (0, sendPeer { fwdPacket (ownId s) f r .write a with payload := bs } s)
  else (7, s)

/-- Read accesses in order until one fails; `k` counts source bytes, and the run's environment may fail a load. -/
def readAll (f : FwdSet) (r : FwdRun) (w : Nat) : List Nat → Nat → List Byte → State → Nat × List Byte × State
  | [], _, acc, s => (0, acc, s)
  | a :: as, k, acc, s =>
    match r.failAt with
    | some (load, code) =>
      if k / 64 = load then (code, acc, s)
      else
        let x := srcAccess f r w a s
        if x.1 = 0 then readAll f r w as (k + w) (acc ++ x.2.1) x.2.2 else (x.1, acc, x.2.2)
    | none =>
      let x := srcAccess f r w a s
      if x.1 = 0 then readAll f r w as (k + w) (acc ++ x.2.1) x.2.2 else (x.1, acc, x.2.2)

/-- Write accesses in order while whole accesses of bytes are there; stops at the first that fails. -/
def writeAll (f : FwdSet) (r : FwdRun) (w : Nat) : List Nat → List Byte → Nat → State → Nat × Nat × State
  | [], _, n, s => (0, n, s)
  | a :: as, bs, n, s =>
    if bs.length < w then (0, n, s)
    else
      let x := dstAccess f r a (bs.take w) s
      if x.1 = 0 then writeAll f r w as (bs.drop w) (n + w) x.2 else (x.1, n, x.2)

/-- A run's error code, destination bytes and effects, whole (R479–R484). -/
def runMove (f : FwdSet) (r : FwdRun) (s : State) : Nat × Nat × State :=
  let s := if f.srcCount = 0 ∨ f.dstCount = 0 then s
    else fetchLog f.dstListHost f.dstList.toNat f.dstCount (fetchLog f.srcListHost f.srcList.toNat f.srcCount s)
  if f.srcCount = 0 ∨ f.dstCount = 0 then (9, 0, s)
  else
    match fetchList s f.srcListHost f.srcList.toNat f.srcCount r.srcList r.listsRead,
          fetchList s f.dstListHost f.dstList.toNat f.dstCount r.dstList r.listsRead with
    | some src, some dst =>
      if misaligned f.srcWidth src || misaligned f.dstWidth dst then (5, 0, s)
      else if sgTotal src ≠ sgTotal dst then (4, 0, s)
      else
        let x := readAll f r f.srcWidth (accesses f.srcWidth src) 0 [] s
        let y := writeAll f r f.dstWidth (accesses f.dstWidth dst) x.2.1 0 x.2.2
        (if y.1 ≠ 0 then y.1 else x.1, y.2.1, y.2.2)
    | _, _ => (6, 0, s)

/-- A channel that has started moves its bytes on the set that it captured (R485). -/
def runChannel (r : FwdRun) (s : State) : State :=
  let f := (channelOf s r.channel).captured
  let x := runMove f r (onChannel r.channel (fun y => { y with due := false }) s)
  let s := if x.1 = 3 then setLndStatus 0x20 x.2.2 else x.2.2
  onChannel r.channel (fun y => { y with progress := x.2.1, runBytes := x.2.1, runError := x.1 }) (bumpFree s)

/-- The run reads or writes host memory for a function whose requests wait (R466, R473). -/
def hostWaits (s : State) (f : FwdSet) : Bool :=
  (f.srcHost || f.dstHost || f.srcListHost || f.dstListHost) && landingBlocked s f.hostFn

/-- FWD_COMMIT (R485): through the PF, which bits 0–23 do not concern (R476), or from a master of the interconnect (R8). -/
def execFwdCommit (value : Reg) (throughPf : Bool) (s : State) : Result :=
  .next (if throughPf && !hostReaches s 0 then s else fwdMark throughPf value s)

/-- A remote access of the channel is not acknowledged yet (R482). -/
def remoteOpen (s : State) (c : Nat) : Bool :=
  s.fabric.fwQps.any (fun q => (q.unacked ++ q.todo).any (fun x => decide (x.channel = some c)))

/-- FWD_CHANNEL_DONE: a run moves its bytes, and ends when every destination write is acknowledged (R482, R484). -/
def execFwdChannelDone (r : FwdRun) (s : State) : Result :=
  .next
    (let c := r.channel
     let x := channelOf s c
     if !x.busy ∨ s.power.phase ≠ .running ∨ (x.due = true ∧ hostWaits s x.captured = true) then s
     else
       let s := if x.due then runChannel r s else s
       if remoteOpen s c then s
       else
         channelVector c (onChannel c (fun x =>
           { x with busy := false, done := true, error := x.error || decide (x.runError ≠ 0),
                    errCode := if x.runError ≠ 0 then x.runError else x.errCode, progress := x.runBytes }) s))

end Sys2Proof.Machine
end

