-- ==== Sys2Proof/Machine/Ledger.lean ====
section
/-! DEFINITION. Sys2Proof/Machine/Ledger.lean: the margin ledger, spare substitution and engine fault marks (R226, R260, R263,
R265, R576, R589). -/
namespace Sys2Proof.Machine

/-- GROVE_STATE: spares used, at ceiling, degraded. -/
def groveState (ceil : Nat) (g : Grove) : Nat :=
  g.sparesUsed % 4 + (if ceil ≤ g.mv then 4 else 0) + (if g.degraded then 8 else 0)

/-- A ledger entry of the device as it stands. -/
def ledgerEntry (cause result : Nat) (s : State) : LedgerEntry :=
  { seq := s.cruise.ledgerSeq + 1, cause := cause, result := result, hottest := s.power.hottest, time := s.time
    hours := s.cruise.poweredHours, groveMv := s.groves.map Grove.mv, groveSlack := s.groves.map (fun g => min 255 g.slack)
    groveState := s.groves.map (groveState s.cruise.vCeil), caps := s.pave.allStacks.map Stack.cruiseActive
    refresh := s.pave.allStacks.map Stack.refresh, retention := s.pave.allStacks.map Stack.retention
    baseSlack := s.pave.allStacks.map (fun k => min 255 k.baseSlack), portEye := s.fabric.ports.map Port.eyeMv
    landingEye := s.landing.eyeMv, rber := s.cruise.rber, faulted := s.pave.allStacks.map Stack.faulted
    thresholdGen := s.cruise.thresholdGen }

/-- Where a run may begin: at SERVICE_LEVEL 2, outside shard hold and D3hot (R581). -/
def cruiseMayRun (s : State) : Bool :=
  firmwareRuns s && decide (s.power.level = 2) && !s.power.needsReset && !holding s

/-- A run begins; where one is in progress it goes on (R581, R582). -/
def startRun (cause : Option Nat) (c : Cruise) : Cruise :=
  if c.running then c else { c with running := true, startCause := cause }

/-- Append an entry; the newest 240 stay, and RUN_DONE shows (R589). -/
def appendLedger (cause result : Nat) (s : State) : State :=
  setCruStatus 1 { s with cruise := { s.cruise with
    ledger := keepLast 240 (s.cruise.ledger ++ [ledgerEntry cause result s]), ledgerSeq := s.cruise.ledgerSeq + 1 } }

/-- Mark an engine of a stack faulted (R226, R576): the mark shows in PAV_FAULT and in a ledger entry of CAUSE 3. -/
def markEngine (stack engine : Nat) (s : State) : State :=
  if (stackOf s stack).faulted.getLsbD engine then s
  else
    appendLedger 3 0x40
      (setPavStatus (BitVec.ofNat 32 (2 ^ (8 + stack)))
        (onStack stack (fun k => { k with faulted := k.faulted ||| BitVec.ofNat 64 (2 ^ engine) }) s))

/-- Physical tile of the next spare of a grove: 37, then 36. -/
def nextSpare (g : Grove) : Nat := 37 - g.sparesUsed

/-- Substitute a spare for a logical tile (R263): the remap, the event, the log entry and the SPARE bit. -/
def substituteSpare (g tile : Nat) (s : State) : State :=
  let phys := nextSpare (groveOf s g)
  let s := onGrove g (fun x => { x with
    sparesUsed := x.sparesUsed + 1, remap := x.remap.filter (fun r => r.1 ≠ tile) ++ [(tile, phys)]
    last := none, written := x.written.filter (fun l => decide (l / 4096 ≠ tile)) }) s
  let s := { s with mem := cellsClear s.mem (tileAddr g tile) 0x40000 }
  setCruStatus 2 (logAdd 5 0 14 (g + tile * 256) phys (notify .operator 5 0 14 0 (g + tile * 256) s))

/-- A grove without a spare leaves service and is reported degraded (R265). -/
def degradeGrove (g : Nat) (s : State) : State :=
  setCruStatus 4 (onGrove g (fun x => { x with degraded := true, inService := false }) s)

end Sys2Proof.Machine
end

