-- ==== Sys2Proof/Machine/Store.lean ====
section
/-! DEFINITION. Sys2Proof/Machine/Store.lean: the row store: versions, id map, stands, seasoning and compaction of INDEX
collections; slots, blocks and adds of TABLE collections (R119–R160, R212, R213, R237, R618, R627). -/
namespace Sys2Proof.Machine

/-! ## Collections of a partition -/

def findColl (s : State) (p c : Nat) : Option Coll := (part s p).colls.find? (fun x => x.num = c)
def onColl (p c : Nat) (f : Coll → Coll) (s : State) : State :=
  onPart p (fun t => { t with colls := mapWhere (fun x => x.num = c) f t.colls }) s

/-- The 16-bit number by which commands and devices name the collection. A device that holds a primary shard keeps replica shards of the
same collection beside it under wider numbers of its own (R626; log entry 107). -/
def collNumber (c : Coll) : Nat := c.num % 65536
def replicaKey (num shard : Nat) : Nat := num + 65536 * (1 + shard)

/-- The shard `shard` of collection `num` held here, as primary or replica. -/
def findShard (s : State) (p num shard : Nat) : Option Coll :=
  (part s p).colls.find? (fun x => decide (collNumber x = num) && decide (x.shardOrdinal = shard))

def sentinel : Nat := 2 ^ 64 - 1
/-- The largest epoch and ordinal (R148). -/
def epochLimit : Nat := 0xFFFFFFFFFFFE
/-- DEATH_EPOCH of a version that is alive. -/
def alive : Nat := 0xFFFFFFFFFFFF

/-- visible(record, E) of R149. -/
def RowRec.visible (r : RowRec) (e : Nat) : Bool := decide (r.birth ≤ e) && decide (e < r.death)

def recOf (c : Coll) (o : Nat) : Option RowRec := c.recs.find? (fun r => r.ordinal = o)

/-- The slot of larger birth epoch not above `e` (R132). -/
def bestSlot (e : Nat) (slots : List (Nat × Nat)) : Option (Nat × Nat) :=
  (slots.filter (fun x => decide (x.2 ≤ e))).foldl
    (fun best x => match best with | some b => some (if b.2 ≤ x.2 then x else b) | none => some x) none

/-- The version of an id that a lookup at epoch `e` gives (R132). -/
def lookupId (c : Coll) (id e : Nat) : Option RowRec :=
  (((c.ids.find? (fun x => x.id = id)).bind (fun x => bestSlot e x.slots)).bind (fun x => recOf c x.1)).bind
    (fun r => if e < r.death then some r else none)

/-- Epochs captured by running queries of the collection, of this home and of others (R134, R137). -/
def heldEpochs (s : State) (p c : Nat) : List Nat :=
  (part s p).running.filterMap (fun r =>
    match r.kind with | .query q => if q.coll = c then some q.epoch else none | _ => none) ++
  (part s p).guests.filterMap (fun g => if g.coll = c then some g.epoch else none)

/-! ## Input rows (R123–R129, R145) -/

/-- Exactly `d` components of an input row. -/
def fitRaw (inputType d : Nat) (raw : List Nat) : List F32 :=
  ((raw.take d) ++ List.replicate (d - raw.length) 0).map (ofRaw inputType)

/-- Normalised where the metric is cosine, then rotated; none where R145 refuses the vector. -/
def prepVec (metric : Nat) (rot : Bool) (seed : Nat) (x : List F32) : Option (List F32) :=
  if !x.all F.finite then none
  else
    match (if metric = 1 then normalise x else some x) with
    | none => none
    | some x =>
      let y := if rot then rotate seed x else x
      if y.all F.finite then some y else none

/-- Token vectors of one record, rotated with D = 128 and seed + 1 (R124). -/
def prepToks (seed : Nat) (toks : List (List B16)) : Option (List (List F32)) :=
  toks.mapM (fun t => prepVec 0 true ((seed + 1) % 2 ^ 64) (fitRaw 1 128 (t.map BitVec.toNat)))

/-- A row version ready to be stored. -/
structure Prep where
  extId : Nat
  y : List F32
  attrs : Nat
  tok : Option Tok8
  deriving DecidableEq, Repr

/-- Token vectors that an entry carries for a collection without TOKENS are neither checked nor kept (R133, R140; log entry
90). -/
def prepRow (c : Coll) (inputType : Nat) (tokensPresent attrPresent : Bool) (r : RowIn) : Option Prep :=
  match prepVec c.metric true c.seed (fitRaw inputType c.dim r.vec),
        (if tokensPresent ∧ c.tokens then prepToks c.seed r.toks else some []) with
  | some y, some ts =>
    some { extId := r.id, y := y, attrs := if attrPresent then r.attr else 0,
           tok := if ts.isEmpty then none else some (tok8 ts) }
  | _, _ => none

/-- Stored rows of which two pieces are summed: BF16 above 2,048 components, I8A of 4,096 (R211). -/
def twoPieces (format d : Nat) : Bool :=
  (decide (format = 2) && decide (2048 < d)) || (decide (format = 1) && decide (d = 4096))

/-- A score ranks ahead of another under the collection's metric (R239). -/
def better (metric : Nat) (a b : F32) : Bool :=
  decide (rankKey (higherBetter metric) a < rankKey (higherBetter metric) b)

/-- The stand whose centroid scores best; the lower-numbered of equals (R131). -/
def bestStand (c : Coll) (y : List F32) : Nat :=
  ((c.centroids.zipIdx.foldl (fun (best : Option (Nat × F32)) x =>
    let v := score c.metric (twoPieces 2 c.dim) y (bfVals x.1)
    match best with
    | some b => if better c.metric v b.2 then some (x.2, v) else some b
    | none => some (x.2, v)) none).map (fun b => b.1)).getD 0

/-! ## Versions (R131, R132, R141–R143) -/

/-- Map the seasoned rows of one ordinal, each with its block. -/
def mapSeasoned (o : Nat) (f : Block → SeasonedRow → SeasonedRow) (segs : List Segment) : List Segment :=
  segs.map (fun g => { g with blocks := g.blocks.map (fun b => { b with rows := mapWhere (fun r => r.ordinal = o) (f b) b.rows }) })

/-- Write the epoch trailer of a row version (R213). -/
def setTrailer (o : Nat) (es : Nat × Nat) (c : Coll) : Coll :=
  { c with
    green := mapWhere (fun g => g.ordinal = o) (fun g => { g with epochs := es }) c.green
    segs := mapSeasoned o (fun _ r => { r with epochs := es }) c.segs }

/-- DEATH_EPOCH in the row record and in its trailer (R135, R213). -/
def kill (o e : Nat) (c : Coll) : Coll :=
  let c := { c with recs := mapWhere (fun r => r.ordinal = o) (fun r => { r with death := e }) c.recs }
  match recOf c o with
  | some r => setTrailer o (r.birth, e) c
  | none => c

/-- The id map after a new version: the slot visible at the committed epoch stays beside it. -/
def putSlot (c : Coll) (id o e : Nat) : List IdEntry :=
  let keep := ((c.ids.find? (fun x => x.id = id)).bind (fun x => bestSlot c.committed x.slots)).toList
  c.ids.filter (fun x => x.id ≠ id) ++ [{ id := id, slots := keep ++ [(o, e)] }]

/-- Write one version born at epoch `e`, replacing the one alive in it. -/
def putVersion (e : Nat) (r : Prep) (c : Coll) : Coll :=
  let c := match lookupId c r.extId e with | some old => kill old.ordinal e c | none => c
  let o := c.nextOrdinal
  { c with
    ids := putSlot c r.extId o e
    recs := c.recs ++ [{ ordinal := o, extId := r.extId, birth := e, death := alive, stand := bestStand c r.y, attrs := r.attrs }]
    green := c.green ++ [{ ordinal := o, epochs := (e, alive), sk1 := sk1 r.y, bf := bfRow r.y, tok := r.tok }]
    nextOrdinal := o + 1 }

/-- ROW_DELETE of one id; the flag says that it was there. -/
def dropVersion (e id : Nat) (c : Coll) : Coll × Bool :=
  match lookupId c id e with
  | some r => (kill r.ordinal e c, true)
  | none => (c, false)

/-- A version that a later version of its id has replaced by epoch `e`. -/
def replacedBy (c : Coll) (e o : Nat) : Bool :=
  match recOf c o with
  | some r => decide (r.death ≤ e) && c.recs.any (fun x => decide (x.extId = r.extId) && decide (r.birth < x.birth) && decide (x.birth ≤ e))
  | none => false

/-- The pending epoch becomes committed (R147). A row that a whole-row write has replaced leaves the skipped ones: until the
commit, scans still see the version and skip it (R235; log entry 94). -/
def commitEpoch (time : Nat) (c : Coll) : Coll :=
  { c with
    committed := c.committed + 1
    commitTimes := c.commitTimes ++ [(c.committed + 1, time)]
    skipped := c.skipped.filter (fun x => !replacedBy c (c.committed + 1) x.ordinal) }

/-! ## Seasoning (R133–R137, R212) -/

/-- A version that a conversion at committed epoch `es` may omit. -/
def omittable (es : Nat) (held : List Nat) (r : RowRec) : Bool :=
  decide (r.death ≤ es) && held.all (fun h => decide (r.death ≤ h))

/-- Whether the ordinal's version is kept by a conversion. -/
def keeps (c : Coll) (es : Nat) (held : List Nat) (o : Nat) : Bool :=
  match recOf c o with | some r => !omittable es held r | none => false

/-- One block of up to 256 green rows of one stand, in ordinal order (R126). -/
def seasonBlock (c : Coll) (stand : Nat) (rows : List GreenRow) : Block :=
  let ys := rows.map (fun g => bfVals g.bf)
  let s4 := blockScales 15 1 ys
  let s8 := if c.format = 1 then blockScales 255 1 ys else (0, 0)
  { stand := stand, sigma4 := s4.1, omega4 := s4.2, sigma8 := s8.1, omega8 := s8.2
    rows := rows.map (fun g =>
      { ordinal := g.ordinal, epochs := ((recOf c g.ordinal).map (fun r => (r.birth, r.death))).getD g.epochs, sk1 := g.sk1, i4 := (quantRow 15 s4.1 s4.2 (bfVals g.bf)).1
        full := if c.format = 1 then .i8a (quantRow 255 s8.1 s8.2 (bfVals g.bf)).1
          else if c.format = 2 then .bf16 g.bf else .none
        tok := g.tok }) }

/-- Blocks of a segment over the given green rows, stand by stand. -/
def seasonBlocks (c : Coll) (rows : List GreenRow) : List Block :=
  let stands := sortBy (fun a b => decide (a < b)) (rows.map (fun g => standOf c g.ordinal)).eraseDups
  stands.flatMap (fun st =>
    (chunks 256 (sortBy (fun a b => decide (a.ordinal < b.ordinal))
      (rows.filter (fun g => standOf c g.ordinal = st)))).map (seasonBlock c st))

/-- Forget versions: their records and id map slots. -/
def forget (gone : List Nat) (c : Coll) : Coll :=
  { c with
    recs := c.recs.filter (fun r => decide (r.ordinal ∉ gone))
    skipped := c.skipped.filter (fun x => decide (x.ordinal ∉ gone))
    fresh := c.fresh.filter (fun x => decide (x.ordinal ∉ gone))
    moved := c.moved.filter (fun x => decide (x.1 ∉ gone))
    ids := (c.ids.map (fun x => { x with slots := x.slots.filter (fun y => decide (y.1 ∉ gone)) })).filter
      (fun x => !x.slots.isEmpty) }

/-- Rows written into a new segment lie where it lies: earlier fresh locations and moves of theirs are over (R157, R235). -/
def placeAnew (rows : List Nat) (c : Coll) : Coll :=
  { c with fresh := c.fresh.filter (fun x => decide (x.ordinal ∉ rows)), moved := c.moved.filter (fun x => decide (x.1 ∉ rows)) }

/-- Green versions committed at `es`. -/
def greenDue (c : Coll) (es : Nat) : List GreenRow :=
  c.green.filter (fun g => match recOf c g.ordinal with | some r => decide (r.birth ≤ es) | none => true)

/-- Put the rows of `ordinals` into a new segment and drop the omitted ones. -/
def buildSeason (number : Nat) (ordinals gone : List Nat) (c : Coll) : Coll :=
  let rows := c.green.filter (fun g => decide (g.ordinal ∈ ordinals))
  let bs := seasonBlocks c rows
  let c2 := forget gone { placeAnew ordinals c with
    green := c.green.filter (fun g => decide (g.ordinal ∉ ordinals ∧ g.ordinal ∉ gone))
    segs := if bs.isEmpty then c.segs else c.segs ++ [{ number := number, blocks := bs }]
    nextSegment := max c.nextSegment (if bs.isEmpty then number else number + 1) }
  { c2 with commitTimes := c2.commitTimes.filter (fun x =>
      c2.green.any (fun g => match recOf c2 g.ordinal with | some r => decide (r.birth = x.1) | none => false)) }

/-- Placement units of a new segment: a block of I4A rows, a passage record (R333 ff.). -/
def segmentUnits (p : Nat) (c : Coll) (g : Segment) (s : State) : State :=
  let s := g.blocks.zipIdx.foldl (fun s b =>
    addUnit p (.i4Block c.num g.number b.2) c.cfg.tier (startLoc c.cfg.tier)
      (i4Bytes c.dim b.1.rows.length) 0 s) s
  (segRows g).foldl (fun s r =>
    if r.tok.isSome ∧ (findUnit s p (.tok8 c.num r.ordinal)).isNone then
      addUnit p (.tok8 c.num r.ordinal) c.cfg.tier (startLoc c.cfg.tier) (tokBytes r.tok) 0 s
    else s) s

/-- Tell every replica what a conversion built (R627). -/
def tellReplicas (p : Nat) (c : Coll) (compaction : Bool) (number : Nat) (stands ordinals retired : List Nat) (s : State) : State :=
  c.replicaSet.foldl (fun s x =>
    sendFw x.2 p (.replicaSeason { src := ownId s, part := p, coll := collNumber c, shard := c.shardOrdinal, compaction := compaction, segment := number,
                                   stands := stands, ordinals := ordinals, retired := retired }) s) s

/-- HBM that the new units of a PINNED_HBM collection take. -/
def seasonNeed (c : Coll) (es : Nat) (held : List Nat) : Nat :=
  if c.cfg.tier ≠ 0 then 0
  else
    let rows := (greenDue c es).filter (fun g => keeps c es held g.ordinal)
    ((seasonBlocks c rows).map (fun b => ceilDiv (i4Bytes c.dim b.rows.length) 4096 * 4096)).sum +
      4096 * (rows.map (fun g => ceilDiv (tokBytes g.tok) 4096)).sum

/-- Seasoning may start: room where the collection is PINNED_HBM (R333), and fewer than 65,535 segments (R241). -/
def maySeason (s : State) (p : Nat) (c : Coll) : Bool :=
  decide (c.segs.length < 65535) &&
    (decide (c.cfg.tier ≠ 0) || hbmRoom s p (seasonNeed c c.committed (heldEpochs s p c.num)))

/-- Season the green segment of a primary shard (R134). -/
def seasonNow (p : Nat) (c : Coll) (s : State) : State :=
  let es := c.committed
  let held := heldEpochs s p c.num
  let due := (greenDue c es).map GreenRow.ordinal
  let keep := due.filter (keeps c es held)
  let gone := due.filter (fun o => !keeps c es held o)
  let c2 := buildSeason c.nextSegment keep gone c
  let s := programDevice p (frameOf c.num c2.formatRaw - frameOf c.num c.formatRaw) (settlePart p (onColl p c.num (fun _ => c2) s))
  let s := if keep.isEmpty then s
    else match c2.segs.getLast? with | some g => segmentUnits p c2 g s | none => s
  tellReplicas p c false c.nextSegment [] (seasonBlocks c (c.green.filter (fun g => decide (g.ordinal ∈ keep))) |>.flatMap
    (fun b => b.rows.map SeasonedRow.ordinal)) [] s

/-! ## Compaction (R137) -/

/-- Rows of a block that survive. -/
def surviving (keep : Nat → Bool) (b : Block) : Block := { b with rows := b.rows.filter (fun r => keep r.ordinal) }

/-- Compact the stands that `sel` takes into segment `number`: surviving blocks with their bytes and scales; a segment
left without rows is retired. -/
def buildCompact (number : Nat) (sel : Nat → Bool) (keep : Nat → Bool) (c : Coll) : Coll × List Nat × List Nat :=
  let moved := c.segs.flatMap (fun g => g.blocks.filter (fun b => sel b.stand))
  let blocks := (moved.map (surviving keep)).filter (fun b => !b.rows.isEmpty)
  let blocks := sortBy (fun a b => decide (a.stand < b.stand)) blocks
  let rest := c.segs.map (fun g => { g with blocks := g.blocks.filter (fun b => !sel b.stand) })
  let gone := (moved.flatMap (fun b => b.rows.map SeasonedRow.ordinal)).filter (fun o => !keep o)
  let retired := (rest.filter (fun g => g.blocks.isEmpty)).map Segment.number
  let segs := rest.filter (fun g => !g.blocks.isEmpty)
  (forget gone { placeAnew (blocks.flatMap (fun b => b.rows.map SeasonedRow.ordinal)) c with
    segs := if blocks.isEmpty then segs else segs ++ [{ number := number, blocks := blocks }]
    nextSegment := if blocks.isEmpty then c.nextSegment else number + 1 },
   blocks.flatMap (fun b => b.rows.map SeasonedRow.ordinal), retired)

/-- Units of the I4A blocks of the collection's segments, renewed after a compaction; units of TOK8 records that are gone
leave. -/
def renewUnits (p : Nat) (c : Coll) (s : State) : State :=
  let live := c.segs.flatMap (fun g => (segRows g).map SeasonedRow.ordinal)
  let dead (u : PUnit) : Bool := u.part = p &&
    (match u.kind with
     | .i4Block x g b => decide (x = c.num) && !(c.segs.any (fun y => decide (y.number = g) && decide (b < y.blocks.length)))
     | .tok8 x o => decide (x = c.num) && decide (o ∉ live)
     | _ => false)
  let s := (s.skidder.units.filter dead).foldl (fun s u => freeHolders p u s) s
  let s := dropUnits dead s
  c.segs.foldl (fun s g =>
    g.blocks.zipIdx.foldl (fun s b =>
      let k := UnitKind.i4Block c.num g.number b.2
      if (findUnit s p k).isSome then
        onUnits (mapWhere (sameUnit p k) (fun u => { u with size := i4Bytes c.dim b.1.rows.length })) s
      else addUnit p (.i4Block c.num g.number b.2) c.cfg.tier (startLoc c.cfg.tier)
        (i4Bytes c.dim b.1.rows.length) 0 s) s) s

/-- Compact a primary shard's stands. -/
def compactNow (p : Nat) (sel : Nat → Bool) (c : Coll) (s : State) : State :=
  let held := heldEpochs s p c.num
  let x := buildCompact c.nextSegment sel (keeps c c.committed held) c
  let s := settlePart p (renewUnits p x.1 (onColl p c.num (fun _ => x.1) s))
  let stands := ((c.segs.flatMap (fun g => g.blocks.map Block.stand)).filter sel).eraseDups
  tellReplicas p c true c.nextSegment stands x.2.1 x.2.2 s

/-- Versions in seasoned segments that compaction could omit now. -/
def compactable (s : State) (p : Nat) (c : Coll) : Bool :=
  let held := heldEpochs s p c.num
  c.segs.any (fun g => (segRows g).any (fun r => !keeps c c.committed held r.ordinal))

/-- A segment holds COMPACT_DEAD_PCT percent or more of such versions (R137). -/
def deadDue (s : State) (p : Nat) (c : Coll) : Bool :=
  let held := heldEpochs s p c.num
  c.segs.any (fun g =>
    let n := (segRows g).length
    let d := ((segRows g).filter (fun r => !keeps c c.committed held r.ordinal)).length
    decide (0 < d) && decide (c.cfg.compactDeadPct * n ≤ 100 * d))

/-! ## Stored rows -/

/-- The dequantised row of the best stored format: green BF16, FORMAT, I4A (R144). -/
def storedVec (c : Coll) (o : Nat) : List F32 :=
  match c.green.find? (fun g => g.ordinal = o) with
  | some g => bfVals g.bf
  | none =>
    (c.segs.findSome? (fun g => g.blocks.findSome? (fun b =>
      (b.rows.find? (fun r => r.ordinal = o)).map (fun r =>
        match r.full with
        | .bf16 v => bfVals v
        | .i8a x => dequant b.sigma8 b.omega8 x
        | .none => dequant b.sigma4 b.omega4 r.i4)))).getD []

/-- The TOK8 record of an ordinal, green or seasoned. -/
def tokOf (c : Coll) (o : Nat) : Option Tok8 :=
  match c.green.find? (fun g => g.ordinal = o) with
  | some g => g.tok
  | none => (c.segs.findSome? (fun g => (segRows g).find? (fun r => r.ordinal = o))).bind SeasonedRow.tok

/-! ## TABLE rows (R150–R160) -/

/-- Codes per component of a coded TABLE format: Q. -/
def tableQ (format : Nat) : Nat := if format = 3 then 15 else 255
def coded (format : Nat) : Bool := format = 1 || format = 3

/-- The index of the range that holds a row of a pooled TABLE: the last entry at or below it. -/
def ownerIndex (c : Coll) (i : Nat) : Nat := (c.entries.filter (fun e => decide (e.firstRow ≤ i))).length - 1

/-- The row lies in this device's own range. -/
def ownRow (c : Coll) (i : Nat) : Bool := decide (c.rowBase ≤ i) && decide (i < c.rowBase + c.tableRows)

/-- The row lies in some range of the TABLE (R145): at most 2^48 − 2, and in this device's range where that range holds
its place. -/
def inTable (c : Coll) (own i : Nat) : Bool :=
  decide (i ≤ 2 ^ 48 - 2) &&
    (ownRow c i || (c.pooled && decide ((c.entries.getD (ownerIndex c i) { device := own, firstRow := 0 }).device ≠ own)))

/-- Device that owns the row. -/
def rowOwner (c : Coll) (own i : Nat) : Nat :=
  if ownRow c i then own else (c.entries.getD (ownerIndex c i) { device := own, firstRow := 0 }).device

def tableRow (c : Coll) (i : Nat) : Option TableRow := c.rows.find? (fun r => r.index = i)
def activeSlot (r : TableRow) : TRow := if r.active1 then r.slot1 else r.slot0
/-- The block of a row. The fixed runs of 256 row indices (R126) are counted from ROW_BASE (log entry 91). -/
def blockNo (c : Coll) (i : Nat) : Nat := (i - c.rowBase) / 256

def scalesOf (c : Coll) (b : Nat) : Option TableBlock := c.blocks.find? (fun x => x.block = b)

/-- Dequantised components of a row; a row never written reads as zeros. -/
def tableVec (c : Coll) (i : Nat) : List F32 :=
  match tableRow c i with
  | none => List.replicate c.dim 0
  | some r =>
    match activeSlot r with
    | .bf16 v => bfVals v
    | .coded x =>
      match scalesOf c (blockNo c i) with
      | some b => dequant b.sigma b.omega x
      | none => List.replicate c.dim 0

/-- A row as stored, and whether storing it clamped (R152). -/
def storeVec (c : Coll) (b : Nat) (y : List F32) : TRow × Bool :=
  if coded c.format then
    match scalesOf c b with
    | some k =>
      let x := quantRow (tableQ c.format) k.sigma k.omega (cleanNan y)
      (.coded x.1, x.2 || y.any F.isNan)
    | none => (.coded { sc := 0, oc := 128, codes := List.replicate c.dim 0 }, false)
  else (.bf16 (bfRow (cleanNan y)), y.any bfClamps || y.any F.isNan)

/-- The first write to a block sets its scales over the rows placed in it (R151). -/
def openTableBlock (b : Nat) (ys : List (List F32)) (c : Coll) : Coll :=
  if coded c.format ∧ (scalesOf c b).isNone then
    let k := blockScales (tableQ c.format) c.cfg.headroom (ys.map cleanNan)
    { c with blocks := c.blocks ++ [{ block := b, sigma := k.1, omega := k.2 }] }
  else c

/-- Switch a row to a new value: the inactive slot is written and becomes the active one (R154). -/
def switchRow (place : RowPlace) (i : Nat) (v : TRow) (c : Coll) : Coll :=
  match tableRow c i with
  | some _ =>
    { c with rows := mapWhere (fun r => r.index = i) (fun r =>
        if r.active1 then { r with slot0 := v, active1 := false }
        else { r with slot1 := v, active1 := true }) c.rows }
  | none =>
    { c with rows := c.rows ++ [{ index := i, slot0 := v, slot1 := v, active1 := false, poisoned := false, place := place }] }

/-- A row becomes poisoned (R237); one that was never written holds zeros in both slots. -/
def poisonRow (place : RowPlace) (i : Nat) (c : Coll) : Coll :=
  let zero : TRow := if coded c.format then .coded { sc := 0, oc := 128, codes := List.replicate c.dim 0 }
    else .bf16 (List.replicate c.dim 0)
  if (tableRow c i).isSome then
    { c with rows := mapWhere (fun r => r.index = i) (fun r => { r with poisoned := true }) c.rows }
  else
    { c with rows := c.rows ++ [{ index := i, slot0 := zero, slot1 := zero, active1 := false, poisoned := true, place := place }] }

def clearPoison (i : Nat) (c : Coll) : Coll :=
  { c with rows := mapWhere (fun r => r.index = i) (fun r => { r with poisoned := false }) c.rows }

/-- Write a row whole (R150, R238). -/
def writeRow (place : RowPlace) (i : Nat) (y : List F32) (c : Coll) : Coll :=
  let x := storeVec c (blockNo c i) y
  let c := clearPoison i (switchRow place i x.1 c)
  { c with saturations := c.saturations + (if x.2 then 1 else 0) }

/-- One dequantise-add-requantise of ŷ + delta (R152). -/
def addRow (place : RowPlace) (i : Nat) (delta : List F32) (c : Coll) : Coll :=
  let z := List.zipWith F.add (tableVec c i) delta
  let c := openTableBlock (blockNo c i) [z] c
  let x := storeVec c (blockNo c i) z
  let c := switchRow place i x.1 c
  { c with saturations := c.saturations + (if x.2 then 1 else 0) }

/-- The addend of a gradient: rotate(ALPHA · g), the identity with NO_ROTATE (R152). -/
def rotateFor (c : Coll) (v : List F32) : List F32 := if c.noRotate then v else rotate c.seed v

def isPoisonedRow (c : Coll) (i : Nat) : Bool := ((tableRow c i).map TableRow.poisoned).getD false

/-- Requantise every written block with HEADROOM over its present rows (R151). -/
def requantise (c : Coll) : Coll :=
  if !coded c.format then c
  else
    c.blocks.foldl (fun c k =>
      let mine := c.rows.filter (fun r => blockNo c r.index = k.block)
      let ys := mine.map (fun r => (r.index, tableVec c r.index))
      let n := blockScales (tableQ c.format) c.cfg.headroom (ys.map (fun y => y.2))
      let c := { c with blocks := mapWhere (fun b => b.block = k.block) (fun b => { b with sigma := n.1, omega := n.2 }) c.blocks }
      ys.foldl (fun c y =>
        let v := (storeVec c k.block y.2).1
        let set (r : TableRow) : TableRow := if r.active1 then { r with slot1 := v } else { r with slot0 := v }
        { c with rows := mapWhere (fun r => r.index = y.1) set c.rows }) c) c

/-- Stored bytes of a TABLE block: both slots of its rows. -/
def tableUnitSize (c : Coll) : Nat := 2 * 4096 * rowGranules (formatBytes c.format c.dim) (min 256 c.tableRows)

/-- OBJ address of a block's first row (R342). -/
def tableAddr (c : Coll) (b : Nat) : Nat :=
  let n := formatBytes c.format c.dim
  c.base + (if n ≤ 4096 then 256 * b / (4096 / n) * 4096 else 256 * b * (ceilDiv n 4096) * 4096)

/-- Reach a row for writing: its unit exists, is in HBM (a lower tier is copied up first), and is heated (R215, R345). -/
def touchBlock (p : Nat) (c : Coll) (b : Nat) (s : State) : State :=
  let k := UnitKind.tableBlock c.num b
  let s := match findUnit s p k with
    | none => addUnit p k c.cfg.tier .hbm (tableUnitSize c) (tableAddr c b) s
    | some u =>
      if u.loc = .hbm then s
      else
        let s := freeHolders p u (placeUnit p k .hbm s)
        { s with skidder := { s.skidder with copyUps := s.skidder.copyUps + 1 } }
  heatUnit p k s

/-- The row's granule group within its block (R336). -/
def rowGroup (c : Coll) (i : Nat) : Nat :=
  let b := formatBytes c.format c.dim
  if b ≤ 4096 then (i - c.rowBase) % 256 / (4096 / b) else (i - c.rowBase) % 256

/-- Stack that holds a row: its granule group under the unit's stripe (R336). -/
def rowStack (s : State) (p : Nat) (c : Coll) (i : Nat) : Nat :=
  (((findUnit s p (.tableBlock c.num (blockNo c i))).map PUnit.s0).getD 0 + rowGroup c i) % 8

/-- Where migration has put a row (R157). -/
def movedTo (c : Coll) (i : Nat) : Option RowPlace := (c.moved.find? (fun x => decide (x.1 = i))).map (fun x => x.2)

/-- Where a row is placed when it is first written. -/
def rowPlace (s : State) (p : Nat) (c : Coll) (i : Nat) : RowPlace := (movedTo c i).getD (.hbm (rowStack s p c i))

/-- The stack that a row lies on now; none for a row in flash (R157). -/
def stackOfRow (s : State) (p : Nat) (c : Coll) (i : Nat) : Option Nat :=
  match ((tableRow c i).map TableRow.place).getD (rowPlace s p c i) with
  | .hbm k => some k
  | .flash => none

/-- Local address of the first granule that holds a row: of its group in the unit, or, once migration has moved it, of a granule of
its partition's on the stack it went to (log entry 44). -/
def rowAddr (s : State) (p : Nat) (c : Coll) (i : Nat) : Nat :=
  let k := (stackOfRow s p c i).getD 0
  match findUnit s p (.tableBlock c.num (blockNo c i)), movedTo c i with
  | some u, none => unitGranule s u (rowGroup c i) 0
  | some u, some _ => granuleAt s p k (Config.granuleAt u.id (4 + rowGroup c i) k)
  | none, _ => granuleAt s p k 0

/-- The block lies in flash or the pool, or migration has put the row in flash: at SERVICE_LEVEL 1 a command on it is NOT_READY (R565). -/
def blockInFlash (s : State) (p : Nat) (c : Coll) (i : Nat) : Bool :=
  (match findUnit s p (.tableBlock c.num (blockNo c i)) with
   | some u => decide (u.loc ≠ .hbm)
   | none => false) || (stackOfRow s p c i).isNone

/-- Rows of a TABLE that a command reaches at SERVICE_LEVEL 1. -/
def tableReady (s : State) (p : Nat) (c : Coll) (rows : List Nat) : Bool :=
  decide (s.power.level ≠ 1) || rows.all (fun i => !ownRow c i || !blockInFlash s p c i)

end Sys2Proof.Machine
end

