-- ==== Sys2Proof/Machine/Pave.lean ====
section
/-! DEFINITION. Sys2Proof/Machine/Pave.lean: the activation governor, passes, engine faults, and rows that engines skip
(R208–R237, R576). -/
namespace Sys2Proof.Machine

/-! ## Grants (R225–R228) -/

/-- DATA0 of a GRANT record. -/
def grantTrace (stack : Nat) (x : Pass) (release : Bool) : Nat :=
  stack + x.engine * 256 + x.kernel * 65536 + if release then 2 ^ 24 else 0

/-- The partition of the command that a pass serves. -/
def passPart (x : Pass) : Nat := (x.requester.map (fun r => r.1)).getD 14

/-- Engines in round robin by increasing number, after the one granted last. -/
def engineOrder (last : Nat) : List Nat := (List.range 64).map (fun i => (last + 1 + i) % 64)

/-- The engine may take a grant: a pass waits, it holds none, and it is not marked faulted. -/
def grantable (k : Stack) (e : Nat) : Bool :=
  k.waiting.any (fun x => x.engine = e) && k.granted.all (fun x => decide (x.engine ≠ e)) && !k.faulted.getLsbD e

def nextEngine (k : Stack) : Option Nat := (engineOrder k.lastGrant).find? (grantable k)

/-- Give one engine its oldest waiting pass. -/
def grantTo (n e : Nat) (s : State) : State :=
  let k := stackOf s n
  match k.waiting.find? (fun x => x.engine = e) with
  | none => s
  | some x =>
    trace 6 (passPart x) 4 (grantTrace n x false) x.first
      (onStack n (fun k => { k with granted := k.granted ++ [x], waiting := k.waiting.erase x, lastGrant := e }) s)

/-- Grant while the grants are below the effective cap, at most `f` times. -/
def grantLoop (n : Nat) : Nat → State → State
  | 0, s => s
  | f + 1, s =>
    let k := stackOf s n
    if k.granted.length < effectiveCap s k then
      match nextEngine k with
      | some e => grantLoop n f (grantTo n e s)
      | none => s
    else s

/-- Passes that the engines do not run go to Canopy: all of them at a cap of 0, and those of faulted engines (R215, R228). -/
def toCanopy (n : Nat) (s : State) : State :=
  let cap := effectiveCap s (stackOf s n)
  onStack n (fun k => { k with waiting := if cap = 0 then [] else k.waiting.filter (fun x => !k.faulted.getLsbD x.engine) }) s

/-- Pavé runs: firmware has passed step 7 of bring-up and the engines are powered (R571–R573, R576). -/
def paveRuns (s : State) : Bool := decide (s.power.phase = .running) && decide (1 ≤ s.power.level) && !holding s

/-- A pass as firmware may hand it over: 1–256 granules, 1–16 queries, on the engine whose pseudo-channel of this stack holds its
granules, which are in HBM. Of a unit's granule group it reads the copy that R337 names (R43, R208, R210, R215). -/
def validPass (s : State) (stack : Nat) (x : Pass) : Bool :=
  within 1 256 x.granules && within 1 16 x.queries && decide (x.kernel ≤ 4) && decide (hbmBase ≤ x.first) &&
    hbmPopulated (x.first - hbmBase) && decide (addrStack x.first = stack) && decide (addrEngine x.first = x.engine) &&
    (match x.group with
     | some (id, g) =>
       match s.skidder.units.find? (fun u => decide (u.id = id)) with
       | some u => decide (u.loc = .hbm) && decide (x.first = unitGranule s u g (readerCopy s u g))
       | none => false
     | none => true)

/-- GOVERNOR_GRANT: the passes handed over since join those waiting, and the governor grants. -/
def execGovernorGrant (a : GrantArgs) (s : State) : Result :=
  .next
    (if paveRuns s then
      grantLoop a.stack 64 (toCanopy a.stack (onStack a.stack (fun k => { k with waiting := k.waiting ++ a.arrivals.filter (validPass s a.stack) }) s))
     else s)

/-! ## The end of a pass -/

/-- Take the engine's pass off the granted ones. -/
def releaseGrant (stack engine : Nat) (s : State) : State :=
  match (stackOf s stack).granted.find? (fun x => x.engine = engine) with
  | some x =>
    trace 6 (passPart x) 4 (grantTrace stack x true) x.first
      (onStack stack (fun k => { k with granted := k.granted.erase x }) s)
  | none => s

/-- An add that the engine runs has the lock of its row: the grant cannot go before the lock (R221). -/
def engineLeased (s : State) (stack engine : Nat) : Bool :=
  s.parts.any (fun t => t.colls.any (fun c => c.leases.any (fun l => decide (l.engine = some (stack, engine)) && decide (0 < l.attempt))))

/-! ## The outer code of a line (R230, R231) -/

/-- What a decoder makes of one line: every engine's and the controller's give the same (R231). -/
inductive LineEnd where
  | clean | corrected | uncorrectable
  deriving DecidableEq, Repr

/-- The bits that leave the dies wrong: each die corrects the single wrong bit of a run of 256 (R230). -/
def inDie (wrong : List Nat) : List Nat :=
  let w := wrong.eraseDups
  w.filter (fun b => w.any (fun x => decide (x ≠ b) && decide (x / 256 = b / 256)))

/-- The symbol of RS(72, 64) that carries a stored bit: the 32 bits of a device word lie within four symbols (R230; log entry
93). -/
def symbolOf (bit : Nat) : Nat := 4 * (bit / 32) + bit % 4

/-- The decoder corrects any 4 symbol errors (R230). More are declared uncorrectable (log entry 93). -/
def decodeLine (wrong : List Nat) : LineEnd :=
  let n := ((inDie wrong).map symbolOf).eraseDups.length
  if n = 0 then .clean else if n ≤ 4 then .corrected else .uncorrectable

/-- The engine counts a line that its decoder corrected; firmware logs at most one a second for it (R232). -/
def countCorrected (stack engine partition line : Nat) (s : State) : State :=
  let k := stackOf s stack
  let s := onStack stack (fun k => { k with corrected := k.corrected.modify engine (· + 1) }) s
  match k.eccLogged.getD engine none with
  | some t =>
    if s.time < t + 1000000 ∨ s.power.fwFault then s
    else logAdd 3 6 partition line 2 (onStack stack (fun k => { k with eccLogged := k.eccLogged.set engine (some s.time) }) s)
  | none =>
    if s.power.fwFault then s
    else logAdd 3 6 partition line 2 (onStack stack (fun k => { k with eccLogged := k.eccLogged.set engine (some s.time) }) s)

/-! ## Engine faults (R226, R576, R580) -/

/-- The engine is marked faulted: its running pass is abandoned and re-runs on the other paths, its grant is free, and the
governor grants it nothing more. -/
def faultEngine (stack engine : Nat) (s : State) : State :=
  let s := markEngine stack engine s
  grantLoop stack 64 (toCanopy stack (releaseGrant stack engine s))

/-- PASS_OVERRUN: a pass still runs 40 µs after its grant. -/
def execPassOverrun (a : EngineArgs) (s : State) : Result :=
  .next
    (if paveRuns s && (stackOf s a.stack).granted.any (fun x => x.engine = a.engine) then faultEngine a.stack a.engine s else s)

/-- ENGINE_FAULT: the engine's self-check fails. -/
def execEngineFault (a : EngineArgs) (s : State) : Result :=
  .next (if s.power.phase = .running ∧ a.stack < 8 ∧ a.engine < 64 then faultEngine a.stack a.engine s else s)

/-! ## Restoring a skipped row (R234, R235) -/

/-- The dequantised FORMAT row of a seasoned row. -/
def formatVec (b : Block) (r : SeasonedRow) : Option (List F32) :=
  match r.full with
  | .none => none
  | .i8a x => some (dequant b.sigma8 b.omega8 x)
  | .bf16 v => some (bfVals v)

/-- The components of a version from one stored form of it, where it has that form. -/
def formVec (c : Coll) (o : Nat) : Form → Option (List F32)
  | .green => (c.green.find? (fun g => g.ordinal = o)).map (fun g => bfVals g.bf)
  | .int4 => c.segs.findSome? (fun g => g.blocks.findSome? (fun b =>
      (b.rows.find? (fun r => r.ordinal = o)).map (fun r => dequant b.sigma4 b.omega4 r.i4)))
  | .full => c.segs.findSome? (fun g => g.blocks.findSome? (fun b =>
      (b.rows.find? (fun r => r.ordinal = o)).bind (fun r => formatVec b r)))
  | _ => none

/-- The forms that a lost one is derived from, in order (step 3 of R234). -/
def sources : Form → List Form
  | .sketch => [.green, .int4, .full]
  | .int4 => [.full]
  | _ => []

/-- The components that the lost form is derived from: of the first source that can be read. -/
def sourceVec (c : Coll) (o : Nat) (lost : Form) (readable : List Form) : Option (List F32) :=
  ((sources lost).filter (fun f => decide (f ∈ readable) && decide ({ ordinal := o, form := f } ∉ c.skipped))).findSome? (formVec c o)

/-- Write SK1 of a version. -/
def setSketch (o : Nat) (y : List F32) (c : Coll) : Coll :=
  { c with
    green := mapWhere (fun g => g.ordinal = o) (fun g => { g with sk1 := sk1 y }) c.green
    segs := mapSeasoned o (fun _ r => { r with sk1 := sk1 y }) c.segs }

/-- Write I4A of a version under its block's σ and ω. -/
def setInt4 (o : Nat) (y : List F32) (c : Coll) : Coll :=
  { c with segs := mapSeasoned o (fun b r => { r with i4 := (quantRow 15 b.sigma4 b.omega4 y).1 }) c.segs }

/-- The lost form derived again (step 3 of R234): epoch pairs from the row record. -/
def deriveForm (c : Coll) (o : Nat) (lost : Form) (readable : List Form) : Option Coll :=
  match lost with
  | .sketch => (sourceVec c o lost readable).map (fun y => setSketch o y c)
  | .int4 => (sourceVec c o lost readable).map (fun y => setInt4 o y c)
  | .epochs => (recOf c o).map (fun r => setTrailer o (r.birth, r.death) c)
  | _ => none

/-- Another copy of the form's bytes is held: a hot copy of its unit, or a replica shard (step 2 of R234). -/
def hasCopy (s : State) (p : Nat) (c : Coll) (o : Nat) (f : Form) : Bool :=
  !c.replicaSet.isEmpty || decide (c.role ≠ 0) ||
    s.skidder.units.any (fun u => decide (u.part = p) && decide (0 < u.copies) &&
      (match u.kind with
       | .i4Block x g b => decide (f = .int4) && decide (x = c.num) &&
           c.segs.any (fun y => decide (y.number = g) && ((y.blocks.getD b { stand := 0, sigma4 := 0, omega4 := 0, sigma8 := 0, omega8 := 0, rows := [] }).rows.any (fun r => decide (r.ordinal = o))))
       | .tok8 x y => decide (f = .tok) && decide (x = c.num) && decide (y = o)
       | _ => false))

/-- The restored form goes to a fresh line, the failing line is retired, and the row leaves SKIPPED_ROWS (R235). -/
def restored (p coll o : Nat) (f : Form) (line : Nat) (s : State) : State :=
  let at_ := Config.freshLine s.freeCount
  let s := bumpFree { s with skidder := { s.skidder with retiredLines := s.skidder.retiredLines ++ [line] } }
  onColl p coll (fun c => { c with
    skipped := c.skipped.filter (fun x => x ≠ { ordinal := o, form := f })
    fresh := c.fresh.filter (fun x => !(x.ordinal = o && x.form = f)) ++ [{ ordinal := o, form := f, line := at_ }] }) s

/-- SKIPPED_ROW_RESTORE: each step of R234 in turn; a row restored leaves SKIPPED_ROWS, one that is not is logged (R235). -/
def execSkippedRowRestore (a : RestoreArgs) (s : State) : Result :=
  .next
    (match findColl s a.part a.coll with
     | none => s
     | some c =>
       if !firmwareRuns s ∨ { ordinal := a.ordinal, form := a.lost } ∉ c.skipped then s
       else if a.rereads.any (fun w => decide (decodeLine w ≠ .uncorrectable)) || (a.copy && hasCopy s a.part c a.ordinal a.lost) then
         restored a.part a.coll a.ordinal a.lost a.line s
       else
         match deriveForm c a.ordinal a.lost a.readable with
         | some d => restored a.part a.coll a.ordinal a.lost a.line (onColl a.part a.coll (fun _ => d) s)
         | none => logAdd 4 6 a.part a.line 2 s)

end Sys2Proof.Machine
end

