-- ==== Sys2Proof/Machine/Adds.lean ====
section
/-! DEFINITION. Sys2Proof/Machine/Adds.lean: what a ROW_READ, an ingest command or an INGEST_COMMIT waits for and how it ends, and
the row locks of in-place adds with their leases (R121, R147, R154, R155, R159, R160, R221, R237, R238). -/
namespace Sys2Proof.Machine

/-! ## Owners of pooled ranges (R159, R160) -/

/-- The owner of a row can be reached. -/
def ownerUp (s : State) (d : Nat) : Bool := d = ownId s || decide (d ∉ s.fabric.lost)

/-- Distinct owners, other than this device, of some rows. -/
def otherOwners (s : State) (c : Coll) (rows : List Nat) : List Nat :=
  ((rows.map (rowOwner c (ownId s))).eraseDups).filter (fun d => d ≠ ownId s)

/-- Entries whose owner cannot be reached, each of its own weight. -/
def lostRows {α : Type} (s : State) (c : Coll) (rowOf weight : α → Nat) (es : List α) : Nat :=
  ((es.filter (fun e => !ownerUp s (rowOwner c (ownId s) (rowOf e)))).map weight).sum

/-- The owners that are asked, each with the entries it stands for. -/
def askedOwners {α : Type} (s : State) (c : Coll) (rowOf weight : α → Nat) (es : List α) : List (Nat × Nat) :=
  ((otherOwners s c (es.map rowOf)).filter (ownerUp s)).map (fun d =>
    (d, ((es.filter (fun e => rowOwner c (ownId s) (rowOf e) = d)).map weight).sum))

/-- Carry the entries of other ranges to their owners. -/
def forwardRows {α : Type} (q : SqReq) (c : Coll) (rowOf : α → Nat) (mk : List α → PooledOp) (es : List α) (s : State) : State :=
  (otherOwners s c (es.map rowOf)).foldl (fun s d =>
    if ownerUp s d then
      sendFw d q.part (.pooled { src := ownId s, part := q.part, sq := q.sq, tag := q.tag, coll := c.num,
                                 op := mk (es.filter (fun e => rowOwner c (ownId s) (rowOf e) = d)) }) s
    else s) s

/-! ## Reading rows (R144, R238) -/

/-- The bitmap: bit n for entry n, rounded up to 8 bytes. -/
def foundBytes (l : List Bool) : List Byte :=
  (List.range (ceilDiv l.length 64)).flatMap (fun w =>
    le 8 (((l.drop (64 * w)).take 64).zipIdx.foldl (fun n b => n + if b.1 then 2 ^ b.2 else 0) 0))

/-- One row of this device's range: components in the caller's coordinates, attributes, found. -/
def readOwn (c : Coll) (i : Nat) : List F32 × Nat × Bool :=
  if isPoisonedRow c i then (List.replicate c.dim 0, 0, false)
  else (if c.noRotate then tableVec c i else unrotate c.seed (tableVec c i), 0, true)

/-- One entry of a TABLE read: of this device's range, or as its owner has returned it. A row that no owner returned reads as
zeros with FOUND clear. -/
def readTable (c : Coll) (remote : List (Nat × List F32)) (i : Nat) : List F32 × Nat × Bool :=
  if ownRow c i then readOwn c i
  else
    match remote.find? (fun x => x.1 = i) with
    | some x => (x.2.take c.dim ++ List.replicate (c.dim - x.2.length) 0, 0, true)
    | none => (List.replicate c.dim 0, 0, false)

def readOut (p : Nat) (a : RowReadArgs) (out : List (List F32 × Nat × Bool)) (s : State) : State :=
  let s := hostWrite (1 + p) a.outAddr (out.flatMap (fun x => outBytes a.outType x.1)) s
  let s := hostWrite (1 + p) a.foundAddr (foundBytes (out.map (fun x => x.2.2))) s
  if a.withAttr then hostWrite (1 + p) a.attrOutAddr (out.flatMap (fun x => le 8 x.2.1)) s else s

/-- The ids or rows that a read names: exactly COUNT of them. -/
def readIds (a : RowReadArgs) : List Nat := a.ids.take a.count ++ List.replicate (a.count - a.ids.length) sentinel

/-! ## Running ingest commands -/

/-- Status, DETAIL_A and DETAIL_B at the end: entries not applied or rows poisoned (R237, R238), then an owner's refusal, then
unreachable ranges (R160). Where several hold, the first is reported: the spec orders none (log entry 92). -/
def IngestRun.result (w : IngestRun) : Nat × Nat × Nat :=
  if w.failed ≠ 0 then (St.uncorrectable, w.failed, if w.read.isSome then 0 else w.first)
  else if w.refused ≠ 0 then (w.refusal, w.refused, 0)
  else if w.lost ≠ 0 then (St.rangeUnreachable, w.lost, 0)
  else (St.ok, w.dA, w.dB)

/-- Count `n` entries not applied, the first of them on row `i`. -/
def IngestRun.fails (n i : Nat) (w : IngestRun) : IngestRun :=
  if n = 0 then w else { w with failed := w.failed + n, first := if w.failed = 0 then i else w.first }

def findRun (s : State) (p sq tag : Nat) : Option Running :=
  (part s p).running.find? (fun r => decide (r.sq = sq) && decide (r.tag = tag))

def ingestOf (s : State) (p sq tag : Nat) : Option (Running × IngestRun) :=
  (findRun s p sq tag).bind (fun r => match r.kind with | .ingest w => some (r, w) | _ => none)

/-- Give a running command its new record. -/
def setRun (p : Nat) (r : Running) (k : RunKind) (s : State) : State :=
  onPart p (fun t => { t with running := mapWhere (fun x => x.sq = r.sq && x.tag = r.tag) (fun x => { x with kind := k }) t.running }) s

/-- Adds of the command still hold or wait for a lock. -/
def leased (s : State) (p sq tag : Nat) (peer : Option Nat) : Bool :=
  (part s p).colls.any (fun c => c.leases.any (fun l => decide (l.sq = sq ∧ l.tag = tag ∧ l.peer = peer)))

/-- A ROW_READ writes its output once every owner has answered. -/
def writeRead (p : Nat) (w : IngestRun) (s : State) : State :=
  match w.read, findColl s p w.coll with
  | some (a, got), some c => readOut p a ((readIds a).map (readTable c got)) s
  | _, _ => s

/-- The command completes. -/
def endIngest (p : Nat) (r : Running) (w : IngestRun) (s : State) : State :=
  let e := w.result
  endRunning p r e.1 0 e.2.1 e.2.2 (writeRead p w s)

/-- Send what a shard applied to each of its replicas (R121). -/
def tellIngest (q : Nat × Nat × Nat) (c : Coll) (op : ReplicaOp) (s : State) : State :=
  c.replicaSet.foldl (fun s x =>
    sendFw x.2 q.1 (.replica { src := ownId s, part := q.1, sq := q.2.1, tag := q.2.2, coll := collNumber c, shard := c.shardOrdinal, op := op }) s) s

/-- The replicas that a command waits for. -/
def replicaWaits (s : State) (c : Coll) : List (Nat × Nat) :=
  ((c.replicaSet.map (fun x => x.2)).filter (fun d => decide (d ∉ s.fabric.lost))).map (fun d => (d, 0))

/-- An INGEST_COMMIT whose earlier ingests have ended: the pending epoch becomes committed, and the replicas are told. -/
def commitRun (p : Nat) (r : Running) (w : IngestRun) (s : State) : State :=
  match findColl s p w.coll with
  | none => endIngest p r { w with before := [] } s
  | some c =>
    let s := tellIngest (p, r.sq, r.tag) c .commit (onColl p w.coll (commitEpoch s.time) s)
    let w := { w with before := [], waitFor := replicaWaits s c, dB := c.committed + 1 }
    if w.waitFor.isEmpty then endIngest p r w s else setRun p r (.ingest w) s

/-- An ingest command has ended: the commits that wait for it go on (R147). -/
def ingestEnded (p sq tag : Nat) (s : State) : State :=
  (part s p).running.foldl (fun s r =>
    match r.kind with
    | .ingest w =>
      if w.isCommit && decide ((sq, tag) ∈ w.before) then
        let rest := w.before.filter (fun x => x ≠ (sq, tag))
        if rest.isEmpty then commitRun p r w s else setRun p r (.ingest { w with before := rest }) s
      else s
    | _ => s) s

/-- A running command with nothing left to wait for completes. -/
def settleIngest (p sq tag : Nat) (s : State) : State :=
  match ingestOf s p sq tag with
  | some (r, w) =>
    if w.before.isEmpty && w.waitFor.isEmpty && !leased s p sq tag none then ingestEnded p sq tag (endIngest p r w s) else s
  | none => s

/-- An owner answers a member's request (R159). -/
def takePooled (src p sq tag status failed first : Nat) (rows : List (Nat × List F32)) (s : State) : State :=
  match ingestOf s p sq tag with
  | some (r, w) =>
    match w.waitFor.find? (fun x => decide (x.1 = src)) with
    | some x =>
      let w := { w with waitFor := w.waitFor.filter (fun y => y.1 ≠ src)
                        read := w.read.map (fun (y : RowReadArgs × List (Nat × List F32)) => (y.1, y.2 ++ rows)) }
      let w := if status = St.ok ∨ status = St.uncorrectable then w.fails failed first
        else { w with refused := w.refused + x.2, refusal := if w.refused = 0 then status else w.refusal }
      settleIngest p sq tag (setRun p r (.ingest w) s)
    | none => s
  | none => s

/-- A replica answers that it has applied or committed (R121). -/
def takeReplica (src p sq tag : Nat) (s : State) : State :=
  match ingestOf s p sq tag with
  | some (r, w) =>
    settleIngest p sq tag (setRun p r (.ingest { w with waitFor := w.waitFor.filter (fun y => y.1 ≠ src) }) s)
  | none => s

/-- A device is lost: a command drops it as a replica (R351) and counts its entries as not applied as an owner (R160). -/
def ingestsLose (d p : Nat) (s : State) : State :=
  (part s p).running.foldl (fun s r =>
    match r.kind with
    | .ingest w =>
      match w.waitFor.find? (fun x => decide (x.1 = d)) with
      | some x =>
        settleIngest p r.sq r.tag
          (setRun p r (.ingest { w with waitFor := w.waitFor.filter (fun y => y.1 ≠ d), lost := w.lost + x.2 }) s)
      | none => s
    | _ => s) s

/-! ## Row locks and their leases (R154, R155, R221) -/

/-- The adds of a row that hold or wait for its lock, in order: the first holds it. -/
def rowLeases (c : Coll) (i : Nat) : List Lease := c.leases.filter (fun l => decide (l.row = i))

/-- The pass of an add on an engine (R210, R215). -/
def addPass (p : Nat) (addr : Nat) (l : Lease) (e : Nat) : Pass :=
  { engine := e, kernel := 2, granules := 1, queries := 1, first := addr
    requester := if l.peer.isNone then some (p, l.sq, l.tag) else none }

/-- The engine still waits for the grant that its add needs (R221): the lease has not begun. -/
def leaseWaits (s : State) (l : Lease) : Bool :=
  match l.engine with
  | some (k, e) => (stackOf s k).waiting.any (fun x => decide (x.engine = e ∧ x.kernel = 2))
  | none => false

/-- The add runs on its engine under a grant, not on Canopy. -/
def leaseOnEngine (s : State) (l : Lease) : Bool :=
  match l.engine with
  | some (k, e) => (stackOf s k).granted.any (fun x => decide (x.engine = e ∧ x.kernel = 2))
  | none => false

/-- The engine that applies an add to a row: the one whose pseudo-channel holds it (R208, R215). -/
def rowEngine (s : State) (p : Nat) (c : Coll) (i : Nat) : Option (Nat × Nat) :=
  (stackOfRow s p c i).map (fun k => (k, addrEngine (rowAddr s p c i)))

/-- The row is in HBM for the add: its block's unit, and the row itself where a migration had put it in flash (R215). -/
def reachRow (p coll i : Nat) (s : State) : State :=
  match findColl s p coll with
  | none => s
  | some c =>
    let s := touchBlock p c (blockNo c i) s
    let up (r : TableRow) : TableRow := if r.place = .flash then { r with place := rowPlace s p c i } else r
    onColl p coll (fun c => { c with rows := mapWhere (fun r => r.index = i) up c.rows }) s

/-- Apply an add to its row in one switch (R154). -/
def applyLease (p coll : Nat) (l : Lease) (s : State) : State :=
  let s := reachRow p coll l.row s
  match findColl s p coll with
  | none => s
  | some c => onColl p coll (addRow (rowPlace s p c l.row) l.row l.delta) s

/-- Take the row's lock for an add whose lease will run out: its engine first obtains a grant (R221). -/
def lockRow (p coll : Nat) (l : Lease) (s : State) : State :=
  let s := reachRow p coll l.row s
  match findColl s p coll with
  | none => s
  | some c =>
    let eng := rowEngine s p c l.row
    let l := { l with attempt := 1, engine := eng }
    let s := onColl p coll (fun c => { c with leases := c.leases ++ [l] }) s
    match eng with
    | some (k, e) =>
      grantLoop k 64 (toCanopy k (onStack k (fun x => { x with waiting := x.waiting ++ [addPass p (rowAddr s p c l.row) l e] }) s))
    | none => s

/-- What became of an add that reached its row. -/
inductive AddEnd where
  | applied | refused | held
  deriving DecidableEq, Repr

/-- An add reaches its row, in order of arrival (R221): behind a held lock it waits, a poisoned row takes none (R237), one
whose lease will run out takes the lock, and any other switches at once. -/
def reachAdd (p coll : Nat) (l : Lease) (s : State) : State × AddEnd :=
  match findColl s p coll with
  | none => (s, .refused)
  | some c =>
    if !(rowLeases c l.row).isEmpty then (onColl p coll (fun c => { c with leases := c.leases ++ [l] }) s, .held)
    else if isPoisonedRow c l.row then (s, .refused)
    else if l.stalls then (lockRow p coll l s, .held)
    else (applyLease p coll l s, .applied)

/-- The answer to a member once its adds have ended here (R159). -/
def settlePeer (p : Nat) (src sq tag : Nat) (s : State) : State :=
  match (part s p).peerAdds.find? (fun x => decide (x.src = src ∧ x.sq = sq ∧ x.tag = tag)) with
  | some x =>
    if leased s p sq tag (some src) then s
    else
      sendFw src p (.pooledAnswer sq tag (if x.failed = 0 then St.ok else St.uncorrectable) x.failed x.first [])
        (onPart p (fun t => { t with peerAdds := t.peerAdds.filter (fun y => !(decide (y.src = src ∧ y.sq = sq ∧ y.tag = tag))) }) s)
  | none => s

/-- An add that held or waited for a lock has ended, applied or not; with the last one its command completes. -/
def settleAdd (p : Nat) (l : Lease) (ok : Bool) (s : State) : State :=
  match l.peer with
  | none =>
    match ingestOf s p l.sq l.tag with
    | some (r, w) =>
      settleIngest p l.sq l.tag (setRun p r (.ingest (if ok then w else w.fails l.weight l.row)) s)
    | none => s
  | some src =>
    let note (x : PeerAdds) : PeerAdds :=
      if ok then x else { x with failed := x.failed + l.weight, first := if x.failed = 0 then l.row else x.first }
    settlePeer p src l.sq l.tag
      (onPart p (fun t => { t with peerAdds := mapWhere (fun x => decide (x.src = src ∧ x.sq = l.sq ∧ x.tag = l.tag)) note t.peerAdds }) s)

/-- Release the grant of an add that ends on its engine, after its lock (R221). -/
def releaseAdd (l : Lease) (s : State) : State :=
  match l.engine with
  | some (k, e) =>
    if leaseOnEngine s l then grantLoop k 64 (toCanopy k (releaseGrant k e s))
    else onStack k (fun x => { x with waiting := x.waiting.filter (fun y => !(decide (y.engine = e ∧ y.kernel = 2))) }) s
  | none => s

/-- Take the first add of the row off the lock. -/
def popLease (p coll : Nat) (l : Lease) (s : State) : State :=
  onColl p coll (fun c => { c with leases := c.leases.erase l }) s

/-- The lock is free: the adds that waited follow in order, until one whose lease runs out takes it. -/
def drainLock (p coll i : Nat) : Nat → State → State
  | 0, s => s
  | n + 1, s =>
    match findColl s p coll with
    | none => s
    | some c =>
      match rowLeases c i with
      | [] => s
      | l :: _ =>
        let s := popLease p coll l s
        if isPoisonedRow c i then drainLock p coll i n (settleAdd p l false s)
        else if l.stalls then
          lockRow p coll l (onColl p coll (fun c => { c with leases := c.leases.filter (fun x => x.row ≠ i) }) s) |>
            onColl p coll (fun c' => { c' with leases := c'.leases ++ (rowLeases c i).drop 1 })
        else drainLock p coll i n (settleAdd p l true (applyLease p coll l s))

/-- The add that holds the lock ends: applied, if `ok` and its row can take it. -/
def endLease (p coll : Nat) (l : Lease) (ok : Bool) (s : State) : State :=
  match findColl s p coll with
  | none => s
  | some c =>
    let ok := ok && !isPoisonedRow c l.row
    let s := popLease p coll l (if ok then applyLease p coll l s else s)
    let s := settleAdd p l ok (releaseAdd l s)
    drainLock p coll l.row c.leases.length s

/-- With a collection gone, the commands and members whose adds waited on its locks end (R122). -/
def settleDropped (p : Nat) (c : Coll) (s : State) : State :=
  let s := (c.leases.filter (fun l => l.peer.isNone)).foldl (fun s l => settleIngest p l.sq l.tag (releaseAdd l s)) s
  c.leases.foldl (fun s l => match l.peer with | some d => settlePeer p d l.sq l.tag s | none => s) s

end Sys2Proof.Machine
end

