-- ==== Sys2Proof/Machine/ResetOps.lean ====
section
/-! DEFINITION. Sys2Proof/Machine/ResetOps.lean: entering a full reset, what survives it, bring-up, FLR, and the entry to
and exit from shard hold (R102, R474, R475, R558–R573). -/
namespace Sys2Proof.Machine

/-! ## The end of accepted work -/

/-- What ends with an async command (R73): its object leaves its busy or loading state, or goes. -/
def finishAction (p : Nat) (a : AsyncAction) (s : State) : State :=
  match a with
  | .nothing => s
  | .collReady c | .seasonLater c => onPart p (fun t => { t with colls := mapWhere (fun x => x.num = c) (fun x => { x with busy := false }) t.colls }) s
  | .modelReady m => onPart p (fun t => { t with models := mapWhere (fun x => x.handle = m) (fun x => { x with loading := false }) t.models }) s
  | .modelDrop m => onPart p (fun t => { t with models := t.models.filter (fun x => x.handle ≠ m || !x.loading) }) s
  | .modelCalibrated m => onPart p (fun t => { t with models := mapWhere (fun x => x.serial = m) (fun x => { x with calibrating := x.calibrating - 1 }) t.models }) s
  | .vocabReady v => onPart p (fun t => { t with vocabs := mapWhere (fun x => x.handle = v) (fun x => { x with loading := false }) t.vocabs }) s
  | .vocabDrop v => onPart p (fun t => { t with vocabs := t.vocabs.filter (fun x => x.handle ≠ v) }) s
  | .grammarReady g => onPart p (fun t => { t with grammars := mapWhere (fun x => x.handle = g) (fun x => { x with loading := false }) t.grammars }) s
  | .grammarDrop g => onPart p (fun t => { t with grammars := t.grammars.filter (fun x => x.handle ≠ g) }) s

/-- Work accepted before a reset took effect whole (R568): it ends without its event. -/
def settleJobs (s : State) : State :=
  { s.jobs.foldl (fun s j => finishAction j.partition j.action s) s with jobs := [] }

/-! ## Full reset -/

/-- A partition across a full reset (R569): data and salt stay; keys, queues, QPs, streams and running work go. -/
def Part.reset (t : Part) : Part :=
  { t with
    state := (match t.state with | .free => .free | .releasing => .releasing | _ => .keysPending)
    root := none, privHeld := false, pub := [], sqs := [], cqs := [], eq := none, running := [], guests := [], peerAdds := [], streams := [], qps := []
    models := t.models.filter (fun m => !m.unloaded)
    admitted := 0, policed := 0, seenHead := (0, 0, 0, 0), seenQps := [], share := 0
    colls := t.colls.map (fun c => { c with leases := [] }) }

/-- A partition whose HBM contents are lost keeps its salt, host objects and flash images (R562, R569). -/
def Part.loseHbm (t : Part) : Part := { t with colls := [], models := [], vocabs := [], grammars := [], kv := [] }

def Grove.reset (g : Grove) : Grove := { degraded := g.degraded, sparesUsed := g.sparesUsed, remap := g.remap }

/-- Time left of a window counted from device time, which restarts at 0 (log entry 14). -/
def windowLeft (now : Nat) (u : Option Nat) : Option Nat := u.bind (fun t => if t ≤ now then none else some (t - now))

/-- Everything of the state that a reset of the compute die clears (R569), power and HBM contents aside. -/
def clearDomains (s : State) : State :=
  let s := settleJobs s
  { s with
    mbx := List.replicate 16 {}
    sessions := []
    partEvents := List.replicate 12 {}
    operatorEvents := {}
    sidebandEvents := {}
    i3cSignalled := none
    i3cResponses := []
    log := []
    logSeq := 0
    parts := s.parts.map Part.reset
    groves := s.groves.map Grove.reset
    runs := []
    pave := {}
    choker := {}
    fabric := { ports := s.fabric.ports.map (fun x => { eyeMv := x.eyeMv }), deviceId := s.fabric.deviceId, racks := s.fabric.racks, ySize := s.fabric.ySize, zSize := s.fabric.zSize,
                prevKeySend := windowLeft s.time s.fabric.prevKeySend,
                prevKeyAccept := windowLeft s.time s.fabric.prevKeyAccept, prevRoot := s.fabric.prevRoot }
    landing := { linkActive := s.landing.linkActive, eyeMv := s.landing.eyeMv }
    channels := List.replicate 32 {}
    loupe := {}
    hallmark := { s.hallmark with
      leaf := 0, leafEnd := 0, forfeited := s.hallmark.forfeited + (s.hallmark.leafEnd - s.hallmark.leaf)
      signTimes := [], assays := 0, keyLoads := 0, keyFailures := 0, tlsFailures := 0
      ideInsecure := 0, update := none, tlsFails := [], lockout := false }
    cruise := { s.cruise with running := false, startCause := none, lastRun := none, doneTags := [], intStatus := 0, intEnable := 0 }
    deck := { s.deck with
      inService := false, suspends := 0, suspended := [], retryReads := 0, softReads := 0, uncorrectable := 0
      deferredCount := 0, wearMoved := 0, programmed := 0, hostWritten := 0 }
    skidder := { s.skidder with
      units := s.skidder.units.map (fun u => { u with heat := 0, copies := 0 })
      promotions := 0, demotions := 0, copyUps := 0, kvEvicted := 0, lastPlan := 0 }
    apportion := {}
    mem := s.mem.filter (fun c => !(decide (sramBase ≤ c.1) && decide (c.1 < hbmBase))) }

/-- Steps 1 to 6 of the entry to a full reset (R560). `dump`: Deck's dump completed (R396, R561). A trigger outside the
running phase joins the reset in progress (R605). -/
def fullResetEntry (dump : Bool) (s : State) : State :=
  if s.power.phase ≠ .running then s
  else
    let p := s.power
    let c := clearDomains s
    { c with power := { p with
        phase := .held, state := .active, level := 0, fwFault := false, needsReset := false, thermalLimit := false
        powerLimit := false, thermalStep := 0, idleDisable := false, idleAfterUs := 100, gated := []
        dumpValid := dump, dumpLost := !dump
        hbmKept := p.p48v } }

/-- A full reset trigger: entered when the device runs; one that arrives before the next reset release joins that reset
(R605); begun below 90 °C it ends the THERMTRIP_N latch (R577). -/
def fullTrigger (dump : Bool) (s : State) : State :=
  match s.power.phase with
  | .running => fullResetEntry dump s
  | .held => if s.power.hottest < 90 then { s with power := { s.power with thermtrip := false } } else s
  | .auxOff => s

/-! ## Bring-up -/

/-- The lower bits of `n` as a map of ports. -/
def portEnabled (s : State) (n : Nat) : Bool :=
  (((s.hallmark.items.getD 4 { budget := 0, remaining := 0, value := [] }).value.getD 0 0).toNat).testBit n

def fwFloor (s : State) : Nat :=
  (((s.hallmark.items.getD 3 { budget := 0, remaining := 0, value := [] }).value.getD 0 0)).toNat

/-- Where an enabled, configured port stands: at step 1 of training; else disabled (R408, R409). -/
def portStart (s : State) (n : Nat) : PortState := if portEnabled s n then .training else .disabled

/-- The slot that boots: the preferred one if it passes, else the other (R498). -/
def bootSlot (s : State) (b : BringUp) : Option Bool :=
  let ok (isB : Bool) : Bool :=
    (if isB then b.slotBOk else b.slotAOk) &&
      decide (fwFloor s ≤ (if isB then s.hallmark.slotB.security else s.hallmark.slotA.security))
  if ok s.hallmark.preferB then some s.hallmark.preferB
  else if ok (!s.hallmark.preferB) then some (!s.hallmark.preferB) else none

/-- Grove g, stack k as the newest ledger entry leaves them (step 5 of R564). -/
def applyLedgerGrove (e : Option LedgerEntry) (g : Grove) (n : Nat) : Grove :=
  match e with
  | some e => { g with mv := e.groveMv.getD n 0, slack := e.groveSlack.getD n 0, inService := !g.degraded }
  | none => { g with mv := (Config.firstMv n).toNat, inService := !g.degraded }

def applyLedgerStack (e : Option LedgerEntry) (k : Stack) (n : Nat) : Stack :=
  match e with
  | some e => { k with
      cruiseShadow := e.caps.getD n 32, cruiseActive := e.caps.getD n 32, refresh := e.refresh.getD n 0
      retention := e.retention.getD n 0, baseSlack := e.baseSlack.getD n 0, faulted := e.faulted.getD n 0 }
  | none => k

def applyLedger (s : State) : State :=
  let e := s.cruise.ledger.getLast?
  { s with
    groves := s.groves.zipIdx.map (fun x => applyLedgerGrove e x.1 x.2)
    pave := { s.pave with allStacks := s.pave.allStacks.zipIdx.map (fun x => applyLedgerStack e x.1 x.2) } }

/-- A fresh X25519 pair for a partition (R502): the private key is draw `n` of the DRBG. -/
def Part.newPair (n : Nat) (t : Part) : Part :=
  { t with pub := Config.x25519Pub (Config.drbg n), privHeld := true, draw := n, root := none }

def bumpDraws (k : Nat) (s : State) : State := { s with hallmark := { s.hallmark with draws := s.hallmark.draws + k } }
def tallyWrite (s : State) : State := { s with hallmark := { s.hallmark with tallyWrites := s.hallmark.tallyWrites + 1 } }

/-- A created partition at step 8 of bring-up: new pair, KEY_GENERATION + 1, mailbox READY, PARTITION_STATE (R502, R562). -/
def bringUpPart (p : Nat) (s : State) : State :=
  if (part s p).state = .keysPending then
    let n := s.hallmark.draws
    notifyPartState p (onMailbox p (fun b => { b with ready := true })
      (onPart p (fun t => { t.newPair n with keyGen := t.keyGen + 1, firstLoad := true }) (bumpDraws 1 s)))
  else if (part s p).state = .releasing then onMailbox p (fun b => { b with ready := true }) s
  else s

/-- Bytes of a LUN's blocks. -/
def pageBlockBytes (l : LunPage) : Nat := l.pages * l.pageBytes

/-- What Deck finds: populated channels, LUNs on each, installed and good bytes. -/
def channelsFound (ls : List LunPage) : Nat := (ls.map LunPage.channel).eraseDups.length
def lunsFound (ls : List LunPage) : Nat := if channelsFound ls = 0 then 0 else ls.length / channelsFound ls
def rawFound (ls : List LunPage) : Nat := (ls.map (fun l => l.blocks * pageBlockBytes l)).sum
def goodFound (ls : List LunPage) : Nat := (ls.map (fun l => (l.blocks - l.factoryBad) * pageBlockBytes l)).sum

/-- A LUN that R365 allows: TLC or QLC; 2, 4 or 6 planes; 16,384 data bytes and at least 2,048 spare bytes a page. -/
def lunAllowed (l : LunPage) : Bool :=
  l.options && decide (l.cell = 3 ∨ l.cell = 4) && decide (l.planes ∈ [2, 4, 6]) && decide (l.pageBytes = 16384) &&
    decide (2048 ≤ l.spareBytes)

/-- A population that R366 allows: channels consecutive from 0, the same 1 to 16 LUNs on each, one geometry. -/
def populationOk (ls : List LunPage) : Bool :=
  let same (a b : LunPage) : Bool := decide (a.cell = b.cell ∧ a.planes = b.planes ∧ a.spareBytes = b.spareBytes ∧ a.pages = b.pages ∧ a.blocks = b.blocks)
  !ls.isEmpty && ls.all lunAllowed && ls.all (fun a => ls.all (same a)) && within 1 32 (channelsFound ls) && within 1 16 (lunsFound ls) &&
    ls.all (fun l => decide (l.channel < channelsFound ls)) &&
    (List.range (channelsFound ls)).all (fun c =>
      let here := (ls.filter (fun l => decide (l.channel = c))).map LunPage.lun
      here.all (fun n => decide (n < lunsFound ls)) && decide (here.eraseDups.length = lunsFound ls) && decide (here.length = lunsFound ls))

/-- Deck's rebuild (R366, R374, R397, R398): in service when the population is allowed and the metadata stands, or the
flash was formatted. -/
def bringUpDeck (b : BringUp) (s : State) : State :=
  let s := { s with deck := { s.deck with
    deckTime := s.deck.deckTime + b.unpoweredS, holdupLost := s.power.dumpLost
    channels := channelsFound b.luns, luns := lunsFound b.luns, rawBytes := rawFound b.luns
    sensors := (b.luns.filter LunPage.sensor).map (fun l => (l.channel, l.lun)) } }
  let s := restoreObjects (!s.power.dumpLost) s
  let s := if s.power.dumpLost then
      foldParts (deferError · 0 0 2) (logAdd Config.holdupLog.1 4 14 Config.holdupLog.2.1 Config.holdupLog.2.2 s)
    else s
  let fmt := s.power.formatFlash || !s.deck.formatted
  let s := if fmt then
      { s with
        deck := { s.deck with
          images := [], buffer := [], poisoned := [], blocks := [], bad := [], readOnly := false, formatted := true
          goodBytes := goodFound b.luns, capacity := goodFound b.luns * 7 / 8 / 65536 * 65536, sinceCheckpoint := 0 }
        skidder := { s.skidder with held := [] }
        power := { s.power with formatFlash := false } }
    else s
  { s with
    deck := { s.deck with inService := populationOk b.luns && (b.metadataOk || fmt) }
    power := { s.power with dumpLost := false, dumpValid := true } }

/-- Steps 5 to 11 of R564, once firmware runs. -/
def bringUpBlocks (b : BringUp) (s : State) : State :=
  let s := applyLedger s
  let found := s.power.hbmKept
  let s := if found then s
    else { s with
      parts := s.parts.map Part.loseHbm
      mem := s.mem.filter (fun c => !(decide (hbmBase ≤ c.1) && decide (c.1 < objRegion)))
      skidder := { s.skidder with
        regions := []
        units := s.skidder.units.filterMap (fun u =>
          match u.kind with | .extent _ _ => some { u with loc := if u.loc = .pool then .pool else .flash } | _ => none) } }
  let s := { s with
    power := { s.power with hbmFound := found, level := 1 }
    fabric := { s.fabric with ports := s.fabric.ports.zipIdx.map (fun x => { x.1 with state := portStart s x.2 }) } }
  let s := foldParts bringUpPart s
  let s := notifyLevel 1 s
  let s := bringUpDeck b s
  if s.deck.inService then
    notifyLevel 2 { s with
      power := { s.power with level := 2 }
      parts := s.parts.map (fun t => { t with vocabs := t.vocabs.map (fun v => { v with trie := true }) }) }
  else s

/-- Bring-up from reset release (R564). -/
def bringUp (b : BringUp) (s : State) : State :=
  let s := { s with time := 0, power := { s.power with phase := .running, state := .active, level := 0 } }
  let s := { s with
    hallmark := { s.hallmark with seed := s.hallmark.seed || b.seedOk }
    landing := { s.landing with linkActive := s.landing.linkActive && s.power.refclk.getD 3 false } }
  if !s.hallmark.seed then s
  else
    match bootSlot s b with
    | none => s
    | some isB =>
      let s := tallyWrite { s with hallmark := { s.hallmark with
        runB := isB, bootCount := (s.hallmark.bootCount + 1) % 2 ^ 24 } }
      let s := { s with mbx := s.mbx.zipIdx.map (fun x => if 12 ≤ x.2 then { x.1 with ready := true } else x.1) }
      bringUpBlocks b s

/-- Reset release is possible, the lands apart (R558, R560, R594, R600, R607). -/
def mayRelease (s : State) : Bool :=
  decide (s.power.phase = .held) && s.power.p48v && !s.power.thermtrip && s.power.refclk.getD 0 false

/-! ## Function level reset -/

/-- A command that runs on without its queue: it ends without a completion (R102). -/
def Running.orphan (r : Running) : Running := { r with silent := true }

/-- The command works on stored rows: an FLR lets it run to its end. -/
def Running.isIngest (r : Running) : Bool := match r.kind with | .ingest _ => true | _ => false

/-- An FLR of VF p (R97, R102, R474, R569): queues, QPs and stream contexts go, queries are cancelled, other work runs to
its end without completions, mailbox p is READY and idle. -/
def flrPart (p : Nat) (s : State) : State :=
  let t := part s p
  let dels := t.sqs.filterMap Sq.deleting
  let s := t.running.foldl (fun s r => tellEnd p r s) s
  let s := onPart p (fun t => { t with sqs := [], cqs := [], eq := none, running := (t.running.filter Running.isIngest).map Running.orphan, streams := [], qps := [] }) s
  let s := discardHeld p s
  let s := dels.foldl (fun s tag => commandDoneEvent (.part p) Op.partQueueDelete tag p 0 0 s) s
  let s := onMailbox p (fun b => { b with ready := b.ready || decide (t.state ≠ .free), busy := false, done := false, overrun := false }) s
  { s with landing := { s.landing with
      waiting := s.landing.waiting.filter (fun o =>
        match o with
        | .hostWrite fn _ _ => fn ≠ 1 + p
        | .completion q _ _ _ _ => q ≠ p
        | .event q _ _ _ => q ≠ p
        | .msix fn _ => fn ≠ 1 + p
        | _ => true)
      bme := s.landing.bme.set (1 + p) false } }

/-- Abort a busy channel (R484): the run ends with code 8. -/
def Channel.abort (c : Channel) : Channel :=
  if c.busy then { c with busy := false, done := true, error := true, errCode := 8 } else c

/-- An FLR of the PF (R475). -/
def flrPhys (s : State) : State :=
  let s := foldParts flrPart { s with landing := { s.landing with vfEnable := false } }
  let gone (x : Packet) : Packet := if x.channel.any (fun c => decide (24 ≤ c)) then { x with channel := none } else x
  { s with
    channels := s.channels.zipIdx.map (fun x => if 24 ≤ x.2 then {} else x.1)
    fabric := { s.fabric with fwQps := s.fabric.fwQps.map (fun q => { q with todo := q.todo.map gone, unacked := q.unacked.map gone }) }
    landing := { s.landing with intEnable := 0, bme := s.landing.bme.set 0 false }
    pave := { s.pave with intEnable := 0 }
    choker := { s.choker with intEnable := 0 } }

/-! ## Shard hold (R571–R573) -/

def isHoldCancelled (r : Running) : Bool := isQry r.opcode || r.opcode = Op.mdlRun

/-- Entry to shard hold: running queries and model runs are cancelled (an unloaded model goes with its last run), dirty
extents programmed and journalled, compute powered off (SRAM lost), POWER_STATE `st`. -/
def enterHold (st : PowerState) (s : State) : State :=
  let s := foldParts (fun p s => cancelRunning p isHoldCancelled s) s
  let s := programWhere (fun _ => true) s
  let s := { s with deck := { s.deck with journal := 0, lastFlush := s.time } }
  { s with
    runs := (s.runs.filter (fun r => match r.use with | .calibrate _ => true | _ => false)).map (fun r =>
      { r with started := false, groves := [], bufs := [], segment := 0, obs := [] })
    parts := s.parts.map (fun t => { t with models := t.models.filter (fun m => !m.unloaded || s.runs.any (fun r =>
      (match r.use with | .calibrate _ => true | _ => false) && decide (r.model = m.serial))) })
    groves := s.groves.map (fun g => { g with last := none, written := [] })
    mem := s.mem.filter (fun c => !(decide (sramBase ≤ c.1) && decide (c.1 < hbmBase)))
    power := { s.power with state := st } }

/-- Exit from shard hold. -/
def leaveHold (s : State) : State := { s with power := { s.power with state := .active } }

end Sys2Proof.Machine
end

