-- ==== Sys2Proof/Machine/Collection.lean ====
section
/-! DEFINITION. Sys2Proof/Machine/Collection.lean: COLL_CREATE, COLL_DROP, COLL_CONFIG, COLL_STATS and COLL_SEASON
(R114–R122, R137–R139, R333, R619, R626). -/
namespace Sys2Proof.Machine

/-! ## COLL_CREATE -/

/-- Step 5 of R71 for COLL_CREATE: ENTRY_COUNT with the KIND and FLAGS that fix its range, then the length. -/
def createLength (r : MbxReq) (a : CollCreateArgs) : Option (Nat × Nat) :=
  if r.length < 15 then some (St.invalidLength, 8)
  else if 1 < a.kind then some (St.invalidField, 34)
  else if (if a.kind = 0 ∨ a.pooled then !within 1 64 a.entryCount else decide (a.entryCount ≠ 0)) then
    some (St.invalidField, 46)
  else lengthIn r [64 + 8 * a.entryCount]

def entryAt (a : CollCreateArgs) (i : Nat) : ShardEntry := a.entries.getD i { device := 0, firstRow := 0 }

/-- FIRST_ROW of the entries of a pooled TABLE: 0 first, then rising. -/
def firstRowsRise (a : CollCreateArgs) (i : Nat) : Bool :=
  if i = 0 then decide ((entryAt a 0).firstRow = 0) else decide ((entryAt a (i - 1)).firstRow < (entryAt a i).firstRow)

/-- Step 1 of R118. -/
def createFields (a : CollCreateArgs) : List (Bool × Nat × Nat) :=
  let ix := decide (a.kind = 0)
  [(decide (16383 < a.coll), St.invalidField, 32),
   (if ix then decide (2 < a.metric) else decide (a.metric ≠ 0), St.invalidField, 35),
   (!within 64 4096 a.dim || decide (a.dim % 32 ≠ 0), St.invalidField, 36),
   (if ix then decide (2 < a.format) else !within 1 3 a.format, St.invalidField, 38),
   (if ix then a.noRotate || a.pooled else a.tokens, St.invalidField, 39),
   (if ix then !within 1 262144 a.stands || decide (268435456 < a.stands * a.dim) else decide (a.stands ≠ 0),
     St.invalidField, 40),
   (if ix then decide (a.entryCount ≤ a.shardOrdinal) else decide (a.shardOrdinal ≠ 0), St.invalidField, 44),
   (if ix then decide (2 < a.replicas) else decide (a.replicas ≠ 0), St.invalidField, 47),
   (decide (a.seed = 0) && decide (1 < a.entryCount), St.invalidField, 48),
   (!(ix && decide (1 < a.stands)) && decide (a.centroidAddr ≠ 0), St.invalidField, 56),
   (if ix then decide (a.tableRows ≠ 0) else !within 1 (2 ^ 40) a.tableRows, St.invalidField, 64),
   (if ix then decide (a.rowBase ≠ 0) else decide (2 ^ 48 - 1 < a.rowBase + a.tableRows), St.invalidField, 72)] ++
  (List.range a.entryCount).map (fun i =>
    (decide (4095 < (entryAt a i).device) || (!ix && !firstRowsRise a i), St.invalidField, 96 + 8 * i))

/-- The entry whose range holds ROW_BASE. -/
def ownEntry (a : CollCreateArgs) : Nat :=
  ((a.entries.take a.entryCount).filter (fun e => decide (e.firstRow ≤ a.rowBase))).length - 1

/-- Step 5 of R118. -/
def createEntries (own : Nat) (a : CollCreateArgs) : List (Bool × Nat × Nat) :=
  if a.kind = 0 then
    [(decide ((entryAt a a.shardOrdinal).device ≠ own), St.invalidField, 96 + 8 * a.shardOrdinal)]
  else if a.pooled then
    let i := ownEntry a
    [(decide ((entryAt a i).device ≠ own), St.invalidField, 96 + 8 * i),
     (decide ((entryAt a i).firstRow ≠ a.rowBase), St.invalidField, 72),
     (decide (i + 1 < a.entryCount) && decide ((entryAt a (i + 1)).firstRow ≠ a.rowBase + a.tableRows), St.invalidField, 64)]
  else []

def collCount (s : State) : Nat := (s.parts.map (fun t => t.colls.length)).sum

/-- Centroids of a collection with several stands, rotated (R119), or the first one refused. -/
def createCentroids (a : CollCreateArgs) (seed : Nat) : List (Option (List B16)) :=
  if a.kind = 0 ∧ 1 < a.stands then
    (List.range a.stands).map (fun i =>
      (prepVec a.metric true seed (fitRaw 1 a.dim ((a.centroids.getD i []).map BitVec.toNat))).map bfRow)
  else []

def firstBad (l : List (Option (List B16))) : Option Nat := (l.zipIdx.find? (fun x => x.1.isNone)).map (fun x => x.2)

/-- The collection as created (R120, the values set at COLL_CREATE of COLL_CONFIG). -/
def newColl (a : CollCreateArgs) (seed base own : Nat) (cents : List (List B16)) : Coll :=
  { num := a.coll, kind := a.kind, metric := a.metric, dim := a.dim, format := a.format, tokens := a.tokens
    noRotate := a.noRotate, pooled := a.pooled, stands := a.stands, shardOrdinal := a.shardOrdinal
    entries := a.entries.take a.entryCount, replicas := a.replicas, seed := seed, centroids := cents
    tableRows := a.tableRows, rowBase := a.rowBase, base := base, primary := own
    rebuilding := (List.range a.replicas).map (fun k => k + 1) }

def collCreateBody (p : Nat) (a : CollCreateArgs) (s : State) : MRes :=
  let own := ownId s
  let needsId := decide (a.kind = 0) || a.pooled
  checked s
    (createFields a ++
     [(decide (a.centroidAddr % 64 ≠ 0), St.invalidAddress, 56),
      ((findColl s p a.coll).isSome, St.collectionExists, 0),
      (needsId && s.fabric.deviceId.isNone, St.wrongState, 0)] ++
     createEntries own a ++ [(decide (16384 ≤ collCount s), St.collectionLimit, 0)])
    (let seed := if a.seed = 0 then Config.seedChoice s.freeCount % 2 ^ 64 else a.seed
     let s1 := if a.seed = 0 then bumpFree s else s
     let cents := createCentroids a seed
     match firstBad cents with
     | some i => .fail s (St.invalidValue, i)
     | none =>
       let c0 := newColl a seed 0 own (cents.map (fun x => x.getD []))
       let base := if a.kind = 1 then allocObj s p (tableSpan c0) false else some 0
       checked s
         [(base.isNone, St.noMemory, 0),
          (decide (c0.centroids ≠ []) && !hbmRoom s p (2 * a.dim * c0.centroids.length), St.noMemory, 0)]
         { st := settlePart p (onPart p (fun t => { t with colls := t.colls ++ [{ c0 with base := base.getD 0 }] }) s1) })

/-- COLL_CREATE (R116–R120). -/
def execCollCreate (r : MbxReq) (a : CollCreateArgs) (s : State) : Result :=
  .next (mailboxFull r Op.collCreate none (createLength r a) (collCreateBody r.partition a) s)

/-! ## Naming a collection -/

/-- NO_SUCH_COLLECTION, and WRONG_STATE with the primary's device id where only a replica is held (R122, R626). -/
def collChecks (s : State) (p coll off : Nat) : List (Bool × Nat × Nat) :=
  match findColl s p coll with
  | none => [(true, St.noSuchCollection, off)]
  | some c => [(decide (c.role ≠ 0), St.wrongState, c.primary)]

/-- A body on the collection a mailbox command names. -/
def onNamed (s : State) (p coll : Nat) (k : Coll → MRes) : MRes :=
  match findColl s p coll with
  | none => .fail s (St.noSuchCollection, 32)
  | some c => if c.role ≠ 0 then .fail s (St.wrongState, c.primary) else k c

/-! ## COLL_DROP -/

/-- A running query of the collection. -/
def queriesOn (coll : Nat) (r : Running) : Bool :=
  match r.kind with | .query q => decide (q.coll = coll) && isQry r.opcode | _ => false

/-- The collection stops resolving; its units and ranges go, and so do its replicas (R122, R626). -/
def dropColl (p : Nat) (c : Coll) (s : State) : State :=
  let mine (u : PUnit) : Bool := u.part = p && collUnit c.num u
  let s := cancelRunning p (queriesOn c.num) s
  let s := (s.skidder.units.filter mine).foldl (fun s u => freeHolders p u s) s
  let s := dropUnits mine s
  let s := c.replicaSet.foldl (fun s x => sendFw x.2 p (.replicaSet (collNumber c) c.shardOrdinal (ownId s) []) s) s
  settleDropped p c (onPart p (fun t => { t with
    colls := t.colls.filter (fun x => x.num ≠ c.num), guests := t.guests.filter (fun g => g.coll ≠ c.num) }) s)

/-- COLL_DROP (R122). -/
def execCollDrop (r : MbxReq) (coll : Nat) (s : State) : Result :=
  .next (mailbox r Op.collDrop [8]
    (fun s => onNamed s r.partition coll (fun c => accept r Op.collDrop St.ok 0 .nothing (dropColl r.partition c s))) s)

/-! ## COLL_CONFIG -/

/-- The parameter set: a 0 in a field whose range leaves it out takes the default (R164). -/
def cfgOf (a : CollConfigArgs) : CollCfg :=
  { seasonEnable := decide (a.seasonEnable = 1), headroom := dflt 4 a.headroom, greenLimit := dflt 4194304 a.greenLimit
    greenAgeMs := a.greenAgeMs, compactDeadPct := dflt 25 a.compactDeadPct, tier := a.tier
    segmentTarget := dflt 256 a.segmentTarget }

def cfgChecks (c : Coll) (a : CollConfigArgs) : List (Bool × Nat × Nat) :=
  let k := cfgOf a
  [(decide (1 < a.seasonEnable), St.invalidField, 34),
   (decide (c.kind = 1) && coded c.format && decide (k.headroom ∉ [1, 2, 4, 8, 16]), St.invalidField, 35),
   (!within 65536 67108864 k.greenLimit, St.invalidField, 36),
   (decide (a.greenAgeMs ≠ 0) && !within 100 600000 a.greenAgeMs, St.invalidField, 40),
   (!within 5 90 k.compactDeadPct, St.invalidField, 44),
   (decide (4 < a.tier), St.invalidField, 45),
   (!within 16 4096 k.segmentTarget, St.invalidField, 46)]

/-- HBM that setting TIER to PINNED_HBM takes: the collection's units outside HBM (R333). -/
def pinCollNeed (s : State) (p coll : Nat) : Nat :=
  ((s.skidder.units.filter (fun u => u.part = p && collUnit coll u && decide (u.loc ≠ .hbm))).map
    (fun u => ceilDiv u.size 4096 * 4096)).sum

/-- The units take the class; PINNED_HBM brings them into HBM (R330). -/
def retierColl (p coll tier : Nat) (s : State) : State :=
  settlePart p (moveUnits (fun u =>
    if u.part = p && collUnit coll u then { u with cls := tier, loc := if tier = 0 then .hbm else u.loc } else u) s)

def collConfigBody (p : Nat) (a : CollConfigArgs) (s : State) : MRes :=
  onNamed s p a.coll (fun c =>
    checked s
      (cfgChecks c a ++
       [(decide (a.tier = 0) && decide (pinCollNeed s p a.coll ≠ 0) && !hbmRoom s p (pinCollNeed s p a.coll), St.noMemory, 0)])
      (let s := retierColl p a.coll a.tier (onColl p a.coll (fun c => { c with cfg := cfgOf a }) s)
       { st := tellIngest (p, 64, 0) c (.config a) s }))

/-- COLL_CONFIG replaces the whole set (R25, R104); its replicas are told under SQ 64, which no queue has, so no command waits for
their answers (R627). -/
def execCollConfig (r : MbxReq) (a : CollConfigArgs) (s : State) : Result :=
  .next (mailbox r Op.collConfig [32] (collConfigBody r.partition a) s)

/-! ## COLL_STATS -/

def collUnits (s : State) (p : Nat) (c : Coll) : List PUnit :=
  s.skidder.units.filter (fun u => u.part = p && collUnit c.num u)

/-- COLL_STATS of a collection (R619). -/
def statsOf (s : State) (p : Nat) (c : Coll) : List Byte :=
  let us := collUnits s p c
  let ix := decide (c.kind = 0)
  let vis := (c.recs.filter (fun r => r.visible c.committed)).length
  le 1 c.kind ++ le 1 c.format ++ le 2 c.dim ++ le 4 c.stands ++ le 6 (if ix then c.committed else 0) ++ zeros 2 ++
    le 6 (if ix then c.committed + 1 else 0) ++ zeros 2 ++ le 6 c.nextOrdinal ++ zeros 2 ++
    le 8 (if ix then vis else c.rows.length) ++ le 8 c.green.length ++ le 8 (c.recs.length - vis) ++
    le 4 c.segs.length ++ le 4 c.saturations ++ le 8 c.seed ++ le 8 (c.fixedHbm + (us.map PUnit.hbm).sum) ++
    le 8 ((if c.formatRaw = 0 then 0 else frameOf c.num c.formatRaw) + (us.map PUnit.flash).sum) ++
    le 8 ((us.map PUnit.pool).sum) ++ le 8 ((c.skipped.map Skip.ordinal).eraseDups.length) ++ zeros 24

/-- COLL_STATS; a replica shard is reported as well (R626). -/
def execCollStats (r : MbxReq) (coll : Nat) (s : State) : Result :=
  .next (mailbox r Op.collStats [8]
    (fun s =>
      match findColl s r.partition coll with
      | none => .fail s (St.noSuchCollection, 32)
      | some c => { st := s, payload := statsOf s r.partition c }) s)

/-! ## COLL_SEASON -/

/-- A body on the collection of a COLL_SEASON of the given kind (R114, R139). Mode 2 is WRONG_STATE too while an earlier
requantisation is unreported: the rule speaks of seasoning and compaction only (log entry 90). -/
def seasonBody (r : MbxReq) (kind coll : Nat) (k : Coll → State → MRes) (s : State) : MRes :=
  onNamed s r.partition coll (fun c =>
    if c.kind ≠ kind then .fail s (St.wrongKind, 32)
    else if c.busy then .fail s (St.wrongState, 0)
    else k c s)

def markBusy (p coll : Nat) (s : State) : State := onColl p coll (fun c => { c with busy := true }) s

/-- COLL_SEASON with the MODE it carries: 0 seasons the green segment, one out of range is refused. -/
def execCollSeason (r : MbxReq) (a : SeasonArgs) (s : State) : Result :=
  let coll := a.coll
  .next (mailbox r Op.collSeason [8]
    (fun s => if a.mode ≠ 0 then onNamed s r.partition coll (fun _ => .fail s (St.invalidField, 34)) else
      seasonBody r 0 coll (fun c s =>
        if 65535 ≤ c.segs.length then .fail s (St.wrongState, 0)
        else if (greenDue c c.committed).isEmpty then { st := s }
        else if maySeason s r.partition c then
          accept r Op.collSeason St.ok 0 (.collReady coll) (markBusy r.partition coll (seasonNow r.partition c s))
        else accept r Op.collSeason St.ok 0 (.seasonLater coll) (markBusy r.partition coll s)) s) s)

/-- COLL_SEASON mode 1: compact every stand. -/
def execCollSeasonCompact (r : MbxReq) (coll : Nat) (s : State) : Result :=
  .next (mailbox r Op.collSeason [8]
    (seasonBody r 0 coll (fun c s =>
      if c.segs.isEmpty || (decide (c.segs.length = 1) && !compactable s r.partition c) then { st := s }
      else
        accept r Op.collSeason St.ok 0 (.collReady coll)
          (markBusy r.partition coll (compactNow r.partition (fun _ => true) c s)))) s)

/-- COLL_SEASON mode 2: requantise a coded TABLE (R151). -/
def execCollSeasonRequantise (r : MbxReq) (coll : Nat) (s : State) : Result :=
  .next (mailbox r Op.collSeason [8]
    (seasonBody r 1 coll (fun c s =>
      if !coded c.format || c.blocks.isEmpty then { st := s }
      else
        accept r Op.collSeason St.ok 0 (.collReady coll)
          (markBusy r.partition coll (onColl r.partition coll requantise s)))) s)

end Sys2Proof.Machine
end

