-- ==== Sys2Proof/Machine/Ingest.lean ====
section
/-! DEFINITION. Sys2Proof/Machine/Ingest.lean: ROW_INSERT, ROW_UPSERT, ROW_DELETE, ROW_ADD, ROW_ADD_MERGED, INGEST_COMMIT and
ROW_READ, the same work between pooled ranges and replicas, row leases, and the conversions the device starts by itself
(R121, R137–R160, R237, R238, R627). -/
namespace Sys2Proof.Machine

/-- A queue body on the collection an ingest command names (R122, R352, R626). -/
def onIngest (s : State) (p coll : Nat) (k : Coll → QRes) : QRes :=
  match findColl s p coll with
  | none => .fail s (St.noSuchCollection, 16)
  | some c => if c.role ≠ 0 then .fail s (St.wrongState, c.primary) else k c

/-- The first entry index that `bad` takes. -/
def firstIndex {α : Type} (bad : α → Bool) (l : List α) : Option Nat := (l.zipIdx.find? (fun x => bad x.1)).map (fun x => x.2)

/-- The first index whose id stood at an earlier index: of the two entries of a repeated id, the later one is the offending one
(R141; log entry 90). -/
def firstRepeat (ids : List Nat) : Option Nat :=
  (ids.zipIdx.find? (fun x => decide (x.1 ∈ ids.take x.2))).map (fun x => x.2)

/-- The smaller of two optional indices. -/
def earlier (a b : Option Nat) : Option Nat :=
  match a, b with
  | some x, some y => some (min x y)
  | some x, none => some x
  | none, b => b

/-! ## How an ingest command ends or goes on -/

/-- A commit of the collection waits for ingest commands begun before it: a later ingest command begins after it (R147; log
entry 95). -/
def commitOpen (s : State) (p coll : Nat) : Bool :=
  (part s p).running.any (fun r =>
    match r.kind with | .ingest w => w.isCommit && decide (w.coll = coll) && !w.before.isEmpty | _ => false)

/-- An ingest command on an INDEX collection with an open commit stays at the head of its queue. -/
def ingestHeld (s : State) (p coll : Nat) : Bool :=
  commitOpen s p coll && ((findColl s p coll).map (fun c => decide (c.kind = 0))).getD false

/-- One ingest entry: held back while a commit of its collection is open. -/
def ingestQueue (q : SqReq) (op coll : Nat) (body : State → QRes) (s : State) : State :=
  if ingestHeld s q.part coll then s else queue q op body s

/-- The command completes now, or runs on until all that it waits for has come. -/
def ingestEnd (s : State) (w : IngestRun) (held : Bool) : QRes :=
  if w.before.isEmpty && w.waitFor.isEmpty && !held then
    let e := w.result
    { st := s, status := e.1, dA := e.2.1, dB := e.2.2 }
  else { st := s, run := some (.ingest w) }

/-! ## Writing TABLE rows -/

/-- Write rows of this device's range in entry order; a block's first write sets its scales over the rows that the
command places in it (R151). -/
def writeRows (p : Nat) (coll : Nat) (rows : List (Nat × List F32)) (s : State) : State :=
  rows.foldl (fun s r =>
    match findColl s p coll with
    | none => s
    | some c =>
      let b := blockNo c r.1
      let s := touchBlock p c b s
      let mates := (rows.filter (fun x => blockNo c x.1 = b)).map (fun x => x.2)
      onColl p coll (fun c => writeRow (rowPlace s p c r.1) r.1 r.2 (openTableBlock b mates c)) s) s

def tableWrite (q : SqReq) (c : Coll) (rows : List (Nat × List F32)) (s : State) : QRes :=
  if !tableReady s q.part c (rows.map (fun r => r.1)) then .fail s (St.notReady, 0)
  else
    let rowOf (r : Nat × List F32) : Nat := r.1
    let w : IngestRun := { coll := c.num, waitFor := askedOwners s c rowOf (fun _ => 1) rows
                           lost := lostRows s c rowOf (fun _ => 1) rows }
    let own := rows.filter (fun r => ownRow c r.1)
    let s := writeRows q.part c.num (own.map (fun r => (r.1, rotateFor c r.2))) s
    ingestEnd (forwardRows q c rowOf .write rows s) w false

/-! ## ROW_INSERT and ROW_UPSERT -/

/-- Operand checks; a token record of more than 512 tokens is INVALID_FIELD at TOK_ADDR (R140; log entry 90). -/
def writeChecks (a : RowWriteArgs) : List (Bool × Nat × Nat) :=
  [(decide (1 < a.inputType), St.invalidField, 18),
   (!within 1 65536 a.count, St.invalidField, 20),
   (decide (a.idsAddr % 64 ≠ 0), St.invalidAddress, 24),
   (decide (a.vecAddr % 64 ≠ 0), St.invalidAddress, 32),
   (a.tokensPresent && decide (a.tokAddr % 64 ≠ 0), St.invalidAddress, 40),
   (a.attrPresent && decide (a.attrAddr % 64 ≠ 0), St.invalidAddress, 48),
   (a.tokensPresent && (a.rows.take a.count).any (fun r => decide (512 < r.toks.length)), St.invalidField, 40)]

/-- The entries as read: exactly COUNT of them. -/
def writeRowsIn (a : RowWriteArgs) : List RowIn :=
  a.rows.take a.count ++ List.replicate (a.count - a.rows.length) { id := sentinel, vec := [], attr := 0, toks := [] }

/-- Apply the versions to a shard and pass them on to its replicas (R121, R140). -/
def indexWrite (q : SqReq) (c : Coll) (upsert : Bool) (a : RowWriteArgs) (rows : List RowIn) (ps : List Prep) (s : State) : State :=
  let e := c.committed + 1
  let s := settlePart q.part (onColl q.part c.num (fun c => ps.foldl (fun c r => putVersion e r c) c) s)
  let sent := rows.map (fun r => { r with attr := if a.attrPresent then r.attr else 0
                                          toks := if a.tokensPresent then r.toks else [] })
  tellIngest (q.part, q.sq, q.tag) c (.write upsert sent a.inputType) s

/-- An ingest that has been applied here completes once every replica has applied it (R121). -/
def indexEnd (c : Coll) (dA : Nat) (s : State) : QRes :=
  ingestEnd s { coll := c.num, waitFor := replicaWaits s c, dA := dA } false

/-- The checks of R138, R141 and R148 that follow the entries' own. -/
def versionChecks (c : Coll) (insert : Bool) (ids : List Nat) : List (Bool × Nat × Nat) :=
  let e := c.committed + 1
  let dup := earlier (firstIndex (fun id => (lookupId c id e).isSome) ids) (firstRepeat ids)
  [(insert && dup.isSome, St.rowExists, dup.getD 0),
   (decide (epochLimit < e) || decide (epochLimit + 1 < c.nextOrdinal + ids.length), St.epochExhausted, 0),
   (decide (2 * c.cfg.greenLimit < c.green.length + ids.length), St.greenFull, 0)]

/-- ROW_INSERT and ROW_UPSERT past the operand checks, on an INDEX collection. -/
def indexIngest (q : SqReq) (c : Coll) (insert : Bool) (a : RowWriteArgs) (s : State) : QRes :=
  let rows := writeRowsIn a
  let ps := rows.map (prepRow c a.inputType a.tokensPresent a.attrPresent)
  let badId := firstIndex (fun (r : RowIn) => decide (r.id = sentinel)) rows
  let badVal := firstIndex (fun (x : Option Prep) => x.isNone) ps
  match badId, badVal with
  | some i, some j => .fail s (if i ≤ j then (St.invalidRowId, i) else (St.invalidValue, j))
  | some i, none => .fail s (St.invalidRowId, i)
  | none, some j => .fail s (St.invalidValue, j)
  | none, none =>
    qchecked s (versionChecks c insert (rows.map RowIn.id))
      (indexEnd c 0 (indexWrite q c (!insert) a rows (ps.filterMap id) s))

/-- ROW_INSERT and ROW_UPSERT on a TABLE: each listed row is written whole (R150). -/
def tableIngest (q : SqReq) (c : Coll) (a : RowWriteArgs) (s : State) : QRes :=
  let rows := writeRowsIn a
  let own := ownId s
  let vs := rows.map (fun r => prepVec 0 (!c.noRotate) c.seed (fitRaw a.inputType c.dim r.vec))
  let badId := firstIndex (fun (r : RowIn) => !inTable c own r.id) rows
  let badVal := firstIndex (fun (x : Option (List F32)) => x.isNone) vs
  match badId, badVal with
  | some i, some j => .fail s (if i ≤ j then (St.invalidRowId, i) else (St.invalidValue, j))
  | some i, none => .fail s (St.invalidRowId, i)
  | none, some j => .fail s (St.invalidValue, j)
  | none, none => tableWrite q c (rows.map (fun r => (r.id, fitRaw a.inputType c.dim r.vec))) s

def rowWriteBody (q : SqReq) (insert : Bool) (a : RowWriteArgs) (s : State) : QRes :=
  onIngest s q.part a.coll (fun c =>
    qchecked s (writeChecks a) (if c.kind = 0 then indexIngest q c insert a s else tableIngest q c a s))

/-- ROW_INSERT (R138, R140, R141, R145, R150). -/
def execRowInsert (q : SqReq) (a : RowWriteArgs) (s : State) : Result :=
  .next (ingestQueue q Op.rowInsert a.coll (rowWriteBody q true a) s)

/-- ROW_UPSERT. -/
def execRowUpsert (q : SqReq) (a : RowWriteArgs) (s : State) : Result :=
  .next (ingestQueue q Op.rowUpsert a.coll (rowWriteBody q false a) s)

/-! ## ROW_DELETE -/

/-- Delete ids from a shard: how many were absent. -/
def deleteIds (e : Nat) (ids : List Nat) (c : Coll) : Coll × Nat :=
  ids.foldl (fun x id => let y := dropVersion e id x.1; (y.1, x.2 + (if y.2 then 0 else 1))) (c, 0)

def rowDeleteBody (q : SqReq) (a : RowDeleteArgs) (s : State) : QRes :=
  onIngest s q.part a.coll (fun c =>
    let ids := a.ids.take a.count ++ List.replicate (a.count - a.ids.length) sentinel
    let badId := firstIndex (fun id => if c.kind = 0 then decide (id = sentinel) else !inTable c (ownId s) id) ids
    qchecked s
      [(!within 1 65536 a.count, St.invalidField, 20), (decide (a.idsAddr % 64 ≠ 0), St.invalidAddress, 24),
       (badId.isSome, St.invalidRowId, badId.getD 0)]
      (if c.kind = 0 then
        if epochLimit < c.committed + 1 then .fail s (St.epochExhausted, 0)
        else
          let x := deleteIds (c.committed + 1) ids c
          indexEnd c x.2 (tellIngest (q.part, q.sq, q.tag) c (.delete ids) (onColl q.part c.num (fun _ => x.1) s))
      else tableWrite q c (ids.map (fun i => (i, List.replicate c.dim 0))) s))

/-- ROW_DELETE (R143, R238). -/
def execRowDelete (q : SqReq) (a : RowDeleteArgs) (s : State) : Result :=
  .next (ingestQueue q Op.rowDelete a.coll (rowDeleteBody q a) s)

/-! ## INGEST_COMMIT -/

/-- The ingest commands on the collection that have begun and not ended. -/
def ingestsOpen (s : State) (p coll : Nat) : List (Nat × Nat) :=
  (part s p).running.filterMap (fun r =>
    match r.kind with
    | .ingest w => if w.coll = coll ∧ !w.isCommit ∧ r.opcode ≠ Op.rowRead then some (r.sq, r.tag) else none
    | _ => none)

def ingestCommitBody (q : SqReq) (coll : Nat) (s : State) : QRes :=
  onIngest s q.part coll (fun c =>
    qchecked s [(decide (c.kind ≠ 0), St.wrongKind, 16), (decide (epochLimit ≤ c.committed), St.epochExhausted, 0)]
      (let before := ingestsOpen s q.part coll
       if before.isEmpty then
         ingestEnd (tellIngest (q.part, q.sq, q.tag) c .commit (onColl q.part coll (commitEpoch s.time) s))
           { coll := coll, isCommit := true, waitFor := replicaWaits s c, dB := c.committed + 1 } false
       else { st := s, run := some (.ingest { coll := coll, isCommit := true, before := before }) }))

/-- INGEST_COMMIT (R121, R147, R148). -/
def execIngestCommit (q : SqReq) (coll : Nat) (s : State) : Result :=
  .next (ingestQueue q Op.ingestCommit coll (ingestCommitBody q coll) s)

/-! ## ROW_READ -/

/-- One entry of an INDEX read: components in the caller's coordinates, attributes, found (R144). -/
def readIndex (c : Coll) (id : Nat) : List F32 × Nat × Bool :=
  match lookupId c id c.committed with
  | some r => (unrotate c.seed (storedVec c r.ordinal), r.attrs, true)
  | none => (List.replicate c.dim 0, 0, false)

/-- A TABLE read: rows of this device are heated, the others asked for, and the output is written when all are in (R159). -/
def readTableRows (q : SqReq) (c : Coll) (a : RowReadArgs) (s : State) : QRes :=
  let ids := readIds a
  if !tableReady s q.part c ids then .fail s (St.notReady, 0)
  else
    let bad := ids.filter (fun i => ownRow c i && isPoisonedRow c i)
    let w : IngestRun := { coll := c.num, waitFor := askedOwners s c id (fun _ => 1) ids, lost := lostRows s c id (fun _ => 1) ids
                           failed := bad.length, read := some (a, []) }
    let s := forwardRows q c id .read ids s
    let s := ((ids.filter (ownRow c)).map (blockNo c)).eraseDups.foldl (fun s b => heatUnit q.part (.tableBlock c.num b) s) s
    ingestEnd (if w.waitFor.isEmpty then writeRead q.part w s else s) w false

def rowReadBody (q : SqReq) (a : RowReadArgs) (s : State) : QRes :=
  match findColl s q.part a.coll with
  | none => .fail s (St.noSuchCollection, 16)
  | some c =>
    let ids := readIds a
    let badId := firstIndex (fun id => if c.kind = 0 then decide (id = sentinel) else !inTable c (ownId s) id) ids
    qchecked s
      [(decide (1 < a.outType), St.invalidField, 18), (!within 1 65536 a.count, St.invalidField, 20),
       (decide (a.idsAddr % 64 ≠ 0), St.invalidAddress, 24), (decide (a.outAddr % 64 ≠ 0), St.invalidAddress, 32),
       (decide (a.foundAddr % 64 ≠ 0), St.invalidAddress, 40),
       (a.withAttr && decide (a.attrOutAddr % 64 ≠ 0), St.invalidAddress, 48),
       (badId.isSome, St.invalidRowId, badId.getD 0)]
      (if c.kind = 0 then
        let out := ids.map (readIndex c)
        { st := readOut q.part a out s, dA := (out.filter (fun x => !x.2.2)).length, dB := c.committed }
      else readTableRows q c a s)

/-- ROW_READ (R144, R159, R238, R626). -/
def execRowRead (q : SqReq) (a : RowReadArgs) (s : State) : Result := .next (queue q Op.rowRead (rowReadBody q a) s)

/-! ## ROW_ADD and ROW_ADD_MERGED -/

def addChecks (c : Coll) (own : Nat) (a : RowAddArgs) : List (Bool × Nat × Nat) :=
  let gs := a.grads.take a.count
  let badId := if gs.length < a.count then some gs.length else firstIndex (fun (g : GradIn) => !inTable c own g.row) gs
  let badVal := firstIndex (fun (g : GradIn) => !g.grad.all F.finite ||
    (!c.noRotate && !(rotate c.seed (g.grad.take c.dim ++ List.replicate (c.dim - g.grad.length) 0)).all F.finite)) gs
  let idFirst := match badId, badVal with | some i, some j => decide (i ≤ j) | some _, none => true | none, _ => false
  [(decide (c.kind ≠ 1), St.wrongKind, 16), (!within 1 65536 a.count, St.invalidField, 20),
   (decide (a.idsAddr % 64 ≠ 0), St.invalidAddress, 24), (decide (a.gradAddr % 64 ≠ 0), St.invalidAddress, 32),
   (!F.finite a.alpha, St.invalidField, 40), (idFirst, St.invalidRowId, badId.getD 0),
   (badVal.isSome, St.invalidValue, badVal.getD 0), (badId.isSome, St.invalidRowId, badId.getD 0)]

/-- ALPHA · g, of exactly D components. -/
def scaledGrad (d : Nat) (alpha : F32) (g : List F32) : List F32 :=
  (g.take d ++ List.replicate (d - g.length) 0).map (F.mul alpha)

/-- Rows that an add targets and nothing can read become poisoned, written or not (R237). -/
def poisonRows (p coll : Nat) (rows : List Nat) (s : State) : State :=
  rows.foldl (fun s i =>
    match findColl s p coll with
    | some c => if ownRow c i then onColl p coll (poisonRow (rowPlace s p c i) i) s else s
    | none => s) s

/-- Adds of one command or message reach their rows in order: the entries not applied, and whether any waits. -/
structure AddRun where
  st : State
  failed : Nat := 0
  first : Nat := 0
  held : Bool := false

/-- One add, which stands for `weight` entries. -/
def AddRun.step (p coll : Nat) (x : AddRun) (l : Lease) : AddRun :=
  let y := reachAdd p coll l x.st
  match y.2 with
  | .applied => { x with st := y.1 }
  | .held => { x with st := y.1, held := true }
  | .refused => { x with st := y.1, failed := x.failed + l.weight, first := if x.failed = 0 then l.row else x.first }

/-- The adds as they stand at their rows. -/
def leaseOf (c : Coll) (sq tag : Nat) (peer : Option Nat) (stalled : List Nat) (e : PooledAdd) : Lease :=
  { row := e.row, sq := sq, tag := tag, peer := peer, weight := e.weight, attempt := 0, stalls := decide (e.row ∈ stalled)
    engine := none, delta := rotateFor c e.v }

/-- The adds of a command, in the order in which they reach memory: this device's rows here, the others at their owners. -/
def runAdds (q : SqReq) (c : Coll) (es : List (PooledAdd × Bool)) (s : State) : QRes :=
  let adds := es.map (fun e => e.1)
  if !tableReady s q.part c (adds.map PooledAdd.row) then .fail s (St.notReady, 0)
  else
    let w : IngestRun := { coll := c.num, waitFor := askedOwners s c PooledAdd.row PooledAdd.weight adds
                           lost := lostRows s c PooledAdd.row PooledAdd.weight adds }
    let s := forwardRows q c PooledAdd.row .add adds s
    let x := (es.filter (fun e => ownRow c e.1.row)).foldl (fun x e =>
      AddRun.step q.part c.num x { leaseOf c q.sq q.tag none [] e.1 with stalls := e.2 }) { st := s }
    ingestEnd x.st { w with failed := x.failed, first := x.first } x.held

/-- The entries in the order in which they reach memory: those the environment orders, then the rest (R152). -/
def addOrder (n : Nat) (order : List Nat) : List Nat :=
  let named := (order.filter (fun i => decide (i < n))).eraseDups
  named ++ (List.range n).filter (fun i => decide (i ∉ named))

def rowAddBody (q : SqReq) (a : RowAddArgs) (s : State) : QRes :=
  onIngest s q.part a.coll (fun c =>
    qchecked s (addChecks c (ownId s) a)
      (let gs := a.grads.take a.count
       let entry (i : Nat) : List (PooledAdd × Bool) :=
         (gs[i]?.map (fun g => ({ row := g.row, v := scaledGrad c.dim a.alpha g.grad }, decide (i ∈ a.stalled)))).toList
       let s := poisonRows q.part a.coll (a.unreadable.filter (fun i => gs.any (fun g => g.row = i))) s
       runAdds q ((findColl s q.part a.coll).getD c) ((addOrder gs.length a.order).flatMap entry) s))

/-- ROW_ADD (R152–R156, R237). -/
def execRowAdd (q : SqReq) (a : RowAddArgs) (s : State) : Result := .next (queue q Op.rowAdd (rowAddBody q a) s)

/-- Sums by row in (row index, entry position) order, in fp32 (R153); each stands for its entries. -/
def mergeAdds (l : List (Nat × List F32)) : List PooledAdd :=
  (sortBy (fun a b => decide (a < b)) (l.map (fun x => x.1)).eraseDups).map (fun i =>
    let vs := (l.filter (fun x => x.1 = i)).map (fun x => x.2)
    { row := i, weight := vs.length
      v := match vs with
        | [] => []
        | v :: vs => vs.foldl (fun acc w => List.zipWith F.add acc w) v })

def rowAddMergedBody (q : SqReq) (a : RowAddArgs) (s : State) : QRes :=
  onIngest s q.part a.coll (fun c =>
    qchecked s (addChecks c (ownId s) a)
      (let gs := a.grads.take a.count
       let merged := mergeAdds (gs.map (fun g => (g.row, scaledGrad c.dim a.alpha g.grad)))
       let stalledRows := a.stalled.filterMap (fun i => gs[i]?.map GradIn.row)
       let s := poisonRows q.part a.coll (a.unreadable.filter (fun i => gs.any (fun g => g.row = i))) s
       runAdds q ((findColl s q.part a.coll).getD c) (merged.map (fun e => (e, decide (e.row ∈ stalledRows)))) s))

/-- ROW_ADD_MERGED (R153). -/
def execRowAddMerged (q : SqReq) (a : RowAddArgs) (s : State) : Result :=
  .next (queue q Op.rowAddMerged (rowAddMergedBody q a) s)

/-! ## LEASE_EXPIRY (R155, R576) -/

/-- LEASE_EXPIRY: the first expiry reissues the add; the second marks its engine faulted and applies the add on Canopy; the
third abandons it (R155). `switches`: the reissued add switches within its own lease; on a row that is poisoned by then it
is not applied (R237). A lease that its engine's grant has not begun does not expire (R221), and nothing is reissued once the
watchdog has expired (R64). -/
def execLeaseExpiry (a : LeaseArgs) (s : State) : Result :=
  .next
    (match (findColl s a.part a.coll).bind (fun c => (rowLeases c a.row).head?) with
     | none => s
     | some l =>
       if !firmwareRuns s || leaseWaits s l ||
           (leaseOnEngine s l && decide (l.engine ≠ some (a.stack, a.engine))) then s
       else
         let s := if l.attempt = 2 ∧ leaseOnEngine s l then faultEngine a.stack a.engine s else s
         if l.attempt < 3 ∧ a.switches then endLease a.part a.coll l true s
         else if l.attempt < 3 then
           onColl a.part a.coll (fun c =>
             { c with leases := c.leases.map (fun x => if x = l then { l with attempt := l.attempt + 1 } else x) }) s
         else endLease a.part a.coll l false s)

/-! ## Pooled rows and replicas at the other end -/

/-- The owner applies or returns rows of its range for a member (R159, R572), and answers once all have ended. -/
def pooledRequest (m : PooledMsg) (s : State) : State :=
  let reply (st failed first : Nat) (rows : List (Nat × List F32)) (s : State) : State :=
    sendFw m.src m.part (.pooledAnswer m.sq m.tag st failed first rows) s
  let rows := match m.op with
    | .read rows => rows
    | .write rows => rows.map (fun r => r.1)
    | .delete rows => rows
    | .add rows => rows.map PooledAdd.row
  if holding s ∨ s.power.level = 0 then reply St.notReady 0 0 [] s
  else
    match findColl s m.part m.coll with
    | none => reply St.noSuchCollection 0 0 [] s
    | some c =>
      if c.kind ≠ 1 then reply St.wrongKind 0 0 [] s
      else if !tableReady s m.part c rows then reply St.notReady 0 0 [] s
      else
        match m.op with
        | .read rows =>
          let bad := rows.filter (fun i => !ownRow c i || isPoisonedRow c i)
          reply (if bad = [] then St.ok else St.uncorrectable) bad.length (bad.headD 0)
            ((rows.filter (fun i => ownRow c i && !isPoisonedRow c i)).map (fun i => (i, (readOwn c i).1)))
            (((rows.filter (ownRow c)).map (blockNo c)).eraseDups.foldl (fun s b => heatUnit m.part (.tableBlock c.num b) s) s)
        | .write rows =>
          reply St.ok 0 0 [] (writeRows m.part c.num ((rows.filter (fun r => ownRow c r.1)).map (fun r => (r.1, rotateFor c r.2))) s)
        | .delete rows =>
          reply St.ok 0 0 [] (writeRows m.part c.num ((rows.filter (ownRow c)).map (fun i => (i, List.replicate c.dim 0))) s)
        | .add es =>
          let s := poisonRows m.part m.coll (m.unreadable.filter (fun i => decide (i ∈ rows))) s
          let x := (es.filter (fun e => ownRow c e.row)).foldl (fun x e =>
            AddRun.step m.part c.num x (leaseOf c m.sq m.tag (some m.src) m.stalled e)) { st := s }
          if x.held then
            onPart m.part (fun t => { t with peerAdds := t.peerAdds ++
              [{ src := m.src, sq := m.sq, tag := m.tag, coll := m.coll, failed := x.failed, first := x.first }] }) x.st
          else reply (if x.failed = 0 then St.ok else St.uncorrectable) x.failed x.first [] x.st

/-- POOLED_ROW_REQUEST. -/
def execPooledRowRequest (m : PooledMsg) (s : State) : Result := .next (if firmwareRuns s then pooledRequest m s else s)

/-- A replica shard applies what its primary applied (R121), its parameter set included (R627). -/
def replicaIngest (m : ReplicaMsg) (s : State) : State :=
  let reply (st : Nat) (s : State) : State := sendFw m.src m.part (.replicaAnswer m.sq m.tag st) s
  match findShard s m.part m.coll m.shard with
  | none => reply St.noSuchCollection s
  | some c =>
    if c.role = 0 then reply St.wrongState s
    else
      let e := c.committed + 1
      let coll := c.num
      match m.op with
      | .write _ rows inputType =>
        reply St.ok (settlePart m.part
          (onColl m.part coll (fun c => (rows.filterMap (prepRow c inputType true true)).foldl (fun c r => putVersion e r c) c) s))
      | .delete ids => reply St.ok (onColl m.part coll (fun c => (deleteIds e ids c).1) s)
      | .commit => reply St.ok (onColl m.part coll (commitEpoch s.time) s)
      | .config a => reply St.ok (retierColl m.part coll a.tier (onColl m.part coll (fun c => { c with cfg := cfgOf a }) s))

/-- REPLICA_INGEST. -/
def execReplicaIngest (m : ReplicaMsg) (s : State) : Result := .next (if firmwareRuns s then replicaIngest m s else s)

/-- A replica builds the segment its primary built, from its own rows: green rows for seasoning, stored bytes for compaction
(R627). Running queries read the segment list that they captured (R136). -/
def replicaSeason (m : ReplicaSeasonMsg) (s : State) : State :=
  match findShard s m.part m.coll m.shard with
  | none => s
  | some c =>
    if c.role = 0 then s
    else if m.compaction then
      let x := buildCompact m.segment (fun st => decide (st ∈ m.stands)) (fun o => decide (o ∈ m.ordinals)) c
      renewUnits m.part x.1 (onColl m.part c.num (fun _ => x.1) s)
    else
      let gone := ((greenDue c c.committed).map GreenRow.ordinal).filter (fun o => decide (o ∉ m.ordinals))
      let c2 := buildSeason m.segment m.ordinals gone c
      let s := onColl m.part c.num (fun _ => c2) s
      match c2.segs.getLast? with | some g => if g.number = m.segment then segmentUnits m.part c2 g s else s | none => s

/-- REPLICA_SEASON. -/
def execReplicaSeason (m : ReplicaSeasonMsg) (s : State) : Result := .next (if firmwareRuns s then replicaSeason m s else s)

/-! ## Conversions the device starts (R137, R241) -/

/-- The oldest committed green version has been committed for GREEN_AGE_MS. -/
def greenAged (s : State) (c : Coll) : Bool :=
  decide (c.cfg.greenAgeMs ≠ 0) &&
    (greenDue c c.committed).any (fun g =>
      match recOf c g.ordinal with
      | some r => c.commitTimes.any (fun x => decide (x.1 = r.birth) && decide (x.2 + c.cfg.greenAgeMs * 1000 ≤ s.time))
      | none => false)

/-- SEASONING: the device's own trigger (R137). -/
def execSeasoning (p coll : Nat) (s : State) : Result :=
  .next
    (match findColl s p coll with
     | some c =>
       if firmwareRuns s && !holding s && decide (c.kind = 0) && decide (c.role = 0) && !c.busy && c.cfg.seasonEnable &&
           !(greenDue c c.committed).isEmpty && (decide (c.cfg.greenLimit ≤ c.green.length) || greenAged s c) &&
           maySeason s p c then
         seasonNow p c s
       else s
     | none => s)

/-- COMPACTION of a stand: the device's own trigger (R137); at 65,535 segments, of every stand (R241). -/
def execCompaction (p coll stand : Nat) (s : State) : Result :=
  .next
    (match findColl s p coll with
     | some c =>
       if firmwareRuns s && !holding s && decide (c.kind = 0) && decide (c.role = 0) && !c.busy then
         if 65535 ≤ c.segs.length then compactNow p (fun _ => true) c s
         else if deadDue s p c || decide (c.cfg.segmentTarget < c.segs.length) then
           compactNow p (fun x => decide (x = stand)) c s
         else s
       else s
     | none => s)

end Sys2Proof.Machine
end

