-- ==== Sys2Proof/Machine/Text.lean ====
section
/-! DEFINITION. Sys2Proof/Machine/Text.lean: Bucker: text to tokens and back (R289–R303, R319–R321), text image checks,
VOCAB_LOAD, TXT_TOKENIZE, TXT_DETOK_STREAM, tries and stream contexts (R291–R307, R314, R319–R322). -/
namespace Sys2Proof.Machine

/-! ## UTF-8 (R295) -/

def inRange (lo hi : Nat) (b : Byte) : Bool := decide (lo ≤ b.toNat) && decide (b.toNat ≤ hi)
def contByte (b : Byte) : Bool := inRange 0x80 0xBF b

/-- Bytes of the sequence that a lead byte opens, 0 for a byte that opens none (RFC 3629). -/
def leadLen (b : Byte) : Nat :=
  if inRange 0 0x7F b then 1 else if inRange 0xC2 0xDF b then 2 else if inRange 0xE0 0xEF b then 3
  else if inRange 0xF0 0xF4 b then 4 else 0

/-- The second byte may follow the lead byte: no overlong form, no surrogate, nothing above U+10FFFF. -/
def secondOk (b0 b1 : Byte) : Bool :=
  if b0 = 0xE0 then inRange 0xA0 0xBF b1 else if b0 = 0xED then inRange 0x80 0x9F b1
  else if b0 = 0xF0 then inRange 0x90 0xBF b1 else if b0 = 0xF4 then inRange 0x80 0x8F b1 else contByte b1

/-- The bytes begin as a well-formed sequence does, as far as they go. -/
def seqStarts : List Byte → Bool
  | [] => false
  | [b0] => decide (leadLen b0 ≠ 0)
  | b0 :: b1 :: rest => decide (leadLen b0 ≠ 0) && secondOk b0 b1 && rest.all contByte

/-- Length of the well-formed sequence at the front, 0 if there is none. -/
def utf8Len (bs : List Byte) : Nat :=
  match bs with
  | [] => 0
  | b :: _ => let n := leadLen b; if n ≠ 0 ∧ n ≤ bs.length ∧ seqStarts (bs.take n) then n else 0

/-- The bytes are a well-formed but incomplete sequence. -/
def utf8Partial (bs : List Byte) : Bool :=
  match bs with
  | [] => false
  | b :: _ => decide (bs.length < leadLen b) && seqStarts bs

def utf8Code : List Byte → Nat
  | [a] => a.toNat
  | [a, b] => (a.toNat - 0xC0) * 64 + (b.toNat - 0x80)
  | [a, b, c] => (a.toNat - 0xE0) * 4096 + (b.toNat - 0x80) * 64 + (c.toNat - 0x80)
  | [a, b, c, d] => (a.toNat - 0xF0) * 262144 + (b.toNat - 0x80) * 4096 + (c.toNat - 0x80) * 64 + (d.toNat - 0x80)
  | _ => 0

def utf8Bytes (c : Nat) : List Byte :=
  if c < 0x80 then [BitVec.ofNat 8 c]
  else if c < 0x800 then [BitVec.ofNat 8 (0xC0 + c / 64), BitVec.ofNat 8 (0x80 + c % 64)]
  else if c < 0x10000 then
    [BitVec.ofNat 8 (0xE0 + c / 4096), BitVec.ofNat 8 (0x80 + c / 64 % 64), BitVec.ofNat 8 (0x80 + c % 64)]
  else
    [BitVec.ofNat 8 (0xF0 + c / 262144), BitVec.ofNat 8 (0x80 + c / 4096 % 64), BitVec.ofNat 8 (0x80 + c / 64 % 64),
     BitVec.ofNat 8 (0x80 + c % 64)]

/-- A character or raw byte of the text being tokenised: its code point (none for a raw byte), its bytes, and for each
byte the offset of the input byte it stands for (R303). -/
structure Sym where
  cp : Option Nat
  bytes : List Byte
  offs : List Nat
  deriving DecidableEq, Repr

def offsFrom (o n : Nat) : List Nat := (List.range n).map (fun k => o + k)

/-- Decode at most `fuel` symbols of the text at offset `o`; an incomplete sequence at the end stays when `keep`. -/
def decodeFrom (keep : Bool) : Nat → Nat → List Byte → List Sym × List Byte
  | 0, _, bs => ([], bs)
  | _ + 1, _, [] => ([], [])
  | f + 1, o, b :: bs =>
    let n := utf8Len (b :: bs)
    if n ≠ 0 then
      let r := decodeFrom keep f (o + n) ((b :: bs).drop n)
      ({ cp := some (utf8Code ((b :: bs).take n)), bytes := (b :: bs).take n, offs := offsFrom o n } :: r.1, r.2)
    else if keep && utf8Partial (b :: bs) then ([], b :: bs)
    else
      let r := decodeFrom keep f (o + 1) bs
      ({ cp := none, bytes := [b], offs := [o] } :: r.1, r.2)

def decodeText (keep : Bool) (o : Nat) (bs : List Byte) : List Sym × List Byte := decodeFrom keep bs.length o bs

/-! ## Preparing text (R296) -/

def Sym.cls (x : Sym) : Nat := match x.cp with | some c => charClass c | none => 3

/-- NFC of a run; text below U+0300 is in normal form. -/
def nfcOf (cs : List Nat) : List Nat := if cs.all (fun c => decide (c < 0x300)) then cs else nfc cs

/-- Offset that character `j` of a normalised run stands for: the first input character whose arrival makes the normal
form that long. -/
def nfcOffset (run : List Sym) (j : Nat) : Nat :=
  let cs := run.map (fun x => x.cp.getD 0)
  let i := ((List.range run.length).find? (fun i => decide (j < (nfcOf (cs.take (i + 1))).length))).getD (run.length - 1)
  ((run[i]?.map (fun x => x.offs.headD 0)).getD 0)

def nfcRun (run : List Sym) : List Sym :=
  let cs := run.map (fun x => x.cp.getD 0)
  if nfcOf cs = cs then run
  else (nfcOf cs).zipIdx.map (fun c =>
    let bs := utf8Bytes c.1
    { cp := some c.1, bytes := bs, offs := List.replicate bs.length (nfcOffset run c.2) })

/-- NFC of each maximal run of characters of a piece; raw bytes separate the runs. -/
def nfcPiece (p : List Sym) : List Sym :=
  let r := p.foldr (fun x (acc : List Sym × List Sym) =>
    match x.cp with
    | some _ => (x :: acc.1, acc.2)
    | none => ([], x :: nfcRun acc.1 ++ acc.2)) ([], [])
  nfcRun r.1 ++ r.2

/-- U+0020 becomes U+2581. -/
def markSpace (x : Sym) : Sym :=
  if x.cp = some 0x20 then
    { cp := some 0x2581, bytes := [0xE2, 0x96, 0x81], offs := List.replicate 3 (x.offs.headD 0) }
  else x

/-- Put a symbol in front of runs of one class each. -/
def addRun (x : Sym) : List (Nat × List Sym) → List (Nat × List Sym)
  | [] => [(x.cls, [x])]
  | (k, r) :: rest => if k = x.cls then (k, x :: r) :: rest else (x.cls, [x]) :: (k, r) :: rest

/-- Cut a list into threes, at most `fuel` of them. -/
def threes {α : Type} : Nat → List α → List (List α)
  | 0, _ => []
  | f + 1, l => if l.isEmpty then [] else l.take 3 :: threes f (l.drop 3)

/-- A last U+0020 of a SPACE run begins the LETTER or OTHER run behind it. -/
def giveSpace : List (Nat × List Sym) → List (List Sym)
  | [] => []
  | [(_, r)] => [r]
  | (k, r) :: (k2, r2) :: rest =>
    match r.getLast? with
    | some x =>
      if k = 2 ∧ (k2 = 0 ∨ k2 = 3) ∧ x.cp = some 0x20 then
        (if r.dropLast.isEmpty then [] else [r.dropLast]) ++ (x :: r2) :: giveSpace rest
      else r :: giveSpace ((k2, r2) :: rest)
    | none => giveSpace ((k2, r2) :: rest)

/-- A new piece at each U+0020 that follows another character; a raw byte is none. -/
def spacePrefix (xs : List Sym) : List (List Sym) :=
  xs.zipIdx.foldr (fun x acc =>
    let starts := decide (x.1.cp = some 0x20) && decide (x.2 ≠ 0) && (match xs[x.2 - 1]?.bind Sym.cp with | some c => decide (c ≠ 0x20) | none => false)
    match acc with
    | [] => if starts then [[], [x.1]] else [[x.1]]
    | p :: ps => if starts then [] :: (x.1 :: p) :: ps else (x.1 :: p) :: ps) []

/-- The pieces of a text (R296). -/
def splitPieces (mode : Nat) (xs : List Sym) : List (List Sym) :=
  if xs.isEmpty then []
  else if mode = 0 then [xs]
  else if mode = 1 then (spacePrefix xs).filter (fun p => !p.isEmpty)
  else
    giveSpace ((xs.foldr addRun []).flatMap (fun r => if r.1 = 1 then (threes r.2.length r.2).map (fun t => (1, t)) else [r]))

/-! ## Tokens of a vocabulary (R294, R299) -/

def Vocab.str (v : Vocab) (t : Nat) : List Byte := v.tokens.getD t []
def Vocab.special (v : Vocab) (t : Nat) : Bool := decide (t ∈ v.specials)
def Vocab.isByte (v : Vocab) (t : Nat) : Bool := decide (v.byteBase ≤ t) && decide (t < v.byteBase + 256)
def Vocab.byteTok (v : Vocab) (b : Byte) : Nat := v.byteBase + b.toNat
def noId : Nat := 0xFFFFFFFF

/-- U+2581 sequences become U+0020; `skip` bytes of one already replaced are left out. -/
def unmarkFrom : Nat → List Byte → List Byte
  | _, [] => []
  | k + 1, _ :: bs => unmarkFrom k bs
  | 0, b :: bs => if b = 0xE2 ∧ bs.take 2 = [0x96, 0x81] then 0x20 :: unmarkFrom 2 bs else b :: unmarkFrom 0 bs

def unmark (bs : List Byte) : List Byte := unmarkFrom 0 bs

/-- Text bytes of a token (R294). -/
def Vocab.text (v : Vocab) (t : Nat) : List Byte :=
  if v.isByte t then [BitVec.ofNat 8 (t - v.byteBase)] else if v.spaceMark then unmark (v.str t) else v.str t

/-- The token can come from text: neither special, nor BOS or EOS (R299). -/
def Vocab.fromText (v : Vocab) (t : Nat) : Bool := !v.special t && decide (t ≠ v.bos) && decide (t ≠ v.eos)

/-- The non-special token with exactly these bytes: a token that is no byte token, else the byte token (R297). -/
def Vocab.find (v : Vocab) (bs : List Byte) : Option Nat :=
  let ok (t : Nat) : Bool := decide (v.str t = bs) && v.fromText t
  match (List.range v.tokens.length).find? (fun t => ok t && !v.isByte t) with
  | some t => some t
  | none => (List.range v.tokens.length).find? ok

/-- A token and the offset of the first input byte it covers. -/
abbrev Tok := Nat × Nat

def byteToks (v : Vocab) (x : Sym) : List Tok := List.zipWith (fun b o => (v.byteTok b, o)) x.bytes x.offs

/-! ## BPE (R297) -/

def bpeStart (v : Vocab) (x : Sym) : List Tok :=
  match x.cp with
  | none => byteToks v x
  | some _ =>
    if v.byteLevel then byteToks v x
    else match v.find x.bytes with | some t => [(t, x.offs.headD 0)] | none => byteToks v x

/-- Rank of a pair of symbols: a merge to a token that cannot come from text gives none (R299; log entry 98). -/
def pairRank (v : Vocab) (a b : Nat) : Option Nat :=
  v.merges.findIdx? (fun m => m.left = a && m.right = b && v.fromText m.result)

def lowestRank (v : Vocab) : List Tok → Option Nat
  | [] => none
  | [_] => none
  | a :: b :: rest =>
    match pairRank v a.1 b.1, lowestRank v (b :: rest) with
    | some x, some y => some (min x y)
    | some x, none => some x
    | none, y => y

/-- Replace every non-overlapping occurrence of the merge's pair, left to right. -/
def applyMerge (m : Merge) : List Tok → List Tok
  | [] => []
  | [a] => [a]
  | a :: b :: rest =>
    if a.1 = m.left ∧ b.1 = m.right then (m.result, a.2) :: applyMerge m rest else a :: applyMerge m (b :: rest)

def bpeLoop (v : Vocab) : Nat → List Tok → List Tok
  | 0, l => l
  | f + 1, l =>
    match (lowestRank v l).bind (fun r => v.merges[r]?) with
    | some m => bpeLoop v f (applyMerge m l)
    | none => l

def bpe (v : Vocab) (p : List Sym) : List Tok :=
  let l := p.flatMap (bpeStart v)
  bpeLoop v l.length l

/-! ## Unigram (R298) -/

/-- A segmentation of the front of a piece: its score, its tokens with offsets, and their byte lengths. -/
structure Cand where
  sum : F32
  toks : List Tok
  lens : List Nat
  deriving DecidableEq, Repr

/-- The longer token at the first place where the lengths differ. -/
def longerFirst : List Nat → List Nat → Bool
  | a :: as, b :: bs => if a = b then longerFirst as bs else decide (b < a)
  | _, _ => false

/-- `a` wins a tie of sums against `b`. -/
def tieWins (a b : Cand) : Bool :=
  decide (a.toks.length < b.toks.length) || (decide (a.toks.length = b.toks.length) && longerFirst a.lens b.lens)

/-- `a` stays ahead of `b` whatever follows. -/
def outdoes (a b : Cand) : Bool :=
  (F.lt b.sum a.sum && !tieWins b a) || (!F.lt a.sum b.sum && tieWins a b)

def prune (cs : List Cand) : List Cand := cs.filter (fun c => !cs.any (fun d => outdoes d c))

/-- Tokens that cover exactly the symbols `xs`, with their scores. -/
def coverings (v : Vocab) (xs : List Sym) : List (List (Tok × Nat × F32)) :=
  let bs := xs.flatMap Sym.bytes
  let o := (xs.head?.map (fun x => x.offs.headD 0)).getD 0
  let whole := (List.range v.tokens.length).find? (fun t => decide (v.str t = bs) && v.fromText t && !v.isByte t)
  let byBytes := match xs with
    | [x] => [(byteToks v x).map (fun t => (t, 1, v.byteScore))]
    | _ => []
  if xs.all (fun x => x.cp.isSome) then
    match whole with
    | some t => [[((t, o), bs.length, v.scores.getD t 0)]]
    | none => byBytes
  else byBytes

def extend (c : Cand) (l : List (Tok × Nat × F32)) : Cand :=
  l.foldl (fun c t => { sum := F.add c.sum t.2.2, toks := c.toks ++ [t.1], lens := c.lens ++ [t.2.1] }) c

/-- Segmentations of the first 0, 1, … symbols that can still win. -/
def uniFronts (v : Vocab) (p : List Sym) : List (List Cand) :=
  (List.range p.length).foldl (fun fronts j =>
    fronts ++ [prune ((List.range (j + 1)).flatMap (fun i =>
      (coverings v ((p.take (j + 1)).drop i)).flatMap (fun l => (fronts.getD i []).map (fun c => extend c l))))])
    [[{ sum := 0, toks := [], lens := [] }]]

def unigram (v : Vocab) (p : List Sym) : List Tok :=
  match (uniFronts v p).getLast? with
  | some (c :: cs) =>
    (cs.foldl (fun best d => if F.lt best.sum d.sum || (!F.lt d.sum best.sum && tieWins d best) then d else best) c).toks
  | _ => []

/-! ## Tokenising (R296–R302) -/

/-- Tokens of one piece: NFC, space marks, then the model. -/
def pieceToks (v : Vocab) (p : List Sym) : List Tok :=
  let p := if v.nfc then nfcPiece p else p
  let p := if v.spaceMark then p.map markSpace else p
  if v.bpe then bpe v p else unigram v p

/-- The prefix space of ADD_PREFIX. -/
def withPrefix (add : Bool) (o : Nat) (xs : List Sym) : List Sym :=
  if add ∧ (xs.head?.bind Sym.cp) ≠ some 0x20 then { cp := some 0x20, bytes := [0x20], offs := [o] } :: xs else xs

/-- Tokens of a complete text. -/
def tokenise (v : Vocab) (addPrefix : Bool) (bs : List Byte) : List Tok :=
  (splitPieces v.presplit (withPrefix (v.addPrefix && addPrefix) 0 (decodeText false 0 bs).1)).flatMap (pieceToks v)

/-- What one buffer of a stream gives: tokens, the bytes held, their offset, whether the prefix is dealt with, and
whether a held piece was cut (R300). -/
structure StreamOut where
  toks : List Tok
  held : List Byte
  offset : Nat
  started : Bool
  cut : Bool
  deriving DecidableEq, Repr

/-- One buffer of a stream: the bytes held from before, the new ones, and END. -/
def streamStep (v : Vocab) (held : List Byte) (offset : Nat) (started : Bool) (text : List Byte) (last : Bool) : StreamOut :=
  let all := held ++ text
  let d := decodeText (!last) offset all
  let pre := v.addPrefix && !started && (!d.1.isEmpty || last)
  let xs := withPrefix pre offset d.1
  let inserted := decide (xs.length ≠ d.1.length)
  let ps := splitPieces v.presplit xs
  if last then { toks := ps.flatMap (pieceToks v), held := [], offset := offset + all.length, started := true, cut := false }
  else
    let n := (ps.getLast?.map (fun p => (p.map (fun x => x.bytes.length)).sum)).getD 0
    let first := decide (ps.length = 1)
    let input := if first && inserted then n - 1 else n
    let cut := decide (1024 ≤ n)
    let done := if cut then ps else ps.dropLast
    let keep := if cut then d.2 else all.drop (all.length - d.2.length - input)
    { toks := done.flatMap (pieceToks v), held := keep, offset := offset + all.length - keep.length
      started := started || !done.isEmpty, cut := cut }

/-! ## Handles and streams -/

def findVocab (t : Part) (h : Nat) : Option Vocab := t.vocabs.find? (fun v => v.handle = h)
def findGrammar (t : Part) (h : Nat) : Option Grammar := t.grammars.find? (fun g => g.handle = h)
def findStream (t : Part) (n : Nat) : Option Stream := t.streams.find? (fun x => x.num = n)

/-- A loaded vocabulary that a field names: NO_SUCH_HANDLE, or WRONG_STATE while it loads. -/
def vocabChecks (t : Part) (h off : Nat) : List (Bool × Nat × Nat) :=
  [((findVocab t h).isNone, St.noSuchHandle, off), (((findVocab t h).map Vocab.loading).getD false, St.wrongState, 0)]

/-- Stream contexts of the device's pool in use: open streams, and those that GENERATE items hold (R305, R318). -/
def streamCount (s : State) : Nat :=
  (s.parts.map (fun t => t.streams.length)).sum + (s.runs.filter (fun r => r.conf.isSome)).length

/-- R305: what stops a command before it may use the stream `n`; `fits`: the open stream has the kind and handles the
command names. -/
def streamChecks (s : State) (p n : Nat) (opens : Bool) (fits : StreamKind → Bool) : List (Bool × Nat × Nat) :=
  let x := findStream (part s p) n
  if opens then
    [(decide (4096 ≤ streamCount s) || decide (1024 ≤ (part s p).streams.length), St.streamLimit, 0),
     (x.isSome, St.streamExists, 0)]
  else
    [(x.isNone, St.noSuchStream, 0), (!((x.map (fun y => fits y.kind)).getD true), St.wrongState, 0)]

/-- Put a stream's context, or close it. -/
def setStream (p n : Nat) (k : Option StreamKind) (s : State) : State :=
  onPart p (fun t => { t with streams := t.streams.filter (fun x => x.num ≠ n) ++
    (match k with | some k => [{ num := n, kind := k, lastUse := s.time }] | none => []) }) s

/-- A command names the stream (R307). -/
def touchStream (p n : Nat) (s : State) : State :=
  onPart p (fun t => { t with streams := mapWhere (fun x => x.num = n) (fun x => { x with lastUse := s.time }) t.streams }) s

/-! ## TXT_TOKENIZE -/

def tokenizeChecks (s : State) (p : Nat) (a : TokenizeArgs) : List (Bool × Nat × Nat) :=
  let t := part s p
  let v := findVocab t a.vocab
  vocabChecks t a.vocab 16 ++
  [(a.addBos && decide ((v.map Vocab.bos) = some noId), St.invalidField, 20),
   (a.addEos && decide ((v.map Vocab.eos) = some noId), St.invalidField, 20),
   (decide (16777216 < a.inLen), St.invalidField, 32), (!within 1 4194304 a.outMax, St.invalidField, 36),
   (decide (a.outAddr % 64 ≠ 0), St.invalidAddress, 40), (decide (a.offsAddr % 64 ≠ 0), St.invalidAddress, 48)] ++
  (if a.useStream then
    streamChecks s p a.stream a.open_ (fun k => match k with | .tok v _ _ _ => decide (v = a.vocab) | _ => false)
  else [])

def tokWrite (p : Nat) (a : TokenizeArgs) (toks : List Tok) (s : State) : State :=
  let s := hostWrite (1 + p) a.outAddr (toks.flatMap (fun t => le 4 t.1)) s
  if a.offsAddr = 0 then s else hostWrite (1 + p) a.offsAddr (toks.flatMap (fun t => le 4 (t.2 % 2 ^ 32))) s

def tokenizeBody (p : Nat) (a : TokenizeArgs) (s : State) : QRes :=
  let s := if a.useStream ∧ ¬ a.open_ then touchStream p a.stream s else s
  qchecked s (tokenizeChecks s p a)
    (match findVocab (part s p) a.vocab with
     | none => .fail s (St.noSuchHandle, 16)
     | some v =>
       let text := fitBytes a.inLen a.text
       let before := match (if a.open_ then none else findStream (part s p) a.stream) with
         | some { kind := .tok _ h o st, .. } => (h, o, st)
         | _ => ([], 0, false)
       let r : StreamOut :=
         if a.useStream then streamStep v before.1 before.2.1 before.2.2 text a.end_
         else { toks := tokenise v true text, held := [], offset := a.inLen, started := true, cut := false }
       let bos := if a.addBos ∧ (¬ a.useStream ∨ a.open_) then [(v.bos, 0)] else []
       let eos := if a.addEos ∧ (¬ a.useStream ∨ a.end_) then [(v.eos, r.offset)] else []
       let toks := bos ++ r.toks ++ eos
       if a.outMax < toks.length then .fail s (St.bufferTooSmall, toks.length)
       else
         let s := tokWrite p a toks s
         let s := if a.useStream then
             setStream p a.stream (if a.end_ then none else some (.tok a.vocab r.held r.offset r.started)) s
           else s
         { st := s, dA := toks.length, dB := r.held.length % 65536 + (if r.cut then 65536 else 0) })

/-- TXT_TOKENIZE (R302–R304). -/
def execTxtTokenize (q : SqReq) (a : TokenizeArgs) (s : State) : Result :=
  .next (queue q Op.txtTokenize (tokenizeBody q.part a) s)

/-! ## TXT_DETOK_STREAM (R319–R322) -/

/-- Positions at which string `n` of `stops` begins in `out`. -/
def beginsAt (out : List Byte) (i : Nat) (stop : List Byte) : Bool :=
  !stop.isEmpty && decide ((out.drop i).take stop.length = stop)

/-- The earliest position at which any stop string begins, and the lowest-numbered string there. -/
def findStop (out : List Byte) (stops : List (List Byte)) : Option (Nat × Nat) :=
  (List.range out.length).findSome? (fun i => (stops.findIdx? (beginsAt out i)).map (fun n => (i, n)))

/-- The release point moved back to the start of a sequence it would cut. -/
def releasePoint (out : List Byte) (l : Nat) : Nat :=
  let p := out.length - (l - 1)
  let cuts (k : Nat) : Bool :=
    let q := p - k
    let n := leadLen (out.getD q 0)
    decide (k ≤ p) && decide (out.length ≠ 0) && decide (q < out.length) && decide (p < q + n) &&
      (utf8Len (out.drop q) = n || utf8Partial (out.drop q))
  match [1, 2, 3].find? cuts with | some k => p - k | none => p

/-- Progress of a detokenisation: output not yet released, bytes released, tokens consumed, the match, ended. -/
structure DetokRun where
  out : List Byte
  released : List Byte
  consumed : Nat
  stop : Option Nat
  ended : Bool
  deriving DecidableEq, Repr

def detokOne (v : Vocab) (stops : List (List Byte)) (render eosEnds : Bool) (r : DetokRun) (t : Nat) : DetokRun :=
  if r.stop.isSome ∨ r.ended then r
  else if eosEnds ∧ t = v.eos then
    { r with out := [], released := r.released ++ r.out, consumed := r.consumed + 1, ended := true }
  else
    let bs := if v.special t then (if render then v.str t else []) else v.text t
    let out := r.out ++ bs
    match findStop out stops with
    | some (i, n) =>
      { r with out := [], released := r.released ++ out.take i, consumed := r.consumed + 1, stop := some n }
    | none => { r with out := out, consumed := r.consumed + 1 }

/-- The whole command: tokens, then the release, or END. -/
def detokRun (v : Vocab) (stops : List (List Byte)) (render eosEnds last : Bool) (held : List Byte) (toks : List Nat) : DetokRun :=
  let r := toks.foldl (detokOne v stops render eosEnds) { out := held, released := [], consumed := 0, stop := none, ended := false }
  if r.stop.isSome ∨ r.ended then r
  else
    let l := max 1 ((stops.map List.length).foldl max 0)
    let n := if last then r.out.length else releasePoint r.out l
    { r with out := r.out.drop n, released := r.out.take n }

def detokChecks (s : State) (p : Nat) (a : DetokArgs) : List (Bool × Nat × Nat) :=
  let t := part s p
  vocabChecks t a.vocab 16 ++
  [(if a.open_ then decide (8 < a.stopCount) else decide (a.stopCount ≠ 0), St.invalidField, 21),
   (decide (4096 < a.count), St.invalidField, 22), (decide (a.tokAddr % 4 ≠ 0), St.invalidAddress, 24),
   (decide (a.stopCount ≠ 0) && decide (a.stopAddr % 64 ≠ 0), St.invalidAddress, 48),
   ((a.stops.take a.stopCount).any (fun x => !within 1 64 x.length), St.invalidField, 48)] ++
  streamChecks s p a.stream a.open_ (fun k => match k with | .detok v _ _ _ _ _ => decide (v = a.vocab) | _ => false)

def detokFinish (p : Nat) (a : DetokArgs) (v : Vocab) (held : List Byte) (stops : List (List Byte)) (render eosEnds : Bool)
    (s : State) : QRes :=
  let toks := a.toks.take a.count ++ List.replicate (a.count - a.toks.length) 0
  let r := detokRun v stops render eosEnds a.end_ held toks
  let bad := toks.findIdx? (fun i => decide (v.tokens.length ≤ i))
  if bad.isSome then .fail s (St.invalidToken, bad.getD 0)
  else if a.outLen < r.released.length then .fail s (St.bufferTooSmall, r.released.length)
  else
    let s := hostWrite (1 + p) a.outAddr r.released s
    let halted := r.stop.isSome || r.ended
    let s := setStream p a.stream
      (if a.end_ then none else some (.detok a.vocab r.out stops render eosEnds halted)) s
    { st := s, dA := r.released.length
      dB := r.consumed % 65536 + r.out.length % 256 * 65536 + ((r.stop.map (fun n => n + 1)).getD 0) * 2 ^ 24 +
        (if r.stop.isSome then 2 ^ 32 else 0) + (if r.ended then 2 ^ 33 else 0) }

def detokBody (p : Nat) (a : DetokArgs) (s : State) : QRes :=
  let s := if a.open_ then s else touchStream p a.stream s
  qchecked s (detokChecks s p a)
    (match findVocab (part s p) a.vocab, (if a.open_ then none else findStream (part s p) a.stream) with
     | some v, none => detokFinish p a v [] (a.stops.take a.stopCount) a.renderSpecial a.eosEnds s
     | some v, some { kind := .detok _ held stops render eosEnds halted, .. } =>
       if halted then
         if a.end_ then { st := setStream p a.stream none s } else .fail s (St.streamHalted, 0)
       else detokFinish p a v held stops render eosEnds s
     | _, _ => .fail s (St.wrongState, 0))

/-- TXT_DETOK_STREAM. -/
def execTxtDetokStream (q : SqReq) (a : DetokArgs) (s : State) : Result :=
  .next (queue q Op.txtDetok (detokBody q.part a) s)

/-! ## Text images (R291–R293) -/

/-- `n` little-endian bytes of an image at `o`. -/
def imgNum (img : List Byte) (o n : Nat) : Nat := unle ((img.drop o).take n)

/-- Entry `i` of the token table: where its string lies. -/
def tokSpan (img : List Byte) (i : Nat) : Nat × Nat :=
  let o := imgNum img 64 8 + 8 * i
  (imgNum img o 6, imgNum img (o + 6) 2)

def imgMerge (img : List Byte) (i : Nat) : Merge :=
  let o := imgNum img 72 8 + 12 * i
  { left := imgNum img o 4, right := imgNum img (o + 4) 4, result := imgNum img (o + 8) 4 }

/-- The vocabulary of an image (R291, R294). -/
def parseVocab (h base len : Nat) (img : List Byte) : Vocab :=
  let n := imgNum img 8 4
  let fl := imgNum img 7 1
  { handle := h, base := base, loading := true, bpe := decide (imgNum img 4 1 = 0), presplit := imgNum img 5 1
    nfc := decide (imgNum img 6 1 = 1), spaceMark := fl.testBit 0, addPrefix := fl.testBit 1
    byteLevel := fl.testBit 2 && decide (imgNum img 4 1 = 0)
    tokens := (List.range n).map (fun i => (img.drop (tokSpan img i).1).take (tokSpan img i).2)
    byteBase := imgNum img 12 4, merges := (List.range (imgNum img 16 4)).map (imgMerge img)
    specials := (List.range (imgNum img 20 4)).map (fun i => imgNum img (imgNum img 88 8 + 4 * i) 4)
    bos := imgNum img 24 4, eos := imgNum img 28 4, byteScore := BitVec.ofNat 32 (imgNum img 32 4)
    scores := if imgNum img 4 1 = 1 then (List.range n).map (fun i => BitVec.ofNat 32 (imgNum img (imgNum img 80 8 + 4 * i) 4))
      else []
    trie := false, bytes := len }

/-- A section of `n` bytes at the offset that header field `o` gives lies, aligned, inside the image. -/
def sectionOk (img : List Byte) (len o n : Nat) : Bool :=
  decide (imgNum img o 8 % 64 = 0) && decide (imgNum img o 8 + n ≤ len)

def vocabCounts (img : List Byte) (len : Nat) : Bool :=
  let n := imgNum img 8 4
  let uni := decide (imgNum img 4 1 = 1)
  decide (128 ≤ len) && decide (imgNum img 4 1 ≤ 1) && decide (imgNum img 5 1 ≤ 2) && decide (imgNum img 6 1 ≤ 1) &&
    within 256 262144 n && (if uni then decide (imgNum img 16 4 = 0) else decide (imgNum img 16 4 ≤ n - 256)) &&
    decide (imgNum img 20 4 ≤ 1024) && sectionOk img len 64 (8 * n) && sectionOk img len 72 (12 * imgNum img 16 4) &&
    (if uni then sectionOk img len 80 (4 * n) else decide (imgNum img 80 8 = 0)) && sectionOk img len 88 (4 * imgNum img 20 4) &&
    (List.range n).all (fun i => within 1 256 (tokSpan img i).2 && decide ((tokSpan img i).1 + (tokSpan img i).2 ≤ len))

/-- The byte tokens stand in range and spell their own byte. -/
def vocabBytesOk (v : Vocab) : Bool :=
  decide (v.byteBase + 256 ≤ v.tokens.length) &&
    (List.range 256).all (fun b => decide (v.str (v.byteBase + b) = [BitVec.ofNat 8 b]))

def vocabStringsOk (v : Vocab) : Bool :=
  let n := v.tokens.length
  let plain := (List.range n).filter (fun t => !v.isByte t && !v.special t)
  plain.all (fun t => plain.all (fun u => decide (t = u) || decide (v.str t ≠ v.str u))) &&
    v.merges.all (fun m => decide (m.left < n) && decide (m.right < n) && decide (m.result < n) &&
      decide (v.str m.result = v.str m.left ++ v.str m.right)) &&
    v.specials.all (fun t => decide (t < n)) && (decide (v.bos = noId) || decide (v.bos < n)) &&
    (decide (v.eos = noId) || decide (v.eos < n))

/-- The first check of an image that fails, as its reason; 0 when all pass. -/
def firstReason : List (Bool × Nat) → Nat
  | [] => 0
  | (bad, n) :: rest => if bad then n else firstReason rest

/-- Reason 1 of *Text image check reasons*: SHA-256 of bytes 128 to the end. -/
def digestBad (img : List Byte) : Bool := decide ((img.drop 96).take 32 ≠ sha256 (img.drop 128))

def vocabReason (img : List Byte) : Nat :=
  let v := parseVocab 0 0 img.length img
  firstReason
    [(digestBad img, 1), (decide (imgNum img 0 4 ≠ 1), 2), (!vocabCounts img img.length, 3), (!vocabBytesOk v, 4),
     (!vocabStringsOk v, 5)]

/-! ## VOCAB_LOAD -/

def textBytes (s : State) : Nat :=
  (s.parts.map (fun t => (t.vocabs.map Vocab.bytes).sum +
    (t.grammars.map Grammar.bytes).sum)).sum

/-- Alignment of a load, then R293 and R333. -/
def textLoadChecks (s : State) (p : Nat) (inUse : Bool) (mine all : Nat) (mineMax allMax : Nat) (a : TextLoadArgs) :
    List (Bool × Nat × Nat) :=
  [(decide (a.imageAddr % 4096 ≠ 0), St.invalidAddress, 40), (inUse, St.handleExists, 0),
   (decide (mineMax ≤ mine) || decide (allMax ≤ all) || decide (4000000000 < textBytes s + a.imageLen), St.textLimit, 0),
   (!hbmRoom s p a.imageLen || (allocObj s p a.imageLen false).isNone, St.noMemory, 0)]

/-- An open stream context names the vocabulary. -/
def streamsVocab (t : Part) (v : Nat) : Bool :=
  t.streams.any (fun x => match x.kind with | .tok w _ _ _ => decide (w = v) | .detok w _ _ _ _ _ => decide (w = v) | _ => false)

def vocabUnloadBody (r : MbxReq) (v imageAddr : Nat) (s : State) : MRes :=
  let t := part s r.partition
  checked s
    [(!within 1 65535 v, St.invalidField, 32), (decide (imageAddr % 4096 ≠ 0), St.invalidAddress, 40),
     (decide (imageAddr ≠ 0), St.invalidField, 40), ((findVocab t v).isNone, St.noSuchHandle, 32),
     (((findVocab t v).map Vocab.loading).getD false || t.grammars.any (fun g => g.vocab = v) || streamsVocab t v,
       St.wrongState, 0)]
    (accept r Op.vocabLoad St.ok 0 .nothing
      (onPart r.partition (fun t => { t with vocabs := t.vocabs.filter (fun x => x.handle ≠ v) }) s))

def vocabLoadImage (r : MbxReq) (a : TextLoadArgs) (s : State) : MRes :=
  let p := r.partition
  let t := part s p
  checked s ((!within 1 65535 a.handle, St.invalidField, 32) :: (decide (268435456 < a.imageLen), St.invalidField, 48) ::
      textLoadChecks s p (findVocab t a.handle).isSome t.vocabs.length (s.parts.map (fun t => t.vocabs.length)).sum 16 64 a)
    (let img := fitBytes a.imageLen a.image
     let n := vocabReason img
     let v := parseVocab a.handle ((allocObj s p a.imageLen false).getD 0) a.imageLen img
     let s := settlePart p (onPart p (fun t => { t with vocabs := t.vocabs ++ [v] }) s)
     if n = 0 then accept r Op.vocabLoad St.ok 0 (.vocabReady a.handle) s
     else accept r Op.vocabLoad St.textImageInvalid n (.vocabDrop a.handle) s)

/-- IMAGE_LEN says whether VOCAB_LOAD loads or unloads (R291). -/
def vocabLoadBody (r : MbxReq) (a : TextLoadArgs) (s : State) : MRes :=
  if a.imageLen = 0 then vocabUnloadBody r a.handle a.imageAddr s else vocabLoadImage r a s

/-- VOCAB_LOAD with an image. -/
def execVocabLoad (r : MbxReq) (a : TextLoadArgs) (s : State) : Result :=
  .next (mailbox r Op.vocabLoad [32] (vocabLoadBody r a) s)

/-- VOCAB_LOAD with IMAGE_LEN 0: the handle is unloaded (R291, R293). -/
def execVocabUnload (r : MbxReq) (a : UnloadArgs) (s : State) : Result :=
  .next (mailbox r Op.vocabLoad [32] (vocabUnloadBody r a.handle a.imageAddr) s)

/-! ## Tries and stream time-outs -/

/-- TRIE_REBUILD: a build begins, after a load or an uncorrectable read, or it ends (R314). -/
def execTrieRebuild (p v : Nat) (done : Bool) (s : State) : Result :=
  .next
    (if firmwareRuns s ∧ (¬ done ∨ s.power.level = 2) then
      onPart p (fun t => { t with vocabs := mapWhere (fun x => x.handle = v) (fun x => { x with trie := done }) t.vocabs }) s
    else s)

/-- STREAM_CONTEXT_TIMEOUT: 600 s in which no command named the stream (R307). -/
def execStreamContextTimeout (p n : Nat) (s : State) : Result :=
  .next
    (match findStream (part s p) n with
     | some x => if x.lastUse + 600000000 ≤ s.time then setStream p n none s else s
     | none => s)

end Sys2Proof.Machine
end

