-- ==== Sys2Proof/Machine/Gram.lean ====
section
/-! DEFINITION. Sys2Proof/Machine/Gram.lean: grammars: the push-down automaton, masks, precomputed masks and the dead-end
rule; GRM_LOAD, its unload and GRM_STEP (R308–R318). -/
namespace Sys2Proof.Machine

/-! ## The automaton (R309) -/

/-- TOP of a transition or a precomputed entry holds for a stack. -/
def topHolds (top : Nat) (stack : List Nat) : Bool :=
  if top = 255 then true else if top = 0 then stack.isEmpty else decide (stack.head? = some top)

def gramState (g : Grammar) (n : Nat) : Bool × List Trans := g.states.getD n (false, [])

/-- One byte; none where it is rejected. -/
def gramByte (g : Grammar) (c : Conf) (b : Byte) : Option Conf :=
  match (gramState g c.state).2.find? (fun t => inRange t.lo t.hi b && topHolds t.top c.stack) with
  | none => none
  | some t =>
    if t.action = 0 then some { state := t.next, stack := c.stack }
    else if t.action = 1 then (if 256 ≤ c.stack.length then none else some { state := t.next, stack := t.push :: c.stack })
    else
      match c.stack with
      | [] => none
      | _ :: rest => some { state := t.next, stack := if t.action = 3 then t.push :: rest else rest }

def gramBytes (g : Grammar) : Conf → List Byte → Option Conf
  | c, [] => some c
  | c, b :: bs => match gramByte g c b with | some d => gramBytes g d bs | none => none

def gramAccepts (g : Grammar) (c : Conf) : Bool := (gramState g c.state).1 && c.stack.isEmpty

/-! ## Masks (R310, R311, R313) -/

/-- Token `t` is allowed in `c`. -/
def gramAllows (g : Grammar) (v : Vocab) (c : Conf) (t : Nat) : Bool :=
  if t = v.eos then gramAccepts g c else !v.special t && (gramBytes g c (v.text t)).isSome

/-- Bytes of a mask from its bits. -/
def maskOf (n : Nat) (bits : List Bool) : List Byte :=
  (List.range n).map (fun k =>
    BitVec.ofNat 8 (((bits.drop (8 * k)).take 8).zipIdx.foldl (fun a b => a + if b.1 then 2 ^ b.2 else 0) 0))

/-- The mask that the walk computes. -/
def walkMask (g : Grammar) (v : Vocab) (c : Conf) : List Byte :=
  maskOf g.maskBytes ((List.range v.tokens.length).map (gramAllows g v c))

def maskBit (m : List Byte) (t : Nat) : Bool := (m.getD (t / 8) 0).toNat.testBit (t % 8)
def maskCount (v : Vocab) (m : List Byte) : Nat := ((List.range v.tokens.length).filter (maskBit m)).length

/-- The precomputed entry that applies to `c`, with its index: TOP 0–254 before TOP 255. -/
def preEntry (g : Grammar) (c : Conf) : Option (Nat × List Byte) :=
  let ok (wild : Bool) (e : (Nat × Nat × List Byte) × Nat) : Bool :=
    decide (e.1.1 = c.state) && topHolds e.1.2.1 c.stack && decide ((e.1.2.1 = 255) = wild)
  let pick (wild : Bool) := (g.pre.zipIdx.find? (ok wild)).map (fun e => (e.2, e.1.2.2))
  match pick false with | some e => some e | none => pick true

/-- Masks come from precomputed entries only (R314). -/
def preOnly (s : State) (v : Vocab) : Bool := decide (s.power.level ≠ 2) || !v.trie

/-- The mask served in `c`: the mask, whether it was precomputed, and the entry whose mask differs from the walk (R315);
none where no entry applies and `only` precomputed masks may be served. -/
def serveMask (only : Bool) (g : Grammar) (v : Vocab) (verify : Bool) (c : Conf) : Option (List Byte × Bool × Option Nat) :=
  match preEntry g c with
  | some (i, m) =>
    if verify ∧ m ≠ walkMask g v c then some (walkMask g v c, false, some i) else some (m, true, none)
  | none => if only then none else some (walkMask g v c, false, none)

/-! ## GRM_LOAD -/

def imgTrans (img : List Byte) (i : Nat) : Trans :=
  let o := imgNum img 32 8 + 8 * i
  { lo := imgNum img o 1, hi := imgNum img (o + 1) 1, top := imgNum img (o + 2) 1, action := imgNum img (o + 3) 1
    push := imgNum img (o + 4) 1, next := imgNum img (o + 6) 2 }

/-- FIRST, COUNT and ACCEPTING of state `i`. -/
def imgState (img : List Byte) (i : Nat) : Nat × Nat × Bool :=
  let o := imgNum img 24 8 + 8 * i
  (imgNum img o 4, imgNum img (o + 4) 2, (imgNum img (o + 6) 2).testBit 0)

/-- The grammar of an image (R308). -/
def parseGrammar (h vocab base len : Nat) (img : List Byte) : Grammar :=
  let pn := imgNum img 16 2
  let mb := imgNum img 20 4
  let masks := imgNum img 40 8 + ceilDiv (8 * pn) 64 * 64
  { handle := h, base := base, loading := true, vocab := vocab, start := imgNum img 8 2
    states := (List.range (imgNum img 4 4)).map (fun i =>
      let x := imgState img i
      (x.2.2, (List.range x.2.1).map (fun k => imgTrans img (x.1 + k))))
    pre := (List.range pn).map (fun i =>
      let o := imgNum img 40 8 + 8 * i
      (imgNum img o 2, imgNum img (o + 2) 1, (img.drop (masks + mb * i)).take mb))
    maskBytes := mb, bytes := len }

def gramCounts (img : List Byte) (len : Nat) : Bool :=
  let n := imgNum img 4 4
  let pn := imgNum img 16 2
  decide (128 ≤ len) && within 1 65536 n && decide (imgNum img 8 2 < n) && decide (imgNum img 12 4 ≤ 4194304) &&
    decide (pn ≤ 4096) && decide (imgNum img 24 8 + 8 * n ≤ len) &&
    decide (imgNum img 32 8 + 8 * imgNum img 12 4 ≤ len) &&
    decide (imgNum img 40 8 + ceilDiv (8 * pn) 64 * 64 + imgNum img 20 4 * pn ≤ len) &&
    (List.range n).all (fun i => decide ((imgState img i).1 + (imgState img i).2.1 ≤ imgNum img 12 4))

def transOk (n : Nat) (t : Trans) : Bool :=
  decide (t.lo ≤ t.hi) && decide (t.next < n) && decide (t.action ≤ 3) &&
    (if t.action = 1 ∨ t.action = 3 then within 1 254 t.push else decide (t.push = 0))

/-- Two transitions of one state can match the same byte and stack top. -/
def transMeet (a b : Trans) : Bool :=
  decide (a.lo ≤ b.hi) && decide (b.lo ≤ a.hi) && (decide (a.top = b.top) || decide (a.top = 255) || decide (b.top = 255))

def pairwiseOk {α : Type} (bad : α → α → Bool) : List α → Bool
  | [] => true
  | a :: l => l.all (fun b => !bad a b) && pairwiseOk bad l

def vocabMaskBytes (v : Vocab) : Nat := ceilDiv (ceilDiv v.tokens.length 8) 64 * 64

def gramReason (v : Vocab) (img : List Byte) : Nat :=
  let g := parseGrammar 0 0 0 img.length img
  firstReason
    [(digestBad img, 1), (decide (imgNum img 0 4 ≠ 1), 2), (!gramCounts img img.length, 3),
     (!((List.range (imgNum img 12 4)).all (fun i => transOk g.states.length (imgTrans img i))), 6),
     (!(g.states.all (fun x => pairwiseOk transMeet x.2)), 7),
     (!(g.pre.all (fun e => decide (e.1 < g.states.length))) ||
        !(pairwiseOk (fun a b => decide (a.1 = b.1 ∧ a.2.1 = b.2.1)) g.pre) || decide (g.maskBytes ≠ vocabMaskBytes v), 8),
     (decide (v.eos = noId), 9)]

/-- An open stream context, of a stream or of a GENERATE item, names the grammar (R293, R318). -/
def namesGrammar (s : State) (p g : Nat) : Bool :=
  (part s p).streams.any (fun x => match x.kind with | .gram h _ _ => decide (h = g) | _ => false) ||
    s.runs.any (fun r => decide (r.part = p) && r.conf.isSome && decide ((r.grammar.map (fun x => x.1.handle)) = some g))

def grmUnloadBody (r : MbxReq) (g imageAddr : Nat) (s : State) : MRes :=
  let t := part s r.partition
  checked s
    [(!within 1 65535 g, St.invalidField, 32), (decide (imageAddr % 4096 ≠ 0), St.invalidAddress, 40),
     ((findGrammar t g).isNone, St.noSuchHandle, 32),
     (((findGrammar t g).map Grammar.loading).getD false || namesGrammar s r.partition g, St.wrongState, 0)]
    (accept r Op.grmLoad St.ok 0 .nothing
      (onPart r.partition (fun t => { t with grammars := t.grammars.filter (fun x => x.handle ≠ g) }) s))

def grmLoadImage (r : MbxReq) (a : TextLoadArgs) (s : State) : MRes :=
  let p := r.partition
  let t := part s p
  checked s ((!within 1 65535 a.handle, St.invalidField, 32) :: vocabChecks t a.vocab 34 ++
      textLoadChecks s p (findGrammar t a.handle).isSome t.grammars.length (s.parts.map (fun t => t.grammars.length)).sum
        256 1024 a)
    (match findVocab t a.vocab with
     | none => .fail s (St.noSuchHandle, 34)
     | some v =>
       let img := fitBytes a.imageLen a.image
       let n := gramReason v img
       let g := parseGrammar a.handle a.vocab ((allocObj s p a.imageLen false).getD 0) a.imageLen img
       let s := settlePart p (onPart p (fun t => { t with grammars := t.grammars ++ [g] }) s)
       if n = 0 then accept r Op.grmLoad St.ok 0 (.grammarReady a.handle) s
       else accept r Op.grmLoad St.textImageInvalid n (.grammarDrop a.handle) s)

/-- IMAGE_LEN says whether GRM_LOAD loads or unloads (R308). -/
def grmLoadBody (r : MbxReq) (a : TextLoadArgs) (s : State) : MRes :=
  if a.imageLen = 0 then grmUnloadBody r a.handle a.imageAddr s else grmLoadImage r a s

/-- GRM_LOAD with an image. -/
def execGrmLoad (r : MbxReq) (a : TextLoadArgs) (s : State) : Result :=
  .next (mailbox r Op.grmLoad [32] (grmLoadBody r a) s)

/-- GRM_LOAD with IMAGE_LEN 0. -/
def execGrmUnload (r : MbxReq) (a : UnloadArgs) (s : State) : Result :=
  .next (mailbox r Op.grmLoad [32] (grmUnloadBody r a.handle a.imageAddr) s)

/-! ## GRM_STEP (R316, R317) -/

def grmStepChecks (s : State) (p : Nat) (a : GrmStepArgs) : List (Bool × Nat × Nat) :=
  let t := part s p
  let g := findGrammar t a.grammar
  let closeAlone := a.close && !a.open_ && !a.hasToken && !a.verify
  [(g.isNone, St.noSuchHandle, 16), ((g.map Grammar.loading).getD false, St.wrongState, 0),
   (!a.noMask && !closeAlone && decide (a.maskAddr % 64 ≠ 0), St.invalidAddress, 32),
   (!a.noMask && !closeAlone && decide (a.maskLen < (g.map Grammar.maskBytes).getD 0), St.invalidField, 40)] ++
  streamChecks s p a.stream a.open_ (fun k => match k with | .gram h _ _ => decide (h = a.grammar) | _ => false)

/-- DETAIL_B of a step. -/
def grmDetail (g : Grammar) (c : Conf) (pre : Bool) : Nat :=
  c.state % 65536 + c.stack.length % 512 * 65536 + (if gramAccepts g c then 2 ^ 32 else 0) + (if pre then 2 ^ 33 else 0)

/-- Set the stream, or close it. -/
def grmPut (p : Nat) (a : GrmStepArgs) (c : Conf) (halted : Bool) (s : State) : State :=
  setStream p a.stream (if a.close then none else some (.gram a.grammar c halted)) s

/-- The step from configuration `c`. NO_MASK leaves the mask unwritten and nothing else: the mask is served, counted and
compared, and a dead end halts the stream (R311, R314, R317; log entry 37). -/
def grmAdvance (p : Nat) (a : GrmStepArgs) (g : Grammar) (v : Vocab) (c : Conf) (s : State) : QRes :=
  let cond := if reducedService s then condReduced else 0
  let write (m : List Byte) (s : State) : State := if a.noMask then s else hostWrite (1 + p) a.maskAddr (fitBytes g.maskBytes m) s
  if a.verify ∧ preOnly s v then .fail s (St.notReady, 0)
  else if a.hasToken ∧ v.tokens.length ≤ a.token then .fail s (St.invalidToken, 0)
  else if a.hasToken ∧ ¬ gramAllows g v c a.token then .fail s (St.tokenNotAllowed, 0)
  else if a.hasToken ∧ a.token = v.eos then
    { st := grmPut p a c true (write [] s), status := statusOfConditions cond, cond := cond, dB := grmDetail g c false }
  else
    let d := if a.hasToken then (gramBytes g c (v.text a.token)).getD c else c
    match serveMask (preOnly s v) g v a.verify d with
    | none => .fail s (St.notReady, 0)
    | some (m, pre, wrong) =>
      let dead := !gramAccepts g d && (List.range v.tokens.length).all (fun t => decide (t = v.eos) || !maskBit m t)
      let m := if dead then [] else m
      let st := if wrong.isSome then St.maskMismatch else if dead then St.grammarDeadEnd else statusOfConditions cond
      let dB := grmDetail g d pre
      { st := grmPut p a d dead (write m s), status := st, cond := if wrong.isSome || dead then 0 else cond, dA := maskCount v m
        dB := match wrong with | some i => dB - d.state % 65536 + i | none => dB }

def grmStepBody (p : Nat) (a : GrmStepArgs) (s : State) : QRes :=
  let s := if a.open_ then s else touchStream p a.stream s
  qchecked s (grmStepChecks s p a)
    (match findGrammar (part s p) a.grammar with
     | none => .fail s (St.noSuchHandle, 16)
     | some g =>
       match findVocab (part s p) g.vocab with
       | none => .fail s (St.noSuchHandle, 16)
       | some v =>
         let closeAlone := a.close && !a.hasToken && !a.verify
         match (if a.open_ then none else findStream (part s p) a.stream) with
         | some { kind := .gram _ c halted, .. } =>
           if closeAlone then { st := setStream p a.stream none s, dB := grmDetail g c false }
           else if halted then .fail s (St.streamHalted, 0)
           else grmAdvance p a g v c s
         | _ => grmAdvance p a g v { state := g.start, stack := [] } s)

/-- GRM_STEP. -/
def execGrmStep (q : SqReq) (a : GrmStepArgs) (s : State) : Result :=
  .next (queue q Op.grmStep (grmStepBody q.part a) s)

end Sys2Proof.Machine
end

