-- ==== Sys2Proof/Machine/Layer.lean ====
section
/-! DEFINITION. Sys2Proof/Machine/Layer.lean: Canopy's arithmetic: formats and their conversions, scale sets and rescale tables,
integer and floating layers, and the vector unit (R252, R254, R255, R266–R273). -/
namespace Sys2Proof.Machine

/-! ## Codes as bytes -/

/-- A signed code of one byte or of one nibble. -/
def signedCode (four : Bool) (n : Nat) : Int :=
  if four then (if n % 16 < 8 then (n % 16 : Nat) else (n % 16 : Nat) - 16) else (if n % 256 < 128 then (n % 256 : Nat) else (n % 256 : Nat) - 256)

/-- Bytes of `n` codes: one a byte, or two int4 codes a byte, the low nibble first. -/
def codeLen (four : Bool) (n : Nat) : Nat := if four then (n + 1) / 2 else n

/-- `n` codes from bytes. -/
def codesOf (four : Bool) (n : Nat) (bs : List Byte) : List Int :=
  (List.range n).map (fun i =>
    let b := (bs.getD (if four then i / 2 else i) 0).toNat
    signedCode four (if four && decide (i % 2 = 1) then b / 16 else b))

/-- The bytes of codes. -/
def bytesOfCodes (four : Bool) (cs : List Int) : List Byte :=
  if four then (chunks 2 cs).map (fun p => BitVec.ofInt 8 (p.headD 0 % 16 + 16 * (p.getD 1 0 % 16)))
  else cs.map (BitVec.ofInt 8)

/-- fp32 values from bytes, and back. -/
def floatsOf (n : Nat) (bs : List Byte) : List F32 := (List.range n).map (fun i => BitVec.ofNat 32 (unle ((bs.drop (4 * i)).take 4)))
def bytesOfFloats (v : List F32) : List Byte := v.flatMap (fun x => le 4 x.toNat)

/-! ## FP8 and BF16 (R255, R269) -/

def fmtE4M3 : Fmt := ⟨3, 4⟩
def fmtE5M2 : Fmt := ⟨2, 5⟩

/-- Bytes of one value of a floating format. -/
def FloatFmt.bytes : FloatFmt → Nat
  | .bf16 => 2
  | _ => 1

/-- The value of a pattern: E4M3 has no infinity, and its one NaN is the pattern of all ones. -/
def FloatFmt.value (f : FloatFmt) (n : Nat) : F32 :=
  match f with
  | .bf16 => bfTo32 (BitVec.ofNat 16 n)
  | .e5m2 => F.enc (fmtE5M2.decode n)
  | .e4m3 =>
    if n % 128 = 127 then BitVec.ofNat 32 fmt32.nan
    else
      let neg := decide (n / 128 % 2 = 1)
      let e := n / 8 % 16
      F.enc (if e = 0 then .fin neg (n % 8) (-9) else .fin neg (8 + n % 8) ((e : Int) - 10))

/-- Conversion, to nearest even: beyond the largest finite value, that value; a NaN stays one (R255). -/
def FloatFmt.ofF32 (f : FloatFmt) (x : F32) : Nat :=
  match f with
  | .bf16 => (bfOf32 x).toNat
  | .e5m2 =>
    match F.dec x with
    | .nan => 0x7F
    | .inf neg => fmtE5M2.sign neg + 0x7B
    | .fin neg m e => fmtE5M2.sign neg + min (fmtE5M2.patternOf .even m e false) 0x7B
  | .e4m3 =>
    match F.dec x with
    | .nan => 0x7F
    | .inf neg => fmtE4M3.sign neg + 0x7E
    | .fin neg m e => fmtE4M3.sign neg + min (fmtE4M3.patternOf .even m e false) 0x7E

def floatVals (f : FloatFmt) (n : Nat) (bs : List Byte) : List F32 :=
  (List.range n).map (fun i => f.value (unle ((bs.drop (f.bytes * i)).take f.bytes)))

/-! ## Scale sets (R267, R271–R273) -/

/-- The code range of an activation tensor. -/
def codeRange (int4 : Bool) : Int × Int := if int4 then (-8, 7) else (-128, 127)

/-- s and z of a range. -/
def deriveScale (int4 : Bool) (lo hi : F32) : F32 × Int :=
  let r := codeRange int4
  let l := F.min lo 0
  let h := F.max hi 0
  let s := F.max (F.div (F.sub h l) (F.ofInt (r.2 - r.1))) F.two24
  let x := F.div l s
  (s, Max.max r.1 (Min.min (r.1 - F.clampOpt (F.roundInt x) x (-65536) 65536) r.2))

def Tensor.ranged (t : Tensor) (lo hi : F32) : Tensor :=
  let x := deriveScale t.int4 lo hi
  { t with lo := lo, hi := hi, s := x.1, z := x.2 }

/-- 2^−k. -/
def powNeg (k : Nat) : F32 := BitVec.ofNat 32 ((127 - k) * 2 ^ 23)

/-- Fold one observation into an ADAPTIVE tensor; a FROZEN one keeps its s and z. -/
def Tensor.fold (k : Nat) (t : Tensor) (o : F32 × F32) : Tensor :=
  if t.adaptive then
    t.ranged (F.add t.lo (F.mul (F.sub o.1 t.lo) (powNeg k))) (F.add t.hi (F.mul (F.sub o.2 t.hi) (powNeg k)))
  else t

/-- s_w[c] = u[c] × g of its group of 32 channels (R267). -/
def IntLayer.scale (l : IntLayer) (c : Nat) : F32 := F.mul (F.ofNat (l.u.getD c 0)) (hTo32 (l.g.getD (c / 32) 0))

/-- Weight codes of a layer, a row for each output channel. -/
def IntLayer.codes (l : IntLayer) (weights : List Byte) : List (List Int) :=
  (List.range l.channels).map (fun c =>
    codesOf l.int4 l.inputs ((weights.drop (l.codesAt + c * codeLen l.int4 l.inputs)).take (codeLen l.int4 l.inputs)))

/-- Weights of a layer as real numbers: s_w[c] × qw[c][j] (R266). -/
def IntLayer.weights (l : IntLayer) (weights : List Byte) : List (List F32) :=
  (l.codes weights).zipIdx.map (fun r => r.1.map (fun q => F.mul (l.scale r.2) (F.ofInt q)))

/-- colsum[c] of each integer layer (R267). -/
def colsums (b : ImageBody) : List (List Int) := b.layers.map (fun l => (l.codes b.weights).map List.sum)

/-- Codes and scale codes lie inside R266 and R267. -/
def IntLayer.valid (l : IntLayer) (weights : List Byte) : Bool :=
  let top : Int := if l.int4 then 7 else 127
  decide (l.zero = 0) && decide (l.u.length = l.channels) && l.u.all (fun u => decide (1 ≤ u) && decide (u ≤ 255)) &&
    decide (l.g.length = (l.channels + 31) / 32) && (l.codes weights).all (fun r => r.all (fun q => decide (-top ≤ q) && decide (q ≤ top)))

/-- A value rounded to nearest even, from its magnitude `m · 2^e`. -/
def roundMag (m : Nat) (e : Int) : Nat := if e ≥ 0 then m * 2 ^ e.toNat else roundShift .even m (-e).toNat false

/-- A rescale table entry (M, SH) from the three scales in force (R271). -/
def rescaleEntry (sa sw sout : F32) : Nat × Nat :=
  let prod := fmt64.encode (mulVal (F.dec sa) (F.dec sw))
  let m := fmt64.div (fmt64.decode prod) (F.dec sout)
  match fmt64.decode m with
  | .fin false mant ex =>
    if mant = 0 then Config.rescaleOpen (BitVec.ofNat 64 m)
    else
      let e : Int := -(ex + (Nat.log2 mant : Int) + 1)
      let M := roundMag mant (ex + 31 + e)
      let (M, e) := if M = 2 ^ 31 then (2 ^ 30, e - 1) else (M, e)
      let SH := 31 + e
      if SH > 63 then (0, 63) else if SH < 1 then (2 ^ 31 - 1, 1) else (M, SH.toNat)
  | _ => Config.rescaleOpen (BitVec.ofNat 64 m)

def tensorAt (ts : List Tensor) (t : Nat) : Tensor :=
  ts.getD t { adaptive := false, int4 := false, lo := 0, hi := 0, s := F.two24, z := 0 }

/-- The rescale table of a layer: an entry for each channel; none where the consumer is fp32. -/
def layerTable (ts : List Tensor) (l : IntLayer) : List (Nat × Nat) :=
  match l.outTensor with
  | none => []
  | some o => (List.range l.channels).map (fun c => rescaleEntry (tensorAt ts l.inTensor).s (l.scale c) (tensorAt ts o).s)

/-- The whole scale set over some tensors: every table entry from the scales now in force (R271, R273). -/
def scaleSet (image : List Byte) (ts : List Tensor) : ScaleSet :=
  { tensors := ts, tables := (Config.imageBody image false).layers.map (layerTable ts)
    redTables := (Config.imageBody image true).layers.map (layerTable ts) }

/-! ## Activations (R268, R269) -/

/-- x' of R268. -/
def transformed (t : Tensor) (x : List F32) : List F32 :=
  match t.transform with
  | .none => x
  | .rotate seed => rotate seed x
  | .smooth lam => x.zipIdx.map (fun v => F.div v.1 (hTo32 (lam.getD v.2 0)))

/-- One code of a tensor, and whether it clamped. -/
def actCode (t : Tensor) (x : F32) : Int × Bool :=
  let r := codeRange t.int4
  let v := F.div x t.s
  match F.roundInt v with
  | some n => (Max.max r.1 (Min.min (n + t.z) r.2), decide (n + t.z < r.1) || decide (r.2 < n + t.z))
  | none => (F.clampOpt none v r.1 r.2, true)

/-- Quantise a vector: codes, clamps, and the range observed at the quantiser's input (R272). -/
def quantise (t : Tensor) (x : List F32) : List Int × Nat × F32 × F32 :=
  let y := transformed t x
  let cs := y.map (actCode t)
  (cs.map (fun c => c.1), (cs.filter (fun c => c.2)).length, minOf y, maxOf y)

/-! ## Layers (R254, R270) -/

/-- A value in an int32 register: one that the spec's bounds keep in range, else a value that it leaves open. -/
def int32 (x : Int) : Int := if -(2 : Int) ^ 31 ≤ x ∧ x < 2 ^ 31 then x else (Config.int32Past x).toInt

/-- b[c]. -/
def biasCode (sa sw : F32) (b : F32) : Int :=
  let v := F.div b (F.mul sa sw)
  match F.roundInt v with
  | some n => int32 n
  | none => (Config.int32Past 0).toInt

/-- acc[c]: at most 65,536 products (R254), the zero-point correction and the bias. -/
def accOf (za : Int) (qa qw : List Int) (colsum b : Int) : Int := int32 (intDot (qa.take 65536) (qw.take 65536) - za * colsum + b)

/-- qo[c], and whether it clamped. -/
def rescaled (t : Tensor) (m : Nat × Nat) (acc : Int) : Int × Bool :=
  let r := codeRange t.int4
  let y := (acc * (m.1 : Int) + 2 ^ (m.2 - 1)) / 2 ^ m.2 + t.z
  (Max.max r.1 (Min.min y r.2), decide (y < r.1) || decide (r.2 < y))

/-- The accumulators of a layer. -/
def layerAccs (ts : List Tensor) (l : IntLayer) (sums : List Int) (qa : List Int) (qw : List (List Int)) : List Int :=
  let a := tensorAt ts l.inTensor
  (List.range l.channels).map (fun c =>
    accOf a.z qa (qw.getD c []) (sums.getD c 0) (if l.bias.isEmpty then 0 else biasCode a.s (l.scale c) (l.bias.getD c 0)))

/-- The next layer's codes with their clamps (R270). -/
def layerCodes (o : Tensor) (table : List (Nat × Nat)) (accs : List Int) : List Int × Nat :=
  let q := accs.zipIdx.map (fun x => rescaled o (table.getD x.2 (0, 63)) x.1)
  (q.map (fun x => x.1), (q.filter (fun x => x.2)).length)

/-- acc × s_a × s_w, for an fp32 consumer (R270). -/
def layerFloats (ts : List Tensor) (l : IntLayer) (accs : List Int) : List F32 :=
  accs.zipIdx.map (fun x => F.mul (F.mul (F.ofInt x.1) (tensorAt ts l.inTensor).s) (l.scale x.2))

/-- Rescaled partials added in fp32 in ascending split order (R254). -/
def sumPartials (n : Nat) (parts : List (List F32)) : List F32 :=
  parts.foldl (fun acc p => List.zipWith F.add acc p) (List.replicate n F.zero)

/-- A floating layer: each channel's products accumulate in fp32 in the order of its inputs. -/
def floatLayer (n : Nat) (x : List F32) (w : List F32) : List F32 :=
  (chunks n w).map (fun r => (List.zipWith F.mul r x).foldl F.add F.zero)

/-! ## The vector unit (R252) -/

/-- One element-wise operation; those of one operand take their first. -/
def Elem.eval : Elem → F32 → F32 → F32
  | .add, x, y => F.add x y
  | .sub, x, y => F.sub x y
  | .mul, x, y => F.mul x y
  | .div, x, y => F.div x y
  | .max, x, y => F.max x y
  | .min, x, y => F.min x y
  | .exp, x, _ => devExp x
  | .special k, x, y => Config.special k x y

/-- The fold of some values, in ascending order. -/
def Elem.foldVals (op : Elem) : List F32 → F32
  | [] => F.zero
  | x :: xs => xs.foldl op.eval x

end Sys2Proof.Machine
end

