-- ==== Sys2Proof/Machine/Canopy.lean ====
section
/-! DEFINITION. Sys2Proof/Machine/Canopy.lean: models and their runs on Canopy: MDL_LOAD, MDL_UNLOAD, MDL_RUN, MDL_CALIBRATE,
the start and segments of a run, the end of its present item, and tile faults (R251–R288). Only Zilpan lays out the sections of
an image (log entry 20): they come from opaque functions of Config, and the arithmetic that their steps name is Layer.lean's. -/
namespace Sys2Proof.Machine

/-! ## Scale sets (R272, R273) -/

/-- The range that a run observed for a tensor, if any of its quantisers ran. -/
def observedRange (obs : List (Nat × F32 × F32)) (t : Nat) : Option (F32 × F32) :=
  match obs.filter (fun o => decide (o.1 = t)) with
  | [] => none
  | o :: os => some (os.foldl (fun r x => (F.min r.1 x.2.1, F.max r.2 x.2.2)) o.2)

/-- Give a model another set of tensors: a whole new scale set (R273). -/
def Model.withTensors (m : Model) (ts : List Tensor) : Model := { m with set := scaleSet m.image ts }

/-- Fold what one run observed. -/
def foldObs (m : Model) (obs : List (Nat × F32 × F32)) : Model :=
  m.withTensors (m.set.tensors.zipIdx.map (fun t =>
    match observedRange obs t.2 with | some x => t.1.fold m.emaShift x | none => t.1))

/-- What MDL_CALIBRATE sets: exact ranges over all items, and FROZEN marks (R287). -/
def calibrated (m : Model) (freeze : Bool) (obs : List (Nat × F32 × F32)) : Model :=
  m.withTensors (m.set.tensors.zipIdx.map (fun t =>
    let u := match observedRange obs t.2 with | some x => t.1.ranged x.1 x.2 | none => t.1
    if freeze then { u with adaptive := false } else u))

/-! ## Models of a partition -/

def findModel (t : Part) (h : Nat) : Option Model := t.models.find? (fun m => decide (m.handle = h) && !m.unloaded)
def modelOf (t : Part) (n : Nat) : Option Model := t.models.find? (fun m => decide (m.serial = n))
def onModel (p n : Nat) (f : Model → Model) (s : State) : State :=
  onPart p (fun t => { t with models := mapWhere (fun m => decide (m.serial = n)) f t.models }) s

/-- A loaded model that a field names. -/
def modelChecks (t : Part) (h off : Nat) : List (Bool × Nat × Nat) :=
  [((findModel t h).isNone, St.noSuchHandle, off), (((findModel t h).map Model.loading).getD false, St.wrongState, 0)]

def grovesInService (s : State) : Nat := (s.groves.filter Grove.inService).length

/-- The variant that may run at a service level: false the primary, true the reduced one (R265, R288). -/
def variantAt (full : Bool) (s : State) (m : Model) : Option Bool :=
  if full ∧ m.width ≤ grovesInService s then some false
  else if m.reducedWidth ≠ 0 ∧ m.reducedWidth ≤ grovesInService s then some true
  else none

def variantNow (s : State) (m : Model) : Option Bool := variantAt (decide (s.power.level = 2)) s m

/-! ## MDL_LOAD (R276, R280) -/

def ceil64 (n : Nat) : Nat := ceilDiv n 64 * 64

/-- Reason 7: binding fields that do not fit OUTPUT_ROLES or INPUT_BINDING. -/
def bindingOk (img : List Byte) : Bool :=
  let b := imgNum img 48 1
  let roles := imgNum img 49 1
  let seq := imgNum img 50 2
  let toks := decide (b ≤ 1)
  decide (b ≤ 4) && (if toks then within 1 8192 seq else decide (seq = 0)) &&
    (if b = 1 then within 1 (seq - 3) (imgNum img 52 2) else decide (imgNum img 52 2 = 0)) &&
    (if toks then decide (imgNum img 60 4 = 0) else decide (imgNum img 60 4 ≠ 0)) &&
    decide (roles.testBit 0 = decide (imgNum img 56 4 ≠ 0)) && decide (roles.testBit 1 = decide (imgNum img 54 2 ≠ 0)) &&
    decide (roles.testBit 2 = decide (imgNum img 80 4 ≠ 0)) && decide (imgNum img 54 2 ≤ 4096) && decide (imgNum img 56 4 ≤ 65536)

/-! ### What a step reads and writes -/

/-- A stretch of bytes that a step names: its space (a tile, a grove's SRAM, a buffer, an absolute address), offset, length. -/
structure Stretch where
  space : List Nat
  off : Nat
  len : Nat
  deriving DecidableEq, Repr

def Spot.stretch (n : Nat) : Spot → Stretch
  | .tile g t off => { space := [0, g, t], off := off, len := n }
  | .shared g off => { space := [1, g], off := off, len := n }
  | .buf b off => { space := [2, b], off := off, len := n }
  | .abs addr => { space := [3], off := addr, len := n }

/-- Bytes of each operand of a kernel, and of its result. -/
def kernelLens (ts : List Tensor) (ls : List IntLayer) : Kernel → List Nat × Nat
  | .quantise t => ([4 * (tensorAt ts t).channels], codeLen (tensorAt ts t).int4 (tensorAt ts t).channels)
  | .dequantise t => ([codeLen (tensorAt ts t).int4 (tensorAt ts t).channels], 4 * (tensorAt ts t).channels)
  | .layer l =>
    match ls[l]? with
    | some x => ([codeLen (tensorAt ts x.inTensor).int4 x.inputs, x.channels * codeLen x.int4 x.inputs],
        match x.outTensor with | some o => codeLen (tensorAt ts o).int4 x.channels | none => 4 * x.channels)
    | none => ([], 0)
  | .partials n k => (List.replicate k (4 * n), 4 * n)
  | .elem _ n => ([4 * n, 4 * n], 4 * n)
  | .reduce _ n => ([4 * n], 4)
  | .spread n => ([4], 4 * n)
  | .toFloat f n => ([4 * n], f.bytes * n)
  | .fromFloat f n => ([f.bytes * n], 4 * n)
  | .floatLayer f c n => ([f.bytes * n, f.bytes * (c * n)], 4 * c)

def ImageStep.reads (ts : List Tensor) (ls : List IntLayer) : ImageStep → List Stretch
  | .move src _ n => [src.stretch n]
  | .kernel g t k srcs _ => List.zipWith (fun o n => (Spot.tile g t o).stretch n) srcs (kernelLens ts ls k).1

def ImageStep.writes (ts : List Tensor) (ls : List IntLayer) : ImageStep → List Stretch
  | .move _ dst n => [dst.stretch n]
  | .kernel g t k _ dst => [(Spot.tile g t dst).stretch (kernelLens ts ls k).2]

def Stretch.meets (a b : Stretch) : Bool := decide (a.space = b.space) && decide (a.off < b.off + b.len) && decide (b.off < a.off + a.len)

/-- The stretch lies in the variant's groves and declared buffers (R256). -/
def Stretch.declared (width : Nat) (bufs : List BufDecl) (x : Stretch) : Bool :=
  match x.space with
  | [0, g, t] => decide (g < width) && decide (t < 36) && decide (x.off + x.len ≤ 262144)
  | [1, g] => decide (g < width) && decide (x.off + x.len ≤ 8388608)
  | [2, b] => match bufs[b]? with | some d => decide (x.off + x.len ≤ d.size) | none => false
  | _ => false

/-- The schedules of a variant: every segment at every padded length. -/
def schedules (img : List Byte) (red : Bool) : List Sched :=
  (List.range (imgNum img 50 2 + 1)).flatMap (fun n => (List.range (imgNum img 40 4)).map (Config.imageSegment img red n))

/-- The activation tensors of an image at their initial ranges; FREEZE makes each of them FROZEN. -/
def imageTensors (freeze : Bool) (img : List Byte) : List Tensor :=
  (Config.imageTensors img).map (fun t =>
    ({ adaptive := t.adaptive && !freeze, int4 := t.int4, lo := 0, hi := 0, s := 0, z := 0, channels := t.channels
       transform := t.transform } : Tensor).ranged t.lo t.hi)

/-- Check `ok` of each schedule of each variant. -/
def eachSchedule (img : List Byte) (ok : Bool → ImageBody → Sched → Bool) : Bool :=
  (if imgNum img 7 1 = 0 then [false] else [false, true]).all (fun red =>
    (schedules img red).all (ok red (Config.imageBody img red)))

/-- A segment above 48,000 cycles, or one that writes a location it reads (R259). -/
def segmentOk (ts : List Tensor) (b : ImageBody) (x : Sched) : Bool :=
  decide (x.cycles ≤ 48000) &&
    (x.steps.flatMap (ImageStep.reads ts b.layers)).all (fun r => (x.steps.flatMap (ImageStep.writes ts b.layers)).all (fun w => !r.meets w))

/-- Only declared buffers and the groves of the set (R256). -/
def placesOk (ts : List Tensor) (width : Nat) (b : ImageBody) (x : Sched) : Bool :=
  x.steps.all (fun y => (y.reads ts b.layers ++ y.writes ts b.layers).all (Stretch.declared width b.buffers))

/-- Reason code of *Image check reasons*, 0 when the image passes. -/
def imageReason (instances : Nat) (img : List Byte) : Nat :=
  let w := imgNum img 6 1
  let rw := imgNum img 7 1
  let ts := imageTensors false img
  firstReason
    [(decide ((img.drop 96).take 32 ≠ sha256 (img.drop 256)), 1),
     (decide (imgNum img 0 4 ≠ 3) || decide (imgNum img 4 2 ≠ 0xB0), 2),
     (decide (w ∉ [1, 2, 4, 8, 16]) || decide (rw ∉ [0, 1, 2, 4]) || decide (16 < instances * w), 3),
     (decide (262144 < imgNum img 32 4) || decide (8388608 < imgNum img 36 4), 4),
     (decide (48000 < imgNum img 44 4) || !eachSchedule img (fun _ b x => segmentOk ts b x), 5),
     (!eachSchedule img (fun red b x => placesOk ts (if red then rw else w) b x), 6), (!bindingOk img, 7),
     (!((if rw = 0 then [false] else [false, true]).all (fun red =>
        (Config.imageBody img red).layers.all (fun l => l.valid (Config.imageBody img red).weights))), 8)]

/-- The model of an image. -/
def parseModel (a : MdlLoadArgs) (serial base : Nat) (img : List Byte) : Model :=
  { handle := a.model, serial := serial, base := base, loading := true, invalid := imageReason (dflt 1 a.instances) img
    width := imgNum img 6 1, reducedWidth := imgNum img 7 1, instances := dflt 1 a.instances, emaShift := dflt 4 a.emaShift
    segments := imgNum img 40 4, inputBinding := imgNum img 48 1, outputRoles := imgNum img 49 1, seqMax := imgNum img 50 2
    queryMax := imgNum img 52 2, tokenDim := imgNum img 54 2, pooledDim := imgNum img 56 4, inputBytes := imgNum img 60 4
    cls := imgNum img 64 4, sep := imgNum img 68 4, pad := imgNum img 72 4, eos := imgNum img 76 4
    vocabSize := imgNum img 80 4, weightBytes := imgNum img 16 8 + imgNum img 24 8, digest := (img.drop 96).take 32
    image := img, sums := colsums (Config.imageBody img false), redSums := colsums (Config.imageBody img true)
    set := scaleSet img (imageTensors a.freeze img), calibrating := 0, unloaded := false }

/-- The stored weights: the primary variant's, then the reduced one's (R275). -/
def weightImage (img : List Byte) : List Byte :=
  fitBytes (imgNum img 16 8) (Config.imageBody img false).weights ++ fitBytes (imgNum img 24 8) (Config.imageBody img true).weights

/-- Loaded handles, and the weight storage that they hold (R274): an unloaded handle is none. -/
def modelCount (s : State) : Nat := (s.parts.map (fun t => (t.models.filter (fun m => !m.unloaded)).length)).sum
def modelWeights (s : State) : Nat :=
  (s.parts.map (fun t => ((t.models.filter (fun m => !m.unloaded)).map Model.weightBytes).sum)).sum

/-- R274 would be exceeded, both variants counted (R280). -/
def overModelLimit (s : State) (p : Nat) (img : List Byte) : Bool :=
  let w := imgNum img 16 8 + imgNum img 24 8
  decide (64 ≤ ((part s p).models.filter (fun m => !m.unloaded)).length) || decide (256 ≤ modelCount s) ||
    decide (8000000000 < imgNum img 8 8) || decide (5000000000 < w) || decide (40000000000 < modelWeights s + w)

def mdlLoadBody (r : MbxReq) (a : MdlLoadArgs) (s : State) : MRes :=
  let p := r.partition
  let img := fitBytes a.imageLen a.image
  let m := parseModel a s.nextRun 0 img
  checked s
    [(!within 1 65535 a.model, St.invalidField, 32), (!within 1 8 (dflt 4 a.emaShift), St.invalidField, 35),
     (!within 1 16 (dflt 1 a.instances), St.invalidField, 36), (decide (a.imageAddr % 4096 ≠ 0), St.invalidAddress, 40),
     ((findModel (part s p) a.model).isSome, St.handleExists, 0), (overModelLimit s p img, St.modelLimit, 0),
     (!hbmRoom s p m.weightBytes || (allocObj s p m.weightBytes false).isNone, St.noMemory, 0)]
    (let m := { m with base := (allocObj s p m.weightBytes false).getD 0 }
     let s := settlePart p (onPart p (fun t => { t with models := t.models ++ [m] })
       { s with nextRun := s.nextRun + 1, mem := cellsClear s.mem m.base (roundUp2M m.weightBytes) })
     if m.invalid = 0 then accept r Op.mdlLoad St.ok 0 (.modelReady a.model) (writeMem m.base (weightImage img) s)
     else accept r Op.mdlLoad St.imageInvalid m.invalid (.modelDrop a.model) s)

/-- MDL_LOAD. -/
def execMdlLoad (r : MbxReq) (a : MdlLoadArgs) (s : State) : Result :=
  .next (mailbox r Op.mdlLoad [32] (mdlLoadBody r a) s)

/-- Runs of a model that have begun and not ended. -/
def runsOf (s : State) (p n : Nat) : List CanopyRun := s.runs.filter (fun x => decide (x.part = p) && decide (x.model = n))

def mdlUnloadBody (p h : Nat) (s : State) : MRes :=
  checked s ((!within 1 65535 h, St.invalidField, 32) :: modelChecks (part s p) h 32)
    (match findModel (part s p) h with
     | some m => { st := sweepModels p (onModel p m.serial (fun m => { m with unloaded := true }) s) }
     | none => { st := s })

/-- MDL_UNLOAD (R282). -/
def execMdlUnload (r : MbxReq) (model : Nat) (s : State) : Result :=
  .next (mailbox r Op.mdlUnload [8] (mdlUnloadBody r.partition model) s)

/-! ## Inputs (R277, R278, R283) -/

/-- int32 token ids of a segment. -/
def idsOf (bs : List Byte) : List Nat := (chunks 4 bs).map unle

def optId (n : Nat) : List Nat := if n = noId then [] else [n]

/-- The input sequence over segments A and B (R277). With no SEP every token has segment id 0. -/
def seqInput (m : Model) (a b : List Nat) : RunIn :=
  if m.inputBinding = 1 then
    let ta := a.take m.queryMax
    let tb := b.take (m.seqMax - 3 - ta.length)
    let head := optId m.cls ++ ta ++ optId m.sep
    let seq := head ++ tb ++ optId m.sep
    { seq := seq, front := if m.sep = noId then seq.length else head.length, bytes := []
      cut := decide (ta.length < a.length ∨ tb.length < b.length) }
  else
    let ta := a.take (m.seqMax - (optId m.cls ++ optId m.sep).length)
    let seq := optId m.cls ++ ta ++ optId m.sep
    { seq := seq, front := seq.length, bytes := [], cut := decide (ta.length < a.length) }

/-- The tokens of a segment: text through the vocabulary, or ids. -/
def segTokens (v : Option Vocab) (kind : Nat) (bs : List Byte) : List Nat :=
  if kind = 1 then (match v with | some v => (tokenise v true bs).map (fun t => t.1) | none => []) else idsOf bs

def itemInput (m : Model) (v : Option Vocab) (kind : Nat) (x : ItemIn) : RunIn :=
  if m.inputBinding ≤ 1 then seqInput m (segTokens v kind (fitBytes x.lenA x.a)) (segTokens v kind (fitBytes x.lenB x.b))
  else { seq := [], front := 0, bytes := fitBytes x.lenA x.a, cut := false }

/-- INPUT_KIND suits INPUT_BINDING. -/
def kindSuits (binding kind : Nat) : Bool :=
  if binding ≤ 1 then decide (kind ≤ 1) else decide (kind = binding)

/-- An item breaks R283. -/
def itemBad (m : Model) (kind : Nat) (x : ItemIn) : Bool :=
  if 2 ≤ m.inputBinding then decide (x.lenA ≠ m.inputBytes) || decide (x.lenB ≠ 0)
  else (decide (kind = 0) && (decide (x.lenA % 4 ≠ 0) || decide (x.lenB % 4 ≠ 0))) ||
    (decide (m.inputBinding = 0) && decide (x.lenB ≠ 0))

/-- Bytes that the items take at IN_ADDR: all but the last run to a 64-byte boundary. -/
def itemsLen (xs : List ItemIn) : Nat :=
  match xs.reverse with
  | [] => 0
  | x :: rest => (rest.map (fun y => ceil64 (16 + y.lenA + y.lenB))).sum + 16 + x.lenA + x.lenB

/-- Exactly `n` items. -/
def fitItems (n : Nat) (xs : List ItemIn) : List ItemIn :=
  xs.take n ++ List.replicate (n - xs.length) { lenA := 0, lenB := 0, a := [], b := [] }

/-! ## The buffers of a run (R256, R277) -/

/-- Input ids padded with PAD_ID, the attention mask and the segment ids, at a padded length. -/
def paddedIds (m : Model) (n : Nat) (seq : List Nat) : List Nat := seq ++ List.replicate (n - seq.length) m.pad
def maskIds (n : Nat) (seq : List Nat) : List Nat := List.replicate seq.length 1 ++ List.replicate (n - seq.length) 0
def segmentIds (n front : Nat) : List Nat := (List.range n).map (fun i => if i < front then 0 else 1)

/-- What firmware binds to a declared buffer at the start of a run of item `x` with the tokens generated so far: the inputs, or
zeros. The weights' own bytes stand in HBM. -/
def bufferBytes (m : Model) (padded : Nat) (x : RunIn) (toks : List Nat) (d : BufDecl) : List Byte :=
  let seq := x.seq ++ toks
  let front := if x.front = x.seq.length ∧ m.sep = noId then padded else x.front
  fitBytes d.size
    (match d.role with
     | .ids => (paddedIds m padded seq).flatMap (le 4)
     | .mask => (maskIds padded seq).flatMap (le 1)
     | .segs => (segmentIds padded front).flatMap (le 1)
     | .raw => x.bytes
     | _ => [])

def bodyOf (m : Model) (red : Bool) : ImageBody := Config.imageBody m.image red

/-- The buffers of run `n`: those that the variant declares, each bound to an address; weights have none of their own here. -/
def bindBuffers (m : Model) (red : Bool) (n padded : Nat) (x : RunIn) (toks : List Nat) : List (Nat × List Byte) :=
  (bodyOf m red).buffers.zipIdx.map (fun d =>
    if d.1.role = .weights then (m.base + (if red then imgNum m.image 16 8 else 0), [])
    else (Config.bufferAt n d.2, bufferBytes m padded x toks d.1))

/-- The run's padded length: at least its sequence. -/
def paddedLen (m : Model) (seq : List Nat) : Nat := max seq.length (Config.padLength m.image seq.length)

/-- The first buffer of a role, after a run. -/
def outputOf (m : Model) (red : Bool) (role : BufRole) (bufs : List (Nat × List Byte)) : List Byte :=
  match (bodyOf m red).buffers.findIdx? (fun d => decide (d.role = role)) with
  | some i => (bufs.getD i (0, [])).2
  | none => []

/-- What an ENCODE run gave: the pooled output, one row for each token of its sequence, the clamps. -/
def encodeOf (m : Model) (red : Bool) (seq : List Nat) (bufs : List (Nat × List Byte)) (clamps : Nat) : EncOut :=
  let rows := outputOf m red .tokens bufs
  let count := if m.inputBinding ≤ 1 then seq.length else rows.length / (4 * m.tokenDim)
  { pooled := floatsOf m.pooledDim (outputOf m red .pooled bufs)
    rows := if m.tokenDim = 0 then [] else (List.range count).map (fun i => floatsOf m.tokenDim (rows.drop (4 * m.tokenDim * i)))
    clamps := clamps }

/-! ## Executing a segment (R252–R254, R257, R259) -/

/-- Where a run stands within a segment. -/
structure Exe where
  st : State
  bufs : List (Nat × List Byte)
  obs : List (Nat × F32 × F32)
  clamps : Nat

/-- Where a spot of the run's own SRAM lies: its grove, its first line there and its address. -/
def sramAt (groves : List Nat) : Spot → Option (Nat × Nat × Nat)
  | .tile g t off => (groves[g]?).bind (fun p => if t < 36 ∧ off < 262144 then some (p, t * 262144 + off, tileAddr p t + off) else none)
  | .shared g off => (groves[g]?).bind (fun p => if off < 8388608 then some (p, 36 * 262144 + off, sharedAddr p + off) else none)
  | _ => none

/-- `n` bytes at a spot; a line whose written bit is clear reads as zeros (R253). -/
def readSpot (m : Model) (red : Bool) (groves : List Nat) (e : Exe) (n : Nat) (x : Spot) : List Byte :=
  match sramAt groves x with
  | some (p, pos, addr) =>
    (readMem e.st addr n).zipIdx.map (fun b => if (pos + b.2) / 64 ∈ (groveOf e.st p).written then b.1 else 0)
  | none =>
    match x with
    | .buf b off =>
      if ((bodyOf m red).buffers[b]?).map BufDecl.role = some .weights then readMem e.st ((e.bufs.getD b (0, [])).1 + off) n
      else fitBytes n ((e.bufs.getD b (0, [])).2.drop off)
    | _ => zeros n

/-- Overwrite part of a list of bytes. -/
def overwrite (l : List Byte) (off : Nat) (bs : List Byte) : List Byte := l.take off ++ (bs.take (l.length - off)) ++ l.drop (off + bs.length)

/-- Write lines of SRAM: a line written for the first time in the run holds zeros elsewhere, so that no residue of an earlier run
is seen (R253). -/
def writeLines (p pos addr : Nat) (bs : List Byte) (s : State) : State :=
  let lines := (List.range (pos % 64 + bs.length)).map (fun i => pos / 64 + i / 64)
  let new := (lines.eraseDups).filter (fun l => decide (l ∉ (groveOf s p).written))
  let base := addr - pos
  writeMem addr bs
    (onGrove p (fun g => { g with written := g.written ++ new })
      { s with mem := new.foldl (fun m l => cellsClear m (base + 64 * l) 64) s.mem })

/-- Write bytes to a spot. -/
def writeSpot (groves : List Nat) (x : Spot) (bs : List Byte) (e : Exe) : Exe :=
  match sramAt groves x with
  | some (p, pos, addr) => if bs.isEmpty then e else { e with st := writeLines p pos addr bs e.st }
  | none =>
    match x with
    | .buf b off => { e with bufs := e.bufs.modify b (fun y => (y.1, overwrite y.2 off bs)) }
    | _ => e

/-- A kernel over its operands' bytes: the result's bytes, what its quantiser observed, and its clamps. -/
def runKernel (set : ScaleSet) (ls : List IntLayer) (sums : List (List Int)) (tables : List (List (Nat × Nat))) (k : Kernel)
    (ins : List (List Byte)) : List Byte × List (Nat × F32 × F32) × Nat :=
  let ts := set.tensors
  let a := ins.getD 0 []
  let b := ins.getD 1 []
  match k with
  | .quantise t =>
    let x := tensorAt ts t
    let q := quantise x (floatsOf x.channels a)
    (bytesOfCodes x.int4 q.1, [(t, q.2.2.1, q.2.2.2)], q.2.1)
  | .dequantise t =>
    let x := tensorAt ts t
    (bytesOfFloats ((codesOf x.int4 x.channels a).map (fun q => F.mul x.s (F.ofInt (q - x.z)))), [], 0)
  | .layer l =>
    match ls[l]? with
    | none => ([], [], 0)
    | some y =>
      let qa := codesOf (tensorAt ts y.inTensor).int4 y.inputs a
      let n := codeLen y.int4 y.inputs
      let qw := (List.range y.channels).map (fun c => codesOf y.int4 y.inputs ((b.drop (c * n)).take n))
      let accs := layerAccs ts y (sums.getD l []) qa qw
      match y.outTensor with
      | some o =>
        let q := layerCodes (tensorAt ts o) (tables.getD l []) accs
        (bytesOfCodes (tensorAt ts o).int4 q.1, [], q.2)
      | none => (bytesOfFloats (layerFloats ts y accs), [], 0)
  | .partials n _ => (bytesOfFloats (sumPartials n (ins.map (floatsOf n))), [], 0)
  | .elem op n => (bytesOfFloats (List.zipWith op.eval (floatsOf n a) (floatsOf n b)), [], 0)
  | .reduce op n => (bytesOfFloats [op.foldVals (floatsOf n a)], [], 0)
  | .spread n => (bytesOfFloats (List.replicate n ((floatsOf 1 a).headD 0)), [], 0)
  | .toFloat f n => ((floatsOf n a).flatMap (fun x => le f.bytes (f.ofF32 x)), [], 0)
  | .fromFloat f n => (bytesOfFloats (floatVals f n a), [], 0)
  | .floatLayer f c n => (bytesOfFloats ((floatLayer n (floatVals f n a) (floatVals f (c * n) b)).take c), [], 0)

/-- One step of the static schedule. -/
def runStep (m : Model) (r : CanopyRun) (e : Exe) (x : ImageStep) : Exe :=
  match x with
  | .move src dst n => writeSpot r.groves dst (readSpot m r.reduced r.groves e n src) e
  | .kernel g t k srcs dst =>
    let ls := (bodyOf m r.reduced).layers
    let ins := List.zipWith (fun o n => readSpot m r.reduced r.groves e n (.tile g t o)) srcs (kernelLens r.set.tensors ls k).1
    let y := runKernel r.set ls (if r.reduced then m.redSums else m.sums) (if r.reduced then r.set.redTables else r.set.tables) k ins
    let e := writeSpot r.groves (.tile g t dst) y.1 e
    { e with obs := e.obs ++ y.2.1, clamps := e.clamps + y.2.2 }

/-- A whole segment of a run. -/
def runSegment (m : Model) (r : CanopyRun) (s : State) : Exe :=
  (Config.imageSegment m.image r.reduced r.padded r.segment).steps.foldl (runStep m r)
    { st := s, bufs := r.bufs, obs := r.obs, clamps := r.clamps }

/-! ## MDL_RUN (R283–R286) -/

def encStride (m : Model) : Nat := 64 + ceil64 (4 * m.pooledDim) + ceil64 (4 * m.tokenDim * m.seqMax)

def runStride (m : Model) (gen : Bool) (a : MdlRunArgs) : Nat := if gen then 64 + ceil64 (4 * a.maxNew) else encStride m

def mdlRunChecks (s : State) (t : Part) (m : Model) (gen : Bool) (a : MdlRunArgs) : List (Bool × Nat × Nat) :=
  let items := fitItems a.batch a.items
  let bad := items.findIdx? (itemBad m a.inputKind)
  (if a.inputKind = 1 then vocabChecks t a.vocab 18 else [(decide (a.vocab ≠ 0), St.invalidField, 18)]) ++
  [(!gen && decide (a.mode ≠ 0), St.invalidField, 20), (gen && !m.outputRoles.testBit 2, St.invalidField, 20), (!kindSuits m.inputBinding a.inputKind, St.invalidField, 21),
   (!within 1 64 a.batch, St.invalidField, 22), (decide (a.inAddr % 64 ≠ 0), St.invalidAddress, 24),
   (decide (a.inLen < itemsLen items), St.invalidField, 32), (decide (a.outLen < a.batch * runStride m gen a), St.invalidField, 36),
   (decide (a.outAddr % 64 ≠ 0), St.invalidAddress, 40),
   (if gen then !within 1 256 a.maxNew else decide (a.maxNew ≠ 0), St.invalidField, 48),
   (!gen && decide (a.grammar ≠ 0), St.invalidField, 50),
   (decide (a.grammar ≠ 0) && (findGrammar t a.grammar).isNone, St.noSuchHandle, 50),
   (((findGrammar t a.grammar).map Grammar.loading).getD false, St.wrongState, 0),
   (bad.isSome, St.invalidField, bad.getD 0), ((variantNow s m).isNone, St.notReady, 0)]

/-- Queue the runs of a command behind those admitted before it (R261). -/
def queueRun (r : CanopyRun) (s : State) : State := { s with runs := s.runs ++ [r], nextRun := s.nextRun + 1 }

/-- A grammar with its vocabulary. -/
def grammarPair (t : Part) (h : Nat) : Option (Grammar × Vocab) :=
  (findGrammar t h).bind (fun g => (findVocab t g.vocab).map (fun v => (g, v)))

def mdlRunBody (q : SqReq) (gen : Bool) (a : MdlRunArgs) (s : State) : QRes :=
  let t := part s q.part
  qchecked s (modelChecks t a.model 16)
    (match findModel t a.model with
     | none => .fail s (St.noSuchHandle, 16)
     | some m =>
       qchecked s (mdlRunChecks s t m gen a)
         (let run : CanopyRun :=
            { id := s.nextRun, part := q.part, sq := q.sq, tag := q.tag, model := m.serial, use := .items a, generate := gen
              inputs := (fitItems a.batch a.items).map (itemInput m (findVocab t a.vocab) a.inputKind)
              grammar := if gen then grammarPair t a.grammar else none }
          { st := queueRun run s, run := some (.model run.id) }))

/-- MDL_RUN in ENCODE mode: the run waits for CANOPY_RUN_START. -/
def execMdlRun (q : SqReq) (a : MdlRunArgs) (s : State) : Result := .next (queue q Op.mdlRun (mdlRunBody q false a) s)

/-- MDL_RUN in GENERATE mode. -/
def execMdlRunGenerate (q : SqReq) (a : MdlRunArgs) (s : State) : Result :=
  .next (queue q Op.mdlRun (mdlRunBody q true a) s)

/-! ## The life of a run (R253, R260–R262) -/

/-- Groves in service that no started run holds. -/
def freeGroves (s : State) : List Nat :=
  (List.range s.groves.length).filter (fun g =>
    (groveOf s g).inService && s.runs.all (fun r => !r.started || decide (g ∉ r.groves)))

def onRun (id : Nat) (f : CanopyRun → CanopyRun) (s : State) : State :=
  { s with runs := mapWhere (fun r => decide (r.id = id)) f s.runs }

/-- The running command of a run. -/
def runningOf (s : State) (r : CanopyRun) : Option Running :=
  (part s r.part).running.find? (fun x => decide (x.sq = r.sq) && decide (x.tag = r.tag))

/-- Loupe's record of a run that begins or ends: the model's handle, a bit for each of its groves, and the segments run (R519; log
entry 109). -/
def traceRun (handle : Nat) (ended : Bool) (r : CanopyRun) (s : State) : State :=
  trace 5 r.part 5 (handle % 65536 + (r.groves.map (fun g => 2 ^ (16 + g))).sum + if ended then 2 ^ 32 else 0) r.segment s

/-- The record of a started run that ends. -/
def traceRunEnd (r : CanopyRun) (s : State) : State :=
  if r.started then traceRun (((modelOf (part s r.part) r.model).map Model.handle).getD 0) true r s else s

/-- A run that is gone; the space of an unloaded model follows its last run. -/
def endRun (r : CanopyRun) (s : State) : State :=
  sweepModels r.part { s with runs := s.runs.filter (fun x => x.id ≠ r.id) }

/-- The job of a calibration ends with another status. -/
def failCalibration (r : CanopyRun) (status : Nat) (s : State) : State :=
  { s with jobs := mapWhere (calibrationOf r) (fun j => { j with status := status }) s.jobs }

/-- A run ends with a status and no more outputs: its command ends. -/
def failRun (r : CanopyRun) (status : Nat) (s : State) : State :=
  let s := endRun r s
  match r.use with
  | .calibrate _ => failCalibration r status s
  | _ =>
    match runningOf s r with
    | some x => endRunning r.part x status 0 0 0 (tellEnd r.part x s)
    | none => s

/-- Lines of the slices that a grove of a set holds. -/
def sliceLines (b : ImageBody) (i : Nat) : List Nat :=
  (List.range 36).flatMap (fun t =>
    let n := (b.slices.getD (i * 36 + t) []).length
    (List.range (ceilDiv (b.sliceAt % 64 + n) 64)).map (fun l => t * 4096 + b.sliceAt / 64 + l))

/-- Load the slice of one logical tile into its SRAM, as far as the tile goes. -/
def loadSlice (b : ImageBody) (i g t : Nat) (s : State) : State :=
  writeMem (tileAddr g t + b.sliceAt) ((b.slices.getD (i * 36 + t) []).take (0x40000 - b.sliceAt)) s

/-- A grove takes its place in a run: every written bit clears, and the slices of its place are loaded, or kept where its previous
run was that place of the same variant of the same image of the same partition; slice lines count as written (R253, R262). -/
def takeGrove (p : Nat) (m : Model) (red : Bool) (i g : Nat) (s : State) : State :=
  let b := bodyOf m red
  let s := if (groveOf s g).last = some (p, m.digest, red, i) then s else (List.range 36).foldl (fun s t => loadSlice b i g t s) s
  onGrove g (fun x => { x with last := some (p, m.digest, red, i), written := sliceLines b i }) s

def takeGroves (p : Nat) (m : Model) (red : Bool) (gs : List Nat) (s : State) : State :=
  gs.zipIdx.foldl (fun s g => takeGrove p m red g.2 g.1 s) s

/-- Canopy may start a run now: powered, outside shard hold, and within its share under the 100 °C or 800 W limits (R577). -/
def mayStart (s : State) : Bool :=
  firmwareRuns s && !holding s && (!(s.power.thermalLimit || s.power.powerLimit) || decide (s.time % 1000 < 500))

/-- The service level that a run goes by: a query's own, admitted one (R204), or the present one. -/
def CanopyRun.full (r : CanopyRun) (s : State) : Bool :=
  match r.use with
  | .query red => !red
  | _ => decide (s.power.level = 2)

/-- The item must wait for a stream context of the device's pool (R318). -/
def contextShort (s : State) (r : CanopyRun) : Bool := r.grammar.isSome && r.conf.isNone && decide (4096 ≤ streamCount s)

/-- Begin the run of the present item on some groves. -/
def beginItem (m : Model) (red : Bool) (gs : List Nat) (r : CanopyRun) : CanopyRun :=
  let x := r.inputs.getD r.item { seq := [], front := 0, bytes := [], cut := false }
  let padded := paddedLen m (x.seq ++ r.toks)
  { r with started := true, reduced := red, everReduced := r.everReduced || red, groves := gs, segment := 0, set := m.set
           padded := padded, bufs := bindBuffers m red r.id padded x r.toks, obs := [], clamps := 0
           conf := match r.conf with
             | some c => some c
             | none => r.grammar.map (fun g => some { state := g.1.start, stack := [] }) }

/-- CANOPY_RUN_START: the first waiting run, in order of admission, once its groves are free (R261, R281). The device's own
stages are no runs of this list: each goes ahead of them all, in the step that needs it (log entry 96). -/
def execCanopyRunStart (s : State) : Result :=
  .next
    (match s.runs.find? (fun r => !r.started) with
     | none => s
     | some r =>
       if !mayStart s then s
       else if r.cancelled then endRun r s
       else
         match modelOf (part s r.part) r.model with
         | none => failRun r St.noSuchHandle s
         | some m =>
           match variantAt (r.full s) s m with
           | none => failRun r St.notReady s
           | some red =>
             let w := if red then m.reducedWidth else m.width
             let gs := (freeGroves s).take w
             if gs.length < w ∨ m.instances ≤ ((runsOf s r.part r.model).filter CanopyRun.started).length ∨ contextShort s r = true then s
             else
               traceRun m.handle false { r with groves := gs, segment := 0 }
                 (onRun r.id (beginItem m red gs) (takeGroves r.part m red gs s)))

/-- CANOPY_SEGMENT_END: the segment's schedule has run; a cancelled run stops here (R260). -/
def execCanopySegmentEnd (run : Nat) (s : State) : Result :=
  .next
    (match s.runs.find? (fun r => decide (r.id = run)) with
     | none => s
     | some r =>
       if !firmwareRuns s then s
       else if r.cancelled then endRun r (traceRunEnd r s)
       else
         match modelOf (part s r.part) r.model with
         | none => s
         | some m =>
           if r.started && decide (r.segment < m.segments) then
             let e := runSegment m r s
             onRun run (fun r => { r with segment := r.segment + 1, bufs := e.bufs, obs := e.obs, clamps := e.clamps }) e.st
           else s)

/-! ## The end of an item -/

def itemHeader (pooled toks : Nat) (cut eos dead reduced : Bool) (clamps : Nat) : List Byte :=
  le 4 pooled ++ le 4 toks ++
    le 2 ((if cut then 1 else 0) + (if clamps = 0 then 0 else 2) + (if eos then 4 else 0) + (if dead then 8 else 0) +
      (if reduced then 16 else 0)) ++ zeros 2 ++ le 4 clamps ++ zeros 48

/-- The output item of an ENCODE item. Token rows go out for token inputs only: SEQ_MAX is 0 for the others (R284). -/
def encItem (m : Model) (reduced cut : Bool) (o : EncOut) : List Byte :=
  let rows := if m.inputBinding ≤ 1 then o.rows else []
  itemHeader o.pooled.length rows.length cut false false reduced o.clamps ++ bytesOfFloats o.pooled ++
    zeros (ceil64 (4 * m.pooledDim) - 4 * m.pooledDim) ++ rows.flatMap bytesOfFloats

/-- Fold a finished run's observations into its model's scale set, unless a calibration is in progress (R273, R287). -/
def foldRun (p serial : Nat) (obs : List (Nat × F32 × F32)) (s : State) : State :=
  onModel p serial (fun m => if m.calibrating = 0 then foldObs m obs else m) s

/-- The allowed token of best logit, the lower id of equals. -/
def bestLogit (logits : List F32) (allowed : Nat → Bool) (n : Nat) : Option Nat :=
  ((List.range n).filter allowed).foldl (fun best t =>
    match best with
    | none => some t
    | some b => if rankKey true (logits.getD t 0) < rankKey true (logits.getD b 0) then some t else some b) none

/-- One step's allowed tokens under a grammar: none where the mask is not available. -/
def genMask (only : Bool) (g : Option (Grammar × Vocab)) (c : Option (Option Conf)) : Option (Nat → Bool) :=
  match g, c with
  | some (g, v), some (some c) => (serveMask only g v false c).map (fun m => maskBit m.1)
  | some _, _ => some (fun _ => false)
  | none, _ => some (fun _ => true)

/-- How a GENERATE step ended: the tokens so far, the grammar's configuration after it, and whether the item is over. -/
structure GenOut where
  toks : List Nat
  conf : Option (Option Conf)
  ended : Bool
  eos : Bool
  dead : Bool
  deriving DecidableEq, Repr

/-- One step of a GENERATE item over the logits of its run (R285); none where no mask is to be had. -/
def genStep (m : Model) (only : Bool) (maxNew : Nat) (r : CanopyRun) (logits : List F32) : Option GenOut :=
  (genMask only r.grammar r.conf).map (fun ok =>
    match bestLogit logits ok m.vocabSize with
    | none => { toks := r.toks, conf := r.conf, ended := true, eos := false, dead := true }
    | some t =>
      let toks := r.toks ++ [t]
      if t = m.eos then { toks := toks, conf := r.conf, ended := true, eos := true, dead := false }
      else
        let d := match r.grammar, r.conf with
          | some (g, v), some (some c) => some (if t = v.eos then none else gramBytes g c (v.text t))
          | _, c => c
        { toks := toks, conf := d, ended := decide (maxNew ≤ toks.length), eos := false, dead := false })

/-- The next item of a command waits in its place among the runs. -/
def CanopyRun.rest (r : CanopyRun) : CanopyRun := { r with started := false, groves := [], bufs := [], segment := 0 }
def CanopyRun.nextItem (r : CanopyRun) : CanopyRun := { r.rest with item := r.item + 1, toks := [], conf := none, itemClamps := 0 }

/-- What the runs of a command come to at the end of one of them: the command goes on, an item is over with its output (empty
unless the command writes it), or a mask was not to be had. -/
inductive ItemEnd where
  | goes (r : CanopyRun)
  | ends (r : CanopyRun) (out : List Byte)
  | noMask

/-- The end of the present run. -/
def endItem (s : State) (m : Model) (r : CanopyRun) : ItemEnd :=
  let x := r.inputs.getD r.item { seq := [], front := 0, bytes := [], cut := false }
  let o := encodeOf m r.reduced x.seq r.bufs r.clamps
  match r.use with
  | .items a =>
    if r.generate then
      match genStep m ((r.grammar.map (fun g => preOnly s ((findVocab (part s r.part) g.2.handle).getD g.2))).getD false) a.maxNew r
          (floatsOf m.vocabSize (outputOf m r.reduced .logits r.bufs)) with
      | none => .noMask
      | some g =>
        if g.ended then
          .ends r.nextItem (itemHeader 0 g.toks.length x.cut g.eos g.dead r.everReduced (r.itemClamps + r.clamps) ++ g.toks.flatMap (le 4))
        else .goes { r.rest with toks := g.toks, conf := g.conf, itemClamps := r.itemClamps + r.clamps }
    else .ends r.nextItem (encItem m r.reduced x.cut o)
  | .query _ => .ends { r.nextItem with encs := r.encs ++ [o] } []
  | .calibrate _ => .ends { r.nextItem with seen := r.seen ++ r.obs } []

/-- The last item of an MDL_RUN is over: the command completes (R286). -/
def endModelRun (r : CanopyRun) (s : State) : State :=
  let live := runningOf s r
  let s := endRun r s
  match live with
  | some x =>
    let c := if r.everReduced then condReduced else 0
    endRunning r.part x (statusOfConditions c) c 0 0 s
  | none => s

/-- The last item of a calibration is over: the whole set is committed (R287); COMMAND_DONE follows. -/
def endCalibration (freeze : Bool) (r : CanopyRun) (s : State) : State :=
  endRun r (onModel r.part r.model (fun m => calibrated m freeze r.seen) s)

/-! ## MDL_CALIBRATE (R287) -/

/-- IN_ADDR is not checked for alignment: the payload of MDL_CALIBRATE states none, unlike MDL_RUN's (log entry 97). -/
def calibrateBody (r : MbxReq) (a : CalibrateArgs) (s : State) : MRes :=
  let p := r.partition
  let t := part s p
  checked s (modelChecks t a.model 32)
    (match findModel t a.model with
     | none => .fail s (St.noSuchHandle, 32)
     | some m =>
       let items := fitItems a.count a.items
       let bad := items.findIdx? (itemBad m a.inputKind)
       checked s
         ((if a.inputKind = 1 then vocabChecks t a.vocab 34 else [(decide (a.vocab ≠ 0), St.invalidField, 34)]) ++
          [(!kindSuits m.inputBinding a.inputKind, St.invalidField, 37), (!within 1 4096 a.count, St.invalidField, 38),
           (decide (a.inLen < itemsLen items), St.invalidField, 48), (bad.isSome, St.invalidField, bad.getD 0),
           ((variantNow s m).isNone, St.notReady, 0)])
         (let run : CanopyRun :=
            { id := s.nextRun, part := p, sq := 64, tag := r.tag, model := m.serial
              use := RunFor.calibrate a.freezeAfter, generate := false
              inputs := items.map (itemInput m (findVocab t a.vocab) a.inputKind) }
          accept r Op.mdlCalibrate St.ok 0 (.modelCalibrated m.serial)
            (queueRun run (onModel p m.serial (fun m => { m with calibrating := m.calibrating + 1 }) s))))

/-- MDL_CALIBRATE. -/
def execMdlCalibrate (r : MbxReq) (a : CalibrateArgs) (s : State) : Result :=
  .next (mailbox r Op.mdlCalibrate [32] (calibrateBody r a) s)

/-! ## Tile faults (R263–R265, R575) -/

/-- Runs on a grove that left service restart on other groves. -/
def restartRuns (g : Nat) (s : State) : State :=
  let hit (r : CanopyRun) : Bool := r.started && decide (g ∈ r.groves)
  (s.runs.filter hit).foldl (fun s r => traceRunEnd r s) { s with runs := s.runs.map (fun r => if hit r then { r.rest with obs := [] } else r) }

/-- The run on a grove gives the tile's slice to the spare that took its place (R264). -/
def reloadSlice (g tile : Nat) (s : State) : State :=
  match s.runs.find? (fun r => r.started && decide (g ∈ r.groves)) with
  | none => s
  | some r =>
    match modelOf (part s r.part) r.model with
    | none => s
    | some m =>
      let b := bodyOf m r.reduced
      let i := r.groves.findIdx (fun x => decide (x = g))
      onGrove g (fun x => { x with last := some (r.part, m.digest, r.reduced, i)
                                   written := x.written ++ (sliceLines b i).filter (fun l => decide (l / 4096 = tile)) })
        (loadSlice b i g tile s)

/-- A fault of logical tile `tile` of a grove: a spare takes its place and the segment runs again; without a spare the
grove leaves service. -/
def tileFault (grove tile : Nat) (s : State) : State :=
  if !firmwareRuns s || !(groveOf s grove).inService || decide (36 ≤ tile) then s
  else if (groveOf s grove).sparesUsed < 2 then reloadSlice grove tile (appendLedger 3 2 (substituteSpare grove tile s))
  else restartRuns grove (degradeGrove grove s)

/-- TILE_FAULT. -/
def execTileFault (grove tile : Nat) (s : State) : Result := .next (tileFault grove tile s)

end Sys2Proof.Machine
end

