-- ==== Sys2Proof/Machine/Pack.lean ====
section
/-! DEFINITION. Sys2Proof/Machine/Pack.lean: PROMPT_PACK: templates, segments, the packing of passages and its outputs
(R323–R328). -/
namespace Sys2Proof.Machine

/-! ## Templates (R324) -/

/-- An item of a template. -/
inductive TItem where
  | lit (bs : List Byte)
  | query | number | id | text
  deriving DecidableEq, Repr

inductive Marker where
  | item (i : TItem) | open_ | close
  deriving DecidableEq, Repr

/-- The ASCII bytes of a marker. -/
def markerBytes : List (List Byte × Marker) :=
  [(ascii "\x7b\x7b\x7b\x7b", .item (.lit (ascii "\x7b\x7b"))), (ascii "\x7b\x7bQUERY\x7d\x7d", .item .query),
   (ascii "\x7b\x7b#P\x7d\x7d", .open_), (ascii "\x7b\x7b/P\x7d\x7d", .close), (ascii "\x7b\x7bN\x7d\x7d", .item .number),
   (ascii "\x7b\x7bID\x7d\x7d", .item .id), (ascii "\x7b\x7bTEXT\x7d\x7d", .item .text)]

/-- The marker at the front and its length. -/
def markerAt (bs : List Byte) : Option (Marker × Nat) :=
  (markerBytes.find? (fun m => decide (bs.take m.1.length = m.1))).map (fun m => (m.2, m.1.length))

/-- A parsed template: before the block, the block, behind it. -/
structure Template where
  pre : List TItem
  block : List TItem
  post : List TItem
  deriving DecidableEq, Repr

/-- Where the parser stands: 0 before, 1 inside, 2 behind the block. -/
structure TParse where
  t : Template
  place : Nat
  deriving DecidableEq, Repr

def TParse.add (x : TItem) (p : TParse) : TParse :=
  match p.place with
  | 0 => { p with t := { p.t with pre := p.t.pre ++ [x] } }
  | 1 => { p with t := { p.t with block := p.t.block ++ [x] } }
  | _ => { p with t := { p.t with post := p.t.post ++ [x] } }

/-- A marker stands where the table allows it. -/
def TParse.allows (p : TParse) : Marker → Bool
  | .open_ => p.place = 0
  | .close => p.place = 1
  | .item (.lit _) => true
  | .item .query => decide (p.place ≠ 1) && !(decide (TItem.query ∈ p.t.pre ++ p.t.post))
  | .item .text => decide (p.place = 1) && !(decide (TItem.text ∈ p.t.block))
  | .item _ => decide (p.place = 1)

def TParse.take (p : TParse) : Marker → TParse
  | .open_ => { p with place := 1 }
  | .close => { p with place := 2 }
  | .item i => p.add i

/-- Parse at offset `o`, the next `skip` bytes belonging to a marker already taken; the offset of the first fault. -/
def parseTemplateFrom : Nat → Nat → TParse → List Byte → Except Nat TParse
  | _, o, p, [] => if p.place = 2 then .ok p else .error o
  | skip + 1, o, p, _ :: bs => parseTemplateFrom skip (o + 1) p bs
  | 0, o, p, b :: bs =>
    if b = 0x7B ∧ bs.head? = some 0x7B then
      match markerAt (b :: bs) with
      | some (m, n) => if p.allows m then parseTemplateFrom (n - 1) (o + 1) (p.take m) bs else .error o
      | none => .error o
    else parseTemplateFrom 0 (o + 1) (p.add (.lit [b])) bs

def parseTemplate (bs : List Byte) : Except Nat Template :=
  match parseTemplateFrom 0 0 { t := { pre := [], block := [], post := [] }, place := 0 } bs with
  | .ok p => .ok p.t
  | .error o => .error o

/-! ## Segments (R325) -/

/-- A segment to tokenise: literal text, the query, or a passage text. -/
inductive Seg where
  | lit (bs : List Byte) | query | text
  deriving DecidableEq, Repr

def decimal (n : Nat) : List Byte := ascii (toString n)

/-- One item with the position and the id substituted. -/
def segOf (n id : Nat) : TItem → Seg
  | .lit bs => .lit bs
  | .query => .query
  | .text => .text
  | .number => .lit (decimal n)
  | .id => .lit (decimal id)

/-- Put a segment in front, joining literal text. -/
def joinSeg (x : Seg) (l : List Seg) : List Seg :=
  match x, l with
  | .lit a, .lit b :: rest => .lit (a ++ b) :: rest
  | x, l => x :: l

def segments (n id : Nat) (items : List TItem) : List Seg := (items.map (segOf n id)).foldr joinSeg []

/-- Tokens of segments; the first takes ADD_PREFIX when it is the prompt's `first`. Each token carries whether it is passage
text. -/
def segToks (v : Vocab) (query text : List Byte) (first : Bool) (l : List Seg) : List (Nat × Bool) :=
  l.zipIdx.flatMap (fun x =>
    let pre := first && decide (x.2 = 0)
    match x.1 with
    | .lit bs => (tokenise v pre bs).map (fun t => (t.1, false))
    | .query => (tokenise v pre query).map (fun t => (t.1, false))
    | .text => (tokenise v pre text).map (fun t => (t.1, true)))

/-! ## Packing (R326) -/

/-- A packing map entry. -/
structure PackMap where
  first : Nat
  kept : Nat
  full : Nat
  capped : Bool
  trimmed : Bool
  dropped : Bool
  empty : Bool
  deriving DecidableEq, Repr

structure PackState where
  toks : List Nat
  maps : List PackMap
  stopped : Bool
  deriving DecidableEq, Repr

/-- Keep the first `n` passage-text tokens and every literal token. -/
def keepText : Nat → List (Nat × Bool) → List Nat
  | _, [] => []
  | n, (t, false) :: l => t :: keepText n l
  | 0, (_, true) :: l => keepText 0 l
  | n + 1, (t, true) :: l => t :: keepText n l

/-- Try one passage against the budget; `used` counts what is fixed and packed so far. -/
def packOne (v : Vocab) (a : PackParams) (block : List TItem) (query : List Byte) (fixed pre : Nat) (firstSeg : Bool)
    (st : PackState) (x : (Nat × List Byte) × Nat) : PackState :=
  let segs := segments (x.2 + 1) x.1.1 block
  let ts := segToks v query x.1.2 (firstSeg && decide (x.2 = 0)) segs
  let lits := (ts.filter (fun t => !t.2)).length
  let full := (ts.filter (fun t => t.2)).length
  let capped := if a.passageMax = 0 then full else min full a.passageMax
  let room := a.tokenBudget - (fixed + st.toks.length)
  let at0 := pre + st.toks.length + (ts.takeWhile (fun t => !t.2)).length
  let empty := decide (x.1.2 = [])
  let put (n : Nat) (trim : Bool) : PackState :=
    { toks := st.toks ++ keepText n ts
      maps := st.maps ++ [{ first := if n = 0 ∨ empty = true then noId else at0, kept := n, full := full
                            capped := decide (capped < full),
                            trimmed := trim, dropped := false, empty := empty }]
      stopped := trim }
  if st.stopped then
    { st with maps := st.maps ++ [{ first := noId, kept := 0, full := full, capped := false, trimmed := false,
                                    dropped := true, empty := empty }] }
  else if lits + capped ≤ room then put capped false
  else if a.trimTail ∧ lits < room ∧ 0 < capped then put (room - lits) true
  else
    { st with stopped := true
              maps := st.maps ++ [{ first := noId, kept := 0, full := full, capped := false, trimmed := false,
                                    dropped := true, empty := empty }] }

/-- A packed prompt: its tokens, how many of them BOS, and the map. -/
structure Packed where
  bos : List Nat
  toks : List Nat
  maps : List PackMap
  deriving DecidableEq, Repr

def budget (a : PackParams) : Nat := dflt 4096 a.tokenBudget

/-- Tokens before and behind the block; `lead`: what stands behind it begins the prompt. -/
def preToks (v : Vocab) (query : List Byte) (t : Template) : List Nat :=
  (segToks v query [] true (segments 0 0 t.pre)).map (fun x => x.1)
def postToks (v : Vocab) (query : List Byte) (t : Template) (lead : Bool) : List Nat :=
  (segToks v query [] lead (segments 0 0 t.post)).map (fun x => x.1)

def bosToks (v : Vocab) (a : PackParams) : List Nat := if a.addBos then [v.bos] else []

/-- F of R326. -/
def fixedCost (v : Vocab) (a : PackParams) (query : List Byte) (t : Template) (lead : Bool) : Nat :=
  (bosToks v a ++ preToks v query t ++ postToks v query t lead).length

/-- With nothing before the block, what stands behind it begins the prompt when no passage's block does (R325). -/
def leads (t : Template) (some_ : Bool) : Bool := t.pre.isEmpty && (t.block.isEmpty || !some_)

/-- The template, or the status that the parts without passage text give (R193, R324, R326). -/
def packFixed (v : Vocab) (a : PackParams) (query : List Byte) : Except (Nat × Nat) Template :=
  match parseTemplate (fitBytes a.templateLen a.template) with
  | .error o => .error (St.templateInvalid, o)
  | .ok t => if budget a < fixedCost v a query t (leads t true) then .error (St.promptTooLong, 0) else .ok t

/-- Pack passages in order; `lead` as the text behind the block will stand. -/
def packPassages (v : Vocab) (a : PackParams) (query : List Byte) (t : Template) (lead : Bool)
    (passages : List (Nat × List Byte)) : PackState :=
  passages.zipIdx.foldl
    (packOne v { a with tokenBudget := budget a } t.block query (fixedCost v a query t lead)
      (bosToks v a ++ preToks v query t).length t.pre.isEmpty)
    { toks := [], maps := [], stopped := false }

def packRun (v : Vocab) (a : PackParams) (query : List Byte) (passages : List (Nat × List Byte)) : Except (Nat × Nat) Packed :=
  match packFixed v a query with
  | .error e => .error e
  | .ok t =>
    let r := packPassages v a query t (leads t true) passages
    let lead := leads t (r.maps.any (fun m => !m.dropped))
    let toks := preToks v query t ++ r.toks ++ postToks v query t lead
    let text := toks.flatMap v.text
    if budget a < fixedCost v a query t lead then .error (St.promptTooLong, 0)
    else if a.textOut ∧ a.outTextLen < text.length then .error (St.bufferTooSmall, text.length)
    else .ok { bos := bosToks v a, toks := toks, maps := r.maps }

def mapBytes (m : PackMap) : List Byte :=
  le 4 m.first ++ le 4 m.kept ++ le 4 m.full ++
    le 2 ((if m.capped then 1 else 0) + (if m.trimmed then 2 else 0) + (if m.dropped then 4 else 0) + (if m.empty then 8 else 0)) ++
    zeros 2

/-- Write the outputs of a packed prompt (R327). -/
def packWrite (p : Nat) (v : Vocab) (a : PackParams) (k : Packed) (s : State) : State :=
  let s := if a.tokensOut then hostWrite (1 + p) a.outTokAddr ((k.bos ++ k.toks).flatMap (le 4)) s else s
  let s := if a.textOut then hostWrite (1 + p) a.outTextAddr (k.toks.flatMap v.text) s else s
  hostWrite (1 + p) a.mapAddr (k.maps.flatMap mapBytes) s

/-- The block's own fields, `off` giving DETAIL_A of a field (R323, R165). -/
def packChecks (t : Part) (a : PackParams) (retrieve : Bool) (off : Nat → Nat) : List (Bool × Nat × Nat) :=
  let v := findVocab t a.vocab
  vocabChecks t a.vocab (off 0) ++
  [(!retrieve && decide (256 < a.passageCount), St.invalidField, off 2),
   (!a.tokensOut && !a.textOut, St.invalidField, off 4),
   (a.addBos && decide ((v.map Vocab.bos) = some noId), St.invalidField, off 4),
   (!within 16 131072 (budget a), St.invalidField, off 8), (decide (65536 < a.passageMax), St.invalidField, off 12),
   (!within 1 16384 a.templateLen, St.invalidField, off 24), (decide (16384 < a.queryLen), St.invalidField, off 28),
   (!retrieve && (a.passages.take a.passageCount).any (fun x => decide (65535 < x.2.length)), St.invalidField, off 40),
   (a.tokensOut && decide (a.outTokAddr % 64 ≠ 0), St.invalidAddress, off 48),
   (a.textOut && decide (a.outTextAddr % 64 ≠ 0), St.invalidAddress, off 56),
   (decide (a.mapAddr % 64 ≠ 0), St.invalidAddress, off 72)]

def packBody (p : Nat) (a : PackParams) (s : State) : QRes :=
  qchecked s (packChecks (part s p) a false inBlock)
    (match findVocab (part s p) a.vocab with
     | none => .fail s (St.noSuchHandle, inBlock 0)
     | some v =>
       match packRun v a (fitBytes a.queryLen a.query) (a.passages.take a.passageCount) with
       | .error e => .fail s e
       | .ok k =>
         let inc := (k.maps.filter (fun m => !m.dropped)).length
         { st := packWrite p v a k s, dA := if a.tokensOut then (k.bos ++ k.toks).length else 0
           dB := inc + (k.maps.length - inc) * 65536 + (if a.textOut then (k.toks.flatMap v.text).length else 0) * 2 ^ 32 })

/-- PROMPT_PACK. -/
def execPromptPack (q : SqReq) (a : PackParams) (s : State) : Result :=
  .next (queueFull q Op.promptPack (some 128) (packBody q.part a) s)

end Sys2Proof.Machine
end

