-- ==== Sys2Proof/Machine/Cascade.lean ====
section
/-! DEFINITION. Sys2Proof/Machine/Cascade.lean: the search cascade of one shard and the order, merge and de-duplication of
results (R162–R191, R205, R212, R217, R219, R239–R250). -/
namespace Sys2Proof.Machine

/-! ## Orders -/

/-- Lexicographic order of two lists of numbers of one length. -/
def lexLt : List Nat → List Nat → Bool
  | a :: as, b :: bs => if a = b then lexLt as bs else decide (a < b)
  | _, _ => false

/-! ## Rows of a shard in input order (R188, R240) -/

/-- Where a row version is stored: green, or block `blk` of segment `number`. -/
inductive Stored where
  | green (g : GreenRow)
  | seasoned (number blk : Nat) (b : Block) (r : SeasonedRow)
  deriving DecidableEq, Repr

/-- A stored row version; `seg` is its SEGMENT index: 0 green, then the segments in ascending number. -/
structure Place where
  ordinal : Nat
  seg : Nat
  sk : List Bool
  /-- its epoch trailer (R212). -/
  epochs : Nat × Nat
  at_ : Stored
  deriving DecidableEq, Repr

def places (c : Coll) : List Place :=
  c.green.map (fun g => { ordinal := g.ordinal, seg := 0, sk := g.sk1, epochs := g.epochs, at_ := .green g }) ++
  c.segs.zipIdx.flatMap (fun g => g.1.blocks.zipIdx.flatMap (fun b => b.1.rows.map (fun r =>
    { ordinal := r.ordinal, seg := g.2 + 1, sk := r.sk1, epochs := r.epochs, at_ := .seasoned g.1.number b.2 b.1 r })))

def Place.isGreen (x : Place) : Bool := match x.at_ with | .green _ => true | _ => false

/-- A candidate: its place, its row record, its score and the stage that gave it. -/
structure Scored where
  at_ : Place
  row : RowRec
  score : F32
  key : Nat
  stage : Nat
  deriving DecidableEq, Repr

/-- ahead of R189 within one shard. -/
def Scored.ahead (a b : Scored) : Bool :=
  lexLt [a.key, a.row.stand, a.at_.seg, a.at_.ordinal] [b.key, b.row.stand, b.at_.seg, b.at_.ordinal]

/-! ## Sketch granules (R212) -/

/-- The 8-bit pieces of a sketch: component i is bit i mod 8 of byte i / 8 (R125). -/
def sketchBytes (sk : List Bool) : List Byte :=
  (chunks 8 sk).map (fun c => BitVec.ofNat 8 (c.zipIdx.foldl (fun n b => n + if b.1 then 2 ^ b.2 else 0) 0))

/-- One granule of SK1 rows: SKETCHES, EPOCHS, and zeros to its end. -/
def sketchGranule (d : Nat) (rows : List Place) : List Byte :=
  let r := sk1Rows d
  padTo 4096 (padTo (r * (d / 8)) (rows.flatMap (fun x => sketchBytes x.sk)) ++
    rows.flatMap (fun x => le 6 x.epochs.1 ++ le 6 x.epochs.2))

/-- The granules of one stand of one segment, in the row order of the segment. -/
def sketchGranules (c : Coll) (seg stand : Nat) : List (List Byte) :=
  (chunks (sk1Rows c.dim) ((places c).filter (fun x => decide (x.seg = seg) && decide (standOf c x.ordinal = stand)))).map
    (sketchGranule c.dim)

/-! ## Grader's selections (R240–R248) -/

/-- A candidate as a Grader entry, of input list `source`. -/
def Scored.entry (shard source : Nat) (y : Scored) : GEntry :=
  { key := y.key, ordinal := y.at_.ordinal, shard := shard, stand := y.row.stand, segment := y.at_.seg, source := source }

/-- The 128 bits of an entry (R240). -/
def GEntry.bits (e : GEntry) : BitVec 128 :=
  BitVec.ofNat 128 (e.key % 2 ^ 32 + e.ordinal % 2 ^ 48 * 2 ^ 32 + e.shard % 2 ^ 6 * 2 ^ 80 + e.stand % 2 ^ 18 * 2 ^ 86 +
    e.segment % 2 ^ 16 * 2 ^ 104 + e.source % 2 ^ 8 * 2 ^ 120)

/-- One entry of the stream of a pass: the list in ahead order and its tie count (R242). -/
def passStep {α : Type} (ahead : α → α → Bool) (key : α → Nat) (k : Nat) (floor : Option α) (x : List α × Nat) (e : α) :
    List α × Nat :=
  if (match floor with | some f => !ahead f e | none => false) then x
  else if x.1.length < k then (insertBy ahead e x.1, x.2)
  else
    match x.1.getLast? with
    | none => x
    | some last =>
      let l := if ahead e last then insertBy ahead e x.1.dropLast else x.1
      let out := if ahead e last then last else e
      let kth := ((l.getLast?).map key).getD 0
      let tie := if kth = key last then x.2 else 0
      (l, if key out = kth then tie + 1 else tie)

/-- A single pass (R242). -/
def gradePass {α : Type} (ahead : α → α → Bool) (key : α → Nat) (k : Nat) (floor : Option α) (l : List α) : List α × Nat :=
  l.foldl (passStep ahead key k floor) ([], 0)

/-- A selection: passes of 256, each behind the last entry of the one before it (R243). -/
def gradeSelect {α : Type} (ahead : α → α → Bool) (key : α → Nat) (l : List α) : Nat → Nat → Option α → List α × Nat
  | 0, _, _ => ([], 0)
  | fuel + 1, k, floor =>
    if k = 0 then ([], 0)
    else
      let n := min 256 k
      let x := gradePass ahead key n floor l
      if x.1.length < n ∨ k ≤ 256 then x
      else
        let y := gradeSelect ahead key l fuel (k - n) x.1.getLast?
        (x.1 ++ y.1, y.2)

/-- The best `k` of candidates, and how many entries left out tie with the k-th. -/
def selectBest (k : Nat) (l : List Scored) : List Scored × Nat := gradeSelect Scored.ahead Scored.key l (k / 256 + 1) k none

/-- A merge of sorted lists by ahead (R248). -/
def mergeLists {α : Type} (ahead : α → α → Bool) (ls : List (List α)) : List α := ls.foldl (fun acc l => l.foldl (fun a e => insertBy ahead e a) acc) []

/-- A selection over up to four units, each on its own quarter of the input lists, then merged (R244): the entries left out
with the k-th key are those left out by the merge and those that a unit with that k-th key left out. -/
def selectUnits (k : Nat) (quarters : List (List Scored)) : List Scored × Nat :=
  let us := quarters.map (selectBest k)
  let all := mergeLists Scored.ahead (us.map (fun u => u.1))
  let out := all.take k
  match out.getLast? with
  | some b =>
    if out.length < k then (out, 0)
    else (out, ((all.drop k).filter (fun y => decide (y.key = b.key))).length +
      ((us.filter (fun u => match u.1.getLast? with | some y => decide (y.key = b.key) | none => false)).map (fun u => u.2)).sum)
  | none => (out, 0)

/-- Threshold mode (R246): the entries that pass, in order of arrival with no gaps, the number tested and the number
removed. -/
def gradeFilter {α : Type} (pass : α → Bool) (l : List α) : List α × Nat × Nat :=
  (l.filter pass, l.length, (l.filter (fun e => !pass e)).length)

/-- The predicate of threshold mode with a threshold key. -/
def atThreshold (t : Nat) (y : Scored) : Bool := decide (y.key ≤ t)

/-! ## Engines' kept lists (R219, R245) -/

/-- What one engine keeps of one query's scan: its best entries, kept 256 at a time, and those it discarded. -/
structure Scan where
  engine : Nat
  best : List Scored
  rest : List Scored
  deriving DecidableEq, Repr

/-- BEST_DROPPED and DROPPED_TIES. -/
def Scan.dropped (x : Scan) : Option Scored := x.rest.head?
def Scan.droppedTies (x : Scan) : Nat :=
  match x.rest.head? with
  | some d => (x.rest.filter (fun y => decide (y.key = d.key))).length
  | none => 0

/-- The first scan of a job: the best 256 of the engine's rows. -/
def Scan.first (engine : Nat) (l : List Scored) : Scan :=
  let l := sortBy Scored.ahead l
  { engine := engine, best := l.take 256, rest := l.drop 256 }

/-- A scan again, behind the last kept entry. -/
def Scan.again (x : Scan) : Scan := { x with best := x.best ++ x.rest.take 256, rest := x.rest.drop 256 }

/-- The lists of two stacks' engines go to each of the four units (R244). -/
def unitOf (engine : Nat) : Nat := engine / 128

/-- Grader selects over what the engines have kept. -/
def selectKept (width : Nat) (ss : List Scan) : List Scored × Nat :=
  selectUnits width ((List.range 4).map (fun u => (ss.filter (fun x => decide (unitOf x.engine = u))).flatMap Scan.best))

/-- The engine scans again: its BEST_DROPPED ranks ahead of the last selected entry, or there is room for it (R245). -/
def scansAgain (width : Nat) (sel : List Scored) (x : Scan) : Bool :=
  match x.dropped with
  | none => false
  | some d => decide (sel.length < width) || (match sel.getLast? with | some b => d.ahead b | none => true)

/-- Stage 1 selects until no engine need scan again: the selection, its excluded ties, and the engines' last lists (R245). -/
def scanRounds (width : Nat) : Nat → List Scan → (List Scored × Nat) × List Scan
  | 0, ss => (selectKept width ss, ss)
  | n + 1, ss =>
    let sel := selectKept width ss
    if ss.any (scansAgain width sel.1) then
      scanRounds width n (ss.map (fun x => if scansAgain width sel.1 x then x.again else x))
    else
      let extra := match sel.1.getLast? with
        | some b => if sel.1.length < width then 0
          else ((ss.filter (fun x => match x.dropped with | some d => decide (d.key = b.key) | none => false)).map Scan.droppedTies).sum
        | none => 0
      ((sel.1, sel.2 + extra), ss)

/-! ## Parameters (R164, R165, R168) -/

/-- Written zeros replaced by the defaults. -/
def searchDefaults (a : SearchParams) : SearchParams :=
  let c1 := dflt (min (max (16 * a.k) 1024) 65536) a.c1
  { a with nprobe := dflt 64 a.nprobe, c1 := c1, c2 := dflt (min c1 (max (2 * a.k) 256)) a.c2 }

/-- The fields of the search block that QRY_SEARCH, QRY_RETRIEVE and COLL_AUDIT share, past K. -/
def searchFields (a : SearchParams) : List (Bool × Nat × Nat) :=
  [(!within 1 4096 a.nprobe, St.invalidField, inBlock 6), (!within a.k 65536 a.c1, St.invalidField, inBlock 8),
   (!within a.k a.c1 a.c2, St.invalidField, inBlock 12), (decide (3 < a.refill), St.invalidField, inBlock 17),
   (decide (8 < a.filters.length), St.invalidField, inBlock 18), (decide (1 < a.filterJoin), St.invalidField, inBlock 19)] ++
  a.filters.zipIdx.map (fun t => (decide (5 < t.1.op), St.invalidField, inBlock (20 + t.2))) ++
  a.filters.zipIdx.map (fun t => (decide (4 ≤ t.1.op) && decide (t.1.mask = 0), St.invalidField, inBlock (64 + 16 * t.2)))

/-- The largest power of two that divides a 64-bit mask. -/
def lowBit (m : Nat) : Nat := Nat.land m (2 ^ 64 - m)

/-- One term on an ATTRIBUTES word (*Filter operators*). -/
def termHolds (attrs : Nat) (t : FilterTerm) : Bool :=
  let m := Nat.land attrs t.mask
  match t.op with
  | 0 => m = t.value
  | 1 => decide (m ≠ t.value)
  | 2 => decide (m ≠ 0)
  | 3 => m = 0
  | 4 => decide (t.value ≤ m / lowBit t.mask)
  | _ => decide (m / lowBit t.mask ≤ t.value)

/-- The filter of R168. -/
def passes (a : SearchParams) (attrs : Nat) : Bool :=
  if a.filterJoin = 0 then a.filters.all (termHolds attrs) else a.filters.any (termHolds attrs)

/-! ## One shard's part (R169–R177, R205) -/

/-- What a shard's part runs on: its rows, the epoch it captured and its service level. -/
structure Part1 where
  coll : Coll
  epoch : Nat
  reduced : Bool
  replica : Bool
  params : SearchParams
  /-- I4A units that are not in HBM. -/
  cold : List UnitKind
  /-- forms of versions that cannot be read (R177, R233). -/
  bad : List Skip
  /-- the partition that the shard belongs to. -/
  owner : Nat
  deriving DecidableEq, Repr

/-- The stands of a shard in probe order (R172). -/
def probeOrder (c : Coll) (q : List F32) : List Nat :=
  if c.stands ≤ 1 then [0]
  else
    (sortBy (fun (a b : Nat × Nat) => lexLt [a.1, a.2] [b.1, b.2])
      (c.centroids.zipIdx.map (fun x =>
        (rankKey (higherBetter c.metric) (score c.metric (twoPieces 2 c.dim) q (bfVals x.1)), x.2)))).map (fun x => x.2)

/-- A stored form of the version cannot be read. -/
def Part1.lost (x : Part1) (o : Nat) (f : Form) : Bool := decide ({ ordinal := o, form := f } ∈ x.bad)

/-- visible(record, E) on the trailer copy (R149, R214). -/
def Place.visible (pl : Place) (e : Nat) : Bool := decide (pl.epochs.1 ≤ e) && decide (e < pl.epochs.2)

/-- Versions of the given stands, with their row records. -/
def versionsIn (x : Part1) (stands : List Nat) : List (Place × RowRec) :=
  (places x.coll).filterMap (fun pl => (recOf x.coll pl.ordinal).bind (fun r => if r.stand ∈ stands then some (pl, r) else none))

/-- A row with a byte of its sketch or of its epoch pair in an unreadable line: the engine skips it (R233). -/
def Part1.skips (x : Part1) (o : Nat) : Bool := x.lost o .sketch || x.lost o .epochs

/-- The sketch scan: candidates, and rows skipped (R173, R177). -/
def sketchScan (x : Part1) (qs : List Bool) (stands : List Nat) : List Scored × Nat :=
  let vs := versionsIn x stands
  ((vs.filter (fun v => !x.skips v.1.ordinal && v.1.visible x.epoch)).map (fun v =>
    let f := F.ofNat (hamming qs v.1.sk)
    { at_ := v.1, row := v.2, score := f, key := rankKey false f, stage := 1 }),
   (vs.filter (fun v => x.skips v.1.ordinal)).length)

/-- The engine that scans a row, 0–511 over the eight stacks: of the pseudo-channel that holds its SK1 granule. The granules of a
stand are striped from the stack `stand mod 8` on, one behind another on each stack (R43, R208, R212, R336). -/
def scanEngine (x : Part1) (y : Scored) : Nat :=
  let mates := (places x.coll).filter (fun pl => decide (pl.seg = y.at_.seg) && decide (standOf x.coll pl.ordinal = y.row.stand))
  let j := mates.findIdx (fun pl => decide (pl.ordinal = y.at_.ordinal))
  let g := j / sk1Rows x.coll.dim
  let k := (y.row.stand + g) % 8
  64 * k + (Config.sketchPlace x.owner x.coll.num y.at_.seg y.row.stand k + g / 8) % 64

/-- The first lists of the engines that hold candidates. -/
def scans (x : Part1) (l : List Scored) : List Scan :=
  let tagged := l.map (fun y => (scanEngine x y, y))
  ((tagged.map (fun z => z.1)).eraseDups).map (fun e => Scan.first e ((tagged.filter (fun z => decide (z.1 = e))).map (fun z => z.2)))

/-- Stage 1's exact selection of `width` candidates (R245). -/
def selectStage1 (x : Part1) (width : Nat) (l : List Scored) : (List Scored × Nat) × List Scan :=
  scanRounds width (l.length / 256 + 1) (scans x l)

/-- The filter as the predicate of threshold mode (R247). -/
def applyFilter (a : SearchParams) (l : List Scored) : List Scored := (gradeFilter (fun y => passes a y.row.attrs) l).1

/-- The running result of the filter and its refill rounds. -/
structure Filtered where
  kept : List Scored
  examined : Nat
  removed : Nat
  skipped : Nat
  rounds : Nat
  deriving DecidableEq, Repr

/-- Refill rounds (R170) over the stands not probed yet. -/
def refill (x : Part1) (qs : List Bool) : Nat → List Nat → Filtered → Filtered
  | 0, _, f => f
  | n + 1, rest, f =>
    if x.params.k ≤ f.kept.length ∨ rest.isEmpty then f
    else
      let sc := sketchScan x qs (rest.take x.params.nprobe)
      let more := applyFilter x.params sc.1
      refill x qs n (rest.drop x.params.nprobe)
        { kept := (selectBest x.params.c1 (f.kept ++ more)).1, examined := f.examined + sc.1.length
          removed := f.removed + (sc.1.length - more.length), skipped := f.skipped + sc.2, rounds := f.rounds + 1 }

/-- The unit of a seasoned row's I4A block. -/
def i4Unit (c : Coll) (pl : Place) : Option UnitKind :=
  match pl.at_ with | .green _ => none | .seasoned g b _ _ => some (.i4Block c.num g b)

def isCold (x : Part1) (pl : Place) : Bool :=
  decide (movedTo x.coll pl.ordinal = some .flash) ||
    (match i4Unit x.coll pl with | some k => decide (k ∈ x.cold) | none => false)

/-- The metric score of a row's int4 or green BF16 form (stage 2). -/
def scoreInt4 (c : Coll) (q : List F32) (pl : Place) : F32 :=
  match pl.at_ with
  | .green g => score c.metric (twoPieces 2 c.dim) q (bfVals g.bf)
  | .seasoned _ _ b r => score c.metric false q (dequant b.sigma4 b.omega4 r.i4)

/-- The metric score of a seasoned row's FORMAT form (stage 3). -/
def scoreFull (c : Coll) (q : List F32) (b : Block) (r : SeasonedRow) : F32 :=
  match r.full with
  | .i8a x => score c.metric (twoPieces 1 c.dim) q (dequant b.sigma8 b.omega8 x)
  | .bf16 v => score c.metric (twoPieces 2 c.dim) q (bfVals v)
  | .none => score c.metric false q (dequant b.sigma4 b.omega4 r.i4)

def Scored.rescored (c : Coll) (stage : Nat) (v : F32) (y : Scored) : Scored :=
  { y with score := v, key := rankKey (higherBetter c.metric) v, stage := stage }

/-- Stage 2: rescored candidates, those dropped as uncorrectable (R177, R233), those excluded in reduced service. -/
def stage2 (x : Part1) (q : List F32) (l : List Scored) : List Scored × Nat × Nat :=
  let out (y : Scored) : Bool := x.reduced && isCold x y.at_
  let bad (y : Scored) : Bool := !out y && x.lost y.at_.ordinal (if y.at_.isGreen then .green else .int4)
  ((l.filter (fun y => !out y && !bad y)).map (fun y => y.rescored x.coll 2 (scoreInt4 x.coll q y.at_)),
   (l.filter bad).length, (l.filter out).length)

/-- Stage 3: FORMAT rows from flash; green versions keep, or with NO_INT4 get, their stage 2 score (R171). -/
def stage3 (x : Part1) (q : List F32) (l : List Scored) : List Scored × Nat :=
  let bad (y : Scored) : Bool :=
    if y.at_.isGreen then y.stage ≠ 2 && x.lost y.at_.ordinal .green else x.lost y.at_.ordinal .full
  ((l.filter (fun y => !bad y)).map (fun y =>
    match y.at_.at_ with
    | .green _ => if y.stage = 2 then y else y.rescored x.coll 2 (scoreInt4 x.coll q y.at_)
    | .seasoned _ _ b r => y.rescored x.coll 3 (scoreFull x.coll q b r)),
   (l.filter bad).length)

def Scored.toRec (x : Part1) (y : Scored) : Rec :=
  { extId := y.row.extId, score := y.score, shard := x.coll.shardOrdinal, stand := y.row.stand, segment := y.at_.seg
    ordinal := y.at_.ordinal, version := y.row.birth, stage := y.stage, replica := x.replica, green := y.at_.isGreen }

/-- Stage 3 runs (R171, R205). -/
def runsFull (x : Part1) : Bool := decide (x.coll.format ≠ 0) && !x.params.noFull && !x.reduced

/-- Width of stage 1 (R176). -/
def width1 (x : Part1) : Nat :=
  if !x.params.noInt4 then x.params.c1 else if runsFull x then x.params.c2 else x.params.k

/-- Stage 1 and the filter of one query: the list that goes on, with its ties when no stage follows. -/
def stage1 (x : Part1) (q : List F32) : Filtered × Nat :=
  let order := probeOrder x.coll q
  let qs := sk1 q
  let sc := sketchScan x qs (order.take x.params.nprobe)
  let sel := (selectStage1 x (width1 x) sc.1).1
  if x.params.filters.isEmpty then
    ({ kept := sel.1, examined := 0, removed := 0, skipped := sc.2, rounds := 0 }, sel.2)
  else
    let kept := applyFilter x.params sel.1
    let f := refill x qs x.params.refill (order.drop x.params.nprobe)
      { kept := kept, examined := sel.1.length, removed := (gradeFilter (fun y => passes x.params y.row.attrs) sel.1).2.2, skipped := sc.2, rounds := 0 }
    if f.removed = 0 ∧ f.rounds = 0 then (f, sel.2) else (f, (selectBest x.params.k f.kept).2)

/-- One query's cascade on one shard: what R179 returns, and the I4A units it read. -/
def cascade (x : Part1) (q : List F32) : ShardList × List UnitKind :=
  let f := stage1 x q
  let p := x.params
  let s2 := if p.noInt4 then (f.1.kept, 0, 0) else stage2 x q f.1.kept
  let read := if p.noInt4 then [] else (f.1.kept.filter (fun y => !(x.reduced && isCold x y.at_))).filterMap
    (fun y => i4Unit x.coll y.at_)
  let k2 := selectBest (if runsFull x then p.c2 else p.k) s2.1
  let s3 := if !runsFull x then (s2.1, 0) else stage3 x q (if p.noInt4 then f.1.kept else k2.1)
  let last := if runsFull x then selectBest p.k s3.1 else if p.noInt4 then ((selectBest p.k f.1.kept).1, f.2) else k2
  ({ records := last.1.map (Scored.toRec x), examined := f.1.examined, filteredOut := f.1.removed, ties := last.2
     skipped := f.1.skipped + s2.2.1 + s3.2, reduced := s2.2.2, isReduced := x.reduced, refillRounds := f.1.rounds },
   read.eraseDups)

/-- I4A units of a collection that are not in HBM. -/
def coldUnits (s : State) (p coll : Nat) : List UnitKind :=
  (s.skidder.units.filter (fun u => decide (u.part = p) && decide (u.loc ≠ .hbm) &&
    (match u.kind with | .i4Block c _ _ => decide (c = coll) | _ => false))).map PUnit.kind

/-- A primary at whose ordinal the collection's entries name another device was promoted (R352): it answers as a replica. -/
def promoted (s : State) (c : Coll) : Bool :=
  decide (c.role = 0) && decide ((c.entries.map ShardEntry.device)[c.shardOrdinal]? ≠ some (ownId s))

def part1 (s : State) (p : Nat) (c : Coll) (asReplica : Bool) (a : SearchParams) : Part1 :=
  { coll := c, epoch := c.committed, reduced := reducedService s, replica := asReplica || promoted s c, params := a
    cold := coldUnits s p c.num, bad := c.skipped ++ a.deckBad, owner := p }

/-- The lists that the engines keep of one query's scan of the stands probed first (R219). -/
def keptLists (x : Part1) (query : Nat) (q : List F32) : List (Nat × Kept) :=
  let sc := sketchScan x (sk1 q) ((probeOrder x.coll q).take x.params.nprobe)
  ((selectStage1 x (width1 x) sc.1).2).map (fun y =>
    let e (z : Scored) : GEntry := z.entry x.coll.shardOrdinal (y.engine % 128)
    (y.engine / 64, { engine := y.engine % 64, part := x.owner, coll := x.coll.num, query := query
                      best := (y.best.drop (y.best.length - 256)).map e, bestDropped := y.dropped.map e
                      droppedTies := y.droppedTies }))

/-- The engines' buffers hold the lists of the scan job. -/
def storeKept (l : List (Nat × Kept)) (s : State) : State :=
  l.foldl (fun s x => onStack x.1 (fun k => { k with
    kept := k.kept.filter (fun y => !(decide (y.engine = x.2.engine) && (decide (y.query = x.2.query) ||
      !(decide (y.part = x.2.part) && decide (y.coll = x.2.coll))))) ++ [x.2] }) s) s

/-- Query vectors rotated and, for cosine, normalised; the index of the first that R166 refuses. -/
def prepQueries (c : Coll) (a : SearchParams) : Except Nat (List (List F32)) :=
  let qs := (List.range a.queryCount).map (fun i =>
    prepVec c.metric true c.seed (fitRaw a.inputType c.dim (a.queries.getD i [])))
  match qs.findIdx? (fun q => q.isNone) with
  | some i => .error i
  | none => .ok (qs.filterMap id)

/-- A shard's whole part (R179), the units it reads heated once (R334). -/
def runPart (x : Part1) (qs : List (List F32)) (s : State) : ShardAnswer × State :=
  let r := qs.map (cascade x)
  ({ shard := x.coll.shardOrdinal, device := ownId s, status := St.ok, epoch := x.epoch, reissued := x.replica
     lists := r.map (fun y => y.1) },
   (r.flatMap (fun y => y.2)).eraseDups.foldl (fun s k => heatUnit x.owner k s)
     (storeKept (qs.zipIdx.flatMap (fun q => keptLists x q.2 q.1)) s))

/-- QRY_RERANK's part (R201): candidates resolved through the id map at the captured epoch. -/
def resolvePart (s : State) (c : Coll) (asReplica : Bool) (ids : List Nat) : ShardAnswer :=
  let rep := asReplica || promoted s c
  let found := ids.filterMap (fun id => (lookupId c id c.committed).bind (fun r =>
    ((places c).find? (fun pl => decide (pl.ordinal = r.ordinal))).map (fun pl =>
      ({ extId := id, score := 0, shard := c.shardOrdinal, stand := r.stand, segment := pl.seg, ordinal := r.ordinal
         version := r.birth, stage := 0, replica := rep, green := pl.isGreen } : Rec))))
  { shard := c.shardOrdinal, device := ownId s, status := St.ok, epoch := c.committed, reissued := rep
    lists := [{ records := found, examined := 0, filteredOut := 0, ties := 0, skipped := 0, reduced := 0,
                isReduced := reducedService s, refillRounds := 0 }] }

/-! ## Merge and de-duplication (R187–R191, R250) -/

/-- The direction of a record's score (R175). -/
def recHigher (metric : Nat) (r : Rec) : Bool :=
  if r.stage = 1 then false else if r.stage = 2 ∨ r.stage = 3 then higherBetter metric else true

def recKey (metric : Nat) (r : Rec) : Nat := rankKey (recHigher metric r) r.score

def recOrder (metric : Nat) (r : Rec) : List Nat := [recKey metric r, r.shard, r.stand, r.segment, r.ordinal]

/-- ahead of R189. -/
def recAhead (metric : Nat) (a b : Rec) : Bool := lexLt (recOrder metric a) (recOrder metric b)

/-- keep_one's order: later version, better score, lower shard, earlier input. -/
def recStands (metric : Nat) (a b : Rec) : Bool :=
  lexLt ((2 ^ 48 - a.version) :: recOrder metric a) ((2 ^ 48 - b.version) :: recOrder metric b)

/-- One record per external id, in ahead order. -/
def dedup (metric : Nat) (l : List Rec) : List Rec :=
  sortBy (recAhead metric) ((sortBy (recStands metric) l).foldl (fun acc r =>
    if acc.any (fun x => decide (x.extId = r.extId)) then acc else acc ++ [r]) [])

/-- Entries of a sorted list beyond the first `k` with the k-th key (R191). -/
def tiesBeyond (metric k : Nat) (l : List Rec) : Nat :=
  match (l.take k).getLast? with
  | some x => if (l.take k).length < k then 0
    else ((l.drop k).filter (fun y => decide (recKey metric y = recKey metric x))).length
  | none => 0

def emptyList : ShardList :=
  { records := [], examined := 0, filteredOut := 0, ties := 0, skipped := 0, reduced := 0, isReduced := false, refillRounds := 0 }

/-- The list of query `i` in one answer; records carry the answer's shard, and REPLICA where a replica answered. -/
def answerList (i : Nat) (a : ShardAnswer) : ShardList :=
  let l := a.lists.getD i emptyList
  { l with records := l.records.map (fun r => { r with shard := a.shard, replica := r.replica || a.reissued }) }

/-- Ties that the shards excluded with key `t` (R189). -/
def shardTies (metric : Nat) (ls : List ShardList) (t : Nat) : Nat :=
  (ls.map (fun l =>
    match l.records.getLast? with
    | some r => if recKey metric r = t then l.ties else 0
    | none => 0)).sum

/-- One query's merged result. -/
structure Merged where
  recs : List Rec
  ties : Nat
  examined : Nat
  filteredOut : Nat
  skipped : Nat
  reduced : Nat
  isReduced : Bool
  rounds : Nat
  deriving DecidableEq, Repr

/-- select of R189 over the lists of query `i`, with `k` the result width. -/
def mergeQuery (metric k i : Nat) (answers : List ShardAnswer) : Merged :=
  let ls := answers.map (answerList i)
  let pool := dedup metric (ls.flatMap ShardList.records)
  let out := pool.take k
  { recs := out
    ties := match out.getLast? with
      | some x => if out.length < k then 0 else tiesBeyond metric k pool + shardTies metric ls (recKey metric x)
      | none => 0
    examined := (ls.map ShardList.examined).sum, filteredOut := (ls.map ShardList.filteredOut).sum
    skipped := (ls.map ShardList.skipped).sum, reduced := (ls.map ShardList.reduced).sum
    isReduced := ls.any ShardList.isReduced, rounds := (ls.map ShardList.refillRounds).foldl max 0 }

/-! ## Output areas (R184–R186, R190, R191) -/

/-- CONDITIONS of one query. -/
def Merged.conditions (m : Merged) (width : Nat) (reduced reissued : Bool) : Nat :=
  (if m.isReduced || reduced then condReduced else 0) +
  (if m.recs.length < width then (if m.filteredOut = 0 then condShort else condFilterShort)
   else if m.ties = 0 then 0 else condTie) +
  (if m.skipped = 0 then 0 else condSkipped) + (if reissued then condReissued else 0)

def recBytes (coll : Nat) (r : Rec) : List Byte :=
  le 8 r.extId ++ le 4 r.score.toNat ++ le 2 coll ++ le 2 r.shard ++ le 6 r.version ++
    le 2 (r.stage * 2 + (if r.replica then 16 else 0) + (if r.green then 32 else 0) + (if r.noTokens then 64 else 0) +
      (if r.passageMissing then 128 else 0)) ++ le 6 r.ordinal ++ zeros 2

/-- An empty slot (R185). -/
def emptySlot (coll : Nat) : List Byte :=
  le 8 sentinel ++ le 4 0xFFFFFFFF ++ le 2 coll ++ le 2 0xFFFF ++ zeros 6 ++ le 2 1 ++ le 6 0xFFFFFFFFFFFF ++ zeros 2

/-- One query's output area of 64 + 32 × S bytes. -/
def areaBytes (coll width epoch reissues cond : Nat) (m : Merged) : List Byte :=
  le 2 m.recs.length ++ le 2 cond ++ le 4 m.ties ++ le 8 m.examined ++ le 8 m.filteredOut ++ le 6 epoch ++ le 1 m.rounds ++
    le 1 reissues ++ le 4 m.skipped ++ le 4 m.reduced ++ zeros 24 ++ m.recs.flatMap (recBytes coll) ++
    (List.replicate (width - m.recs.length) (emptySlot coll)).flatten

end Sys2Proof.Machine
end

