-- ==== Sys2Proof/Machine/Scan.lean ====
section
/-! DEFINITION. Sys2Proof/Machine/Scan.lean: the end of a pass: the lines that it read with wrong bits are decoded, rows in
uncorrectable ones are skipped, and its grant goes on (R177, R210, R221, R231–R233). -/
namespace Sys2Proof.Machine

/-- What the home's own part of a running query runs on: what the query captured at its admission (R136, R204). -/
def QueryRun.part1 (s : State) (p : Nat) (r : QueryRun) : Part1 :=
  { coll := r.snap, epoch := r.epoch, reduced := r.reduced, replica := promoted s r.snap, params := r.params, cold := r.cold
    bad := r.snap.skipped ++ r.params.deckBad, owner := p }

/-- The row has no entry and no score in the requesting query (R233): its home's own list is formed again without it. -/
def dropFromQuery (s : State) (p : Nat) (x : LineRow) (k : RunKind) : RunKind :=
  match k with
  | .query r =>
    let sk : Skip := { ordinal := x.ordinal, form := x.form }
    if r.coll = x.coll ∧ sk ∉ r.snap.skipped then
      let r := { r with snap := { r.snap with skipped := r.snap.skipped ++ [sk] } }
      if r.rerank.isSome then .query r
      else .query { r with own := { r.own with lists := r.vecs.map (fun q => (cascade (r.part1 s p) q).1) } }
    else .query r
  | k => k

/-- Change what a running command keeps. -/
def onRunning (p sq tag : Nat) (f : RunKind → RunKind) (s : State) : State :=
  let change (r : Running) : Running := if r.sq = sq ∧ r.tag = tag then { r with kind := f r.kind } else r
  onPart p (fun t => { t with running := t.running.map change }) s

/-- Give the requesting command its list without the row. -/
def tellRequester (req : Option (Nat × Nat × Nat)) (x : LineRow) (s : State) : State :=
  match req with
  | some (p, sq, tag) =>
    if p = x.part then onRunning p sq tag (dropFromQuery s p x) s else s
  | none => s

/-- A row with a byte in an uncorrectable line (R233). -/
def skipRow (stack engine : Nat) (req : Option (Nat × Nat × Nat)) (s : State) (x : LineRow) : State :=
  let sk : Skip := { ordinal := x.ordinal, form := x.form }
  let s := onColl x.part x.coll (fun c => { c with skipped := if sk ∈ c.skipped then c.skipped else c.skipped ++ [sk] }) s
  let s := tellRequester req x s
  let s := setPavStatus (BitVec.ofNat 32 (2 ^ stack)) { s with pave := { s.pave with
    skipCount := BitVec.ofNat 32 (min 0xFFFFFFFF (s.pave.skipCount.toNat + 1)) } }
  if s.power.fwFault then s else logAdd 2 6 x.part (x.ordinal + x.coll * 2 ^ 48) (stack + engine * 256) s

/-- One line that the pass read with wrong bits. -/
def readLine (stack : Nat) (x : Pass) (s : State) (l : LineRead) : State :=
  match decodeLine l.wrong with
  | .clean => s
  | .corrected => countCorrected stack x.engine (passPart x) l.line s
  | .uncorrectable => l.rows.foldl (skipRow stack x.engine x.requester) s

/-- PAVE_PASS_END: the lines are decoded, and the grant goes to the next waiting engine. A pass whose add has a row's lock ends
with that lock instead (R221). -/
def execPavePassEnd (a : PassEndArgs) (s : State) : Result :=
  .next
    (match (stackOf s a.stack).granted.find? (fun x => x.engine = a.engine) with
     | none => s
     | some x =>
       if engineLeased s a.stack a.engine then s
       else grantLoop a.stack 64 (toCanopy a.stack (releaseGrant a.stack a.engine (a.lines.foldl (readLine a.stack x) s))))

end Sys2Proof.Machine
end

