-- ==== Sys2Proof/Machine/Search.lean ====
section
/-! DEFINITION. Sys2Proof/Machine/Search.lean: QRY_SEARCH, QRY_RETRIEVE, QRY_RERANK, QRY_CANCEL and COLL_AUDIT at their home: the
stages that a query goes through, the merge, re-issue, late interaction, passage text, the cross-encoder and packing
(R161–R206, R236, R279, R328). A query waits among the running commands for other shards and for Canopy. -/
namespace Sys2Proof.Machine

/-! ## Naming the collection of a query (R122, R626) -/

/-- A query body on the INDEX collection of its block. -/
def onQuery (s : State) (p coll : Nat) (k : Coll → QRes) : QRes :=
  match findColl s p coll with
  | none => .fail s (St.noSuchCollection, inBlock 0)
  | some c =>
    if c.role ≠ 0 then .fail s (St.wrongState, c.primary)
    else if c.kind ≠ 0 then .fail s (St.wrongKind, inBlock 0)
    else k c

/-! ## Passage text (R200, R205) -/

/-- A directory entry of a passage store: OFFSET and LENGTH of an id. -/
def passageEntry (bytes : List Byte) (id : Nat) : Option (Nat × Nat) :=
  let n := min (unle (bytes.take 8)) ((bytes.length - 16) / 16)
  ((List.range n).map (fun i => (bytes.drop (16 + 16 * i)).take 16)).findSome? (fun e =>
    if unle (e.take 8) = id then some (unle ((e.drop 8).take 6), unle ((e.drop 14).take 2)) else none)

/-- Some extent of [off, off + n) of an object is not in HBM. -/
def textInFlash (s : State) (p : Nat) (o : Obj) (off n : Nat) : Bool :=
  (extentsOf off n).any (fun e =>
    match findUnit s p (.extent o.handle e) with | some u => decide (u.loc ≠ .hbm) | none => true)

/-- The text of an id in this device's own passage store; empty when it is missing, and in reduced service when it lies in
flash (R205). -/
def passageText (s : State) (reduced : Bool) (p object id : Nat) : List Byte :=
  match findObj s p object with
  | none => []
  | some o =>
    let bytes := objLoad s { part := p, handle := o.handle, base := o.base, size := o.size, host := true } o.base o.size
    match passageEntry bytes id with
    | none => []
    | some (off, n) =>
      if reduced && textInFlash s p o off n then [] else (bytes.drop off).take n

/-! ## Query token vectors (R195) -/

/-- Normalised for cosine where it can be, rotated with D 128 and seed + 1, NaN components replaced (R618). -/
def queryToken (c : Coll) (x : List F32) : List F32 :=
  let x := if c.metric = 1 then (normalise x).getD x else x
  cleanNan (rotate ((c.seed + 1) % 2 ^ 64) x)

def codeTokens (c : Coll) (l : List (List F32)) : Tok8 := tok8 (l.map (queryToken c))

/-! ## A query at its home -/

/-- A running query: the partition and the command, and what it has come to. -/
structure Home where
  part : Nat
  sq : Nat
  tag : Nat
  run : QueryRun
  deriving DecidableEq, Repr

/-- The other shards and their devices. -/
def otherShards (c : Coll) : List (Nat × Nat) :=
  (c.entries.zipIdx.filter (fun e => decide (e.2 ≠ c.shardOrdinal))).map (fun e => (e.2, e.1.device))

def otherSet (c : Coll) (shard : Nat) : Option OtherSet := c.otherSets.find? (fun x => decide (x.shard = shard))

/-- The devices that a shard may be re-issued to: its replicas that can be reached, the lowest number first (R181, R350). -/
def liveReplicas (s : State) (c : Coll) (shard : Nat) : List Nat :=
  let set := ((otherSet c shard).map OtherSet.replicas).getD []
  ((sortBy (fun (u v : Nat × Nat) => decide (u.1 < v.1)) set).map (fun y => y.2)).filter (fun d => decide (d ∉ s.fabric.lost))

/-- The device to which a query admitted now sends a shard's part: the shard's present primary, or, that one lost, the replica that
becomes it (R352). -/
def shardTarget (s : State) (c : Coll) (x : Nat × Nat) : Nat :=
  let d := ((otherSet c x.1).map OtherSet.primary).getD x.2
  if d ∈ s.fabric.lost then (liveReplicas s c x.1).headD d else d

def noInputs (p sq tag : Nat) : MergeArgs :=
  { part := p, sq := sq, tag := tag, answers := [], lateScores := [], noTokens := [], lateDropped := [], passages := [] }

/-- Rounds may follow the merge. -/
def QueryRun.hasRounds (r : QueryRun) : Bool := r.retrieve.isSome || r.rerank.isSome

/-- What follows the merge, and what it goes by: the service level at admission (R204). -/
structure Rounds where
  late : Bool
  cross : Bool
  lateWidth : Nat
  finalK : Nat
  query : List Byte
  object : Nat
  pack : Option PackParams
  outAddr : Nat
  deriving DecidableEq, Repr

/-- XENC_K and FINAL_K with their defaults. -/
def dfltFinal (n x : Nat) : Nat := dflt (min n 16) x
def dfltXenc (n finalK x : Nat) : Nat := dflt (max finalK (min n 32)) x

def inputText (a : RetrieveArgs) : List Byte := fitBytes a.inputLen a.input

/-- PACK's query: QUERY_LEN 0 with text input takes the retrieve's input (R328). -/
def packQuery (a : RetrieveArgs) : List Byte :=
  if a.packParams.queryLen = 0 ∧ a.inputKind = 0 then inputText a else fitBytes a.packParams.queryLen a.packParams.query

def roundsOf (r : QueryRun) : Rounds :=
  match r.retrieve, r.rerank with
  | some a, _ =>
    let f := dfltFinal r.params.k a.finalK
    let cross := a.cross && !r.reduced
    { late := r.snap.tokens && !a.noLate && !r.reduced, cross := cross
      lateWidth := if cross then dfltXenc r.params.k f a.xencK else f, finalK := f, query := inputText a
      object := a.passageObject, pack := if a.pack then some a.packParams else none, outAddr := a.search.outAddr }
  | none, some a =>
    let f := dfltFinal a.count a.finalK
    { late := a.late, cross := a.cross
      lateWidth := if a.late && a.cross then dfltXenc a.count f a.xencK else if a.cross then a.count else f
      finalK := f, query := fitBytes a.qtextLen a.qtext, object := a.passageObject, pack := none, outAddr := a.outAddr }
  | none, none =>
    { late := false, cross := false, lateWidth := r.params.k, finalK := r.params.k, query := [], object := 0, pack := none
      outAddr := r.params.outAddr }

/-- The candidates of a rerank that name one shard. -/
def candsOf (a : RerankArgs) (shard : Nat) : List Nat :=
  ((a.cands.take a.count).filter (fun x => decide (x.2 = shard))).map (fun x => x.1)

/-! ## Fan-out and re-issue (R178, R181) -/

def partMsg (s : State) (h : Home) (shard : Nat) (asReplica : Bool) : FwMsg :=
  .queryPart { home := ownId s, part := h.part, sq := h.sq, tag := h.tag, shard := shard, asReplica := asReplica
               params := h.run.params, cands := h.run.rerank.map (fun a => candsOf a shard), rounds := h.run.hasRounds }

/-- Send every other shard its part, to a former replica as one (R352): nothing goes to a device already lost, whose part SHARD_REISSUE
sends. -/
def fanOut (h : Home) (s : State) : State :=
  h.run.asked.foldl (fun s x =>
    let d := shardDevice h.run x.1
    sendFw d h.part (partMsg s h x.1 (decide (d ≠ x.2))) s) s

/-- The shard has entries in the list that the rounds go over. -/
def QueryRun.holdsEntries (r : QueryRun) (shard : Nat) : Bool := r.recs.any (fun x => decide (x.shard = shard))

/-- An answer of the shard is still to be merged: of its list, or of the round that goes on (R181). -/
def QueryRun.owes (r : QueryRun) (shard : Nat) : Bool :=
  decide (r.phase = 1) || ((decide (r.phase = 2) || decide (r.phase = 3)) && r.holdsEntries shard)

/-- A shard that owes an answer is lost: the query waits for its re-issue. -/
def QueryRun.blocked (s : State) (r : QueryRun) : Bool :=
  r.asked.any (fun x => r.owes x.1 && decide (shardDevice r x.1 ∈ s.fabric.lost))

/-! ## The lists (R180, R182, R183) -/

/-- The answers of the shards asked: of a re-issued shard, its replica's. -/
def gathered (r : QueryRun) : List ShardAnswer :=
  r.asked.filterMap (fun x => (r.ins.answers.find? (fun y => decide (y.shard = x.1))).map (fun y =>
    { y with reissued := y.reissued || r.reissued.any (fun z => decide (z.1 = x.1)) }))

def QueryRun.answers (r : QueryRun) : List ShardAnswer := r.own :: gathered r

/-- Shards answered by a replica (R182, R352). -/
def reissuedCount (r : QueryRun) : Nat := (r.answers.filter ShardAnswer.reissued).length

/-- The merged list that the rounds start from: width K, or every candidate of a rerank. -/
def baseMerge (r : QueryRun) : Merged :=
  mergeQuery r.snap.metric (match r.rerank with | some a => a.count | none => r.params.k) 0 r.answers

/-- Write the areas of a QRY_SEARCH (R184–R186). -/
def writeSearch (h : Home) (s : State) : QRes :=
  let r := h.run
  let k := r.params.k
  let n := reissuedCount r
  let ms := (List.range r.params.queryCount).map (fun i => mergeQuery r.snap.metric k i r.answers)
  let cond (m : Merged) : Nat := m.conditions k r.embedReduced (decide (n ≠ 0))
  let s := ms.zipIdx.foldl (fun s m =>
    hostWrite (1 + h.part) (r.params.outAddr + m.2 * (64 + 32 * k)) (areaBytes r.snap.num k r.epoch n (cond m.1) m.1) s) s
  .done s (ms.foldl (fun c m => c ||| cond m) 0) ((ms.filter (fun m => decide (m.recs.length < k))).length) r.epoch

/-! ## Late interaction (R196, R197, R236) -/

def QueryRun.ownRec (r : QueryRun) (x : Rec) : Bool := decide (x.shard = r.snap.shardOrdinal)

/-- The TOK8 record of an ordinal of the home's own shard cannot be read. -/
def QueryRun.tokLost (r : QueryRun) (o : Nat) : Bool :=
  decide (({ ordinal := o, form := .tok } : Skip) ∈ r.snap.skipped ++ r.params.deckBad)

/-- An entry's outcome: not known yet, dropped, or scored. -/
inductive LateOutcome where
  | waits | drops | scored (x : Rec)

/-- What late interaction makes of one entry. -/
def lateOne (r : QueryRun) (x : Rec) : LateOutcome :=
  let bare : Rec := { x with score := F.negInf, stage := 4, noTokens := true }
  if r.ownRec x then
    if r.tokLost x.ordinal then .drops
    else
      match tokOf r.snap x.ordinal with
      | some t => .scored { x with score := maxSim r.qtoks r.qscales t, stage := 4 }
      | none => .scored bare
  else if (x.shard, x.ordinal) ∈ r.ins.lateDropped then .drops
  else if (x.shard, x.ordinal) ∈ r.ins.noTokens then .scored bare
  else
    match r.ins.lateScores.find? (fun y => decide (y.1 = x.shard ∧ y.2.1 = x.ordinal)) with
    | some y => .scored { x with score := y.2.2, stage := 4 }
    | none => .waits

def LateOutcome.rec? : LateOutcome → Option Rec
  | .scored x => some x
  | _ => none

def LateOutcome.isWaiting : LateOutcome → Bool
  | .waits => true
  | _ => false

/-- Send each other shard the late-interaction part of its entries. -/
def sendLate (h : Home) (s : State) : State :=
  h.run.asked.foldl (fun s x =>
    let os := (h.run.recs.filter (fun r => decide (r.shard = x.1))).map (fun r => r.ordinal)
    if os.isEmpty then s
    else sendFw (shardDevice h.run x.1) h.part
      (.latePart { home := ownId s, part := h.part, sq := h.sq, tag := h.tag, shard := x.1, coll := h.run.coll
                   qcodes := h.run.qtoks, qscales := h.run.qscales, ordinals := os }) s) s

/-! ## Passage text and pairs (R198, R200) -/

/-- The text of an entry's passage, as it was read. -/
def entryText (r : QueryRun) (x : Rec) : List Byte :=
  ((r.ins.passages.find? (fun y => decide (y.1 = x.extId))).map (fun y => y.2)).getD []

def markMissing (r : QueryRun) (x : Rec) : Rec := { x with passageMissing := (entryText r x).isEmpty }

/-- Ask each other shard for the passage text of its entries, and read the home's own. -/
def askText (h : Home) (object : Nat) (s : State) : Home × State :=
  let r := h.run
  let own := (r.recs.filter r.ownRec).map (fun x => (x.extId, passageText s r.reduced h.part object x.extId))
  let s := r.asked.foldl (fun s x =>
    let ids := (r.recs.filter (fun y => decide (y.shard = x.1))).map (fun y => y.extId)
    if ids.isEmpty then s
    else sendFw (shardDevice r x.1) h.part
      (.passageRequest { home := ownId s, part := h.part, sq := h.sq, tag := h.tag, shard := x.1, object := object, ids := ids }) s) s
  ({ h with run := { r with ins := { r.ins with passages := own ++ r.ins.passages } } }, s)

/-- Every other shard with entries has returned its text. -/
def textReady (r : QueryRun) : Bool := r.asked.all (fun x => !r.holdsEntries x.1 || decide (x.1 ∈ r.ins.textFrom))

/-- Pairs of the cross-encoder: segment A the query, segment B the passage (R278). -/
def crossInputs (x : Cross) (r : QueryRun) (query : List Byte) : List RunIn :=
  let toks (bs : List Byte) : List Nat := (tokenise x.vocab true bs).map (fun t => t.1)
  r.recs.map (fun e => seqInput x.model (toks query) (toks (entryText r e)))

/-! ## The end of a retrieve or rerank (R193, R199) -/

/-- Fold what the query's runs observed, once nothing can fail any more. -/
def foldHeld (p : Nat) (r : QueryRun) (s : State) : State := r.held.foldl (fun s x => foldRun p x.1 x.2 s) s

/-- Pack the final passages (R199, R328), or the status that packing gives. -/
def packFinal (r : QueryRun) (d : Rounds) : Except (Nat × Nat) (Option (Vocab × PackParams × Packed)) :=
  match d.pack, r.retrieve, r.packVocab with
  | some a, some ra, some v =>
    match packRun v a (packQuery ra) (r.recs.map (fun x => (x.extId, entryText r x))) with
    | .error e => .error e
    | .ok k => .ok (some (v, a, k))
  | _, _, _ => .ok none

/-- Pack and write the final list. A prompt that does not fit leaves the device's state as it was (R109). -/
def writeRounds (h : Home) (s : State) : QRes :=
  let r := h.run
  let d := roundsOf r
  match packFinal r d with
  | .error e => .fail s e
  | .ok k =>
    let n := reissuedCount r
    let base := baseMerge r
    let m := { base with recs := r.recs, ties := r.ties, skipped := base.skipped + r.dropped }
    let c := m.conditions d.finalK r.embedReduced (decide (n ≠ 0))
    let s := hostWrite (1 + h.part) d.outAddr (areaBytes r.snap.num d.finalK r.epoch n c m) (foldHeld h.part r s)
    let s := match k with | some (v, a, x) => packWrite h.part v a x s | none => s
    .done s c (if r.recs.length < d.finalK then 1 else 0) r.epoch

/-! ## Going on -/

/-- The query waits. -/
def waitsOn (h : Home) (s : State) : QRes := { st := s, run := some (.query h.run) }

/-- A query ends with SHARD_UNAVAILABLE (R183). -/
def shardFails (s : State) (shard status : Nat) : QRes := { st := s, status := St.shardUnavailable, dA := shard, dB := status % 65536 }

/-- The cross-encoder's runs wait behind those admitted before, one pair a run. -/
def startCross (h : Home) (x : Cross) (d : Rounds) (s : State) : QRes :=
  waitsOn { h with run := { h.run with phase := 4 } }
    (queueRun { id := s.nextRun, part := h.part, sq := h.sq, tag := h.tag, model := x.model.serial, use := .query h.run.reduced
                generate := false, inputs := crossInputs x h.run d.query } s)

/-- Phase 3: the text is in. -/
def toCross (h : Home) (s : State) : QRes :=
  let d := roundsOf h.run
  match h.run.ins.refused.head? with
  | some x => shardFails s x.1 x.2
  | none =>
    if h.run.blocked s || !textReady h.run then waitsOn h s
    else
      let h := { h with run := { h.run with recs := h.run.recs.map (markMissing h.run) } }
      match (if d.cross then h.run.cross else none) with
      | some x => if h.run.recs.isEmpty then writeRounds h s else startCross h x d s
      | none => writeRounds h s

/-- From late interaction, or past it, to the passage text: the list is cut to its width. -/
def toText (h : Home) (s : State) : QRes :=
  let d := roundsOf h.run
  if d.cross || d.pack.isSome then
    let x := askText { h with run := { h.run with phase := 3 } } d.object s
    toCross x.1 x.2
  else writeRounds h s

/-- Phase 2: every entry has its late-interaction outcome. -/
def toLateEnd (h : Home) (s : State) : QRes :=
  let r := h.run
  let d := roundsOf r
  match r.ins.refused.head? with
  | some x => shardFails s x.1 x.2
  | none =>
    let out := r.recs.map (lateOne r)
    if r.blocked s || out.any LateOutcome.isWaiting then waitsOn h s
    else
      let l := sortBy (recAhead r.snap.metric) (out.filterMap LateOutcome.rec?)
      toText { h with run := { r with recs := l.take d.lateWidth, ties := tiesBeyond r.snap.metric d.lateWidth l
                                      dropped := r.recs.length - l.length } } s

/-- Phase 1: every shard's list is in, so the home merges (R180). -/
def toMerge (h : Home) (s : State) : QRes :=
  let r := h.run
  match (gathered r).find? (fun y => decide (y.status ≠ St.ok)) with
  | some y => shardFails s y.shard y.status
  | none =>
    if r.blocked s || decide ((gathered r).length < r.asked.length) then waitsOn h s
    else if !r.hasRounds then writeSearch h s
    else
      let d := roundsOf r
      if d.late then
        let h := { h with run := { r with phase := 2, recs := (baseMerge r).recs } }
        toLateEnd h (sendLate h s)
      else
        let m := mergeQuery r.snap.metric d.lateWidth 0 r.answers
        toText { h with run := { r with recs := m.recs, ties := m.ties } } s

/-- Go on as far as what has come in allows. -/
def goOn (h : Home) (s : State) : QRes :=
  match h.run.phase with
  | 1 => toMerge h s
  | 2 => toLateEnd h s
  | 3 => toCross h s
  | _ => waitsOn h s

/-- Begin a query whose vectors are there: the home's own part, then the other shards'. -/
def startHome (h : Home) (s : State) : QRes := goOn { h with run := { h.run with phase := 1 } } (fanOut h s)

/-- What becomes of a running query: it waits on, or it ends and tells the shards that keep something for its rounds. -/
def settleQuery (p : Nat) (x : Running) (y : QRes) : State :=
  match y.run with
  | some k => setRun p x k y.st
  | none =>
    let keeps := match x.kind with | .query r => r.hasRounds && decide (r.phase ≠ 0) | _ => false
    endRunning p x y.status y.cond y.dA y.dB (if keeps then tellEnd p x y.st else y.st)

/-! ## QRY_SEARCH -/

def searchChecks (a : SearchParams) (width : Nat) : List (Bool × Nat × Nat) :=
  [(!within 1 4096 a.k, St.invalidField, inBlock 2), (!within 1 16 a.queryCount, St.invalidField, inBlock 4),
   (decide (1 < a.inputType), St.invalidField, inBlock 5)] ++ searchFields a ++
  [(decide (a.queryAddr % 64 ≠ 0), St.invalidAddress, inBlock 32), (decide (a.outAddr % 64 ≠ 0), St.invalidAddress, inBlock 40),
   (decide (a.outLen < a.queryCount * (64 + 32 * width)), St.invalidField, inBlock 48)]

/-- A query admitted on a collection: what it captures (R136, R179, R204). -/
def admitted (s : State) (q : SqReq) (c : Coll) (a : SearchParams) : QueryRun :=
  { coll := c.num, params := a, epoch := c.committed, snap := c, cold := coldUnits s q.part c.num, vecs := []
    own := { shard := c.shardOrdinal, device := ownId s, status := St.ok, epoch := c.committed, reissued := false, lists := [] }
    asked := otherShards c, phase := 1
    reissued := ((otherShards c).filter (fun x => decide (shardTarget s c x ≠ x.2))).map (fun x => (x.1, shardTarget s c x))
    ins := noInputs q.part q.sq q.tag, reduced := reducedService s
    embedReduced := false, retrieve := none, rerank := none, cross := none, packVocab := none, qtoks := [], qscales := [] }

/-- Run the home's own part over the query's vectors, then begin. -/
def startSearch (h : Home) (qs : List (List F32)) (s : State) : QRes :=
  let x := runPart (h.run.part1 s h.part) qs s
  startHome { h with run := { h.run with vecs := qs, own := x.1 } } x.2

def searchBody (q : SqReq) (a0 : SearchParams) (s : State) : QRes :=
  onQuery s q.part a0.coll (fun c =>
    let a := searchDefaults a0
    qchecked s (searchChecks a a.k)
      (match prepQueries c a with
       | .error i => .fail s (St.invalidValue, i)
       | .ok qs => startSearch { part := q.part, sq := q.sq, tag := q.tag, run := admitted s q c a } qs s))

/-- QRY_SEARCH (R162–R191). -/
def execQrySearch (q : SqReq) (a : SearchParams) (s : State) : Result :=
  .next (queueFull q Op.qrySearch (some 192) (searchBody q a) s)

/-! ## QRY_RETRIEVE (R192–R199, R279) -/

/-- Handles that a retrieve names (R192). -/
def retrieveHandles (s : State) (p : Nat) (a : RetrieveArgs) : List (Bool × Nat × Nat) :=
  let t := part s p
  modelChecks t a.embedModel (inBlock 192) ++
  (if a.inputKind = 0 ∨ a.cross then vocabChecks t a.vocab (inBlock 194) else []) ++
  (if a.cross then modelChecks t a.xencModel (inBlock 202) else []) ++
  [((a.cross || a.pack) && (findObj s p a.passageObject).isNone, St.noSuchHandle, inBlock 216)]

/-- The fields of the retrieve block past its search block. With no such model there is no length for INPUT_LEN to have: its
handle answers (R192). -/
def retrieveFields (a : RetrieveArgs) (m : Option Model) : List (Bool × Nat × Nat) :=
  let k := a.search.k
  let f := dfltFinal k a.finalK
  [(decide (2 < a.inputKind), St.invalidField, inBlock 196), (a.cross && decide (a.inputKind ≠ 0), St.invalidField, inBlock 196),
   (!within 1 k f, St.invalidField, inBlock 198), (!within f k (dfltXenc k f a.xencK), St.invalidField, inBlock 200),
   (!a.cross && decide (a.xencModel ≠ 0), St.invalidField, inBlock 202),
   (if a.inputKind = 0 then !within 1 16384 a.inputLen else (match m with | some m => decide (m.inputBytes ≠ a.inputLen) | none => false),
     St.invalidField, inBlock 204),
   (decide (a.inputAddr % 64 ≠ 0), St.invalidAddress, inBlock 208),
   (!(a.cross || a.pack) && decide (a.passageObject ≠ 0), St.invalidField, inBlock 216),
   (a.pack && decide (a.packAddr % 64 ≠ 0), St.invalidAddress, inBlock 224),
   (!a.pack && decide (a.packAddr ≠ 0), St.invalidField, inBlock 224)]

/-- The models' shapes fit (R194, R279): input binding, D pooled elements, 128 elements a token for late interaction, and a
cross-encoder over pairs with a pooled element. -/
def shapesFit (c : Coll) (a : RetrieveArgs) (late : Bool) (m : Model) (x : Option Model) : Bool :=
  decide (m.inputBinding = (if a.inputKind = 0 then 0 else a.inputKind + 1)) && decide (m.pooledDim = c.dim) &&
    (!late || decide (m.tokenDim = 128)) &&
    (!a.cross || (match x with | some x => decide (x.inputBinding = 1) && decide (0 < x.pooledDim) | none => false))

/-- The embedding's input. -/
def embedInput (m : Model) (v : Option Vocab) (a : RetrieveArgs) : RunIn :=
  itemInput m v (if a.inputKind = 0 then 1 else a.inputKind + 1) { lenA := a.inputLen, lenB := 0, a := a.input, b := [] }

/-- Rows of the token output that are the query's own (R195): CLS and SEP rows left out, the first 64. -/
def ownRows (m : Model) (x : RunIn) (o : EncOut) : List (List F32) :=
  let rows := if m.inputBinding ≤ 1 then
      (o.rows.drop (optId m.cls).length).take (x.seq.length - (optId m.cls ++ optId m.sep).length)
    else o.rows
  rows.take 64

/-- PROMPT_PACK's own checks at admission (R193). -/
def packAdmission (s : State) (p : Nat) (a : RetrieveArgs) : Option (Nat × Nat) :=
  if !a.pack then none
  else
    match firstFail (packChecks (part s p) a.packParams true inBlock) with
    | some e => some e
    | none =>
      match findVocab (part s p) a.packParams.vocab with
      | none => some (St.noSuchHandle, inBlock 0)
      | some v => match packFixed v a.packParams (packQuery a) with | .error e => some e | .ok _ => none

/-- What a retrieve captures besides. -/
def admittedRetrieve (s : State) (q : SqReq) (c : Coll) (a : RetrieveArgs) (k : SearchParams) (xm : Option Model) : QueryRun :=
  let t := part s q.part
  { admitted s q c k with
    phase := 0, retrieve := some a
    cross := xm.bind (fun m => (findVocab t a.vocab).map (fun v => { model := m, vocab := v }))
    packVocab := if a.pack then findVocab t a.packParams.vocab else none }

def retrieveBody (q : SqReq) (a : RetrieveArgs) (s : State) : QRes :=
  onQuery s q.part a.search.coll (fun c =>
    let k := { searchDefaults a.search with queryCount := a.search.queryCount, inputType := 0, queryAddr := 0 }
    let t := part s q.part
    let em := findModel t a.embedModel
    qchecked s
      ((decide (a.search.queryCount ≠ 1), St.invalidField, inBlock 4) :: searchChecks k (dfltFinal k.k a.finalK) ++
       retrieveFields a em ++ retrieveHandles s q.part a)
      (match packAdmission s q.part a with
       | some e => .fail s e
       | none =>
         match em with
         | none => .fail s (St.noSuchHandle, inBlock 192)
         | some m =>
           let full := !reducedService s
           let late := c.tokens && !a.noLate && full
           let xm := if a.cross then findModel t a.xencModel else none
           if !shapesFit c a late m xm then .fail s (St.modelMismatch, 0)
           else if (variantNow s m).isNone || (a.cross && full && ((xm.bind (variantNow s)).isNone)) then .fail s (St.notReady, 0)
           else
             let r := admittedRetrieve s q c a k xm
             { st := queueRun { id := s.nextRun, part := q.part, sq := q.sq, tag := q.tag, model := m.serial, use := .query r.reduced
                                generate := false, inputs := [embedInput m (findVocab t a.vocab) a] } s
               run := some (.query r) }))

/-- QRY_RETRIEVE: the embedding runs first. -/
def execQryRetrieve (q : SqReq) (a : RetrieveArgs) (s : State) : Result :=
  .next (queueFull q Op.qryRetrieve (some 320) (retrieveBody q a) s)

/-- What the query's runs observed folds at once, or waits for the prompt. -/
def keepObs (serial : Nat) (obs : List (List (Nat × F32 × F32))) (h : Home) (s : State) : Home × State :=
  if h.run.packVocab.isSome then
    ({ h with run := { h.run with held := h.run.held ++ obs.map (fun o => (serial, o)) } }, s)
  else (h, obs.foldl (fun s o => foldRun h.part serial o s) s)

/-- The embedding is done: its pooled output is the query vector, its token rows the query's token vectors (R194, R195). -/
def embedDone (h : Home) (m : Model) (x : RunIn) (o : EncOut) (reduced : Bool) (obs : List (Nat × F32 × F32)) (s : State) : QRes :=
  let k := { h.run.params with queryCount := 1, inputType := 0, queries := [o.pooled.map BitVec.toNat] }
  match prepQueries h.run.snap k with
  | .error i => .fail s (St.invalidValue, i)
  | .ok qs =>
    let t := codeTokens h.run.snap (ownRows m x o)
    let y := keepObs m.serial [obs] h s
    startSearch { y.1 with run := { y.1.run with params := k, embedReduced := reduced, qtoks := t.codes, qscales := t.scales } } qs y.2

/-- The pairs are done: element 0 of each output scores its entry (R198). -/
def pairsDone (h : Home) (outs : List EncOut) (reduced : Bool) (s : State) : QRes :=
  let r := h.run
  let d := roundsOf r
  let scored := List.zipWith (fun (x : Rec) (o : EncOut) => { x with score := o.pooled.headD 0, stage := 5 }) r.recs outs
  let l := sortBy (recAhead r.snap.metric) scored
  writeRounds { h with run := { r with recs := l.take d.finalK, ties := tiesBeyond r.snap.metric d.finalK l
                                       embedReduced := r.embedReduced || reduced } } s

/-! ## QRY_RERANK (R201) -/

def rerankChecks (s : State) (p : Nat) (c : Coll) (a : RerankArgs) : List (Bool × Nat × Nat) :=
  let t := part s p
  let f := dfltFinal a.count a.finalK
  [(!within 1 4096 a.count, St.invalidField, inBlock 2), (!within 1 a.count f, St.invalidField, inBlock 4),
   (!a.late && !a.cross, St.invalidField, inBlock 6), (a.late && !c.tokens, St.invalidField, inBlock 6),
   (decide (1 < a.inputType), St.invalidField, inBlock 7),
   (if a.late then !within 1 64 a.qtokens else decide (a.qtokens ≠ 0), St.invalidField, inBlock 8)] ++
  (if a.cross then modelChecks t a.xencModel (inBlock 10) ++ vocabChecks t a.vocab (inBlock 12) else []) ++
  [(a.late && a.cross && !within f a.count (dfltXenc a.count f a.xencK), St.invalidField, inBlock 14),
   (decide (a.idsAddr % 64 ≠ 0), St.invalidAddress, inBlock 16),
   (a.late && decide (a.qtokAddr % 64 ≠ 0), St.invalidAddress, inBlock 24),
   (a.cross && decide (a.qtextAddr % 64 ≠ 0), St.invalidAddress, inBlock 32),
   (a.cross && !within 1 16384 a.qtextLen, St.invalidField, inBlock 40),
   (decide (a.outLen < 64 + 32 * f), St.invalidField, inBlock 44), (decide (a.outAddr % 64 ≠ 0), St.invalidAddress, inBlock 48),
   (a.cross && (findObj s p a.passageObject).isNone, St.noSuchHandle, inBlock 56)]

/-- The host's query token vectors, or the index of the first that cannot be used (R166, R618). -/
def hostTokens (c : Coll) (a : RerankArgs) : Except Nat (List (List F32)) :=
  let l := (List.range (if a.late then a.qtokens else 0)).map (fun i =>
    prepVec c.metric true ((c.seed + 1) % 2 ^ 64) (fitRaw a.inputType 128 (a.qtoks.getD i [])))
  match l.findIdx? (fun q => q.isNone) with
  | some i => .error i
  | none => .ok (l.filterMap id)

def blankParams (coll k outAddr : Nat) : SearchParams :=
  { coll := coll, k := k, queryCount := 1, inputType := 0, nprobe := 0, c1 := 0, c2 := 0, noInt4 := false, noFull := false
    refill := 0, filterJoin := 0, filters := [], queryAddr := 0, outAddr := outAddr, outLen := 0, queries := [] }

def rerankBody (q : SqReq) (a : RerankArgs) (s : State) : QRes :=
  onQuery s q.part a.coll (fun c =>
    let t := part s q.part
    qchecked s (rerankChecks s q.part c a)
      (let xm := if a.cross then findModel t a.xencModel else none
       if a.cross && !((xm.map (fun m => decide (m.inputBinding = 1) && decide (0 < m.pooledDim))).getD false) then
         .fail s (St.modelMismatch, 0)
       else if a.cross && (xm.bind (variantNow s)).isNone then .fail s (St.notReady, 0)
       else
         match hostTokens c a with
         | .error i => .fail s (St.invalidValue, i)
         | .ok ts =>
           let k := tok8 ts
           let run := { admitted s q c (blankParams a.coll a.count a.outAddr) with
                        own := resolvePart s c false (candsOf a c.shardOrdinal)
                        asked := (otherShards c).filter (fun x => !(candsOf a x.1).isEmpty), rerank := some a
                        cross := xm.bind (fun m => (findVocab t a.vocab).map (fun v => { model := m, vocab := v }))
                        qtoks := k.codes, qscales := k.scales }
           startHome { part := q.part, sq := q.sq, tag := q.tag, run := run } s))

/-- QRY_RERANK. -/
def execQryRerank (q : SqReq) (a : RerankArgs) (s : State) : Result :=
  .next (queueFull q Op.qryRerank (some 64) (rerankBody q a) s)

/-! ## QRY_CANCEL (R202, R203) -/

def qryCancelBody (p tsq ttag : Nat) (s : State) : QRes :=
  qchecked s [(decide (63 < tsq), St.invalidField, 16)]
    (let sel (r : Running) : Bool := decide (r.sq = tsq) && decide (r.tag = ttag) && isQry r.opcode
     if (part s p).running.any sel then { st := cancelRunning p sel s, dA := 1 } else { st := s })

/-- QRY_CANCEL. -/
def execQryCancel (q : SqReq) (targetSq targetTag : Nat) (s : State) : Result :=
  .next (queue q Op.qryCancel (qryCancelBody q.part targetSq targetTag) s)

/-! ## COLL_AUDIT (R161, R167) -/

/-- The exact list: every visible version scored from its best stored format, under the block's filter. -/
def exactSearch (c : Coll) (e k : Nat) (a : SearchParams) (q : List F32) : List Scored :=
  let l := (places c).filterMap (fun pl => (recOf c pl.ordinal).bind (fun r =>
    if r.visible e && (a.filters.isEmpty || passes a r.attrs) then
      let two := if pl.isGreen then twoPieces 2 c.dim else twoPieces c.format c.dim
      let v := score c.metric two q (storedVec c pl.ordinal)
      some ({ at_ := pl, row := r, score := v, key := rankKey (higherBetter c.metric) v, stage := 3 } : Scored)
    else none))
  (selectBest k l).1

/-- OVERLAP, EXACT_COUNT and RECALL of one query. -/
def auditQuery (x : Part1) (q : List F32) : Nat × Nat × F32 :=
  let exact := (exactSearch x.coll x.epoch x.params.k x.params q).map (fun y => y.row.extId)
  let found := (cascade x q).1.records.map Rec.extId
  let n := (exact.filter (fun i => decide (i ∈ found))).length
  (n, exact.length, if exact.isEmpty then F.one else F.div (F.ofNat n) (F.ofNat exact.length))

/-- The audit's output: header with the mean recall, then 16 bytes a query. -/
def auditBytes (epoch : Nat) (l : List (Nat × Nat × F32)) : List Byte :=
  le 6 epoch ++ zeros 2 ++ le 4 (F.div (l.foldl (fun acc x => F.add acc x.2.2) F.zero) (F.ofNat l.length)).toNat ++ zeros 4 ++
    l.flatMap (fun x => le 2 x.1 ++ le 2 x.2.1 ++ zeros 4 ++ le 4 x.2.2.toNat ++ zeros 4)

def auditBody (r : MbxReq) (a : AuditArgs) (s : State) : MRes :=
  onNamed s r.partition a.coll (fun c =>
    let k := searchDefaults { a.block with k := a.k, queryCount := a.queryCount, inputType := 0
                                           queries := a.queries.map (fun q => q.map BitVec.toNat) }
    checked s
      ((decide (c.kind ≠ 0), St.wrongKind, 32) :: (!within 1 1024 a.k, St.invalidField, 34) ::
       (!within 1 256 a.queryCount, St.invalidField, 36) :: searchFields k)
      (match prepQueries c k with
       | .error i => .fail s (St.invalidValue, i)
       | .ok qs =>
         let x := part1 s r.partition c false k
         accept r Op.collAudit St.ok 0 .nothing
           (hostWrite (mailboxFn r.mbx) a.outAddr (auditBytes x.epoch (qs.map (auditQuery x))) s)))

/-- COLL_AUDIT. -/
def execCollAudit (r : MbxReq) (a : AuditArgs) (s : State) : Result :=
  .next (mailbox r Op.collAudit [40] (auditBody r a) s)

/-! ## What comes in at the home (R180–R183) -/

/-- The running query that a message or a re-issue names. -/
def runningQuery (s : State) (p sq tag : Nat) : Option (Running × QueryRun) :=
  ((part s p).running.find? (fun r => decide (r.sq = sq) && decide (r.tag = tag))).bind (fun r =>
    match r.kind with | .query q => some (r, q) | _ => none)

/-- Change what a running query has come to, and go on. -/
def onQueryRun (p sq tag : Nat) (f : QueryRun → QueryRun) (s : State) : State :=
  match runningQuery s p sq tag with
  | none => s
  | some (x, r) => if firmwareRuns s then settleQuery p x (goOn { part := p, sq := sq, tag := tag, run := f r } s) else s

/-- The shard is asked, and not of a device that is lost: what a lost device sends is discarded (R182). -/
def QueryRun.listens (s : State) (r : QueryRun) (shard : Nat) : Bool :=
  r.asked.any (fun x => decide (x.1 = shard)) && decide (shardDevice r shard ∉ s.fabric.lost)

/-- Take a shard's list. -/
def takeAnswer (s : State) (a : ShardAnswer) (r : QueryRun) : QueryRun :=
  if r.phase = 1 && r.listens s a.shard && decide (shardDevice r a.shard = a.device) && !(r.ins.answers.any (fun y => y.shard = a.shard)) then
    { r with ins := { r.ins with answers := r.ins.answers ++ [a] } }
  else r

/-- Take a shard's scores of late interaction: (shard, ordinal, score), entries without tokens, entries dropped. -/
def takeLate (s : State) (scores : List (Nat × Nat × F32)) (noToks dropped : List (Nat × Nat)) (r : QueryRun) : QueryRun :=
  if r.phase = 2 then
    { r with ins := { r.ins with
      lateScores := r.ins.lateScores ++ scores.filter (fun x => r.listens s x.1)
      noTokens := r.ins.noTokens ++ noToks.filter (fun x => r.listens s x.1)
      lateDropped := r.ins.lateDropped ++ dropped.filter (fun x => r.listens s x.1) } }
  else r

/-- Take passage text, and the shards that have returned theirs. -/
def takeText (s : State) (texts : List (Nat × List Byte)) (froms : List Nat) (r : QueryRun) : QueryRun :=
  if r.phase = 3 then
    { r with ins := { r.ins with passages := r.ins.passages ++ texts
                                 textFrom := r.ins.textFrom ++ froms.filter (r.listens s) } }
  else r

/-- Take a shard's refusal of the round that goes on (R183). -/
def takeRefusal (s : State) (x : Nat × Nat) (r : QueryRun) : QueryRun :=
  if (decide (r.phase = 2) || decide (r.phase = 3)) && r.owes x.1 && r.listens s x.1 then
    { r with ins := { r.ins with refused := r.ins.refused ++ [x] } }
  else r

/-- SHARD_MERGE: what other shards have returned comes in, and the query goes on. -/
def execShardMerge (a : MergeArgs) (s : State) : Result :=
  .next (onQueryRun a.part a.sq a.tag (fun r =>
    let r := a.answers.foldl (fun r x => takeAnswer s x r) r
    let r := takeText s a.passages a.textFrom (takeLate s a.lateScores a.noTokens a.lateDropped r)
    a.refused.foldl (fun r x => takeRefusal s x r) r) s)

/-- SHARD_REISSUE: a lost device's part goes whole to the lowest-numbered reachable replica and the merge runs again; without one
the query ends. -/
def execShardReissue (a : ReissueArgs) (s : State) : Result :=
  .next
    (match runningQuery s a.part a.sq a.tag with
     | none => s
     | some (x, r) =>
       if !firmwareRuns s || !(r.asked.any (fun y => decide (y.1 = a.shard))) || !r.owes a.shard ||
           decide (shardDevice r a.shard ∉ s.fabric.lost) then s
       else
         match liveReplicas s ((findColl s a.part r.coll).getD r.snap) a.shard with
         | [] => settleQuery a.part x (shardFails s a.shard 0)
         | d :: _ =>
           let r := { r with
             reissued := r.reissued.filter (fun z => decide (z.1 ≠ a.shard)) ++ [(a.shard, d)], phase := 1, recs := [], ties := 0
             dropped := 0
             ins := { noInputs a.part a.sq a.tag with answers := r.ins.answers.filter (fun z => decide (z.shard ≠ a.shard)) } }
           let h : Home := { part := a.part, sq := a.sq, tag := a.tag, run := r }
           setRun a.part x (.query r) (sendFw d a.part (partMsg s h a.shard true) s))

/-! ## Parts that this device runs for other homes (R178, R179, R196, R200, R203) -/

def failAnswer (s : State) (shard status : Nat) : ShardAnswer :=
  { shard := shard, device := ownId s, status := status, epoch := 0, reissued := false, lists := [] }

/-- The status with which a device answers a peer that it does not serve now (R565, R572), or none. -/
def peerGate (s : State) (p : Nat) : Option Nat :=
  if holding s then some St.notReady else gate s Op.qrySearch (some p) true

/-- The shard that a part message names, held here as its kind asks. -/
def partColl (s : State) (m : PartMsg) : Except Nat Coll :=
  match findShard s m.part m.params.coll m.shard with
  | none => .error St.noSuchCollection
  | some c =>
    if c.kind ≠ 0 then .error St.wrongKind
    else if c.role ≠ 0 ∧ !m.asReplica then .error St.wrongState
    else .ok c

def isGuest (home sq tag : Nat) (g : Guest) : Bool := decide (g.home = home) && decide (g.sq = sq) && decide (g.tag = tag)

def dropGuest (home p sq tag : Nat) (s : State) : State :=
  onPart p (fun t => { t with guests := t.guests.filter (fun g => !isGuest home sq tag g) }) s

def findGuest (s : State) (home p sq tag : Nat) : Option Guest := (part s p).guests.find? (isGuest home sq tag)

/-- What a part with rounds to come keeps here: its epoch, its segment list and its service level (R134, R136, R204). -/
def keepGuest (m : PartMsg) (c : Coll) (s : State) : State :=
  if m.rounds then
    let g : Guest := { home := m.home, sq := m.sq, tag := m.tag, coll := c.num, epoch := c.committed, reduced := reducedService s
                       snap := { c with skipped := c.skipped ++ m.params.deckBad } }
    onPart m.part (fun t => { t with guests := t.guests ++ [g] }) (dropGuest m.home m.part m.sq m.tag s)
  else s

/-- A shard's answer to a part, and the state after it. -/
def shardAnswer (m : PartMsg) (s : State) : ShardAnswer × State :=
  match peerGate s m.part with
  | some st => (failAnswer s m.shard st, s)
  | none =>
    match partColl s m with
    | .error st => (failAnswer s m.shard st, s)
    | .ok c =>
      match m.cands with
      | some ids => (resolvePart s c m.asReplica ids, keepGuest m c s)
      | none =>
        match prepQueries c (searchDefaults m.params) with
        | .error _ => (failAnswer s m.shard St.invalidValue, s)
        | .ok qs => runPart (part1 s m.part c m.asReplica (searchDefaults m.params)) qs (keepGuest m c s)

/-- Run a part for another home. -/
def runShardPart (m : PartMsg) (s : State) : State :=
  if firmwareRuns s then let x := shardAnswer m s; sendFw m.home m.part (.queryAnswer m.sq m.tag x.1) x.2 else s

/-- SHARD_PART: this device runs a part and returns its answer to the home. -/
def execShardPart (m : PartMsg) (s : State) : Result := .next (runShardPart m s)

/-- What a later round of a query of another home runs on, or the status with which it is refused: what its part captured, else the
collection as it stands. -/
def roundBase (s : State) (home p sq tag coll shard : Nat) : Except Nat (Coll × Bool) :=
  if holding s then .error St.notReady
  else
    match findGuest s home p sq tag with
    | some g => .ok (g.snap, g.reduced)
    | none =>
      match peerGate s p with
      | some st => .error st
      | none => match findShard s p coll shard with | some c => .ok (c, reducedService s) | none => .error St.noSuchCollection

/-- Score a part of late interaction: scores, entries without tokens, entries dropped (R196, R205, R236). A part that was admitted in
reduced service runs none: its entries count as without token vectors (log entry 41). -/
def lateAnswer (m : LateMsg) (c : Coll) (reduced : Bool) : List (Nat × F32) × List Nat × List Nat :=
  if reduced then ([], m.ordinals, [])
  else
    let lost (o : Nat) : Bool := decide (o ∈ m.unreadable) || decide (({ ordinal := o, form := .tok } : Skip) ∈ c.skipped)
    let live := m.ordinals.filter (fun o => !lost o)
    (live.filterMap (fun o => (tokOf c o).map (fun t => (o, maxSim m.qcodes m.qscales t))),
     live.filter (fun o => (tokOf c o).isNone), m.ordinals.filter lost)

/-- Run a late-interaction part for another home. -/
def runLatePart (m : LateMsg) (s : State) : State :=
  if firmwareRuns s then
    match roundBase s m.home m.part m.sq m.tag m.coll m.shard with
    | .error st => sendFw m.home m.part (.lateAnswer m.sq m.tag m.shard st [] [] []) s
    | .ok b =>
      let x := lateAnswer m b.1 b.2
      sendFw m.home m.part (.lateAnswer m.sq m.tag m.shard St.ok x.1 x.2.1 x.2.2)
        (x.1.foldl (fun s y => heatUnit m.part (.tok8 b.1.num y.1) s) s)
  else s

/-- LATE_INTERACTION_PART. -/
def execLateInteractionPart (m : LateMsg) (s : State) : Result := .next (runLatePart m s)

/-- Look up passage text for another home (R200). -/
def runPassageFetch (m : PassageMsg) (s : State) : State :=
  if firmwareRuns s then
    let refuse (st : Nat) : State := sendFw m.home m.part (.passageAnswer m.sq m.tag m.shard st [] []) s
    match (if holding s then some St.notReady
           else if (findGuest s m.home m.part m.sq m.tag).isSome then none else peerGate s m.part) with
    | some st => refuse st
    | none =>
      let reduced := ((findGuest s m.home m.part m.sq m.tag).map Guest.reduced).getD (reducedService s)
      let text (id : Nat) : List Byte := passageText s reduced m.part m.object id
      sendFw m.home m.part (.passageAnswer m.sq m.tag m.shard St.ok
        ((m.ids.filter (fun i => !(text i).isEmpty)).map (fun i => (i, text i))) (m.ids.filter (fun i => (text i).isEmpty))) s
  else s

/-- PASSAGE_FETCH: this device's own passage store answers for its entries. -/
def execPassageFetch (home p : Nat) (q : PassageQuery) (ids : List Nat) (s : State) : Result :=
  .next (runPassageFetch { toPassageQuery := q, home := home, part := p, ids := ids } s)

/-- SHARD_CANCELLATION: each part that this device runs is one step, so none is in progress to be stopped; what is kept for the
command's later rounds goes (R203). -/
def execShardCancellation (home p : Nat) (c : CommandName) (s : State) : Result :=
  .next (if firmwareRuns s then dropGuest home p c.sq c.tag s else s)

end Sys2Proof.Machine
end

