-- ==== Sys2Proof/Machine/Attend.lean ====
section
/-! DEFINITION. Sys2Proof/Machine/Attend.lean: the key and value cache pool: QRY_ATTEND in its three modes, a holder's part, and
expiry (R223, R224, R236, R353–R363). -/
namespace Sys2Proof.Machine

/-! ## Entries (R354–R356, R361) -/

def findKv (t : Part) (key : Nat) : Option KvEntry := t.kv.find? (fun e => decide (e.key = key))

/-- TTL_S seconds have passed since the entry was last named (R361). -/
def kvExpired (s : State) (e : KvEntry) : Bool := decide (e.named + e.ttl * 1000000 ≤ s.time)

/-- T of R356. -/
def kvBlockTokens (enc dh : Nat) : Nat := min 64 (4032 / (if enc = 0 then 2 * dh + 4 else 4 * dh))

/-- Blocks of an entry: per head, its tokens by T. -/
def kvBlocks (enc dh kvHeads tokens : Nat) : Nat := kvHeads * ceilDiv tokens (kvBlockTokens enc dh)

def KvEntry.bytes (e : KvEntry) : Nat := 4096 * kvBlocks e.enc e.dh e.kvHeads e.tokens

/-- A vector as it is stored (R354). -/
def kvCode (enc : Nat) (x : List F32) : KvVec :=
  if enc = 0 then
    let sigma := int8Scale x
    { codes := x.map (fun v => (BitVec.ofInt 8 (int8Code sigma v)).toNat), sigma := sigma }
  else { codes := x.map (fun v => (bfOf32 v).toNat), sigma := 0 }

/-- A stored vector as it reads back (R354). -/
def kvRead (enc : Nat) (x : KvVec) : List F32 :=
  if enc = 0 then x.codes.map (fun n => F.mul (hTo32 x.sigma) (F.ofInt (BitVec.ofNat 8 n).toInt))
  else x.codes.map (fun n => bfTo32 (BitVec.ofNat 16 n))

/-- The bytes of block `b` of head `h` of an entry (*Cache block*). -/
def kvBlockBytes (e : KvEntry) (h b : Nat) : List Byte :=
  let n := kvBlockTokens e.enc e.dh
  let w := if e.enc = 0 then 1 else 2
  let toks := ((e.heads.getD h []).drop (b * n)).take n
  let tok (x : KvTok) : List Byte :=
    x.k.codes.flatMap (le w) ++ x.v.codes.flatMap (le w) ++
      (if e.enc = 0 then le 2 x.k.sigma.toNat ++ le 2 x.v.sigma.toNat else [])
  fitBytes 4096 (le 8 e.key ++ le 4 (b * n) ++ le 1 toks.length ++ le 1 h ++ le 1 e.enc ++ zeros 1 ++ le 2 e.dh ++ zeros 46 ++
    toks.flatMap tok)

/-- Remove an entry and its unit. -/
def dropKv (p key : Nat) (s : State) : State :=
  dropUnits (sameUnit p (.kv key)) (onPart p (fun t => { t with kv := t.kv.filter (fun e => decide (e.key ≠ key)) }) s)

def kvUnits (s : State) : List PUnit :=
  s.skidder.units.filter (fun u => match u.kind with | .kv _ => true | _ => false)

def kvCount (s : State) : Nat := (s.parts.map (fun t => t.kv.length)).sum

/-- Where an entry of `n` bytes has room: HBM within 64 GB, else flash within 1 TB, else nowhere (R361, R525). -/
def kvRoom (s : State) (p n : Nat) : Option UnitLoc :=
  let share := shareIn (layoutValue s) p
  if 1048576 ≤ kvCount s then none
  else if ((kvUnits s).map PUnit.hbm).sum + n ≤ 64000000000 ∧ hbmRoom s p n then some .hbm
  else if ((kvUnits s).map PUnit.flash).sum + n ≤ 1000000000000 ∧ flashUsed s + n ≤ s.deck.capacity ∧
      (share = 0 ∨ flashOf s p + n ≤ share * s.deck.capacity / 256) then some .flash
  else none

/-- Entries that a STORE of partition `p` may remove, in order (R362): expired ones, then its own, least recently named
first. -/
def kvVictims (s : State) (p : Nat) : List (Nat × Nat) :=
  let all := (List.range 12).flatMap (fun i => (part s i).kv.map (fun e => (i, e)))
  let byName (l : List (Nat × KvEntry)) : List (Nat × Nat) :=
    (sortBy (fun (a b : Nat × KvEntry) => decide (a.2.named < b.2.named)) l).map (fun x => (x.1, x.2.key))
  byName (all.filter (fun x => kvExpired s x.2)) ++ byName (all.filter (fun x => !kvExpired s x.2 && decide (x.1 = p)))

/-- Remove victims until the entry has room. -/
def kvMakeRoom (p n : Nat) : List (Nat × Nat) → State → State
  | [], s => s
  | v :: vs, s =>
    if (kvRoom s p n).isSome then s
    else
      let s := dropKv v.1 v.2 s
      kvMakeRoom p n vs { s with skidder := { s.skidder with kvEvicted := s.skidder.kvEvicted + 1 } }

/-! ## STORE -/

/-- The vectors of one token: per head, DH components. -/
def kvRow (a : StoreArgs) (l : List (List (List Nat))) (t : Nat) : List (List F32) :=
  (List.range a.kvHeads).map (fun h => fitRaw a.inputType a.dh ((l.getD t []).getD h []))

/-- The first token with a component that is not finite. -/
def kvBadToken (a : StoreArgs) : Option Nat :=
  (List.range a.count).find? (fun t => (kvRow a a.keys t ++ kvRow a a.values t).any (fun v => !v.all F.finite))

def kvEntryOf (s : State) (a : StoreArgs) : KvEntry :=
  let ks := (List.range a.count).map (kvRow a a.keys)
  let vs := (List.range a.count).map (kvRow a a.values)
  { key := a.key, enc := a.enc, dh := a.dh, kvHeads := a.kvHeads, tokens := a.count
    heads := (List.range a.kvHeads).map (fun h =>
      List.zipWith (fun k v => { k := kvCode a.enc (k.getD h []), v := kvCode a.enc (v.getD h []) }) ks vs)
    ttl := dflt 600 a.ttl, named := s.time }

def storeChecks (a : StoreArgs) : List (Bool × Nat × Nat) :=
  [(decide (1 < a.enc), St.invalidField, inBlock 1), (!within 32 256 a.dh || decide (a.dh % 32 ≠ 0), St.invalidField, inBlock 2),
   (!within 1 64 a.kvHeads, St.invalidField, inBlock 4), (decide (1 < a.inputType), St.invalidField, inBlock 6),
   (!within 1 65536 a.count, St.invalidField, inBlock 8), (!within 1 (2 ^ 64 - 1) a.key, St.invalidField, inBlock 16),
   (decide (a.inAddr % 64 ≠ 0), St.invalidAddress, inBlock 24),
   (!within 1 86400 (dflt 600 a.ttl), St.invalidField, inBlock 52)]

def storeBody (p : Nat) (a : StoreArgs) (s : State) : QRes :=
  qchecked s (storeChecks a)
    (match kvBadToken a with
     | some t => .fail s (St.invalidValue, t)
     | none =>
       let e := kvEntryOf s a
       let s0 := dropKv p a.key s
       let s1 := kvMakeRoom p e.bytes (kvVictims s0 p) s0
       match kvRoom s1 p e.bytes with
       | none => .fail s (St.noMemory, 0)
       | some loc =>
         let s2 := addUnit p (.kv a.key) 2 loc e.bytes 0 (onPart p (fun t => { t with kv := t.kv ++ [e] }) s1)
         { st := heatUnit p (.kv a.key) s2, dA := kvBlocks e.enc e.dh e.kvHeads e.tokens })

/-- QRY_ATTEND, MODE STORE. -/
def execQryAttendStore (q : SqReq) (a : StoreArgs) (s : State) : Result :=
  .next (queueFull q Op.qryAttend (some 64) (storeBody q.part a) s)

/-! ## DROP -/

def dropBody (p : Nat) (a : DropArgs) (s : State) : QRes :=
  qchecked s [(!within 1 1024 a.count, St.invalidField, inBlock 8), (decide (a.inAddr % 64 ≠ 0), St.invalidAddress, inBlock 24)]
    (let keys := a.keys.take a.count ++ List.replicate (a.count - a.keys.length) 0
     let held (t : State) (k : Nat) : Bool := match findKv (part t p) k with | some e => !kvExpired t e | none => false
     let r := keys.foldl (fun (x : State × Nat) k => (dropKv p k x.1, if held x.1 k then x.2 else x.2 + 1)) (s, 0)
     { st := r.1, dA := r.2 })

/-- QRY_ATTEND, MODE DROP. -/
def execQryAttendDrop (q : SqReq) (a : DropArgs) (s : State) : Result :=
  .next (queueFull q Op.qryAttend (some 64) (dropBody q.part a) s)

/-! ## A holder's part (R223, R224, R357, R358) -/

/-- Positions of an entry that a list entry uses. -/
def kvSpan (e : KvEntry) (x : AttendEntry) : Nat × Nat :=
  (x.firstToken, if x.tokenCount = 0 then e.tokens else min e.tokens (x.firstToken + x.tokenCount))

/-- One block's state for one query head: the used positions of the block in ascending order. -/
def kvBlockState (q : List F32) (scale : F32) (enc dh lo hi T b : Nat) (bad : Nat → Bool) (toks : List KvTok) : HeadState :=
  ((List.range T).map (fun j => b * T + j)).foldl (fun h i =>
    if lo ≤ i ∧ i < hi then
      match toks[i]? with | some t => attendToken q scale h (bad i) (kvRead enc t.k) (kvRead enc t.v) | none => h
    else h) (headStart dh)

/-- Blocks that hold a used position. -/
def kvUsedBlocks (lo hi T : Nat) : List Nat := if hi ≤ lo then [] else (List.range (ceilDiv hi T)).filter (fun b => decide (lo < (b + 1) * T))

/-- One query head over an entry: the fold of its blocks' states. -/
def kvHead (e : KvEntry) (x : AttendEntry) (scale : F32) (bad : Nat → Bool) (q : List F32) (kvHead : Nat) : HeadState :=
  let sp := kvSpan e x
  let T := kvBlockTokens e.enc e.dh
  (kvUsedBlocks sp.1 sp.2 T).foldl (fun h b =>
    combineHeads h (kvBlockState q scale e.enc e.dh sp.1 sp.2 T b bad (e.heads.getD kvHead []))) (headStart e.dh)

/-- A holder's answer for one list entry. -/
def holderAnswer (s : State) (p index dh kvHeads qHeads : Nat) (scale : F32) (x : AttendEntry) (queries : List (List F32))
    (bad : Nat → Bool) : HolderAnswer :=
  let none_ : HolderAnswer := { index := index, missing := true, mismatch := false, blocks := 0, flashBlocks := 0, heads := [] }
  match findKv (part s p) x.key with
  | none => none_
  | some e =>
    if kvExpired s e then none_
    else if e.dh ≠ dh ∨ e.kvHeads ≠ kvHeads then { none_ with missing := false, mismatch := true }
    else if e.tokens ≤ x.firstToken then none_
    else
      let sp := kvSpan e x
      let n := kvHeads * (kvUsedBlocks sp.1 sp.2 (kvBlockTokens e.enc e.dh)).length
      let cold : Bool := match findUnit s p (.kv x.key) with | some u => decide (u.loc ≠ .hbm) | none => false
      { index := index, missing := false, mismatch := false, blocks := n, flashBlocks := if cold then n else 0
        heads := (List.range qHeads).map (fun h => kvHead e x scale bad (queries.getD h []) (h * kvHeads / qHeads)) }

/-- An ATTEND names an entry on its holder: its time to live starts again, its heat rises (R334, R361). -/
def nameKv (p key : Nat) (s : State) : State :=
  match findKv (part s p) key with
  | none => s
  | some e =>
    if kvExpired s e then s
    else heatUnit p (.kv key) (onPart p (fun t =>
      { t with kv := mapWhere (fun e => decide (e.key = key)) (fun e => { e with named := s.time }) t.kv }) s)

def missingAnswer (index : Nat) : HolderAnswer :=
  { index := index, missing := true, mismatch := false, blocks := 0, flashBlocks := 0, heads := [] }

/-- Answer as a holder. A part that finds another shape leaves the entry as it was (R109). -/
def runAttendPart (m : AttendMsg) (s : State) : State :=
  if firmwareRuns s then
    let out := (peerGate s m.part).isSome
    let a := if out then missingAnswer m.index
      else holderAnswer s m.part m.index m.dh m.kvHeads m.qHeads m.scale m.entry m.queries (fun i => decide (i ∈ m.unreadable))
    sendFw m.home m.part (.attendAnswer m.sq m.tag a) (if out || a.mismatch then s else nameKv m.part m.entry.key s)
  else s

/-- ATTEND_PART: this device answers as a holder. -/
def execAttendPart (m : AttendMsg) (s : State) : Result := .next (runAttendPart m s)

/-! ## ATTEND at the home -/

def attendChecks (a : AttendArgs) : List (Bool × Nat × Nat) :=
  [(decide (a.mode ≠ 0), St.invalidField, inBlock 0), (decide (a.enc ≠ 0), St.invalidField, inBlock 1),
   (!within 32 256 a.dh || decide (a.dh % 32 ≠ 0), St.invalidField, inBlock 2), (!within 1 64 a.kvHeads, St.invalidField, inBlock 4),
   (!within 1 128 a.qHeads || decide (a.qHeads % a.kvHeads ≠ 0), St.invalidField, inBlock 5),
   (decide (1 < a.inputType), St.invalidField, inBlock 6), (!within 1 1024 a.count, St.invalidField, inBlock 8),
   (!F.finite a.scale || !F.lt 0 a.scale, St.invalidField, inBlock 12),
   (decide (a.inAddr % 64 ≠ 0), St.invalidAddress, inBlock 24), (decide (a.listAddr % 64 ≠ 0), St.invalidAddress, inBlock 32),
   (decide (a.outAddr % 64 ≠ 0), St.invalidAddress, inBlock 40),
   (decide (a.outLen < 192 + a.qHeads * (16 + 4 * a.dh)), St.invalidField, inBlock 48)]

/-- Exactly COUNT list entries. -/
def attendList (a : AttendArgs) : List AttendEntry :=
  a.entries.take a.count ++
    List.replicate (a.count - a.entries.length) { key := 0, device := 0xFFFF, firstToken := 0, tokenCount := 0 }

def ownHolder (s : State) (x : AttendEntry) : Bool := decide (x.device = 0xFFFF) || decide (x.device = ownId s)

def attendQueries (a : AttendArgs) : List (List F32) :=
  (List.range a.qHeads).map (fun h => fitRaw a.inputType a.dh (a.queries.getD h []))

/-- The answers that are there when the command begins: of entries held here, and of lost holders (R358). -/
def ownAnswers (s : State) (p : Nat) (a : AttendArgs) : List HolderAnswer :=
  (attendList a).zipIdx.filterMap (fun x =>
    if ownHolder s x.1 then
      some (holderAnswer s p x.2 a.dh a.kvHeads a.qHeads a.scale x.1 (attendQueries a) (fun i => decide ((x.2, i) ∈ a.unreadable)))
    else if x.1.device ∈ s.fabric.lost then some (missingAnswer x.2)
    else none)

/-- Bit n of byte n / 8, 128 bytes. -/
def missingBits (l : List HolderAnswer) : List Byte :=
  (List.range 128).map (fun b => BitVec.ofNat 8 ((List.range 8).foldl (fun n i =>
    n + (if (l[8 * b + i]?.map HolderAnswer.missing).getD false then 2 ^ i else 0)) 0))

def headBytes (h : HeadState) : List Byte :=
  le 4 h.m.toNat ++ le 4 h.l.toNat ++ le 4 h.used ++ le 4 h.masked ++ h.o.flatMap (fun v => le 4 v.toNat)

/-- One head's state over the answers in list order. -/
def foldHead (dh : Nat) (l : List HolderAnswer) (h : Nat) : HeadState :=
  (l.filter (fun y => !y.missing)).foldl (fun acc y => combineHeads acc (y.heads.getD h (headStart dh))) (headStart dh)

def attendBytes (a : AttendArgs) (l : List HolderAnswer) : List Byte :=
  le 2 a.count ++ le 2 (l.filter HolderAnswer.missing).length ++ le 4 (l.map HolderAnswer.blocks).sum ++
    le 4 (l.map HolderAnswer.flashBlocks).sum ++ zeros 52 ++ missingBits l ++
    (List.range a.qHeads).flatMap (fun h => headBytes (foldHead a.dh l h))

/-- List indices of other holders that are not lost, with their devices. -/
def otherHolders (s : State) (a : AttendArgs) : List (Nat × Nat) :=
  ((attendList a).zipIdx.filter (fun x => !ownHolder s x.1 && decide (x.1.device ∉ s.fabric.lost))).map (fun x => (x.2, x.1.device))

/-- Parts to the other holders (R357). -/
def sendAttend (p sq tag : Nat) (a : AttendArgs) (s : State) : State :=
  (otherHolders s a).foldl (fun s x =>
    sendFw x.2 p (.attendPart { home := ownId s, part := p, sq := sq, tag := tag, index := x.1, dh := a.dh, kvHeads := a.kvHeads
                                qHeads := a.qHeads, scale := a.scale
                                entry := (attendList a).getD x.1 { key := 0, device := 0, firstToken := 0, tokenCount := 0 }
                                queries := attendQueries a, unreadable := [] }) s) s

/-- Every holder has answered: the entries named here live on, and the states fold in list order. An entry of another shape ends the
command with the device's state as it was (R109, R358; log entry 99). -/
def endAttend (p : Nat) (r : AttendRun) (s : State) : QRes :=
  let l := sortBy (fun (x y : HolderAnswer) => decide (x.index < y.index)) r.answers
  match l.find? HolderAnswer.mismatch with
  | some y => .fail s (St.modelMismatch, y.index)
  | none =>
    let s := ((attendList r.args).filter (ownHolder s)).foldl (fun s x => nameKv p x.key s) s
    { st := hostWrite (1 + p) r.args.outAddr (attendBytes r.args l) s, dA := (l.filter HolderAnswer.missing).length }

/-- The command waits for every holder that is not lost. -/
def goAttend (p : Nat) (r : AttendRun) (s : State) : QRes :=
  if r.asked.isEmpty then endAttend p r s else { st := s, run := some (.attend r) }

def attendBody (q : SqReq) (a : AttendArgs) (s : State) : QRes :=
  qchecked s (attendChecks a)
    (goAttend q.part { args := a, answers := ownAnswers s q.part a, asked := otherHolders s a } (sendAttend q.part q.sq q.tag a s))

/-- The running ATTEND that a message names. -/
def runningAttend (s : State) (p sq tag : Nat) : Option (Running × AttendRun) :=
  ((part s p).running.find? (fun r => decide (r.sq = sq) && decide (r.tag = tag))).bind (fun r =>
    match r.kind with | .attend a => some (r, a) | _ => none)

/-- Change what a running ATTEND waits for. -/
def onAttend (p : Nat) (x : Running) (r : AttendRun) (s : State) : State :=
  let y := goAttend p r s
  match y.run with
  | some k => setRun p x k y.st
  | none => endRunning p x y.status y.cond y.dA y.dB y.st

/-- A holder's answer comes in; one that is not awaited from that device is discarded. -/
def takeAttend (p sq tag src : Nat) (y : HolderAnswer) (s : State) : State :=
  match runningAttend s p sq tag with
  | none => s
  | some (x, r) =>
    if firmwareRuns s && decide ((y.index, src) ∈ r.asked) then
      onAttend p x { r with answers := r.answers ++ [y], asked := r.asked.filter (fun z => decide (z ≠ (y.index, src))) } s
    else s

/-- A holder is lost: its entries count as missing (R358). -/
def attendLoses (d p : Nat) (s : State) : State :=
  (part s p).running.foldl (fun s x =>
    match x.kind with
    | .attend r =>
      let gone := r.asked.filter (fun z => decide (z.2 = d))
      if gone.isEmpty then s
      else onAttend p x { r with answers := r.answers ++ gone.map (fun z => missingAnswer z.1)
                                 asked := r.asked.filter (fun z => decide (z.2 ≠ d)) } s
    | _ => s) s

/-- QRY_ATTEND, MODE ATTEND. -/
def execQryAttend (q : SqReq) (a : AttendArgs) (s : State) : Result :=
  .next (queueFull q Op.qryAttend (some 64) (attendBody q a) s)

/-- CACHE_ENTRY_EXPIRY: an entry whose time is over goes (R361). -/
def execCacheEntryExpiry (p key : Nat) (s : State) : Result :=
  .next
    (match findKv (part s p) key with
     | some e => if firmwareRuns s && kvExpired s e then dropKv p key s else s
     | none => s)

end Sys2Proof.Machine
end

