-- ==== Sys2Proof/Machine/Placement.lean ====
section
/-! DEFINITION. Sys2Proof/Machine/Placement.lean: Skidder's plan, moves, copy-up, the rack pool, row migration and replica
rebuilding (R157, R330–R352, R361). -/
namespace Sys2Proof.Machine

/-! ## Holders (R348) -/

/-- Tray of a device: its place in Y, Z and the row (R54). -/
def trayOf (d : Nat) : Nat := d / 4

def ringHops (n a b : Nat) : Nat := min (ringDist n a b false) (ringDist n a b true)

/-- Hops between two devices, the shorter way round each ring. -/
def hopsTo (f : Fabric) (a b : Nat) : Nat :=
  (rings.map (fun k => ringHops (ringLen f k) (ringCoord k a) (ringCoord k b))).sum

/-- The order in which Skidder looks at devices: racks by their distance along the row, the most free donated flash, the
fewest hops, the lower id. -/
def holderBefore (f : Fabric) (own n : Nat) (a b : Nat) : Bool :=
  let rank (d : Nat) : Nat × Nat × Nat := (ringHops f.racks (rackOf own) (rackOf d), Config.donatedFlash n d, hopsTo f own d)
  let x := rank a
  let y := rank b
  if x.1 ≠ y.1 then decide (x.1 < y.1)
  else if x.2.1 ≠ y.2.1 then decide (y.2.1 < x.2.1)
  else if x.2.2 ≠ y.2.2 then decide (x.2.2 < y.2.2)
  else decide (a < b)

/-- Two holders for a unit of `size` bytes: in different trays when the rack has two or more. -/
def chooseHolders (s : State) (size : Nat) (avoid : List Nat) : List Nat :=
  match s.fabric.deviceId with
  | none => []
  | some own =>
    let f := s.fabric
    let cands := sortBy (holderBefore f own s.freeCount)
      ((sysDevices f).filter (fun d => decide (d ≠ own) && decide (d ∉ avoid) && isReachable f own d &&
        decide (size ≤ Config.donatedFlash s.freeCount d)))
    match cands with
    | [] => []
    | a :: rest =>
      match rest.find? (fun b => decide (f.ySize * f.zSize ≤ 1) || decide (trayOf b ≠ trayOf a)) with
      | some b => [a, b]
      | none => []

/-! ## Moves of one unit (R343–R345) -/

def unitById (s : State) (id : Nat) : Option PUnit := s.skidder.units.find? (fun u => u.id = id)
def onUnit (id : Nat) (f : PUnit → PUnit) (s : State) : State := onUnits (mapWhere (fun u => u.id = id) f) s

/-- Bytes that a unit takes in whole granules. -/
def PUnit.span (u : PUnit) : Nat := ceilDiv u.size 4096 * 4096

def isKvUnit (u : PUnit) : Bool := match u.kind with | .kv _ => true | _ => false

/-- Skidder may demote to local flash: Deck serves and is not read-only (R392). -/
def flashOpen (s : State) : Bool := s.deck.inService && !s.deck.readOnly

/-- Where a demotion of the unit takes it: two holders for POOL, else local flash; nowhere for PINNED_HBM. -/
def demotePlace (s : State) (u : PUnit) : Option (UnitLoc × List Nat) :=
  if u.cls = 0 then none
  else if u.cls = 4 then
    let h := chooseHolders s u.span []
    if h = [] then none else some (.pool, h)
  else if flashOpen s then some (.flash, []) else none

/-- Demotion to flash writes the unit there: device data, and a host extent that has no image (R345). -/
def programUnit (u : PUnit) (s : State) : State :=
  match u.kind with
  | .extent h e =>
    if s.deck.images.any (isImg u.part h e) ∨ isDirty s u.part h e then s
    else match findObj s u.part h with | some o => programOne u.part o e s | none => s
  | _ => programDevice u.part (frameOf u.id u.size) s

/-- Demote a unit: read elsewhere from now on, its bytes unchanged. -/
def demote (u : PUnit) (s : State) : State :=
  match demotePlace s u with
  | none => s
  | some x =>
    let s := if x.1 = .flash then programUnit u s else s
    let v := { u with loc := x.1, holders := x.2, copies := 0 }
    let s := bumpFree (storeAtHolders v (settlePart u.part (moveUnit u.id (fun _ => v) s)))
    { s with skidder := { s.skidder with demotions := s.skidder.demotions + 1 } }

/-- Promote a unit from local flash. -/
def promote (u : PUnit) (s : State) : State :=
  let s := settlePart u.part (moveUnit u.id (fun u => { u with loc := .hbm, copies := 0, holders := [] }) s)
  { s with skidder := { s.skidder with promotions := s.skidder.promotions + 1 } }

/-! ## Heat (R334, R337) -/

/-- HEAT_DECAY: every heat halves, and copies of units below 256 go. Heat does not decay in shard hold (R572). -/
def execHeatDecay (s : State) : Result :=
  .next
    (if s.power.phase = .running ∧ !holding s then
      onUnits (fun us => us.map (fun u => { u with heat := u.heat / 2, copies := if u.heat / 2 < 256 then 0 else u.copies })) s
     else s)

/-! ## The plan (R335, R337, R361) -/

/-- LOW and HIGH of R335. -/
def lowMark (s : State) : Nat := placeableHbm s * 2 / 100
def highMark (s : State) : Nat := placeableHbm s * 4 / 100

/-- Victim order: COLD or POOL, then WARM, then HOT; heat lowest; OBJ address lowest; the older unit. -/
def victimClass (u : PUnit) : Nat := if 3 ≤ u.cls then 0 else if u.cls = 2 then 1 else 2
def victimBefore (a b : PUnit) : Bool :=
  if victimClass a ≠ victimClass b then decide (victimClass a < victimClass b)
  else if a.heat ≠ b.heat then decide (a.heat < b.heat)
  else if a.addr ≠ b.addr then decide (a.addr < b.addr)
  else decide (a.id < b.id)

/-- The first unit of a list by an order. -/
def firstBy {α : Type} (lt : α → α → Bool) : List α → Option α
  | [] => none
  | x :: xs => match firstBy lt xs with | some y => if lt y x then some y else some x | none => some x

/-- Units in HBM that may be demoted; HOT ones only where HBM holds no COLD, POOL or WARM unit (R330). -/
def victims (s : State) (withHot : Bool) : List PUnit :=
  let us := s.skidder.units.filter (fun u => decide (u.loc = .hbm) && decide (u.cls ≠ 0))
  let cool := us.filter (fun u => decide (u.cls ≠ 1))
  (if cool.isEmpty && withHot then us else cool).filter (fun u => (demotePlace s u).isSome)

/-- Drop hot copies, coldest first, while free HBM is below LOW. -/
def dropCopies : Nat → State → State
  | 0, s => s
  | f + 1, s =>
    if freeHbm s < lowMark s then
      match firstBy (fun a b => decide (a.heat < b.heat)) (s.skidder.units.filter (fun u => u.copies ≠ 0)) with
      | some u => dropCopies f (onUnit u.id (fun u => { u with copies := u.copies - 1 }) s)
      | none => s
    else s

/-- Demote victims while free HBM is below LOW; the budget left with the state. -/
def demoteLow : Nat → Nat → State → Nat × State
  | 0, b, s => (b, s)
  | f + 1, b, s =>
    if freeHbm s < lowMark s ∧ b ≠ 0 then
      match firstBy victimBefore (victims s true) with
      | some v => demoteLow f (b - v.span) (demote v s)
      | none => (b, s)
    else (b, s)

/-- Make room for `u` by demoting victims that it may displace; whether it fits, the budget left, the state. -/
def displace (u : PUnit) : Nat → Nat → State → Bool × Nat × State
  | 0, b, s => (false, b, s)
  | f + 1, b, s =>
    if freeHbm s < highMark s + u.span then
      match firstBy victimBefore (victims s false) with
      | some v =>
        if u.cls = 2 ∧ v.cls = 2 ∧ u.heat ≤ 2 * v.heat then (false, b, s) else displace u f (b - v.span) (demote v s)
      | none => (false, b, s)
    else (true, b, s)

/-- Promotion keeps the cache entries within 64 GB of HBM (R361) and the partition under its ceiling (R525). -/
def mayPromote (s : State) (u : PUnit) : Bool :=
  (!isKvUnit u || decide (((kvUnits s).map PUnit.hbm).sum + u.span ≤ 64000000000)) &&
    (ceilingIn (layoutValue s) u.part = 0 || decide (hbmOf s u.part + u.span ≤ ceilingIn (layoutValue s) u.part * 1000000000))

/-- Promote the flash units of the list in turn. -/
def promoteAll : List PUnit → Nat → State → Nat × State
  | [], b, s => (b, s)
  | u :: us, b, s =>
    if (u.cls = 2 ∧ u.heat < 8) ∨ !mayPromote s u then promoteAll us b s
    else if b < u.span then (b, s)
    else
      let x := displace u (s.skidder.units.length + 1) b s
      if x.1 then promoteAll us (x.2.1 - u.span) (promote u x.2.2) else promoteAll us x.2.1 x.2.2

/-- Flash units, HOT before WARM, heat highest first. -/
def promotable (s : State) : List PUnit :=
  sortBy (fun a b => if a.cls ≠ b.cls then decide (a.cls < b.cls) else if a.heat ≠ b.heat then decide (b.heat < a.heat)
      else if a.addr ≠ b.addr then decide (a.addr < b.addr) else decide (a.id < b.id))
    (s.skidder.units.filter (fun u => decide (u.loc = .flash) && (decide (u.cls = 1) || decide (u.cls = 2))))

/-- One more copy for each HOT or WARM unit in HBM whose heat is 1,024 or more, up to three, above LOW (R337). -/
def addCopies : List PUnit → Nat → State → Nat × State
  | [], b, s => (b, s)
  | u :: us, b, s =>
    if u.span ≤ b ∧ lowMark s + u.span ≤ freeHbm s then
      addCopies us (b - u.span) (onUnit u.id (fun u => { u with copies := u.copies + 1 }) s)
    else addCopies us b s

def copyable (s : State) : List PUnit :=
  s.skidder.units.filter (fun u => decide (u.loc = .hbm) && (decide (u.cls = 1) || decide (u.cls = 2)) && !isKvUnit u &&
    decide (1024 ≤ u.heat) && decide (u.copies < 3))

/-- Cache entries beyond their HBM share leave it, coldest first (R361). -/
def trimKv : Nat → State → State
  | 0, s => s
  | f + 1, s =>
    if 64000000000 < ((kvUnits s).map PUnit.hbm).sum ∧ flashOpen s then
      match firstBy victimBefore ((kvUnits s).filter (fun u => u.loc = .hbm)) with
      | some u => trimKv f (demote u s)
      | none => s
    else s

/-- POOL units still in local flash go to two holders (R330, R348). -/
def sendPool (s : State) : State :=
  (s.skidder.units.filter (fun u => decide (u.cls = 4) && decide (u.loc = .flash))).foldl (fun s u => demote u s) s

/-- The whole plan, within a budget of 1 GB; regions that no placed granule fills return (R340). -/
def runPlan (s : State) : State :=
  let n := s.skidder.units.length + 1
  let s := sendPool (trimKv n s)
  let s := dropCopies (4 * n) s
  let x := demoteLow n 1000000000 s
  let y := promoteAll (promotable x.2) x.1 x.2
  let z := addCopies (copyable y.2) y.1 y.2
  let t := settleRegions z.2
  { t with skidder := { t.skidder with lastPlan := s.time } }

/-- Skidder plans and moves: firmware runs at SERVICE_LEVEL 1 or more, outside shard hold. -/
def skidderRuns (s : State) : Bool := firmwareRuns s && decide (1 ≤ s.power.level) && !holding s

/-- PLACEMENT_PLAN. -/
def execPlacementPlan (s : State) : Result := .next (if skidderRuns s then runPlan s else s)

/-! ## Single moves -/

/-- UNIT_MOVE: a promotion of a HOT or WARM unit that has room, or a demotion, which a write to the unit abandons. -/
def execUnitMove (a : UnitMoveArgs) (s : State) : Result :=
  .next
    (match unitById s a.unit with
     | none => s
     | some u =>
       if !skidderRuns s then s
       else if a.toHbm then
         (if u.loc = .flash ∧ (u.cls = 1 ∨ u.cls = 2) ∧ mayPromote s u ∧ u.span ≤ freeHbm s then promote u s else s)
       else if u.loc = .hbm ∧ !a.dirtied then demote u s
       else s)

/-- The row is there to be moved: a row of the TABLE's own range whose lock no add holds, or a stored version of an INDEX. -/
def movable (c : Coll) (i : Nat) : Bool :=
  if c.kind = 1 then ownRow c i && (rowLeases c i).isEmpty else (places c).any (fun x => decide (x.ordinal = i))

/-- The map switch: reads and later adds go to the destination, which holds the source's bytes (R157). -/
def moveRow (i : Nat) (dest : RowPlace) (c : Coll) : Coll :=
  { c with rows := mapWhere (fun r => decide (r.index = i)) (fun r => { r with place := dest }) c.rows
           moved := c.moved.filter (fun x => decide (x.1 ≠ i)) ++ [(i, dest)] }

/-- Somewhere that a row can go: a stack of this device, or flash while Skidder may write it. -/
def validPlace (s : State) : RowPlace → Bool
  | .hbm k => decide (k < 8)
  | .flash => flashOpen s

/-- ROW_MIGRATION (R157): a row of a TABLE, or a row of an INDEX by its ordinal. With Skidder's lease expired the source stays
authoritative (R158). -/
def execRowMigration (a : RowMoveArgs) (s : State) : Result :=
  .next
    (match findColl s a.part a.coll with
     | some c =>
       if skidderRuns s && !a.leaseExpires && validPlace s a.dest && movable c a.row then
         onColl a.part a.coll (moveRow a.row a.dest) s
       else s
     | none => s)

/-! ## Copy-up (R345, R346) -/

/-- The unit comes up: HBM from now on, holders release theirs. -/
def copyUpUnit (u : PUnit) (s : State) : State :=
  let s := freeHolders u.part u (settlePart u.part (moveUnit u.id (fun u => { u with loc := .hbm, copies := 0, holders := [] }) s))
  { s with skidder := { s.skidder with copyUps := s.skidder.copyUps + 1 } }

/-- The unit cannot be read: its extent reads as all-ones, and the loss is logged. -/
def unitUnreadable (u : PUnit) (s : State) : State :=
  let s := logAdd 4 9 u.part u.addr 3 s
  match u.kind with
  | .extent h e => if isPoisoned s u.part h e then s else onDeck (fun d => { d with poisoned := d.poisoned ++ [(u.part, h, e)] }) s
  | _ => s

/-- A write inside the unit, if it is a host extent's. -/
def writeInUnit (u : PUnit) (addr : Nat) (data : List Byte) (s : State) : State :=
  match objAt s addr with
  | some r =>
    if r.host && decide (r.part = u.part) && decide (u.addr ≤ addr) && decide (addr + data.length ≤ min (u.addr + 65536) (r.base + r.size))
    then objStore r addr data s else s
  | none => s

/-- COPY_UP: the write that needed it is performed, or discarded when the frame fails. -/
def execCopyUp (a : CopyUpArgs) (s : State) : Result :=
  .next
    (match unitById s a.unit with
     | none => s
     | some u =>
       if s.power.phase ≠ .running ∨ u.loc = .hbm then s
       else if !a.ok then unitUnreadable u s
       else
         match u.kind with
         | .extent h e =>
           if isPoisoned s u.part h e then unitUnreadable u s
           else
             let s := onDeck (fun d => { d with images := d.images.filter (fun i => !isImg u.part h e i) }) (copyUpUnit u s)
             writeInUnit u a.addr a.data s
         | _ => copyUpUnit u s)

/-! ## Holders lost, and holding for others (R349) -/

/-- POOL_UNIT_RECOPY: the other holder's copy goes to a new holder; with none left the unit is unreadable. -/
def execPoolUnitRecopy (unit lostDevice newDevice : Nat) (s : State) : Result :=
  .next
    (match unitById s unit with
     | none => s
     | some u =>
       if !firmwareRuns s ∨ u.loc ≠ .pool ∨ lostDevice ∉ u.holders then s
       else
         match u.holders.filter (fun d => d ≠ lostDevice) with
         | [] => unitUnreadable u (onUnit unit (fun u => { u with holders := [] }) s)
         | other :: _ =>
           if newDevice = other ∨ newDevice = ownId s then s
           else
             let v := { u with holders := [newDevice] }
             let s := storeAtHolders v (sendFw other u.part (.poolRead u.id) s)
             onUnit unit (fun u => { u with holders := [other, newDevice] }) s)

def heldFor (s : State) (owner p key : Nat) : Option PoolHeld :=
  s.skidder.held.find? (fun h => h.owner = owner && h.part = p && h.key = key)

/-- The device donates the flash that its own partitions leave unmapped, up to a quarter of CAPACITY (R348). -/
def mayHold (s : State) (n : Nat) : Bool :=
  flashOpen s && decide (poolHeldBytes s + n ≤ s.deck.capacity / 4) && decide (flashUsed s + n ≤ s.deck.capacity)

/-- A holder's work for an owner: 0 stores the ciphertext, 1 returns it, 2 frees it. Reads are served in shard hold too (R572). -/
def holderRequest (owner part op key : Nat) (data : List Byte) (s : State) : State :=
  let free : State := { s with skidder := { s.skidder with
    held := s.skidder.held.filter (fun h => !(h.owner = owner && h.part = part && h.key = key)) } }
  if s.power.phase ≠ .running ∨ !s.deck.inService then s
  else if op = 0 then
    (if !holding s && mayHold free data.length then
      programDevice part data.length { free with skidder := { free.skidder with
          held := free.skidder.held ++ [{ owner := owner, part := part, key := key, data := data }] } }
     else s)
  else if op = 1 then
    (match heldFor s owner part key with
     | some h => sendFw owner part (.poolData key h.data) s
     | none => s)
  else if op = 2 then free
  else s

/-- POOL_HOLDER_REQUEST. -/
def execPoolHolderRequest (owner part op : Nat) (key : Nat) (data : List Byte) (s : State) : Result :=
  .next (holderRequest owner part op key data s)

/-! ## Replicas (R350–R352) -/

/-- Add a replica to a set kept in ascending number. -/
def addReplica (x : Nat × Nat) (set : List (Nat × Nat)) : List (Nat × Nat) :=
  insertBy (fun a b => decide (a.1 < b.1)) x (set.filter (fun y => y.1 ≠ x.1))

/-- Every device with a shard or replica of the collection, this one apart. -/
def collDevices (own : Nat) (c : Coll) : List Nat :=
  ((c.entries.map ShardEntry.device) ++ c.replicaSet.map (fun x => x.2)).eraseDups.filter (fun d => d ≠ own)

/-- A device that Skidder may choose: of the rack, reachable, neither the primary's nor a holder of another replica, and in
another tray where the rack has several (R57, R350). -/
def replicaPlace (s : State) (c : Coll) (number device : Nat) : Bool :=
  let own := ownId s
  decide (device ≠ own) && decide (rackOf device = rackOf own) && decide (device ∈ sysDevices s.fabric) &&
    isReachable s.fabric own device && (c.replicaSet.all (fun x => decide (x.1 = number) || decide (x.2 ≠ device))) &&
    (decide (s.fabric.ySize * s.fabric.zSize ≤ 1) || decide (trayOf device ≠ trayOf own))

/-- The primary copies its shard at one committed epoch to the chosen device and adds the replica to the set. -/
def rebuildFrom (p : Nat) (c : Coll) (number device : Nat) (s : State) : State :=
  let set := addReplica (number, device) c.replicaSet
  let copy : Coll := { c with num := collNumber c, role := number, primary := ownId s, replicaSet := set, rebuilding := [], busy := false }
  let s := onColl p c.num (fun c => { c with replicaSet := set, rebuilding := c.rebuilding.filter (fun n => n ≠ number) })
    (sendFw device p (.shardCopy number copy) s)
  ((collDevices (ownId s) { c with replicaSet := set }).filter (fun d => d ≠ device)).foldl
    (fun s d => sendFw d p (.replicaSet (collNumber c) c.shardOrdinal (ownId s) set) s) s

/-- The chosen device takes the copy: an ACTIVE partition without that shard. Beside a primary shard of the collection it stays
internal (R626). -/
def installReplica (p number : Nat) (c : Coll) (s : State) : State :=
  if (part s p).state = .active ∧ (findShard s p c.num c.shardOrdinal).isNone ∧ number ≠ 0 then
    let c := { c with role := number, num := if (findColl s p c.num).isNone then c.num else replicaKey c.num c.shardOrdinal }
    let s := onPart p (fun t => { t with colls := t.colls ++ [c] }) s
    c.segs.foldl (fun s g => segmentUnits p c g s) s
  else s

/-- REPLICA_REBUILD: at the primary, or, with the copy, at the device chosen for it. -/
def execReplicaRebuild (part coll number device : Nat) (copy : Option Coll) (s : State) : Result :=
  .next
    (if !skidderRuns s then s
     else
       match copy with
       | some c => if device = ownId s ∧ c.num = coll then installReplica part number c s else s
       | none =>
         match findColl s part coll with
         | some c => if c.role = 0 ∧ number ∈ c.rebuilding ∧ replicaPlace s c number device then rebuildFrom part c number device s else s
         | none => s)

end Sys2Proof.Machine
end

