-- ==== Sys2Proof/Machine/Queue.lean ====
section
/-! DEFINITION. Sys2Proof/Machine/Queue.lean: doorbells and fetching with admission policing (R85, R89, R91–R94, R448),
coalescing (R86), the end of async commands (R73), and opcodes no carrier accepts (R71, R106). -/
namespace Sys2Proof.Machine

/-! ## Fetching -/

/-- Landing fetches from the SQ: not in error or deletion, its CQ there, with room and no error (R87, R89, R94), the
device not in shard hold (R572), firmware running (R64) and VF p allowed to read host memory (R466, R473). -/
def mayFetch (s : State) (p : Nat) (q : Sq) : Bool :=
  firmwareRuns s && !holding s && s.landing.linkActive && !landingBlocked s (1 + p) &&
    decide ((part s p).state ≠ .releasing) && !q.error && q.deleting.isNone &&
    (match findCq (part s p) q.cqId with
     | some c => !c.error && !c.full && c.held.isEmpty
     | none => false)

/-- Entries between the device's head index and the tail. -/
def Sq.outstanding (q : Sq) : Nat := (q.tail + q.entries - q.head) % q.entries

/-- One whole token, in millionths. -/
def oneToken : Nat := 1000000

def policerOf (s : State) (j : Nat) : Policer := s.choker.policers.getD j {}
def onPolicer (j : Nat) (f : Policer → Policer) (s : State) : State :=
  { s with choker := { s.choker with policers := s.choker.policers.modify j f } }

/-- Counters that hold at their largest value. -/
def satAdd (r : Reg) (n : Nat) : Reg := BitVec.ofNat 32 (min 0xFFFFFFFF (r.toNat + n))

/-- Take `n` millionths from bucket j, or drop: the drop counts and CHK_INT_STATUS shows `bit` (R447–R449). -/
def police (j n : Nat) (bit : Reg) (s : State) : Bool × State :=
  let b := policerOf s j
  if b.entry.enable = 0 then (true, s)
  else if n ≤ b.level then (true, onPolicer j (fun b => { b with level := b.level - n }) s)
  else (false, setChkStatus bit (onPolicer j (fun b => { b with drops := satAdd b.drops 1 }) s))

/-- Fetch one entry: admitted to the queue of those to begin, or completed with POLICED (R92, R448). -/
def fetchOne (p : Nat) (q : Nat) (e : Entry) (s : State) : State :=
  let s := onPart p (fun t => t.onSq q (fun x => { x with head := if x.head + 1 = x.entries then 0 else x.head + 1 })) s
  match police p oneToken 1 s with
  | (true, s) =>
    onPart p (fun t => { t.onSq q (fun x => { x with fetched := x.fetched ++ [e], arrived := x.arrived ++ [s.time] }) with admitted := t.admitted + 1 }) s
  | (false, s) =>
    completeSq p q e.tag e.context e.noInt St.policed 0 0 0
      (onPart p (fun t => { t with policed := t.policed + 1 }) s)

/-- Fetch the entries that stand in the ring, in ring order, while the SQ may be fetched from. -/
def fetchFrom (p q : Nat) : List Entry → State → State
  | [], s => s
  | e :: es, s =>
    match findSq (part s p) q with
    | some x => if mayFetch s p x ∧ 0 < x.outstanding then fetchFrom p q es (fetchOne p q e s) else s
    | none => s

/-! ## Doorbells -/

/-- SQ_TAIL_DOORBELL: TAIL takes the value, and Landing fetches the new entries (R89, R91, R448). -/
def execSqTailDoorbell (a : TailArgs) (s : State) : Result :=
  .next
    (if hostReaches s (1 + a.part) then
       fetchFrom a.part a.queue a.fetched (writeSqTail a.part a.queue (a.value % 65536) s)
     else s)

/-- CQ_HEAD_DOORBELL: slots are freed, held completions written, and fetching resumes (R85, R89, R94). -/
def execCqHeadDoorbell (a : HeadArgs) (s : State) : Result :=
  .next
    (if hostReaches s (1 + a.part) then
       let s := writeCqHead a.part a.queue (a.value % 65536) s
       (a.fetched.filter (fun x => ((findSq (part s a.part) x.1).map Sq.cqId) = some a.queue)).foldl
         (fun s x => fetchFrom a.part x.1 x.2 s) s
     else s)

/-- EQ_HEAD_DOORBELL: slots are freed and held events delivered (R89, R96). -/
def execEqHeadDoorbell (a : HeadArgs) (s : State) : Result :=
  .next (if hostReaches s (1 + a.part) then writeEqHead a.part (a.value % 65536) s else s)

/-- CQ_COALESCE_TIMER: COALESCE_US since the first unsignalled completion (R86). -/
def execCqCoalesceTimer (p cq : Nat) (s : State) : Result :=
  .next
    (match findCq (part s p) cq with
     | some c =>
       if c.coalesceUs ≠ 0 ∧ c.unsignalled ≠ 0 then
         sendMsix (1 + p) c.vector (onPart p (fun t => t.onCq cq (fun c => { c with unsignalled := 0 })) s)
       else s
     | none => s)

/-! ## COMMAND_DONE -/

/-- The work of the job can end now: a seasoning that waits for room needs it (R333), and a calibration's runs must be over. -/
def jobReady (s : State) (j : AsyncJob) : Bool :=
  !calibrationRuns s j &&
    (match j.action with
     | .seasonLater c => match findColl s j.partition c with | some x => maySeason s j.partition x | none => true
     | _ => true)

/-- Work that a job did not do when it was accepted. -/
def lateWork (j : AsyncJob) (s : State) : State :=
  match j.action with
  | .seasonLater c => match findColl s j.partition c with | some x => seasonNow j.partition x s | none => s
  | _ => s

/-- COMMAND_DONE: the work of the oldest accepted async command of that opcode and tag ends (R73). -/
def execCommandDone (opcode tag : Nat) (s : State) : Result :=
  .next
    (match s.jobs.find? (fun j => j.opcode = opcode && j.tag = tag) with
     | some j =>
       if firmwareRuns s && jobReady s j then
         commandDoneEvent j.dest j.opcode j.tag j.partition j.status j.detail
           (finishAction j.partition j.action { lateWork j s with jobs := s.jobs.erase j })
       else s
     | none => s)

/-! ## Opcodes that their carrier does not take -/

/-- UNDEFINED_OPCODE: an opcode no table row defines, or one on the wrong carrier (R71, R106, R624). -/
def execUndefinedOpcode (c : Carrier) (opcode : Nat) (s : State) : Result :=
  .next
    (match c with
     | .mailbox r =>
       if ((carried opcode).map (fun x => !x.queue)).getD false then s
       else mailbox r opcode [] (fun s => { st := s }) s
     | .queue q =>
       if ((carried opcode).map (fun x => x.queue)).getD false then s
       else queue q opcode (fun s => { st := s }) s)

end Sys2Proof.Machine
end

