-- ==== Sys2Proof/Machine/QueuePair.lean ====
section
/-! DEFINITION. Sys2Proof/Machine/QueuePair.lean: tenant queue pairs: their work requests, their packets in both directions,
acknowledgement, retransmission and failure (R424–R438). -/
namespace Sys2Proof.Machine

/-! ## Naming a queue pair -/

def findQp (s : State) (p n : Nat) : Option Qp := (part s p).qps.find? (fun q => q.index = n)
def onQp (p n : Nat) (f : Qp → Qp) (s : State) : State :=
  onPart p (fun t => { t with qps := mapWhere (fun q => q.index = n) f t.qps }) s

/-- The wire number of QP n of partition p (R424). -/
def wireQp (p n : Nat) : Nat := p * 128 + n

/-! ## Completions of work requests (R428, R437) -/

/-- One work request ends: it counts on its queue, and its completion is written where it failed, is a receive, or has
SIGNAL. -/
def wrComplete (p : Nat) (q : Qp) (recv : Bool) (wr : WorkReq) (status bytes : Nat) (s : State) : State :=
  let s := onQp p q.index (fun x => if recv then { x with rqDone := x.rqDone + 1 } else { x with sqDone := x.sqDone + 1 }) s
  if recv ∨ status ≠ St.ok ∨ wr.signal then
    complete p q.cqId false
      { tag := q.index, status := status, sqId := if recv then 0x81 else 0x80, sqHead := if recv then q.rqHead else q.sqHead
        context := wr.context, conditions := 0, detailA := bytes, detailB := wr.opcode } s
  else s

def wrCompleteAll (p : Nat) (q : Qp) (recv : Bool) (l : List (WorkReq × Nat)) (s : State) : State :=
  l.foldl (fun s x => wrComplete p q recv x.1 x.2 0 s) s

/-- The outstanding work requests of a send queue that fails: the one whose last packet has the PSN, else the oldest that
is not done, ends with `status`; the others with QP_ERROR. -/
def failedRuns (q : Qp) (psn : Option Nat) (status : Nat) : List (WorkReq × Nat) :=
  let runs := q.active ++ q.sendQ.map (fun w => { wr := w })
  let hit := psn.bind (fun n => q.active.findIdx? (fun r => decide (r.psn = n) && r.todo.isEmpty))
  let i := hit.getD (runs.findIdx (fun r => !r.done))
  runs.zipIdx.map (fun x => (x.1.wr, if x.2 = i then status else St.qpError))

/-- A queue pair in the error state: every outstanding work request of both queues ends, and its copies are released
(R438, R443). `sq` and `rq` are what the work request that failed ends with. -/
def failQp (p n err : Nat) (psn : Option Nat) (sq rq : Nat) (s : State) : State :=
  match findQp s p n with
  | none => s
  | some q =>
    if q.error then s
    else
      let runs := failedRuns q psn sq
      let recvs := (q.receiving.map (fun x => x.1)).toList ++ q.recvQ ++ q.recvFetched
      let s := onQp p n (fun x => { x with
        error := true, lastError := err, active := [], sendQ := [], recvFetched := [], recvQ := [], receiving := none
        respQ := [], unacked := [], rnrWait := false, unackedRx := 0 }) s
      let s := wrCompleteAll p q false runs s
      wrCompleteAll p q true (recvs.zipIdx.map (fun x => (x.1, if x.2 = 0 then rq else St.qpError))) s

/-! ## Packets of a queue pair -/

/-- A packet of the queue pair toward its peer, before its PSN. -/
def qpPacket (p : Nat) (q : Qp) (t : PktType) : Packet :=
  { typ := t, cls := q.cls, vc := 0, partition := p, dest := q.remoteDevice, src := 0, destQp := wireQp p q.remoteQp
    srcQp := wireQp p q.index, psn := 0 }

/-- The pieces of at most 4,096 bytes of a message; a message of no bytes is one piece. -/
def pieces (bs : List Byte) : List (List Byte) :=
  if bs = [] then [[]] else (List.range ((bs.length + 4095) / 4096)).map (fun i => (bs.drop (4096 * i)).take 4096)

/-- The data packets of a message: FIRST, LAST and ACK_NOW on the last; `f` completes each (R421, R430). -/
def dataPackets (base : Packet) (bs : List Byte) (f : Nat → Packet → Packet) : List Packet :=
  let ps := pieces bs
  ps.zipIdx.map (fun x => f x.2 { base with
    first := decide (x.2 = 0), last := decide (x.2 + 1 = ps.length), ackNow := decide (x.2 + 1 = ps.length), payload := x.1 })

/-- The packets of a work request (R421). -/
def wrPackets (p : Nat) (q : Qp) (w : WorkReq) (data : List Byte) : List Packet :=
  if w.opcode = 1 then
    dataPackets (qpPacket p q .send) data (fun i x => if i = 0 then { x with msgLen := data.length } else x)
  else if w.opcode = 2 then
    dataPackets (qpPacket p q .write) data (fun i x => { x with addr := w.remoteAddr + 4096 * i })
  else if w.opcode = 3 then
    [{ qpPacket p q .readReq with ackNow := true, msgLen := w.length, addr := w.remoteAddr }]
  else if w.opcode = 4 then [{ qpPacket p q .flushReq with ackNow := true }]
  else []

/-- A packet may begin: fewer than 1,024 unacknowledged, room in the 2 GB store, no RNR wait (R430, R432). -/
def maySend (s : State) (q : Qp) (x : Packet) : Bool :=
  !q.error && !q.rnrWait && decide (q.unacked.length < 1024) && decide (storeUsed s + x.payload.length ≤ 2000000000)

/-- Number a packet, keep its copy and hand it to the egress. -/
def sendNumbered (p n : Nat) (x : Packet) (s : State) : State :=
  match findQp s p n with
  | none => s
  | some q =>
    let x := { x with psn := q.nextPsn, wrap := q.nextWrap }
    inject x (onQp p n (fun y => { y with nextPsn := psnAfter y.nextPsn, nextWrap := wrapAfter y.nextPsn y.nextWrap, unacked := y.unacked ++ [x], sent := y.sent + 1 }) s)

/-- The next packet the queue pair would send: READ data first, then the oldest work request's. -/
def nextPacket (q : Qp) : Option Packet :=
  match q.respQ with
  | x :: _ => some x
  | [] => (q.active.find? (fun r => r.todo ≠ [])).bind (fun r => r.todo.head?)

/-- A run after its next packet went out: SEND and WRITE are done once every packet is handed over (R433). -/
def WrRun.step (psn : Nat) (r : WrRun) : WrRun :=
  { r with todo := r.todo.tail, psn := psn, done := r.done || (decide (r.todo.length = 1) && decide (r.wr.opcode ≤ 2)) }

/-- Advance the first run that has packets left. -/
def stepRuns (psn : Nat) : List WrRun → List WrRun
  | [] => []
  | r :: rs => if r.todo = [] then r :: stepRuns psn rs else r.step psn :: rs

/-- Send while packets may begin, at most `f` of them. -/
def pump (p n : Nat) : Nat → State → State
  | 0, s => s
  | f + 1, s =>
    match findQp s p n with
    | none => s
    | some q =>
      match nextPacket q with
      | none => s
      | some x =>
        if maySend s q x then
          pump p n f (onQp p n (fun y =>
            if q.respQ ≠ [] then { y with respQ := y.respQ.tail } else { y with active := stepRuns q.nextPsn y.active })
            (sendNumbered p n x s))
        else s

/-! ## WAIT_COUNT and reporting in ring order (R436, R437) -/

/-- What a WAIT_COUNT finds: none while it waits. -/
def waitResult (s : State) (p : Nat) (w : WorkReq) : Option Nat :=
  match findQp s p w.waitQp with
  | none => some St.waitAbandoned
  | some q =>
    if w.waitTarget ≤ (if w.waitQueue = 0 then q.sqDone else q.rqDone) then some St.ok
    else if q.error then some St.waitAbandoned else none

def bytesMoved (w : WorkReq) : Nat := if w.opcode ≤ 3 then w.length else 0

/-- Report the finished work requests at the head of the send queue, at most `f`. -/
def report (p n : Nat) : Nat → State → State
  | 0, s => s
  | f + 1, s =>
    match findQp s p n with
    | none => s
    | some q =>
      match q.active with
      | [] => s
      | r :: rs =>
        if r.done then
          report p n f (wrComplete p q false r.wr r.status (bytesMoved r.wr)
            (onQp p n (fun x => { x with active := rs }) s))
        else if r.wr.opcode = 5 then
          match waitResult s p r.wr with
          | none => s
          | some st =>
            if st = St.ok then report p n f (wrComplete p q false r.wr st 0 (onQp p n (fun x => { x with active := rs }) s))
            else failQp p n st none st St.qpError s
        else s

/-- One round over the partition's queue pairs: send what may be sent, report what is done. -/
def settleRound (p : Nat) (s : State) : State :=
  (part s p).qps.foldl (fun s q => report p q.index 4097 (pump p q.index 8192 s)) s

/-- Rounds until no work request of the partition can end; each round that changes anything ends one. -/
def settle (p : Nat) : Nat → State → State
  | 0, s => s
  | f + 1, s =>
    let t := settleRound p s
    if ((part t p).qps.map (fun q => q.active.length)).sum = ((part s p).qps.map (fun q => q.active.length)).sum then t
    else settle p f t

def settleAll (p : Nat) (s : State) : State := settle p (((part s p).qps.map (fun q => q.active.length)).sum + 1) s

/-! ## Creating and deleting (R425) -/

def qpFields (s : State) (p : Nat) (a : QpCreateArgs) : List (Bool × Nat × Nat) :=
  [(decide (127 < a.qp), St.invalidField, 32), (decide (a.mode ≠ 0), St.invalidField, 34), (decide (5 < a.cls), St.invalidField, 35),
   (decide (4095 < a.remoteDevice) || decide (some a.remoteDevice = s.fabric.deviceId), St.invalidField, 36),
   (decide (127 < a.remoteQp), St.invalidField, 38), (!isPow2From 16 4096 a.sqEntries, St.invalidField, 40),
   (!isPow2From 16 4096 a.rqEntries, St.invalidField, 44), ((findCq (part s p) a.cqId).isNone, St.invalidField, 64),
   (!within 1 7 (dflt 7 a.retryLimit), St.invalidField, 65), (decide (7 < a.rnrRetry), St.invalidField, 66),
   (!within 50 10000 (dflt 200 a.retryTimeoutUs), St.invalidField, 68),
   (!within 10 10000 (dflt 50 a.rnrDelayUs), St.invalidField, 72),
   (decide (a.sqBase % 4096 ≠ 0), St.invalidAddress, 48), (decide (a.rqBase % 4096 ≠ 0), St.invalidAddress, 56),
   ((findQp s p a.qp).isSome, St.qpExists, 0), (s.fabric.deviceId.isNone, St.wrongState, 0)]

def newQp (a : QpCreateArgs) : Qp :=
  { index := a.qp, cls := a.cls, remoteDevice := a.remoteDevice, remoteQp := a.remoteQp, sqEntries := a.sqEntries
    rqEntries := a.rqEntries, sqBase := a.sqBase, rqBase := a.rqBase, cqId := a.cqId, retryLimit := dflt 7 a.retryLimit
    rnrRetry := a.rnrRetry, retryTimeoutUs := dflt 200 a.retryTimeoutUs, rnrDelayUs := dflt 50 a.rnrDelayUs }

/-- FAB_QP_CREATE (R424, R425). -/
def execFabQpCreate (r : MbxReq) (a : QpCreateArgs) (s : State) : Result :=
  .next (mailbox r Op.fabQpCreate [64]
    (fun s => checked s (qpFields s r.partition a)
      { st := onPart r.partition (fun t => { t with qps := t.qps ++ [newQp a] }) s }) s)

/-- Every outstanding work request ends with QUEUE_DELETED; the queue pair and its copies go, and the WAIT_COUNTs that
named it end. -/
def deleteQp (p : Nat) (q : Qp) (s : State) : State :=
  let s := wrCompleteAll p q false ((q.active.map WrRun.wr ++ q.sendQ).map (fun w => (w, St.queueDeleted))) s
  let s := wrCompleteAll p q true
    (((q.receiving.map (fun x => x.1)).toList ++ q.recvQ ++ q.recvFetched).map (fun w => (w, St.queueDeleted))) s
  settleAll p (onPart p (fun t => { t with qps := t.qps.filter (fun x => x.index ≠ q.index) }) s)

/-- FAB_QP_CREATE with MODE 1 (R425). -/
def execFabQpDelete (r : MbxReq) (qp : Nat) (s : State) : Result :=
  .next (mailbox r Op.fabQpCreate [64]
    (fun s =>
      match findQp s r.partition qp with
      | some q => { st := deleteQp r.partition q s }
      | none => .fail s (St.invalidField, 32)) s)

/-! ## Doorbells (R426) -/

/-- The device may read the queue pair's rings (R426, R466, R473, R572). -/
def qpFetches (s : State) (p : Nat) : Bool :=
  !holding s && !landingBlocked s (1 + p) && decide ((part s p).state ≠ .releasing)

/-- A tail of ENTRIES or more puts the queue pair into the error state. -/
def badTail (p n : Nat) (s : State) : State := settleAll p (failQp p n St.qpError none St.qpError St.qpError s)

/-- QP_SQ_TAIL_DOORBELL: work requests up to the tail are fetched; on a queue pair in error each ends (R426, R438). -/
def execQpSqTailDoorbell (a : QpTailArgs) (s : State) : Result :=
  .next
    (let p := a.part
     let v := a.value % 4096
     match findQp s p a.qp with
     | none => s
     | some q =>
       if !hostReaches s (1 + a.part) then s
       else if q.sqEntries ≤ v then badTail p q.index s
       else
         let ws := if qpFetches s p then a.fetched.take ((v + q.sqEntries - q.sqHead) % q.sqEntries) else []
         let head := (q.sqHead + ws.length) % q.sqEntries
         let s := onQp p q.index (fun x => { x with
           sqTail := v, sqHead := head, sendQ := if x.error then x.sendQ else x.sendQ ++ ws }) s
         if q.error then settleAll p (wrCompleteAll p { q with sqHead := head } false (ws.map (fun w => (w, St.qpError))) s)
         else s)

/-- QP_RQ_TAIL_DOORBELL: receives up to the tail are fetched; WR_RECV posts each. -/
def execQpRqTailDoorbell (a : QpTailArgs) (s : State) : Result :=
  .next
    (let p := a.part
     let v := a.value % 4096
     match findQp s p a.qp with
     | none => s
     | some q =>
       if !hostReaches s (1 + a.part) then s
       else if q.rqEntries ≤ v then badTail p q.index s
       else
         let ws := if qpFetches s p then a.fetched.take ((v + q.rqEntries - q.rqHead) % q.rqEntries) else []
         let head := (q.rqHead + ws.length) % q.rqEntries
         let s := onQp p q.index (fun x => { x with
           rqTail := v, rqHead := head, recvFetched := if x.error then x.recvFetched else x.recvFetched ++ ws }) s
         if q.error then settleAll p (wrCompleteAll p { q with rqHead := head } true (ws.map (fun w => (w, St.qpError))) s)
         else s)

/-! ## Beginning work requests (R426, R427, R436, R437) -/

/-- No unfinished WAIT_COUNT holds the send queue. -/
def notHeld (q : Qp) : Bool := q.active.all (fun r => r.done || decide (r.wr.opcode ≠ 5))

/-- The fields that the work request's opcode uses are in range: opcode, length, local range and remote device. -/
def wrValid (s : State) (p : Nat) (q : Qp) (w : WorkReq) : Bool :=
  let localOk (dest : Bool) : Bool := !w.localObj || insideObject s p w.localAddr w.length dest
  match w.opcode with
  | 1 => decide (w.length ≤ 16777216) && localOk false
  | 2 => decide (w.length ≤ 16777216) && localOk false && decide (poolDevice w.remoteAddr = q.remoteDevice)
  | 3 => decide (w.length ≤ 16777216) && localOk true && decide (poolDevice w.remoteAddr = q.remoteDevice)
  | 4 => true
  | 5 => decide (w.waitQp ≤ 127) && decide (w.waitQueue ≤ 1) && !(decide (w.waitQp = q.index) && decide (w.waitQueue = 0))
  | _ => false

/-- The source bytes of a SEND or WRITE: of a local object, or as Landing reads them. -/
def wrData (s : State) (w : WorkReq) : List Byte :=
  if w.opcode ≤ 2 then
    (if w.localObj then (busRead 3 w.localAddr w.length s).2.1 else fitBytes w.length w.data)
  else []

/-- A number that no packet carries: it marks a work request that is invalid. -/
def badPsn : Nat := 2 ^ 32

/-- Begin the oldest fetched work request when its opcode is `op`: it fails with INVALID_FIELD, or joins those begun. -/
def beginWr (q : QpRef) (op : Nat) (s : State) : State :=
  match findQp s q.part q.qp with
  | none => s
  | some x =>
    match x.sendQ with
    | [] => s
    | w :: ws =>
      if w.opcode ≠ op ∨ x.error ∨ !notHeld x ∨ holding s ∨ s.power.phase ≠ .running then s
      else
        let ok := wrValid s q.part x w
        let run : WrRun := if ok then { wr := w, todo := wrPackets q.part x w (wrData s w) } else { wr := w, psn := badPsn }
        let s := onQp q.part q.qp (fun y => { y with sendQ := ws, active := y.active ++ [run] }) s
        settleAll q.part
          (if ok then s else failQp q.part q.qp St.invalidField (some badPsn) St.invalidField St.qpError s)

def execWrSend (q : QpRef) (s : State) : Result := .next (beginWr q 1 s)
def execWrWrite (q : QpRef) (s : State) : Result := .next (beginWr q 2 s)
def execWrRead (q : QpRef) (s : State) : Result := .next (beginWr q 3 s)
def execWrFlush (q : QpRef) (s : State) : Result := .next (beginWr q 4 s)
def execWrWaitCount (q : QpRef) (s : State) : Result := .next (beginWr q 5 s)

/-- WR_RECV: the oldest fetched receive is posted; a work request that is no RECV, is too long or names no object of the
partition fails. -/
def execWrRecv (q : QpRef) (s : State) : Result :=
  .next
    (match findQp s q.part q.qp with
     | none => s
     | some x =>
       match x.recvFetched with
       | [] => s
       | w :: ws =>
         if x.error ∨ holding s ∨ s.power.phase ≠ .running then s
         else if w.opcode = 6 ∧ w.length ≤ 16777216 ∧ (!w.localObj || insideObject s q.part w.localAddr w.length true) then
           onQp q.part q.qp (fun y => { y with recvFetched := ws, recvQ := y.recvQ ++ [w] }) s
         else
           settleAll q.part (failQp q.part q.qp St.invalidField none St.qpError St.qpError
             (wrComplete q.part x true w St.invalidField 0 (onQp q.part q.qp (fun y => { y with recvFetched := ws }) s))))

/-! ## Arrival of a packet (R419, R422, R449) -/

def sysPart (p : Nat) : Bool := decide (12 ≤ p)

/-- The packet leaves the row ring at this device: it arrived at port 6 or 7 and is bound within this rack. -/
def leavesRow (s : State) (m : PacketIn) : Bool :=
  decide (6 ≤ m.port) && decide (rackOf m.pkt.dest = rackOf (ownId s))

/-- Symbols that a codeword's code corrects (R406). -/
def codeLimit : Nat := 5

/-- Codewords that the code could not correct, and the symbols that it corrected in the others. -/
def codewordsLost (m : PacketIn) : Nat := m.errors.countP (fun n => decide (codeLimit < n))
def symbolsCorrected (m : PacketIn) : Nat := (m.errors.filter (fun n => decide (n ≤ codeLimit))).sum

/-- What every packet meets at its port: the code, the header, the partition value and the row-ingress policer. True: it
goes on. -/
def arrive (m : PacketIn) (s : State) : Bool × State :=
  if !(portOf s m.port).isUp ∨ s.power.phase ≠ .running then (false, s)
  else
    let size := packetSize m.pkt
    let s := onPort m.port (fun p => { p with
      rxBytes := p.rxBytes + size, fecCorrected := p.fecCorrected + symbolsCorrected m, fecUncorrected := p.fecUncorrected + codewordsLost m }) s
    if codewordsLost m ≠ 0 then (false, discardAt m.port .codeword s)
    else if !m.headerOk then (false, discardAt m.port .header s)
    else
    let s := tracePacket 3 m.pkt s
    if m.pkt.partition = 12 ∨ m.pkt.partition = 13 then (false, discardAt m.port .partitionValue s)
    else if leavesRow s m ∧ m.pkt.cls ≠ 7 ∧ !sysPart m.pkt.partition then
      let x := police (12 + m.pkt.partition) (packetSize m.pkt * oneToken) 2 s
      if x.1 then x
      else (false, discardAt m.port .policer (onPort m.port (fun p => { p with policed := p.policed + 1 }) x.2))
    else (true, s)

/-- The queue pair a packet names, when it belongs to the packet's partition and to its source. -/
def packetQp (s : State) (x : Packet) : Option Qp :=
  match findQp s x.partition (x.destQp % 128) with
  | some q => if q.remoteDevice = x.src ∧ wireQp x.partition q.remoteQp = x.srcQp then some q else none
  | none => none

/-- A packet of kind 1 from the queue pair of wire number `w` back to the sender of `x` (R421, R423). -/
def answerFrom (p w : Nat) (x : Packet) (t : PktType) (psn aux : Nat) (s : State) : State :=
  let c := takeQpCseq w s
  inject { typ := t, cls := x.cls, vc := 0, partition := p, dest := x.src, src := 0, destQp := x.srcQp, srcQp := w
           first := false, last := false, psn := psn, aux := aux, addr := c.1 } c.2

def answerPacket (p n : Nat) (x : Packet) (t : PktType) (psn aux : Nat) (s : State) : State :=
  answerFrom p (wireQp p n) x t psn aux s

/-- A cumulative ACK of every packet accepted (R430). -/
def sendAck (p : Nat) (q : Qp) (x : Packet) (s : State) : State :=
  match findQp s p q.index with
  | some y => answerPacket p q.index x .ack (psnBefore y.expPsn) 0 (onQp p q.index (fun y => { y with unackedRx := 0 }) s)
  | none => s

/-- The packet passes authentication at its destination: its tag verifies under a key that the device accepts for its partition value
(R419, R422, R505, R529). -/
def authentic (s : State) (m : PacketIn) : Bool := m.tagOk && keyAccepted s m.pkt.partition m.key

/-- A packet addressed to a queue pair of this device passes the checks of its destination: type, address, tag, and a queue
pair of its own partition. A request that finds none is answered with NAK reason 4 (R419, R431). -/
def toQp (m : PacketIn) (t : PktType) (request : Bool) (k : Nat → Qp → Packet → State → State) (s : State) : State :=
  let x := m.pkt
  if x.typ ≠ t ∨ s.fabric.deviceId ≠ some x.dest ∨ isFwWire x.destQp then s
  else
    let a := arrive m s
    if !a.1 then a.2
    else if !authentic s m then discardAt m.port .authentication a.2
    else if 12 ≤ x.partition ∨ x.destQp / 128 ≠ x.partition then discardAt m.port .otherPartition a.2
    else
      match packetQp a.2 x with
      | some q =>
        if wrapAgrees q.expPsn q.expWrap x then settleAll x.partition (k x.partition q x a.2)
        else discardAt m.port .authentication a.2
      | none =>
        let s := discardAt m.port .noQueuePair a.2
        if request then answerPacket x.partition (x.destQp % 128) x .nak x.psn 4 s else s

/-! ## Receiving in PSN order (R429, R430, R432, R434) -/

/-- Accept `x`: the expected PSN advances, and the ACK goes at once on ACK_NOW or after 16. -/
def acceptPsn (p : Nat) (q : Qp) (x : Packet) (s : State) : State :=
  let n := q.unackedRx + 1
  let s := onQp p q.index (fun y => { y with expPsn := psnAfter y.expPsn, expWrap := wrapAfter y.expPsn y.expWrap, gapNak := false, unackedRx := n }) s
  if x.ackNow ∨ 16 ≤ n then sendAck p q x s else s

/-- A data packet in order: `act` performs it, or gives the NAK reason for which it is not accepted. -/
def inOrder (p : Nat) (q : Qp) (x : Packet) (act : State → Nat × State) (s : State) : State :=
  if q.error then s
  else if x.psn = q.expPsn then
    let y := act s
    if y.1 = 0 then acceptPsn p q x y.2
    else answerPacket p q.index x .nak x.psn y.1 (onQp p q.index (fun z => { z with gapNak := true }) y.2)
  else if psnOlder x.psn q.expPsn then sendAck p q x s
  else if q.gapNak then s
  else answerPacket p q.index x .nak q.expPsn 1 (onQp p q.index (fun z => { z with gapNak := true }) s)

/-- Bytes to a local destination: host memory, or inside an object of the partition. -/
def placeLocal (p : Nat) (obj : Bool) (addr : Nat) (bs : List Byte) (s : State) : State :=
  if obj then (busWrite 3 addr bs s).2 else hostWrite (1 + p) addr bs s

/-- A SEND packet: FIRST takes the oldest posted receive; LAST completes it after its bytes (R432, R434). -/
def recvSend (p : Nat) (q : Qp) (x : Packet) (s : State) : Nat × State :=
  let cur := if x.first then (q.recvQ.head?.map (fun w => (w, 0, x.msgLen))) else q.receiving
  match cur with
  | none => (2, s)
  | some (w, got, len) =>
    if w.length < len ∨ w.length < got + x.payload.length then
      (5, failQp p q.index St.messageTooLong none St.qpError St.messageTooLong
        (onQp p q.index (fun y => { y with receiving := some (w, 0, len), recvQ := if x.first then y.recvQ.tail else y.recvQ }) s))
    else
      let s := placeLocal p w.localObj (w.localAddr + got) x.payload s
      let got := got + x.payload.length
      let s := onQp p q.index (fun y => { y with
        recvQ := if x.first then y.recvQ.tail else y.recvQ, receiving := if x.last then none else some (w, got, len) }) s
      (0, if x.last then wrComplete p q true w St.ok got s else s)

/-- The pool address lies on this device and inside an object of the partition; `write` asks for a host object (R427). -/
def remoteOk (s : State) (p addr n : Nat) (write : Bool) : Bool :=
  decide (s.fabric.deviceId = some (poolDevice addr)) && insideObject s p (poolLocal addr) n write

/-- The oldest READ that still waits takes the data. -/
def fillRead (x : Packet) (runs : List WrRun) : List WrRun × Option (WorkReq × Nat) :=
  match runs.find? (fun r => r.wr.opcode = 3 && !r.done) with
  | none => (runs, none)
  | some r =>
    let got := r.got + x.payload.length
    let r' : WrRun := { r with got := got, done := decide (r.wr.length ≤ got) && x.last }
    (runs.set (runs.idxOf r) r', some (r.wr, r.got))

/-! ## Acknowledgement and retransmission (R429–R432) -/

/-- Release every copy up to and with PSN `n`; any release is progress. -/
def releaseTo (p : Nat) (q : Qp) (n : Nat) (s : State) : State :=
  let keep := q.unacked.filter (fun x => psnOlder n x.psn)
  onQp p q.index (fun y =>
    if keep.length < q.unacked.length then { y with unacked := keep, retries := 0, noQpRetries := 0, rnrRetries := 0 } else y) s

/-- Send every kept packet again, oldest first. -/
def resend (p n : Nat) (s : State) : State :=
  match findQp s p n with
  | none => s
  | some q =>
    q.unacked.foldl (fun s x => inject x s)
      (onQp p n (fun y => { y with retransmitted := y.retransmitted + y.unacked.length }) s)

/-- The FLUSH whose packet has the PSN is done. -/
def endFlush (psn : Nat) (runs : List WrRun) : List WrRun :=
  mapWhere (fun r => r.wr.opcode = 4 && r.todo.isEmpty && decide (r.psn = psn)) (fun r => { r with done := true }) runs

/-- A NAK of the queue pair's packets, by its reason. -/
def takeNak (p : Nat) (q : Qp) (x : Packet) (s : State) : State :=
  let back := releaseTo p q (psnBefore x.psn) s
  if x.aux = 1 then (if q.rnrWait then back else resend p q.index back)
  else if x.aux = 2 then onQp p q.index (fun y => { y with rnrNaks := y.rnrNaks + 1, rnrWait := decide (y.unacked ≠ []) }) back
  else if x.aux = 3 then failQp p q.index St.remoteAccess (some x.psn) St.remoteAccess St.qpError back
  else if x.aux = 4 then
    if q.retryLimit ≤ q.noQpRetries + 1 then failQp p q.index St.noRemoteQp none St.noRemoteQp St.qpError s
    else resend p q.index (onQp p q.index (fun y => { y with noQpRetries := y.noQpRetries + 1 }) s)
  else if x.aux = 5 then failQp p q.index St.messageTooLong (some x.psn) St.messageTooLong St.qpError back
  else s

end Sys2Proof.Machine
end

