-- ==== Sys2Proof/Machine/Link.lean ====
section
/-! DEFINITION. Sys2Proof/Machine/Link.lean: ports and links: configuration, training, heartbeats, pause, lanes, link-downs,
link-state records, lost devices and forwarding (R406–R420, R439–R443, R453, R620). -/
namespace Sys2Proof.Machine

/-! ## Lost devices (R414, R443, R350–R352) -/

def lowestReplica (set : List (Nat × Nat)) : Option (Nat × Nat) :=
  set.find? (fun x => set.all (fun y => decide (x.1 ≤ y.1)))

/-- A collection's shard after device `d` is lost: a primary drops the replica that stood there and rebuilds it (R351); a
replica whose primary stood there has a new primary, itself if it carries the lowest number left (R352). -/
def collLost (own d : Nat) (c : Coll) : Coll :=
  let left := c.replicaSet.filter (fun x => x.2 ≠ d)
  let gone := (c.replicaSet.filter (fun x => x.2 = d)).map (fun x => x.1)
  if c.role = 0 then { c with replicaSet := left, rebuilding := c.rebuilding ++ gone }
  else if c.primary ≠ d then { c with replicaSet := left }
  else
    match lowestReplica left with
    | some x =>
      if x.1 = c.role then
        { c with role := 0, primary := own, replicaSet := left.filter (fun y => y.1 ≠ c.role)
                 rebuilding := gone ++ [c.role] }
      else { c with primary := x.2, replicaSet := left }
    | none => { c with role := 0, primary := own, replicaSet := [], rebuilding := gone ++ [c.role] }

/-- Firmware acts on the shards of one partition. -/
def partLost (d p : Nat) (s : State) : State :=
  (part s p).colls.foldl (fun s c =>
    let own := ownId s
    let c' := collLost own d c
    if c' = c then s
    else
      let s := onPart p (fun t => { t with colls := t.colls.map (fun x => if x = c then c' else x) }) s
      if c'.role = 0 then
        ((collDevices own c').filter (fun e => e ≠ d)).foldl (fun s e => sendFw e p (.replicaSet (collNumber c') c'.shardOrdinal own c'.replicaSet) s) s
      else s) s

/-- What commands and parts of one partition had of the device: ingest commands and ATTENDs go on without it (R160, R351, R358), and
what a part of its queries kept here goes with them. -/
def partForgets (d p : Nat) (s : State) : State :=
  attendLoses d p (ingestsLose d p (onPart p (fun t => { t with guests := t.guests.filter (fun g => g.home ≠ d) }) s))

/-- Firmware's queue pairs toward the device go, with what they keep; a Forwarder channel whose remote accesses were among it ends with
UNREACHABLE (R443, R484). -/
def dropFwQps (d : Nat) (s : State) : State :=
  let gone := (s.fabric.fwQps.filter (fun q => decide (q.device = d))).flatMap (fun q => (q.unacked ++ q.todo).filterMap Packet.channel)
  let s := { s with fabric := { s.fabric with fwQps := s.fabric.fwQps.filter (fun q => decide (q.device ≠ d)) } }
  gone.eraseDups.foldl (fun s c => onChannel c (fun x => { x with runError := if x.runError = 0 then 7 else x.runError }) s) s

/-- Every queue pair toward the device fails with PEER_LOST, firmware's own with the messages that they keep (R621), and firmware acts
on shards and commands. -/
def deviceLost (d : Nat) (s : State) : State :=
  let s := foldParts (fun p s =>
    settleAll p (((part s p).qps.filter (fun q => q.remoteDevice = d)).foldl
      (fun s q => failQp p q.index St.peerLost none St.peerLost St.qpError s) s)) s
  let s := dropFwQps d s
  if firmwareRuns s then foldParts (fun p s => partForgets d p (partLost d p s)) s else s

/-- Routes are recomputed after the table changed from `old`: devices that became unreachable are lost, those reachable
again are new peers, and a queue pair whose route changed resends (R431, R442). -/
def reroute (old : Fabric) (s : State) : State :=
  match s.fabric.deviceId with
  | none => s
  | some own =>
    let new := s.fabric
    let others := (sysDevices new).filter (fun d => d ≠ own)
    let lostNow := others.filter (fun d => isReachable old own d && !isReachable new own d)
    let s := { s with fabric := { new with
      lost := new.lost.filter (fun d => !isReachable new own d && decide (d ∉ lostNow)) ++ lostNow } }
    let s := lostNow.foldl (fun s d => deviceLost d s) s
    let moved (d : Nat) : Bool := decide (routeTo old own d ≠ routeTo new own d)
    let s := foldParts (fun p s =>
      ((part s p).qps.filter (fun q => q.unacked ≠ [] && moved q.remoteDevice)).foldl (fun s q => resend p q.index s) s) s
    (s.fabric.fwQps.filter (fun q => moved q.device)).foldl (fun s q => resendFw q.device q.part s) s

/-! ## A link changes -/

/-- LINK_STATE event and LINK_EVENT log entry, by firmware. -/
def tellLink (n : Nat) (up : Bool) (s : State) : State :=
  if firmwareRuns s then
    notify .operator 6 0 14 0 (n + if up then 256 else 0) (logAdd 6 3 14 n (if up then 1 else 0) s)
  else s

/-- Clear a port's egress and its input regions; what they held is discarded and counted (R419, R441). -/
def purgePort (n : Nat) (s : State) : State :=
  let held := (portOf s n).egress.length + (s.fabric.ports.flatMap (fun p => p.egress.filter (fun w => w.src = n))).length
  let own := ((portOf s n).egress.filter (fun w => w.src = n)).length
  let s := { s with fabric := { s.fabric with ports := s.fabric.ports.map (fun p =>
    { p with egress := p.egress.filter (fun w => w.src ≠ n) }) } }
  onPort n (fun p => { p with
    egress := [], xoffRx := 0, xoffTx := 0, beats := 0, neighbour := 0xFFFF, discards := countDiscard .cleared (held - own) p.discards }) s

/-- A failed lane in each half (R407). -/
def bothHalves (failed : BitVec 8) : Bool := failed &&& 0x0F ≠ 0 && failed &&& 0xF0 ≠ 0

/-- Where an enabled port goes when it is not up: to step 1, or it stays down. -/
def idleState (p : Port) : PortState := if bothHalves p.failed then .down else .training

/-- The change of one link enters this device's record, which is flooded, and the routes follow. -/
def linkChanged (old : Fabric) (s : State) : State :=
  if s.fabric.deviceId.isSome then reroute old (floodOwn s) else s

/-- The pause states of the ports whose packets a purge removed. -/
def refreshAll (s : State) : State := (List.range 8).foldl (fun s n => refreshPause n s) s

/-- A port declares its link down with REASON `why` (R440, R441). -/
def linkDown (n why : Nat) (s : State) : State :=
  if (portOf s n).isUp then
    let old := s.fabric
    let s := purgePort n s
    let s := onPort n (fun p => { p with
      state := if why = 6 then .disabled else idleState p, reason := why, downEvents := p.downEvents + 1
      faultHold := if why = 2 then .untilStop else p.faultHold }) s
    linkChanged old (tellLink n false (refreshAll s))
  else s

/-! ## FAB_PORT_CONFIG (R453) -/

/-- Ports that the geometry allows: X always, Y and Z where their size is above 1, the row where there are several racks. -/
def allowedMap (a : PortConfigArgs) : Nat :=
  3 + (if 1 < a.ySize then 0x0C else 0) + (if 1 < a.zSize then 0x30 else 0) + (if 1 < a.racks then 0xC0 else 0)

def enableMap (s : State) : Nat := (List.range 8).foldl (fun n k => if portEnabled s k then n + 2 ^ k else n) 0

def validSize (n : Nat) : Bool := n = 1 || n = 2 || n = 4

def portConfigChecks (s : State) (a : PortConfigArgs) : List (Bool × Nat × Nat) :=
  [(decide (4095 < a.deviceId), St.invalidField, 32), (!within 1 64 a.racks, St.invalidField, 34),
   (!validSize a.ySize, St.invalidField, 35), (!validSize a.zSize, St.invalidField, 36),
   (decide (a.racks ≤ rackOf a.deviceId) || decide (a.ySize ≤ coordY a.deviceId) || decide (a.zSize ≤ coordZ a.deviceId),
    St.invalidField, 32),
   (decide (∃ t ∈ s.parts, t.state ≠ .free), St.wrongState, 0),
   (decide (enableMap s &&& allowedMap a ≠ enableMap s), St.wrongState, allowedMap a)]

/-- Every enabled port trains again; after a first configuration none was up before. -/
def retrainAll (first : Bool) (s : State) : State :=
  (List.range 8).foldl (fun s n =>
    if portEnabled s n then
      let wasUp := (portOf s n).isUp
      let s := onPort n (fun p => { p with
        state := idleState p, faultHold := .none, reason := if first then p.reason else 7
        downEvents := if first then p.downEvents else p.downEvents + 1 }) (purgePort n s)
      if wasUp then tellLink n false s else s
    else s) s

/-- FAB_PORT_CONFIG. -/
def execFabPortConfig (r : MbxReq) (a : PortConfigArgs) (s : State) : Result :=
  .next (mailbox r Op.fabPortConfig [16]
    (fun s => checked s (portConfigChecks s a)
      (let first := s.fabric.deviceId.isNone
       let s := retrainAll first s
       { st := { s with fabric := { s.fabric with
           deviceId := some a.deviceId, racks := a.racks, ySize := a.ySize, zSize := a.zSize, links := [], lost := [] } } })) s)

/-! ## Training (R409, R410) -/

/-- The port's reference is present: FABREF_A for ports 0–3, FABREF_B for 4–7 (R598, R600). -/
def portRef (s : State) (port : Nat) : Bool := s.power.refclk.getD (if port < 4 then 1 else 2) false

/-- The neighbour is the one the wiring gives (R410). -/
def wiredRight (f : Fabric) (own port device srcPort racks ySize zSize : Nat) : Bool :=
  decide (device = neighbourAt f own port) && decide (srcPort = partner port) && decide (racks = f.racks) &&
    decide (ySize = f.ySize) && decide (zSize = f.zSize)

/-- TRAINING_NEIGHBOUR_ARRIVAL: both ends stand at step 1; training runs to step 6, or stops at the wiring check. -/
def execTrainingNeighbourArrival (port device srcPort racks ySize zSize : Nat) (s : State) : Result :=
  .next
    (let p := portOf s port
     match s.fabric.deviceId with
     | none => s
     | some own =>
       if s.power.phase ≠ .running ∨ !portRef s port ∨ !portEnabled s port ∨ 8 ≤ port ∨ p.isUp ∨ bothHalves p.failed ∨ p.faultHold = .untilStop then s
       else if wiredRight s.fabric own port device srcPort racks ySize zSize then
         onPort port (fun p => { p with state := .joining, neighbour := device, beats := 0, faultHold := .none, xoffRx := 0, xoffTx := 0 }) s
       else
         let s := onPort port (fun p => { p with state := .down, reason := 4, neighbour := 0xFFFF }) s
         if firmwareRuns s then logAdd 6 3 14 port 0 s else s)

/-- The whole table goes to the neighbour at a port that came up, one record a packet (R620). -/
def sendTable (n : Nat) (s : State) : State := s.fabric.links.foldl (fun s r => sendRecord n r s) s

/-- LINK_UP: five consecutive heartbeats bring the port up; the link state is flooded and the tables are exchanged. -/
def execLinkUp (port : Nat) (s : State) : Result :=
  .next
    (let p := portOf s port
     if p.state = .joining ∧ portRef s port ∧ 5 ≤ p.beats ∧ s.power.phase = .running then
       let old := s.fabric
       let s := onPort port (fun p => { p with state := if p.failed = 0 then .up8 else .up4 }) s
       let s := linkChanged old (tellLink port true s)
       sendTable port s
     else s)

/-- TRAINING_TIMEOUT: a port not at step 7 by 50 ms returns to step 1 (R409). -/
def execTrainingTimeout (port : Nat) (s : State) : Result :=
  .next (if (portOf s port).state = .joining then onPort port (fun p => { p with state := .training, beats := 0, neighbour := 0xFFFF }) s else s)

/-- LANE_FAILURE: the port counts as down while it retrains on its good half, or stays down (R407). -/
def execLaneFailure (port lane : Nat) (s : State) : Result :=
  .next
    (if s.power.phase ≠ .running ∨ 8 ≤ lane ∨ (portOf s port).state = .disabled then s
     else
       let s := onPort port (fun p => { p with failed := p.failed ||| (1 <<< lane) }) s
       if (portOf s port).isUp then linkDown port 5 s
       else onPort port (fun p => { p with
         state := if bothHalves p.failed then .down else if p.state = .joining then .training else p.state
         reason := if bothHalves p.failed then 5 else p.reason }) s)

/-! ## Heartbeats (R439, R440) -/

/-- The watchdog state of R63 or the state of R103 holds. -/
def deviceFault (s : State) : Bool := s.power.fwFault || s.power.needsReset

/-- Ports from step 6 on send heartbeats. -/
def sendsBeats (p : Port) : Bool := p.isUp || p.state = .joining

/-- HEARTBEAT_TIMER. -/
def execHeartbeatTimer (s : State) : Result :=
  .next
    (if s.power.phase ≠ .running then s
     else ((List.range 8).filter (fun n => sendsBeats (portOf s n))).foldl
       (fun s n => emit (.heartbeat n (ownId s) (deviceFault s)) s) s)

/-- HEARTBEAT_RX: a beat counts in training, refreshes an up link, and with DEVICE_FAULT takes the link down. -/
def execHeartbeatRx (port device srcPort : Nat) (fault : Bool) (s : State) : Result :=
  .next
    (let p := portOf s port
     let valid := decide (device = p.neighbour) && decide (srcPort = partner port)
     if s.power.phase ≠ .running then s
     else if p.isUp then (if fault then linkDown port 2 s else s)
     else if p.state = .joining then
       if fault then onPort port (fun p => { p with state := .training, beats := 0, faultHold := .untilStop, reason := 2, neighbour := 0xFFFF }) s
       else if valid then onPort port (fun p => { p with beats := p.beats + 1 }) s
       else s
     else if p.faultHold = .untilResume ∧ !fault then onPort port (fun p => { p with faultHold := .none }) s
     else s)

/-- HEARTBEAT_LOSS: 100 µs without a valid heartbeat. -/
def execHeartbeatLoss (port : Nat) (s : State) : Result :=
  .next
    (let p := portOf s port
     if s.power.phase ≠ .running then s
     else if p.isUp then linkDown port 1 s
     else onPort port (fun p => { p with beats := 0, faultHold := if p.faultHold = .untilStop then .untilResume else p.faultHold }) s)

/-! ## Pause (R416, R417, R420) -/

/-- PAUSE_FRAME_RX: the states that the neighbour shows. -/
def execPauseFrameRx (port : Nat) (states : BitVec 16) (s : State) : Result :=
  .next (if (portOf s port).isUp ∧ s.power.phase = .running then onPort port (fun p => { p with xoffRx := states }) s else s)

/-- PAUSE_REPEAT_TIMER: the frame again while any state is XOFF. -/
def execPauseRepeatTimer (port : Nat) (s : State) : Result :=
  .next
    (let p := portOf s port
     if p.isUp ∧ p.xoffTx ≠ 0 ∧ s.power.phase = .running then emit (.pause port p.xoffTx) s else s)

/-- PAUSE_WATCHDOG: a pair has stayed in XOFF for 2 ms. -/
def execPauseWatchdog (port pair : Nat) (s : State) : Result :=
  .next
    (let p := portOf s port
     if p.isUp ∧ p.xoffRx.getLsbD pair ∧ s.power.phase = .running then
       linkDown port 3 (setChkStatus (BitVec.ofNat 32 (2 ^ (8 + port))) s)
     else s)

/-! ## SYSTEM packets (R442, R620) -/

/-- A record that is newer than the table's replaces it, is flooded onward, and the routes follow. -/
def mergeRecord (port : Nat) (r : FloodRec) (s : State) : State :=
  let seen := s.fabric.links.find? (fun x => x.device = r.device)
  let newer : Bool := match seen with | some x => decide (x.seq < r.seq) | none => true
  if newer ∧ r.device ≠ ownId s then
    let old := s.fabric
    reroute old (floodRecord r (fun n => n = port) { s with fabric := { s.fabric with links := putRecord s.fabric.links r } })
  else s

/-- PKT_SYSTEM_RX: under the fabric key in use, or under the previous one while it is accepted (R529). -/
def execPktSystemRx (m : PacketIn) (s : State) : Result :=
  .next
    (if m.pkt.typ ≠ .system ∨ s.fabric.deviceId ≠ some m.pkt.dest then s
     else
       let a := arrive m s
       if !a.1 then a.2
       else if !authentic s m then discardAt m.port .authentication a.2
       else if m.pkt.partition ≠ 15 then discardAt m.port .otherPartition a.2
       else
         match m.pkt.record with
         | some r => mergeRecord m.port r a.2
         | none => a.2)

/-! ## PACKET_FORWARDING (R411, R413, R415) -/

/-- A packet for another device leaves in dimension order along its header's directions, on the virtual channel that
datelines give, or is discarded when its next link is down. -/
def execPacketForwarding (m : PacketIn) (s : State) : Result :=
  .next
    (match s.fabric.deviceId with
     | none => s
     | some own =>
       if m.pkt.dest = own then s
       else
         let a := arrive m s
         if !a.1 then a.2
         else
           match egressPort m.pkt own with
           | some n =>
             refreshPause m.port
               (enqueueAt n m.port m.pkt.vc { m.pkt with vc := nextVc a.2.fabric own n (some m.port) m.pkt.vc } a.2)
           | none => a.2)

end Sys2Proof.Machine
end

