-- ==== Sys2Proof/Machine/Arrivals.lean ====
section
/-! DEFINITION. Sys2Proof/Machine/Arrivals.lean: packets that arrive for a queue pair of this device, a tenant's or firmware's own, what
firmware's messages do, and the timers of queue pairs (R421–R435, R480, R621). -/
namespace Sys2Proof.Machine

/-! ## Messages of other devices -/

/-- The message comes from the device to which the shard's part went. -/
def fromShard (p sq tag src shard : Nat) (f : QueryRun → QueryRun) (s : State) : State :=
  onQueryRun p sq tag (fun r => if shardDevice r shard = src then f r else r) s

/-- A shard's answer to a round of late interaction, or its refusal (R183, R196). -/
def takeLateAnswer (p sq tag src shard status : Nat) (scores : List (Nat × F32)) (noToks dropped : List Nat) (s : State) : State :=
  fromShard p sq tag src shard (fun r =>
    if status ≠ St.ok then takeRefusal s (shard, status) r
    else takeLate s (scores.map (fun x => (shard, x.1, x.2))) (noToks.map (fun o => (shard, o))) (dropped.map (fun o => (shard, o))) r) s

/-- A shard's passage text, or its refusal (R183, R200). -/
def takePassages (p sq tag src shard status : Nat) (texts : List (Nat × List Byte)) (s : State) : State :=
  fromShard p sq tag src shard (fun r =>
    if status ≠ St.ok then takeRefusal s (shard, status) r else takeText s texts [shard] r) s

/-- A replica set as another device tells it. A primary rebuilds the replicas that have left; a replica that the set no longer
names is dropped with its collection, and any other takes it over, with the present primary; where another shard lies is kept at
every shard (R350–R352, R626). -/
def takeSet (p coll shard primary : Nat) (set : List (Nat × Nat)) (s : State) : State :=
  let own (c : Coll) : Bool := decide (collNumber c = coll) && decide (c.shardOrdinal = shard)
  let note (c : Coll) : Coll :=
    if own c then
      if c.role = 0 then
        { c with replicaSet := c.replicaSet.filter (fun x => decide (x ∈ set))
                 rebuilding := c.rebuilding ++ (c.replicaSet.filter (fun x => decide (x ∉ set))).map (fun x => x.1) }
      else { c with replicaSet := set, primary := primary }
    else { c with otherSets := c.otherSets.filter (fun x => decide (x.shard ≠ shard)) ++
                    [{ shard := shard, primary := primary, replicas := set }] }
  let gone := (part s p).colls.filter (fun c => own c && decide (c.role ≠ 0) && set.all (fun x => decide (x.1 ≠ c.role)))
  gone.foldl (fun s c => dropColl p c s)
    (onPart p (fun t => { t with colls := mapWhere (fun c => decide (collNumber c = coll)) note t.colls }) s)

/-- What firmware does with a message of device `src` in partition `p`. -/
def takeMessage (src p : Nat) (s : State) : FwMsg → State
  | .queryPart m => runShardPart { m with home := src, part := p } s
  | .queryAnswer sq tag a => fromShard p sq tag src a.shard (takeAnswer s { a with device := src }) s
  | .latePart m => runLatePart { m with home := src, part := p } s
  | .lateAnswer sq tag shard status scores noToks dropped => takeLateAnswer p sq tag src shard status scores noToks dropped s
  | .passageRequest m => runPassageFetch { m with home := src, part := p } s
  | .passageAnswer sq tag shard status texts _ => takePassages p sq tag src shard status texts s
  | .attendPart m => runAttendPart { m with home := src, part := p } s
  | .attendAnswer sq tag a => takeAttend p sq tag src a s
  | .cancel _ sq tag => dropGuest src p sq tag s
  | .pooled m => pooledRequest { m with src := src, part := p } s
  | .pooledAnswer sq tag status failed first rows => takePooled src p sq tag status failed first rows s
  | .replica m => replicaIngest { m with src := src, part := p } s
  | .replicaAnswer sq tag _ => takeReplica src p sq tag s
  | .replicaSeason m => replicaSeason { m with src := src, part := p } s
  | .replicaSet coll shard primary set => takeSet p coll shard primary set s
  | .shardCopy number copy => if skidderRuns s then installReplica p number copy s else s
  | .poolStore key data => holderRequest src p 0 key data s
  | .poolRead key => holderRequest src p 1 key [] s
  | .poolFree key => holderRequest src p 2 key [] s
  | .poolData _ _ => s

/-- Messages of firmware to its own device, in order (log entry 108). -/
def takeOwnMessages (s : State) : State :=
  let mine := s.fabric.fwQps.filter (fun q => decide (q.device = ownId s))
  let s := { s with fabric := { s.fabric with fwQps := s.fabric.fwQps.filter (fun q => decide (q.device ≠ ownId s)) } }
  mine.foldl (fun s q => q.todo.foldl (fun s x => match x.fw with | some m => takeMessage (ownId s) q.part s m | none => s) s) s

/-! ## Firmware's queue pairs: arrival in PSN order (R424, R429, R430, R621) -/

def onFwQp (d p : Nat) (f : FwQp → FwQp) (s : State) : State := setFwQp (f (fwQpOf s d p)) s

/-- A packet addressed to one of firmware's queue pairs passes the checks of its destination: type, address, tag, a partition that has
one, and a source that is not lost (R419, R443). Partition 14 is under the device fabric key (R422, R529). A lost
device's queue pair is none (R443). -/
def toFw (m : PacketIn) (t : PktType) (k : Nat → Nat → Packet → State → State) (s : State) : State :=
  let x := m.pkt
  if x.typ ≠ t ∨ s.fabric.deviceId ≠ some x.dest ∨ !isFwWire x.destQp then s
  else
    let a := arrive m s
    if !a.1 then a.2
    else if !authentic s m then discardAt m.port .authentication a.2
    else if 12 ≤ x.partition ∧ x.partition ≠ 14 then discardAt m.port .otherPartition a.2
    else if x.src ∈ s.fabric.lost then discardAt m.port .noQueuePair a.2
    else if !wrapAgrees (fwQpOf s x.src x.partition).expPsn (fwQpOf s x.src x.partition).expWrap x then discardAt m.port .authentication a.2
    else k x.src x.partition x a.2

/-- A cumulative ACK of what firmware's queue pair has accepted. -/
def fwAck (d p : Nat) (x : Packet) (s : State) : State :=
  answerFrom p (fwWire (ownId s) p d) x .ack (psnBefore (fwQpOf s d p).expPsn) 0 (onFwQp d p (fun q => { q with unackedRx := 0 }) s)

def fwNak (d p : Nat) (x : Packet) (psn reason : Nat) (s : State) : State :=
  answerFrom p (fwWire (ownId s) p d) x .nak psn reason s

/-- The expected PSN advances, and the ACK goes at once on ACK_NOW or after 16. -/
def fwAccept (d p : Nat) (x : Packet) (s : State) : State :=
  let n := (fwQpOf s d p).unackedRx + 1
  let s := onFwQp d p (fun q => { q with expPsn := psnAfter q.expPsn, expWrap := wrapAfter q.expPsn q.expWrap, gapNak := false, unackedRx := n }) s
  if x.ackNow ∨ 16 ≤ n then fwAck d p x s else s

/-- A data packet in order: `act` performs it, or gives the NAK reason. A refused access is behind the queue pair all the same, since
firmware's never fail (R621; log entry 106). -/
def fwInOrder (d p : Nat) (x : Packet) (act : State → Nat × State) (s : State) : State :=
  let q := fwQpOf s d p
  if x.psn = q.expPsn then
    let y := act s
    if y.1 = 0 then fwAccept d p x y.2
    else if y.1 = 3 then fwNak d p x x.psn 3 (onFwQp d p (fun q => { q with expPsn := psnAfter q.expPsn, expWrap := wrapAfter q.expPsn q.expWrap, gapNak := false }) y.2)
    else fwNak d p x x.psn y.1 (onFwQp d p (fun q => { q with gapNak := true }) y.2)
  else if psnOlder x.psn q.expPsn then fwAck d p x s
  else if q.gapNak then s
  else fwNak d p x q.expPsn 1 (onFwQp d p (fun q => { q with gapNak := true }) s)

/-- Firmware takes a message while it runs; until then no receive is posted (R64, R432). -/
def fwReceive (d p : Nat) (x : Packet) (s : State) : Nat × State :=
  if !firmwareRuns s then (2, s)
  else match x.fw with | some m => (0, takeMessage d p s m) | none => (0, s)

/-- An access by another device's Forwarder is performed for partition 14 wherever it decodes, for a tenant's partition inside its
objects (R427, R480). -/
def fwMayAccess (s : State) (p addr n : Nat) (write : Bool) : Bool :=
  if p = 14 then ownPool s addr else remoteOk s p addr n write

def fwWrite (p : Nat) (x : Packet) (s : State) : Nat × State :=
  if fwMayAccess s p x.addr x.payload.length true then
    let y := busWrite 3 (poolLocal x.addr) x.payload s
    (if y.1 then 0 else 3, y.2)
  else (3, s)

def fwRead (d p : Nat) (x : Packet) (s : State) : Nat × State :=
  if fwMayAccess s p x.addr x.msgLen false then
    let b := busRead 3 (poolLocal x.addr) x.msgLen s
    if b.1 then
      (0, (dataPackets (fwPacket (ownId s) d p .readResp) b.2.1 (fun _ z => z)).foldl (fun s z => sendPeer z s) b.2.2)
    else (3, b.2.2)
  else (3, s)

/-! ## Firmware's queue pairs: what they send (R430, R431, R432, R621) -/

/-- Release every kept packet up to and with PSN `n`, and go on sending. -/
def fwRelease (d p n : Nat) (s : State) : State :=
  drainFw d p (onFwQp d p (fun q => { q with unacked := q.unacked.filter (fun x => psnOlder n x.psn) }) s)

/-- A Forwarder channel whose remote access was refused ends with DECODE (R484; log entry 106). -/
def channelRefused (d p psn : Nat) (s : State) : State :=
  match ((fwQpOf s d p).unacked.find? (fun x => decide (x.psn = psn))).bind Packet.channel with
  | some c => onChannel c (fun y => { y with runError := if y.runError = 0 then 1 else y.runError }) s
  | none => s

/-- A NAK of firmware's packets: 2 waits RNR_DELAY_US, 3 is behind it, any other sends again, without limit. -/
def fwTakeNak (d p : Nat) (x : Packet) (s : State) : State :=
  if x.aux = 3 then fwRelease d p x.psn (channelRefused d p x.psn s)
  else
    let s := onFwQp d p (fun q => { q with unacked := if x.aux = 4 then q.unacked else q.unacked.filter (fun y => psnOlder (psnBefore x.psn) y.psn) }) s
    if x.aux = 2 then onFwQp d p (fun q => { q with rnrWait := decide (q.unacked ≠ []) }) s
    else if (fwQpOf s d p).rnrWait then s
    else resendFw d p s

/-! ## Packets that arrive -/

/-- PKT_SEND_RX: a message for a tenant, or one of firmware's. -/
def execPktSendRx (m : PacketIn) (s : State) : Result :=
  .next
    (if isFwWire m.pkt.destQp then toFw m .send (fun d p x s => fwInOrder d p x (fwReceive d p x) s) s
     else toQp m .send true (fun p q x s => inOrder p q x (recvSend p q x) s) s)

/-- PKT_WRITE_RX (R427, R480). -/
def execPktWriteRx (m : PacketIn) (s : State) : Result :=
  .next
    (if isFwWire m.pkt.destQp then toFw m .write (fun d p x s => fwInOrder d p x (fwWrite p x) s) s
     else toQp m .write true (fun p q x s => inOrder p q x (fun s =>
       if remoteOk s p x.addr x.payload.length true then (0, (busWrite 3 (poolLocal x.addr) x.payload s).2) else (3, s)) s) s)

/-- PKT_READ_REQ_RX: performed behind every earlier packet, and answered with READ_RESP packets (R427, R434, R480). -/
def execPktReadReqRx (m : PacketIn) (s : State) : Result :=
  .next
    (if isFwWire m.pkt.destQp then toFw m .readReq (fun d p x s => fwInOrder d p x (fwRead d p x) s) s
     else toQp m .readReq true (fun p q x s => inOrder p q x (fun s =>
       if remoteOk s p x.addr x.msgLen false then
         let b := busRead 3 (poolLocal x.addr) x.msgLen s
         (0, onQp p q.index (fun y => { y with respQ := y.respQ ++ dataPackets (qpPacket p y .readResp) b.2.1 (fun _ z => z) }) b.2.2)
       else (3, s)) s) s)

/-- PKT_READ_RESP_RX: the data is placed locally; the READ is done when all of it is (R435). The bytes that a Forwarder run has read came
with its command. -/
def execPktReadRespRx (m : PacketIn) (s : State) : Result :=
  .next
    (if isFwWire m.pkt.destQp then toFw m .readResp (fun d p x s => fwInOrder d p x (fun s => (0, s)) s) s
     else toQp m .readResp false (fun p q x s => inOrder p q x (fun s =>
       let f := fillRead x q.active
       match f.2 with
       | some (w, off) =>
         (0, placeLocal p w.localObj (w.localAddr + off) (x.payload.take (w.length - off)) (onQp p q.index (fun y => { y with active := f.1 }) s))
       | none => (0, s)) s) s)

/-- PKT_FLUSH_REQ_RX: every earlier SEND and WRITE is placed, so FLUSH_ACK goes (R435). -/
def execPktFlushReqRx (m : PacketIn) (s : State) : Result :=
  .next
    (if isFwWire m.pkt.destQp then
       toFw m .flushReq (fun d p x s => fwInOrder d p x (fun s => (0, answerFrom p (fwWire (ownId s) p d) x .flushAck x.psn 0 s)) s) s
     else toQp m .flushReq true (fun p q x s => inOrder p q x (fun s =>
       (0, answerPacket p q.index x .flushAck x.psn 0 s)) s) s)

/-- PKT_ACK_RX. -/
def execPktAckRx (m : PacketIn) (s : State) : Result :=
  .next
    (if isFwWire m.pkt.destQp then toFw m .ack (fun d p x s => fwRelease d p x.psn s) s
     else toQp m .ack false (fun p q x s => releaseTo p q x.psn s) s)

/-- PKT_FLUSH_ACK_RX: the FLUSH whose PSN it answers is done. -/
def execPktFlushAckRx (m : PacketIn) (s : State) : Result :=
  .next
    (if isFwWire m.pkt.destQp then toFw m .flushAck (fun d p x s => fwRelease d p x.psn s) s
     else toQp m .flushAck false (fun p q x s =>
       onQp p q.index (fun y => { y with active := endFlush x.psn y.active }) (releaseTo p q x.psn s)) s)

/-- PKT_NAK_RX. -/
def execPktNakRx (m : PacketIn) (s : State) : Result :=
  .next
    (if isFwWire m.pkt.destQp then toFw m .nak (fun d p x s => fwTakeNak d p x s) s
     else toQp m .nak false (fun p q x s => if q.error then s else takeNak p q x s) s)

/-! ## Timers -/

def qpTimeout (p n : Nat) (s : State) : State :=
  match findQp s p n with
  | some q =>
    if q.error ∨ q.rnrWait ∨ q.unacked = [] then s
    else if q.retryLimit ≤ q.retries + 1 then
      settleAll p (failQp p n St.transportTimeout none St.transportTimeout St.qpError s)
    else resend p n (onQp p n (fun y => { y with retries := y.retries + 1 }) s)
  | none => s

/-- RETRY_TIMEOUT: after RETRY_TIMEOUT_US of a tenant's queue pair (R431), or 200 µs of firmware's, which has no limit (R621). -/
def execRetryTimeout (r : QpRef) (s : State) : Result :=
  .next
    (if s.power.phase ≠ .running then s
     else
       match r.peer with
       | some d => if (fwQpOf s d r.part).rnrWait then s else resendFw d r.part s
       | none => qpTimeout r.part r.qp s)

def qpRnrExpiry (p n : Nat) (s : State) : State :=
  match findQp s p n with
  | some q =>
    if q.error ∨ !q.rnrWait then s
    else if q.rnrRetry ≠ 7 ∧ q.rnrRetry ≤ q.rnrRetries then
      settleAll p (failQp p n St.receiverNotReady (q.unacked.head?.map Packet.psn) St.receiverNotReady St.qpError s)
    else settleAll p (resend p n (onQp p n (fun y => { y with rnrWait := false, rnrRetries := y.rnrRetries + 1 }) s))
  | none => s

/-- RNR_DELAY_EXPIRY: the packets go again, or the attempts are exhausted (R432); firmware's go again without limit (R621). -/
def execRnrDelayExpiry (r : QpRef) (s : State) : Result :=
  .next
    (if s.power.phase ≠ .running then s
     else
       match r.peer with
       | some d =>
         if (fwQpOf s d r.part).rnrWait then
           drainFw d r.part (resendFw d r.part (onFwQp d r.part (fun q => { q with rnrWait := false }) s))
         else s
       | none => qpRnrExpiry r.part r.qp s)

/-- ACK_DELAY_TIMER: a cumulative ACK while any accepted packet is unacknowledged (R430). -/
def execAckDelayTimer (r : QpRef) (s : State) : Result :=
  .next
    (if s.power.phase ≠ .running then s
     else
       match r.peer with
       | some d =>
         if (fwQpOf s d r.part).unackedRx = 0 then s
         else fwAck d r.part { fwPacket d (ownId s) r.part .ack with src := d } s
       | none =>
         match findQp s r.part r.qp with
         | some q =>
           if q.error ∨ q.unackedRx = 0 then s
           else sendAck r.part q { qpPacket r.part q .ack with src := q.remoteDevice, srcQp := wireQp r.part q.remoteQp } s
         | none => s)

end Sys2Proof.Machine
end

