-- ==== Sys2Proof/Machine/Choker.lean ====
section
/-! DEFINITION. Sys2Proof/Machine/Choker.lean: egress arbitration, shapers, policers, sampling and FAB_STATS (R444–R454,
R617). -/
namespace Sys2Proof.Machine

/-! ## FAB_SHAPER_SET and FAB_POLICER_SET -/

/-- Entry i of FAB_SHAPER_SET (R446). -/
def shaperChecks (i : Nat) (e : ShaperEntry) : List (Bool × Nat × Nat) :=
  let o := 32 + 16 * i
  if i % 8 = 7 then
    [(decide (e.priority ≠ 0), St.invalidField, o), (decide (e.quantum ≠ 0), St.invalidField, o + 2),
     (decide (e.idleRate ≠ 0), St.invalidField, o + 4), (decide (e.hiCredit ≠ 0), St.invalidField, o + 8),
     (decide (e.loCredit ≠ 0), St.invalidField, o + 12)]
  else
    [(decide (6 < e.priority), St.invalidField, o), (!within 1 1024 e.quantum, St.invalidField, o + 2),
     (decide (2048000 < e.idleRate), St.invalidField, o + 4), (!within 4144 16777216 e.hiCredit, St.invalidField, o + 8),
     (!within 4144 16777216 e.loCredit, St.invalidField, o + 12)]

def shaperEntry (es : List ShaperEntry) (i : Nat) : ShaperEntry :=
  es.getD i { priority := 0, quantum := 0, idleRate := 0, hiCredit := 0, loCredit := 0 }

/-- The new set: credit and deficit go to zero where the entry differs (R446). -/
def setShapers (es : List ShaperEntry) (l : List Shaper) : List Shaper :=
  l.zipIdx.map (fun x => if x.1.entry = shaperEntry es x.2 then x.1 else { entry := shaperEntry es x.2 })

/-- FAB_SHAPER_SET. -/
def execFabShaperSet (r : MbxReq) (entries : List ShaperEntry) (s : State) : Result :=
  .next (mailbox r Op.fabShaperSet [1024]
    (fun s => checked s ((List.range 64).flatMap (fun i => shaperChecks i (shaperEntry entries i)))
      { st := { s with choker := { s.choker with shapers := setShapers entries s.choker.shapers } } }) s)

/-- Entry j of FAB_POLICER_SET (R450). -/
def policerChecks (j : Nat) (e : PolicerEntry) : List (Bool × Nat × Nat) :=
  let o := 32 + 16 * j
  [(decide (1 < e.enable), St.invalidField, o),
   (decide (e.enable = 1) && !within 1 (if j < 12 then 100000000 else 512000) e.rate, St.invalidField, o + 4),
   (decide (e.enable = 1) && !(if j < 12 then within 1 65536 e.burst else within 4144 16777216 e.burst), St.invalidField, o + 8)]

def policerEntry (es : List PolicerEntry) (j : Nat) : PolicerEntry := es.getD j { enable := 0, rate := 0, burst := 0 }

/-- The new set: a bucket is filled to BURST where the entry differs (R450). -/
def setPolicers (es : List PolicerEntry) (l : List Policer) : List Policer :=
  l.zipIdx.map (fun x =>
    let e := policerEntry es x.2
    if x.1.entry = e then x.1 else { x.1 with entry := e, level := e.burst * oneToken })

/-- FAB_POLICER_SET. -/
def execFabPolicerSet (r : MbxReq) (entries : List PolicerEntry) (s : State) : Result :=
  .next (mailbox r Op.fabPolicerSet [384]
    (fun s => checked s ((List.range 24).flatMap (fun j => policerChecks j (policerEntry entries j)))
      { st := { s with choker := { s.choker with policers := setPolicers entries s.choker.policers } } }) s)

/-! ## Egress arbitration (R444) -/

def shaperIdx (port cls : Nat) : Nat := port * 8 + cls
def shaperOf (s : State) (i : Nat) : Shaper := s.choker.shapers.getD i (defaultShaper i)
def onShaper (i : Nat) (f : Shaper → Shaper) (s : State) : State :=
  { s with choker := { s.choker with shapers := s.choker.shapers.modify i f } }

/-- Packets waiting at a port on a class and channel. -/
def waitingOn (s : State) (port cls vc : Nat) : List Waiting :=
  (portOf s port).egress.filter (fun w => w.pkt.cls = cls && w.pkt.vc = vc)

/-- A packet waits on the pair, and the pair is XON at the neighbour. -/
def openPair (s : State) (port cls vc : Nat) : Bool :=
  !(waitingOn s port cls vc).isEmpty && !(portOf s port).xoffRx.getLsbD (pairOf cls vc)

/-- eligible(c) of R444. Class 7 is never shaped (R445). -/
def eligible (s : State) (port cls : Nat) : Bool :=
  let x := shaperOf s (shaperIdx port cls)
  (openPair s port cls 0 || openPair s port cls 1) &&
    (decide (cls = 7) || decide (x.entry.idleRate = 0) || decide (0 ≤ x.credit))

/-- The channel that goes next within a class: the two alternate by packet. -/
def nextChannel (s : State) (port cls : Nat) : Nat :=
  let last := s.choker.lastVc.getD (shaperIdx port cls) 1
  let other := 1 - last
  if openPair s port cls other then other else last

/-- The source that goes next within a channel: round robin over the eight ports and local injection (8). -/
def nextSource (s : State) (port cls vc : Nat) : Nat :=
  let last := s.choker.lastSrc.getD (shaperIdx port cls * 2 + vc) 8
  (((List.range 9).map (fun k => (last + 1 + k) % 9)).find? (fun x => (waitingOn s port cls vc).any (fun w => w.src = x))).getD 8

/-- The head packet of a class at a port. -/
def headPacket (s : State) (port cls : Nat) : Option Waiting :=
  let vc := nextChannel s port cls
  let src := nextSource s port cls vc
  (waitingOn s port cls vc).find? (fun w => w.src = src)

def headSize (s : State) (port cls : Nat) : Nat := ((headPacket s port cls).map (fun w => packetSize w.pkt)).getD 0

/-- Deficit round robin over `cs`, visiting class `c` next: each visit adds QUANTUM, until a head packet fits. -/
def drr (port : Nat) (cs : List Nat) : Nat → Nat → State → Option Nat × State
  | 0, _, s => (none, s)
  | f + 1, c, s =>
    if c ∈ cs then
      let t := onShaper (shaperIdx port c) (fun x => { x with deficit := x.deficit + 64 * x.entry.quantum }) s
      if headSize t port c ≤ (shaperOf t (shaperIdx port c)).deficit then
        (some c, onShaper (shaperIdx port c) (fun x => { x with deficit := x.deficit - headSize t port c }) t)
      else drr port cs f ((c + 1) % 8) t
    else drr port cs f ((c + 1) % 8) s

/-- The class chosen on a port, with the deficits after the choice. -/
def chooseClass (port : Nat) (s : State) : Option Nat × State :=
  if eligible s port 7 then (some 7, s)
  else
    let cs := (List.range 7).filter (fun c => eligible s port c)
    let prio (c : Nat) : Nat := (shaperOf s (shaperIdx port c)).entry.priority
    let top := cs.foldl (fun m c => max m (prio c)) 0
    let set := cs.filter (fun c => decide (prio c = top))
    if set = [] then (none, s)
    else
      let x := drr port set 600 ((s.choker.lastClass.getD port 7 + 1) % 8) s
      match x.1 with
      | some c => (some c, { x.2 with choker := { x.2.choker with lastClass := x.2.choker.lastClass.set port c } })
      | none => x

/-- Rate of a port in Mb/s (R406, R407). -/
def portRate (p : Port) : Nat := if p.state = .up4 then 1024000 else 2048000

/-- The bounds of a credit, in bits (R445). -/
def clampCredit (e : ShaperEntry) (c : Int) : Int := max (-(8 * (e.loCredit : Int))) (min (8 * (e.hiCredit : Int)) c)

/-- The class sends a packet of `size` bytes: its credit falls at the port rate less IDLE_RATE for the packet's time. -/
def Shaper.charge (rate size : Nat) (x : Shaper) : Shaper :=
  if x.entry.idleRate = 0 then x
  else { x with credit := clampCredit x.entry (x.credit - ((size * 8 * (rate - x.entry.idleRate) / rate : Nat) : Int)) }

def classWaits (s : State) (port cls : Nat) : Bool := (portOf s port).egress.any (fun w => w.pkt.cls = cls)

/-- A class with nothing waiting has no deficit (R444) and no credit above 0 (R445). -/
def clearEmpty (port : Nat) (s : State) : State :=
  (List.range 8).foldl (fun s c =>
    if classWaits s port c then s
    else onShaper (shaperIdx port c) (fun x => { x with deficit := 0, credit := min 0 x.credit }) s) s

/-- One packet leaves the port. -/
def sendWaiting (port cls : Nat) (w : Waiting) (s : State) : State :=
  let i := shaperIdx port cls
  let size := packetSize w.pkt
  let s := { s with choker := { s.choker with
    lastVc := s.choker.lastVc.set i w.pkt.vc, lastSrc := s.choker.lastSrc.set (i * 2 + w.pkt.vc) w.src } }
  let s := onPort port (fun p => { p with egress := p.egress.erase w, txBytes := p.txBytes + size }) s
  let s := if cls = 7 then s else onShaper i (Shaper.charge (portRate (portOf s port)) size) s
  let s := tracePacket 2 w.pkt (emit (.packet port (headerBytes w.pkt) w.pkt) s)
  if w.src < 8 then refreshPause w.src s else s

/-- EGRESS_ARBITRATION: a packet may begin on the port. -/
def execEgressArbitration (port : Nat) (s : State) : Result :=
  .next
    (if !(portOf s port).isUp ∨ s.power.phase ≠ .running then s
     else
       let x := chooseClass port (clearEmpty port s)
       match x.1 with
       | none => x.2
       | some c =>
         match headPacket x.2 port c with
         | some w => clearEmpty port (sendWaiting port c w x.2)
         | none => x.2)

/-! ## Sampling (R452) -/

/-- Bytes in an egress queue, or entries admitted and not yet begun. -/
def queueDepth (s : State) (q : Nat) : Nat :=
  if q < 64 then ((portOf s (q / 8)).egress.map (fun w => if w.pkt.cls = q % 8 then packetSize w.pkt else 0)).sum
  else ((part s (q - 64)).sqs.map (fun x => x.fetched.length)).sum

/-- Device time since which the oldest packet of an egress queue, or the oldest entry admitted and not yet begun, waits. -/
def queueSince (s : State) (q : Nat) : Nat :=
  if q < 64 then (((portOf s (q / 8)).egress.filter (fun w => decide (w.pkt.cls = q % 8))).map Waiting.since).foldl min s.time
  else ((part s (q - 64)).sqs.flatMap Sq.arrived).foldl min s.time

/-- QUEUE_SAMPLE_TIMER; device time counts whole µs, and `ages` are the ns beyond them in the age of each queue's oldest. -/
def execQueueSampleTimer (ages : List Nat) (s : State) : Result :=
  .next
    (if s.power.phase ≠ .running ∨ !s.choker.sampleActive.toNat.testBit 16 then s
     else
       let depth := (List.range 76).map (queueDepth s)
       setChkStatus 4 { s with choker := { s.choker with
         qdepth := depth.map (fun d => BitVec.ofNat 32 (min 0xFFFFFFFF d))
         qdelay := depth.zipIdx.map (fun x =>
           if x.1 = 0 then 0 else BitVec.ofNat 32 (min 0xFFFFFFFF ((s.time - queueSince s x.2) * 1000 + ages.getD x.2 0 % 1000))) } })

/-! ## FAB_STATS (R454, R617) -/

/-- The values that the partition view shows, as they stand now. -/
def admissionNow (s : State) (p : Nat) : Nat × Nat × Nat × Nat :=
  let t := part s p
  let oldest := (t.sqs.flatMap Sq.arrived).foldl min s.time
  (t.admitted, t.policed, queueDepth s (64 + p), (s.time - oldest) / 1000)

/-- One QP of the partition view, 32 bytes. -/
def qpViewBytes (q : Option Qp) : List Byte :=
  match q with
  | some q =>
    le 1 (if q.error then 2 else 1) ++ zeros 1 ++ le 2 q.remoteDevice ++ zeros 4 ++ le 8 q.sent ++ le 8 q.retransmitted ++
      le 4 q.rnrNaks ++ le 2 q.lastError ++ zeros 2
  | none => zeros 32

def partViewBytes (s : State) (p first count : Nat) : List Byte :=
  let t := part s p
  let a := t.seenHead
  le 8 a.1 ++ le 8 a.2.1 ++ le 4 a.2.2.1 ++ le 4 a.2.2.2 ++ zeros 8 ++
    (List.range count).flatMap (fun k => qpViewBytes (t.seenQps.find? (fun q => q.index = first + k)))

/-- STATE of the port view: an enabled port that is not up reads 4 while it cannot train. -/
def portStateCode (s : State) (p : Port) : Nat :=
  match p.state with
  | .disabled => 0
  | .up8 => 2
  | .up4 => 3
  | .down => 4
  | _ => if s.fabric.deviceId.isNone ∨ p.faultHold ≠ .none then 4 else 1

def portViewBytes (s : State) : List Byte :=
  s.fabric.ports.flatMap (fun p =>
    le 1 (portStateCode s p) ++ le 1 p.reason ++ le 2 p.neighbour ++ le 4 p.downEvents ++ le 8 p.fecCorrected ++
      le 8 p.fecUncorrected ++ le 8 p.txBytes ++ le 8 p.rxBytes ++ le 8 p.pausedNs ++ le 4 ((p.discards.map (fun x => x.2)).sum) ++ le 4 p.policed ++
      zeros 8)

/-- FAB_STATS: the partition view from a partition mailbox, the port view from mailbox 12. -/
def execFabStats (r : MbxReq) (qpFirst qpCount : Nat) (s : State) : Result :=
  .next (mailbox r Op.fabStats [8]
    (fun s => checked s [(decide (127 < qpFirst), St.invalidField, 32), (decide (120 < qpCount), St.invalidField, 34)]
      { st := s, payload := if r.mbx = 12 then portViewBytes s else partViewBytes s r.partition qpFirst qpCount }) s)

end Sys2Proof.Machine
end

