-- ==== Sys2Proof/Machine/Cruise.lean ====
section
/-! DEFINITION. Sys2Proof/Machine/Cruise.lean: Cruise's runs and the hardware voltage raise (R581–R589). -/
namespace Sys2Proof.Machine

/-- The lowest 5 mV step from 560 mV to V_CEIL with slack enough, and its slack (R583). -/
def lowestStep (target ceil : Nat) (slack : List Nat) : Option (Nat × Nat) :=
  (slack.zipIdx.map (fun x => (560 + 5 * x.2, x.1))).find? (fun x => decide (x.1 ≤ ceil) && decide (target ≤ x.2))

/-- Slack at the ceiling. -/
def ceilSlack (ceil : Nat) (slack : List Nat) : Nat := slack.getD ((ceil - 560) / 5) 0

/-- Voltage and slack of a grove from its samples: at the ceiling when no step gives the slack. -/
def planGrove (target ceil : Nat) (slack : List Nat) : Nat × Nat := (lowestStep target ceil slack).getD (ceil, ceilSlack ceil slack)

def setGrove (g : Nat) (x : Nat × Nat) (s : State) : State := onGrove g (fun v => { v with mv := x.1, slack := x.2 }) s

/-- One grove of a run, with the RESULT bits so far: its voltage; short at the ceiling, a spare for its slowest tile and a new plan, or out of service. -/
def cruiseGrove (a : CruiseSamples) (x : Nat × State) (g : Nat) : Nat × State :=
  let s := x.2
  let c := s.cruise
  let slack := a.groveSlack.getD g []
  if (groveOf s g).degraded then x
  else
    match lowestStep c.targetSlackPs c.vCeil slack with
    | some v => (x.1 ||| (if v.1 = c.vCeil then 1 else 0), setGrove g v s)
    | none =>
      if (groveOf s g).sparesUsed < 2 then
        (x.1 ||| 3, setGrove g (planGrove c.targetSlackPs c.vCeil (a.slackAfter.getD g [])) (substituteSpare g (a.slowest.getD g 0) s))
      else (x.1 ||| 5, restartRuns g (degradeGrove g (setGrove g (c.vCeil, ceilSlack c.vCeil slack) s)))

/-- The Cruise cap of a stack: 32 − 4 × ceil(d / 10), at least 0 (R585). -/
def capFor (target slack : Nat) : Nat := 32 - 4 * ((target - slack + 9) / 10)

/-- Refresh code of a retention sample: 1×, 2× or 4×, and whether even 4× falls short (R586). -/
def refreshFor (ms : Nat) : Nat × Bool := if 128 ≤ ms then (0, false) else if 64 ≤ ms then (1, false) else (2, decide (ms < 32))

/-- One stack of a run: its Cruise cap, with PAV_INT_STATUS bit 16 where it changed, refresh rate and retention (R585, R586). -/
def cruiseStack (a : CruiseSamples) (x : Nat × State) (n : Nat) : Nat × State :=
  let s := x.2
  let k := stackOf s n
  let slack := a.baseSlack.getD n 0
  let cap := capFor s.cruise.targetSlackPs slack
  let r := refreshFor (a.retentionMs.getD n 0)
  let s := onStack n (fun k => { k with
    cruiseShadow := cap, cruiseActive := cap, refresh := r.1, retention := a.retentionMs.getD n 0, baseSlack := slack }) s
  let s := if cap ≠ k.cruiseActive then setPavStatus 0x10000 s else s
  let s := if r.2 then logAdd (Config.refreshLog n).1 12 14 (Config.refreshLog n).2.1 (Config.refreshLog n).2.2 s else s
  (x.1 ||| (if cap < k.cruiseActive then 8 else 0) ||| (if r.2 then 16 else 0), s)

/-- Lanes and flash: eye margins, error rates, and a new threshold plan (R587). -/
def cruiseLanes (a : CruiseSamples) (x : Nat × State) : Nat × State :=
  let low := a.portEye.any (fun v => decide (v < 15)) || decide (a.landingEye < 15)
  let s := x.2
  let s := { s with
    fabric := { s.fabric with ports := s.fabric.ports.zipIdx.map (fun y => { y.1 with eyeMv := a.portEye.getD y.2 0 }) }
    landing := { s.landing with eyeMv := a.landingEye }
    cruise := { s.cruise with
      rber := (List.range 32).map (fun i => a.rber.getD i 0), thresholdGen := s.cruise.thresholdGen + 1 } }
  if low then (x.1 ||| 32, setCruStatus 16 s) else (x.1, s)

/-- COMMAND_DONE of each DEV_CRUISE that waits on the run (R582, R588). -/
def cruiseDone (s : State) : State :=
  let seq := (s.cruise.ledger.getLast?.map LedgerEntry.seq).getD 0
  s.cruise.doneTags.foldl (fun s t => commandDoneEvent .operator Op.devCruise t.1 t.2 0 seq s) s

/-- Hours of the newest ledger entry; 0 with none. -/
def newestHours (s : State) : Nat := (s.cruise.ledger.getLast?.map LedgerEntry.hours).getD 0

/-- 24 h after the previous run; after a reset, 24 powered hours after the newest ledger entry and 600 s after bring-up (R581). -/
def periodicDue (s : State) : Bool :=
  match s.cruise.lastRun with
  | some t => decide (t + 86400000000 ≤ s.time)
  | none => decide (newestHours s + 24 ≤ s.cruise.poweredHours) && decide (600000000 ≤ s.time)

/-- The hottest junction, a sample that has stood for 60 s, differs from the previous run's by more than EXCURSION_C (R581). -/
def excursionDue (hottest : Nat) (s : State) : Bool :=
  decide (s.cruise.excursionC < hottest - s.cruise.lastHottest) || decide (s.cruise.excursionC < s.cruise.lastHottest - hottest)

/-- A run is in progress or a cause of R581 begins one: 0 periodic, 1 temperature; DEV_CRUISE and the hardware raise begin
theirs when they arrive. -/
def runDue (a : CruiseSamples) (s : State) : Bool :=
  s.cruise.running || (decide (a.cause = 0) && periodicDue s) || (decide (a.cause = 1) && excursionDue a.hottest s)

/-- A whole run: every part of the plan takes effect at its end (R582). -/
def cruisePlan (a : CruiseSamples) (s : State) : State :=
  let cause := s.cruise.startCause.getD a.cause
  let s := { s with power := { s.power with hottest := a.hottest } }
  let x := cruiseLanes a ((List.range 8).foldl (cruiseStack a) ((List.range 16).foldl (cruiseGrove a) (0, s)))
  let s := cruiseDone (appendLedger cause x.1 x.2)
  { s with cruise := { s.cruise with
      running := false, startCause := none, lastRun := some s.time, doneTags := [], lastHottest := a.hottest } }

/-- CRUISE_RUN: at SERVICE_LEVEL 2, outside shard hold and D3hot. -/
def execCruiseRun (a : CruiseSamples) (s : State) : Result :=
  .next (if cruiseMayRun s ∧ runDue a s then cruisePlan a s else s)

/-- HW_VOLTAGE_RAISE: where a monitor reports less than 20 ps, 10 mV up to V_CEIL and a run starts; at V_CEIL it is a fault
of the tile beside the monitor. -/
def execHwVoltageRaise (grove : Nat) (m : MonitorRead) (s : State) : Result :=
  .next
    (if s.power.phase ≠ .running ∨ 20 ≤ m.slack ∨ 16 ≤ grove then s
     else if s.cruise.vCeil ≤ (groveOf s grove).mv then tileFault grove m.tile s
     else
       let s := setCruStatus 8 (onGrove grove (fun g => { g with mv := min s.cruise.vCeil (g.mv + 10), slack := m.slack }) s)
       if cruiseMayRun s then { s with cruise := startRun none s.cruise } else s)

end Sys2Proof.Machine
end

