-- ==== Sys2Proof/Machine/Deck.lean ====
section
/-! DEFINITION. Sys2Proof/Machine/Deck.lean: what Deck does on its own: programs, failures, the journal, reads of pieces,
suspension, space reclaim and wear levelling (R365–R367, R377–R394). -/
namespace Sys2Proof.Machine

/-- Deck serves. -/
def deckRuns (s : State) : Bool := decide (s.power.phase = .running) && s.deck.inService

/-- A program or erase has ended: its LUN's suspensions count from zero again (R367). -/
def operationEnds (d : Deck) : Deck := { d with suspended := [] }

/-- EXTENT_PROGRAM: a dirty extent, with its atomic group (R377, R380). -/
def execExtentProgram (a : ExtentArgs) (s : State) : Result :=
  .next
    (if deckRuns s ∧ (dirtyList s).any (isBuf a.part a.handle a.extent) then
      onDeck operationEnds (programExtent a.part a.handle a.extent s)
     else s)

/-! ## Relocation -/

/-- Pieces of an image in block `b`. -/
def piecesIn (b : Nat) (i : FlashImage) : List FlashPiece := i.pieces.filter (fun x => decide (x.block = b))

/-- Valid pieces of a block. -/
def validPieces (d : Deck) (b : Nat) : Nat := (d.images.map (fun i => (piecesIn b i).length)).sum

/-- Bytes of the valid pieces of a block, as stored. -/
def validBytes (d : Deck) (b : Nat) : Nat := (d.images.map (fun i => if i.pieces = [] then 0 else i.frameLen * (piecesIn b i).length / i.pieces.length)).sum

/-- Move the pieces of an image that `sel` takes to blocks that `dst` gives: new pages and mappings, WRITE_TIME and WRITE_TEMP kept
(R388). -/
def relocate (now : Nat) (dst : Deck → Nat → Nat) (sel : FlashPiece → Bool) (i : FlashImage) (d : Deck) : Deck :=
  let n := (i.pieces.filter sel).length
  let move (d : Deck) (x : FlashPiece) : Deck :=
    let b := dst d (d.channelOf x.block)
    useBlock b { d with
      images := mapWhere (isImg i.part i.handle i.extent)
        (fun y => { y with pieces := mapWhere (fun z => z = x) (fun z => { z with block := b, seq := d.writeSeq }) y.pieces }) d.images
      writeSeq := d.writeSeq + 1 }
  let d := (i.pieces.filter sel).foldl move d
  journalAdd now n { d with programmed := d.programmed + (if i.pieces = [] then 0 else i.frameLen * n / i.pieces.length) }

/-- Every valid piece of block `b` goes to blocks that `dst` gives. -/
def emptyBlock (now b : Nat) (dst : Deck → Nat → Nat) (d : Deck) : Deck :=
  d.images.foldl (fun d i => if (piecesIn b i).isEmpty then d else relocate now dst (fun x => decide (x.block = b)) i d) d

def eraseBlock (b : Nat) (d : Deck) : Deck :=
  { d with blocks := mapWhere (fun x => x.id = b) (fun x => { x with pe := x.pe + 1, written := false }) d.blocks }

/-! ## Failures (R383, R391, R392) -/

/-- Retire a block: never used again, its good bytes gone. -/
def retireBlock (now b : Nat) (d : Deck) : Deck :=
  if b ∈ d.bad then d
  else checkReadOnly (emptyBlock now b (fun d ch => openBlock d b ch)
    { d with bad := d.bad ++ [b], goodBytes := d.goodBytes - Config.blockBytes, blocks := d.blocks.filter (fun x => x.id ≠ b) })

/-- An acknowledged extent that cannot be made durable: poisoned, recorded, its dirty copy discarded (R383, R384). -/
def loseExtent (p h e : Nat) (s : State) : State :=
  deferError p h e 1 (onDeck (fun d => { d with
    buffer := d.buffer.filter (fun b => !isBuf p h e b)
    poisoned := if (p, h, e) ∈ d.poisoned then d.poisoned else d.poisoned ++ [(p, h, e)] }) s)

/-- PROGRAM_FAILURE: the block is retired; an extent being programmed is tried on a fresh block, and is lost when that
fails too. -/
def execProgramFailure (a : ProgramFailArgs) (s : State) : Result :=
  .next
    (if !deckRuns s then s
     else
       let s := onDeckPages (fun d => operationEnds (retireBlock s.time a.block d)) s
       if a.isErase ∨ !(dirtyList s).any (isBuf a.part a.handle a.extent) then s
       else if a.again then loseExtent a.part a.handle a.extent s
       else
         match findObj s a.part a.handle with
         | some o => programTo a.block a.part o a.extent none s
         | none => s)

/-! ## Journal, reads, suspension -/

/-- JOURNAL_FLUSH: every 50 ms of device time or 8,192 updates (R394). -/
def execJournalFlush (s : State) : Result :=
  .next (if deckRuns s then onDeck (fun d => { d with journal := 0, lastFlush := s.time }) s else s)

/-- The age bucket: floor(log2(age in hours)), within 0 to 15; an age under an hour is bucket 0 (R385). -/
def ageBucket (deckTime written : Nat) : Nat := min 15 (Nat.log2 ((deckTime - written) / 3600))

/-- The temperature buckets: below 25 °C, 25–44, 45–64, and 65 °C or above (R385). -/
def tempBucket (t : Int) : Nat := if t < 25 then 0 else if t < 45 then 1 else if t < 65 then 2 else 3

/-- The piece that a read names: one of a host extent's frame, or of device data, whose tag the operand gives. -/
def readPiece (s : State) (a : PieceReadArgs) : Option FlashPiece :=
  (s.deck.images.find? (isImg a.part a.handle a.extent)).bind (fun i => i.pieces[a.piece]?)

/-- The entry of its LUN's threshold table under which a piece is read: channel, LUN, THRESHOLD_GEN and the three buckets (R385). -/
structure ThresholdKey where
  channel : Nat
  lun : Nat
  gen : Nat
  age : Nat
  writeBucket : Nat
  readBucket : Nat
  deriving DecidableEq, Repr

def thresholdKey (s : State) (a : PieceReadArgs) : ThresholdKey :=
  let d := s.deck
  let ch := ((readPiece s a).map (fun x => d.channelOf x.block)).getD a.channel
  let lun := ((readPiece s a).map (fun x => d.lunOf x.block)).getD a.lun
  { channel := ch, lun := lun, gen := s.cruise.thresholdGen
    age := ageBucket d.deckTime (((readPiece s a).map FlashPiece.time).getD a.writeTime)
    writeBucket := tempBucket (((readPiece s a).map FlashPiece.temp).getD a.writeTemp)
    readBucket := tempBucket (lunTemp d ch lun s.freeCount) }

/-- The offsets of the first read, and of retry `n` of the ladder. -/
def offsetsOf (k : ThresholdKey) : List Int := Config.readOffsets k.channel k.lun k.gen k.age k.writeBucket k.readBucket
def retryOf (k : ThresholdKey) (n : Nat) : List Int := Config.retryOffsets k.channel k.lun k.gen k.age k.writeBucket k.readBucket n

/-- How a piece was read: at the hard decode, at a retry, by soft decode, or not at all. -/
inductive ReadEnd where
  | hard
  | retried (n : Nat)
  | soft
  | lost
  deriving DecidableEq, Repr

/-- Down the ladder of R386, to the first step that succeeds; a piece that does not authenticate is uncorrectable (R370). -/
def readEnd (s : State) (a : PieceReadArgs) : ReadEnd :=
  let k := thresholdKey s a
  if offsetsOf k ∈ a.levels then (if a.authOk then .hard else .lost)
  else
    match ((List.range 8).map (· + 1)).find? (fun n => decide (retryOf k n ∈ a.levels)) with
    | some n => if a.authOk then .retried n else .lost
    | none => if a.softOk && a.authOk then .soft else .lost

/-- The piece that was read moves when it needed many retries or soft decode (R386). -/
def relocatePiece (now : Nat) (a : PieceReadArgs) (x : Option FlashPiece) (d : Deck) : Deck :=
  match d.images.find? (isImg a.part a.handle a.extent), x with
  | some i, some x => relocate now (fun d ch => openBlock d x.block ch) (fun y => decide (y = x)) i d
  | _, _ => d

/-- What a read leaves: RETRY_READS and SOFT_READS, relocation, and the log entry (R386, R405). -/
def pieceRead (a : PieceReadArgs) (s : State) : State :=
  let k := thresholdKey s a
  let e := readEnd s a
  let move (s : State) : State := onDeckPages (relocatePiece s.time a (readPiece s a)) s
  let retries : Bool := !decide (offsetsOf k ∈ a.levels)
  let softs : Bool := retries && ((List.range 8).map (· + 1)).all (fun n => !decide (retryOf k n ∈ a.levels))
  let page := match readPiece s a with | some x => Config.flashPage x.block x.seq | none => Config.flashPage noBlock a.address
  let s := traceFlash a.part k.channel k.lun 0 page (onDeck (fun d => { d with
    retryReads := if retries then d.retryReads + 1 else d.retryReads
    softReads := if softs then d.softReads + 1 else d.softReads }) s)
  match e with
  | .hard => s
  | .retried n => logAdd 3 4 a.part a.address 3 (if 4 ≤ n then move s else s)
  | .soft => logAdd 3 4 a.part a.address 3 (move s)
  | .lost => logAdd 4 4 a.part a.address 3 (onDeck (fun d => { d with uncorrectable := d.uncorrectable + 1 }) s)

/-- FLASH_PIECE_READ: the offsets of R385, then the ladder of R386. -/
def execFlashPieceRead (a : PieceReadArgs) (s : State) : Result := .next (if deckRuns s then bumpFree (pieceRead a s) else s)

/-- Suspensions of the operation on a LUN. -/
def suspendsOf (d : Deck) (channel lun : Nat) : Nat :=
  ((d.suspended.find? (fun x => x.1 = channel && x.2.1 = lun)).map (fun x => x.2.2)).getD 0

/-- READ_SUSPEND: at most 8 times for one operation (R367). -/
def execReadSuspend (channel lun : Nat) (s : State) : Result :=
  .next
    (if deckRuns s ∧ channel < s.deck.channels ∧ lun < s.deck.luns ∧ suspendsOf s.deck channel lun < 8 then
      onDeck (fun d => { d with
        suspends := d.suspends + 1
        suspended := d.suspended.filter (fun x => !(x.1 = channel && x.2.1 = lun)) ++ [(channel, lun, suspendsOf d channel lun + 1)] }) s
     else s)

/-! ## Free space and wear (R388, R389) -/

/-- Oldest WRITE_TIME among the pieces of a block. -/
def oldestIn (d : Deck) (b : Nat) : Nat := ((d.images.flatMap (piecesIn b)).map FlashPiece.time).foldl min d.deckTime

/-- The block to reclaim: the fewest valid pieces, then the oldest WRITE_TIME, then the lower number. -/
def victimBlock (d : Deck) : Option FlashBlock :=
  (sortBy (fun a b =>
    if validPieces d a.id ≠ validPieces d b.id then decide (validPieces d a.id < validPieces d b.id)
    else if oldestIn d a.id ≠ oldestIn d b.id then decide (oldestIn d a.id < oldestIn d b.id)
    else decide (a.id < b.id)) (d.blocks.filter FlashBlock.written)).head?

/-- GARBAGE_COLLECTION. -/
def execGarbageCollection (s : State) : Result :=
  .next
    (if deckRuns s then
      onDeckPages (fun d =>
        match victimBlock d with
        | some b => operationEnds (eraseBlock b.id (emptyBlock s.time b.id (fun d ch => openBlock d b.id ch) d))
        | none => d) s
     else s)

def peMax (d : Deck) : Nat := (d.blocks.map FlashBlock.pe).foldl max 0

/-- The smallest program/erase count: 0 while a good block has not been used. -/
def peMin (d : Deck) : Nat :=
  if d.blocks.length < d.goodBytes / Config.blockBytes then 0 else (d.blocks.map FlashBlock.pe).foldl min (peMax d)

/-- A block of high count on a channel to relocate into: the most erased free one, else a newly opened block. -/
def highBlock (avoid : Nat) (d : Deck) (ch : Nat) : Nat :=
  match (sortBy (fun (a b : FlashBlock) => decide (b.pe < a.pe))
      (d.blocks.filter (fun b => !b.written && decide (b.id ≠ avoid) && decide (d.channelOf b.id = ch)))).head? with
  | some b => b.id
  | none => openBlock d avoid ch

/-- The block that holds pieces and has the smallest count: a young block without any is in use already. -/
def youngest (d : Deck) : Option FlashBlock :=
  (sortBy (fun (a b : FlashBlock) => decide (a.pe < b.pe)) (d.blocks.filter FlashBlock.written)).head?

/-- WEAR_LEVELLING: one relocation while the spread exceeds SPREAD_LIMIT. -/
def execWearLevelling (s : State) : Result :=
  .next
    (if deckRuns s ∧ s.cruise.spreadLimit < peMax s.deck - peMin s.deck then
      onDeckPages (fun d =>
        match youngest d with
        | some b =>
          let moved := validBytes d b.id
          let d := operationEnds (eraseBlock b.id (emptyBlock s.time b.id (highBlock b.id) d))
          { d with wearMoved := d.wearMoved + moved }
        | none => d) s
     else s)

end Sys2Proof.Machine
end

