-- ==== Sys2Proof/Machine/Device.lean ====
section
/-! DEFINITION. Sys2Proof/Machine/Device.lean: the DEV commands (R77, R111, R112, R562, R563, R570, R581, R588). -/
namespace Sys2Proof.Machine

/-! ## DEV_IDENTIFY and DEV_STATUS -/

def runningSlot (s : State) : FwSlot := if s.hallmark.runB then s.hallmark.slotB else s.hallmark.slotA

/-- ORDERING_CODE: ASCII, zero-padded to 16 bytes. -/
def orderingCode : List Byte := ascii (if Config.is768 then "FV960-768" else "FV960-384") ++ zeros 7

def identityDigest : List Byte := sha256 Config.idPubKey

def identifyBytes (s : State) : List Byte :=
  orderingCode ++ [0xB0, 3, 2, 0] ++ le 4 (runningSlot s).version ++ le 4 (fwFloor s) ++ le 2 (ownId s) ++
    le 2 (if Config.is768 then 768 else 384) ++ identityDigest

def identifyBody (s : State) : MRes := { st := s, payload := identifyBytes s }

/-- DEV_IDENTIFY. -/
def execDevIdentify (r : MbxReq) (s : State) : Result :=
  .next (mailbox r Op.devIdentify [0] identifyBody s)

/-- Whole milliseconds of a device time for a partition (R37, R512). -/
def coarseTime (t : Nat) : Nat := t / 1000 * 1000

def degradedMap (s : State) : Nat :=
  (s.groves.zipIdx.map (fun x => if x.1.degraded then 2 ^ x.2 else 0)).sum

def statusBytes (s : State) (coarse : Bool) : List Byte :=
  let rs := reservedSizes s
  le 1 (serviceLevel s) ++ le 1 (powerCode s.power.state) ++ le 2 (degradedMap s) ++
    le 2 (if coarse then s.power.inputPower / 10 * 10 else s.power.inputPower) ++
    le 2 (if coarse then s.power.hottest / 5 * 5 else s.power.hottest) ++
    le 8 (if coarse then coarseTime s.time else s.time) ++ le 2 rs.length ++ zeros 6 ++
    rs.zipIdx.flatMap (fun x => le 8 (Config.reservedBase x.2) ++ le 8 x.1)

def statusBody (m : Nat) (s : State) : MRes := { st := s, payload := statusBytes s (decide (m < 12)) }

/-- DEV_STATUS, coarsened for a partition mailbox (R37, R512). -/
def execDevStatus (r : MbxReq) (s : State) : Result :=
  .next (mailbox r Op.devStatus [0] (statusBody r.mbx) s)

/-! ## DEV_LOG_READ -/

def logBytes (e : LogEntry) : List Byte :=
  le 8 e.time ++ le 4 e.seq ++ le 2 e.kind ++ le 1 e.source ++ le 1 e.partition ++ le 8 e.detail0 ++ le 8 e.detail1

/-- The response layout of DEV_LOG_READ, shared by DBG_TRACE (R111, R520): `seqOf` and `bytes` of an entry, the entries
held, oldest first, and the next entry's number. The model's choices (log entry 87): with no entry returned FIRST_SEQ and
NEXT_SEQ are the larger of START_SEQ and the oldest held, and LOST saturates at 65,535. -/
def readRing {α : Type} (seqOf : α → Nat) (bytes : α → List Byte) (held : List α) (next start maxEntries : Nat) : List Byte :=
  let out := (held.filter (fun e => decide (start ≤ seqOf e))).take maxEntries
  let first := (out.head?.map seqOf).getD (max start ((held.head?.map seqOf).getD next))
  le 4 first ++ le 4 ((out.getLast?.map (fun e => seqOf e + 1)).getD first) ++ le 2 out.length ++ le 2 (min 65535 (first - start)) ++ zeros 4 ++
    out.flatMap bytes

/-- DEV_LOG_READ. -/
def execDevLogRead (r : MbxReq) (startSeq maxEntries : Nat) (s : State) : Result :=
  .next (mailbox r Op.devLogRead [8]
    (fun s => checked s [(!within 1 127 maxEntries, St.invalidField, 36)]
      { st := s, payload := readRing LogEntry.seq logBytes s.log s.logSeq startSeq maxEntries }) s)

/-! ## DEV_FULL_RESET -/

/-- The response is written first; the reset begins after it (R77). -/
def resetAfter (r : MbxReq) (format dumpOk : Bool) (s : State) : State :=
  let allFree := decide (∀ t ∈ s.parts, t.state = .free)
  let body (s : State) : MRes := checked s [(format && !allFree, St.wrongState, 0)] { st := s }
  let t := mailbox r Op.devFullReset (if format then [8] else [0, 8]) body s
  match executedAnswer r Op.devFullReset none (lengthIn r (if format then [8] else [0, 8])) body s with
  | some x =>
    if x.status = St.ok then
      let u := fullResetEntry dumpOk t
      if format then { u with power := { u.power with formatFlash := true } } else u
    else t
  | none => t

/-- DEV_FULL_RESET without FORMAT_FLASH. -/
def execDevFullReset (r : MbxReq) (dumpOk : Bool) (s : State) : Result := .next (resetAfter r false dumpOk s)

/-- DEV_FULL_RESET with FORMAT_FLASH (R563). -/
def execDevFullResetFormatFlash (r : MbxReq) (dumpOk : Bool) (s : State) : Result := .next (resetAfter r true dumpOk s)

/-! ## DEV_SET_POWER -/

def setPowerBody (a : SetPowerArgs) (s : State) : MRes :=
  let us := dflt 100 a.idleAfterUs
  checked s
    [(decide (a.target ≠ 0) && decide (a.target ≠ 2), St.invalidField, 32),
     (decide (1 < a.idleDisable), St.invalidField, 33),
     (!within 10 10000 us, St.invalidField, 34),
     (decide (a.target = 2) && decide (s.power.state = .d3hot), St.wrongState, 0)]
    (let s := { s with power := { s.power with idleDisable := decide (a.idleDisable = 1), idleAfterUs := us } }
     let s := if a.idleDisable = 1 ∧ s.power.state = .idle then
       { s with power := { s.power with state := .active, gated := [] } } else s
     { st :=
        if a.target = 2 then (if s.power.state = .shardHold then s else enterHold .shardHold s)
        else if s.power.state = .shardHold then leaveHold s else s })

/-- R570 over R565: at SERVICE_LEVEL 0 a TARGET of SHARD_HOLD is WRONG_STATE, where any other request is NOT_READY. -/
def setPowerStep (s : State) (r : MbxReq) (target : Nat) : Option (Nat × Nat) :=
  (lengthIn r [8]).or (if target = 2 ∧ serviceLevel s = 0 then some (St.wrongState, 0) else none)

/-- DEV_SET_POWER, whatever path it comes by. -/
def setPower (r : MbxReq) (a : SetPowerArgs) (s : State) : State :=
  mailboxFull r Op.devSetPower none (setPowerStep s r a.target) (setPowerBody a) s

/-- DEV_SET_POWER (R570). -/
def execDevSetPower (r : MbxReq) (a : SetPowerArgs) (s : State) : Result := .next (setPower r a s)

/-! ## DEV_CRUISE -/

def cruiseChecks (a : CruiseArgs) : List (Bool × Nat × Nat) :=
  [(decide (a.mode ≠ 0), St.invalidField, 32), (!within 40 200 (dflt 80 a.targetSlackPs), St.invalidField, 33), (!within 5 40 (dflt 15 a.excursionC), St.invalidField, 34),
   (!within 700 800 (dflt 800 a.vCeil), St.invalidField, 36), (!within 50 2000 (dflt 400 a.spreadLimit), St.invalidField, 40)]

/-- The parameter set becomes active as a whole (R25, R588). -/
def setCruise (a : CruiseArgs) (s : State) : State :=
  { s with cruise := { s.cruise with
      targetSlackPs := dflt 80 a.targetSlackPs, excursionC := dflt 15 a.excursionC, vCeil := dflt 800 a.vCeil
      spreadLimit := dflt 400 a.spreadLimit } }

/-- LEDGER_SEQ of the newest entry. -/
def newestSeq (s : State) : Nat := (s.cruise.ledger.getLast?.map LedgerEntry.seq).getD 0

/-- DEV_CRUISE with MODE 0. -/
def execDevCruise (r : MbxReq) (a : CruiseArgs) (s : State) : Result :=
  .next (mailbox r Op.devCruise [32]
    (fun s => checked s (cruiseChecks a) (accept r Op.devCruise St.ok (newestSeq s) .nothing (setCruise a s))) s)

/-- DEV_CRUISE with MODE 1: its COMMAND_DONE is that of the run that follows, or of the run in progress (R581, R582). -/
def execDevCruiseRun (r : MbxReq) (a : CruiseArgs) (s : State) : Result :=
  .next (mailbox r Op.devCruise [32]
    (fun s => checked s (cruiseChecks { a with mode := 0 })
      (let s := setCruise a s
       { st := { s with cruise := startRun (some 2) { s.cruise with doneTags := s.cruise.doneTags ++ [(r.tag, r.partition)] } }, async := true })) s)

end Sys2Proof.Machine
end

