-- ==== Sys2Proof/Machine/Landing.lean ====
section
/-! DEFINITION. Sys2Proof/Machine/Landing.lean: BAR2, IDE streams, failed host reads, Bus Master Enable, function level
resets, the link and D3hot (R458–R475, R508, R573). -/
namespace Sys2Proof.Machine

/-! ## Waiting requests (R466, R473) -/

/-- The function on whose behalf a request is issued. -/
def Out.fn : Out → Nat
  | .hostWrite fn _ _ => fn
  | .completion p _ _ _ _ => 1 + p
  | .event p _ _ _ => 1 + p
  | .msix fn _ => fn
  | _ => 0

/-- Issue what waited, oldest first; a request whose function is still blocked waits again. -/
def flushWaiting (s : State) : State :=
  s.landing.waiting.foldl (fun s o => issueHost o.fn o s) { s with landing := { s.landing with waiting := [] } }

/-! ## BAR2 (R461–R463) -/

/-- Bytes of BAR2 (R458). -/
def bar2Size (s : State) : Nat := 64 * 2 ^ 30 * 2 ^ s.landing.bar2Code

/-- The object of partition `p` that holds [a, a + n). -/
def bar2Range (s : State) (p a n : Nat) : Option ObjRange :=
  (rangesOf s p).find? (fun r => decide (r.base ≤ a) && decide (a + n ≤ r.base + r.size))

/-- BAR2_READ: the object's bytes, or Unsupported Request and a log entry (R31, R462); Unsupported Request to a function of
an Insecure stream (R473). -/
def execBar2Read (a : Bar2Access) (s : State) : Result :=
  .next
    (if s.power.phase = .running ∧ s.landing.linkActive ∧ insecureFn s (1 + a.part) then emit (.unsupportedRequest (1 + a.part)) s
     else if !hostReaches s (1 + a.part) || decide (bar2Size s < a.offset + a.length) then s
     else
       let x := sliceBase a.part + a.offset
       match bar2Range s a.part x a.length with
       | some r => emit (.tlpData (1 + a.part) (objLoad s r x a.length)) s
       | none => emit (.unsupportedRequest (1 + a.part)) (logDecode 1 x 0 s))

/-- BAR2_WRITE: into a host object through the translator; anything else is discarded and logged (R31, R462). -/
def execBar2Write (a : Bar2Access) (s : State) : Result :=
  .next
    (if !hostReaches s (1 + a.part) || decide (bar2Size s < a.offset + a.length) then s
     else
       let x := sliceBase a.part + a.offset
       match bar2Range s a.part x a.length with
       | some r => if r.host then objStore r x (a.data.take a.length) s else logDecode 1 x 1 s
       | none => logDecode 1 x 1 s)

/-- BAR2_RESIZE: one size for every VF, 64 GiB to 1 TiB (R458). -/
def execBar2Resize (code : Nat) (s : State) : Result :=
  .next (if s.power.phase = .running ∧ code ≤ 4 then { s with landing := { s.landing with bar2Code := code } } else s)

/-! ## IDE streams (R470–R473, R508) -/

def IdeStream.holds (i : IdeStream) (fn : Nat) : Bool :=
  decide (i.state ≠ .off) && decide (i.firstFn ≤ fn) && decide (fn < i.firstFn + i.fnCount)

/-- A host read of BAR0 (R31, R39, R459, R460): the register bytes, zeros where the function does not expose the range, and
Unsupported Request with a log entry for an offset or form that no register has. -/
def bar0Read (fn o n : Nat) (s : State) : State :=
  if regAccessOk o n then
    match regRange o with
    | some (r, _) => emit (.tlpData fn (if exposed fn r then regBytes s o n else zeros n)) s
    | none => s
  else emit (.unsupportedRequest fn) (logDecode 1 o 0 s)

/-- HOST_NON_IDE_TLP: refused where the function lies in a stream's association (R472); elsewhere a read of BAR0 is
answered. -/
def execHostNonIdeTlp (t : HostTlp) (s : State) : Result :=
  .next
    (if s.power.phase = .running ∧ s.landing.linkActive ∧ s.landing.ide.any (fun i => i.holds t.fn) then
      let s := setLndStatus 0x40 s
      if t.isWrite then s else emit (.unsupportedRequest t.fn) s
     else
       match t.bar0 with
       | some x => if t.isWrite || !hostReaches s t.fn then s else bar0Read t.fn x.1 x.2 s
       | none => s)

/-- A stream may be keyed for the association: inside the functions, in no other stream, and for exactly VF p while p is
ACTIVE; the session was made under its partition's IDE PSK, or for any other association the device's (R508). -/
def mayKey (s : State) (a : IdeKeyArgs) : Bool :=
  let vf := decide (a.fnCount = 1) && decide (1 ≤ a.firstFn)
  decide (a.stream < 4) && decide (a.psk = if vf then idePsk (a.firstFn - 1) (part s (a.firstFn - 1)) else deviceIdePsk s) && decide (1 ≤ a.fnCount) && decide (a.firstFn + a.fnCount ≤ 13) &&
    s.landing.ide.zipIdx.all (fun x =>
      decide (x.2 = a.stream) || (List.range a.fnCount).all (fun k => !x.1.holds (a.firstFn + k))) &&
    (!vf || decide ((part s (a.firstFn - 1)).state = .active))

/-- IDE_KM_KEY_PROGRAM: the stream stands, and work that waited for it goes on (R470, R473). -/
def execIdeKmKeyProgram (a : IdeKeyArgs) (s : State) : Result :=
  .next
    (if firmwareRuns s && s.landing.linkActive && mayKey s a then
      flushWaiting { s with landing := { s.landing with
        ide := s.landing.ide.set a.stream { firstFn := a.firstFn, fnCount := a.fnCount, state := .secure } } }
     else s)

/-- IDE_INTEGRITY_FAILURE: the stream enters Insecure (R473). -/
def execIdeIntegrityFailure (stream : Nat) (s : State) : Result :=
  .next
    (match s.landing.ide[stream]? with
     | some i =>
       if i.state = .secure then
         setLndStatus (regOf (2 ^ stream)) { s with
           landing := { s.landing with ide := s.landing.ide.set stream { i with state := .insecure } }
           hallmark := { s.hallmark with ideInsecure := s.hallmark.ideInsecure + 1 } }
       else s
     | none => s)

/-! ## Host reads that fail (R468) -/

/-- A failed fetch: the SQ is in error. -/
def fetchFailed (p sq cause : Nat) (s : State) : State :=
  match findSq (part s p) sq with
  | some q =>
    notify (.part p) 3 0 p 0 (q.id * 256 + cause * 65536)
      (setLndStatus 0x20 (onPart p (fun t => t.onSq sq (fun x => { x with error := true })) s))
  | none => s

/-- A failed read of a parameter block or input: the command completes without effect. -/
def inputFailed (p sq tag off cause : Nat) (inParams : Bool) (s : State) : State :=
  match (findSq (part s p) sq).bind (fun q => q.fetched.head?) with
  | some e =>
    if e.tag = tag then
      completeSq p sq tag e.context e.noInt St.hostAccessFailed 0 (if inParams then inBlock off else off) cause
        (setLndStatus 0x20 (onPart p (fun t => t.onSq sq (fun x => { x with fetched := x.fetched.tail, arrived := x.arrived.tail })) s))
    else s
  | none => s

/-- A failed Forwarder read stops its channel with code 3: none of its bytes has moved yet. A run that has moved them has no read left
to fail. -/
def channelFailed (c : Nat) (s : State) : State :=
  if (channelOf s c).busy && (channelOf s c).due then
    channelVector c (setLndStatus 0x20
      (onChannel c (fun x => { x with busy := false, due := false, done := true, error := true, errCode := 3 }) s))
  else s

/-- HOST_READ_FAILURE. -/
def execHostReadFailure (a : HostReadFail) (s : State) : Result :=
  .next
    (if s.power.phase ≠ .running then s
     else
       match a.what with
       | .sqFetch p sq => fetchFailed p sq a.cause s
       | .command p sq tag off inParams => inputFailed p sq tag off a.cause inParams s
       | .channel c => channelFailed c s)

/-! ## Bus Master Enable, FLR, link, D3hot -/

/-- BUS_MASTER_ENABLE_CHANGE: while clear, work of the function waits; set, it goes on (R466). -/
def execBusMasterEnableChange (fn : Nat) (enable : Bool) (s : State) : Result :=
  .next
    (if s.power.phase ≠ .running then s
     else
       let l := { s.landing with
         bme := s.landing.bme.set fn enable
         vfEnable := s.landing.vfEnable || (enable && decide (1 ≤ fn)) }
       let s := { s with landing := l }
       if enable then flushWaiting s else s)

/-- FLR_VF (R102, R474). -/
def execFlrVf (p : Nat) (s : State) : Result :=
  .next (if s.power.phase = .running ∧ p < 12 then flrPart p s else s)

/-- FLR_PF (R475). -/
def execFlrPf (s : State) : Result := .next (if s.power.phase = .running then flrPhys s else s)

/-- PCIE_LINK_DOWN: requests to host memory and MSI-X messages are discarded until the link is back (R469). -/
def execPcieLinkDown (s : State) : Result :=
  .next
    (if s.power.phase = .running ∧ s.landing.linkActive then
      setLndStatus 0x10 { s with landing := { s.landing with linkActive := false, waiting := [] } }
     else s)

/-- PCIE_LINK_UP: an FLR of the PF (R469). -/
def execPcieLinkUp (s : State) : Result :=
  .next
    (if s.landing.linkActive || !s.power.refclk.getD 3 false then s
     else
       let s := { s with landing := { s.landing with linkActive := true } }
       if s.power.phase = .running then flrPhys s else s)

/-- PF_D3HOT_ENTRY: the device is in shard hold and Landing issues no request (R573). -/
def execPfD3hotEntry (s : State) : Result :=
  .next
    (if s.power.phase ≠ .running ∨ s.power.state = .d3hot then s
     else if s.power.state = .shardHold then { s with power := { s.power with state := .d3hot } }
     else enterHold .d3hot s)

/-- PF_D0_RETURN: the exit from shard hold, and requests that waited go out (R573). -/
def execPfD0Return (s : State) : Result :=
  .next (if s.power.state = .d3hot then flushWaiting (leaveHold s) else s)

end Sys2Proof.Machine
end

