-- ==== Sys2Proof/Machine/Partition.lean ====
section
/-! DEFINITION. Sys2Proof/Machine/Partition.lean: the life of a partition (R99–R101, R502–R511, R566, R567) and of its
queues (R83–R88, R97). -/
namespace Sys2Proof.Machine

/-! ## Tally items the partition commands read -/

/-- CREDENTIAL_ROOT is set (R510). -/
def rootSet (s : State) : Bool := decide ((tallyItem s 3).value ≠ [])

/-! ## PART_CREATE -/

/-- A partition just created: salt and key pair are two draws, KEY_GENERATION 1 (R502). -/
def Part.created (n : Nat) (t : Part) : Part :=
  { t.newPair (n + 1) with
    state := .keysPending, salt := Config.drbg n, keyGen := 1, check := none, firstLoad := false }

def partCreateBody (p : Nat) (s : State) : MRes :=
  checked s
    [(decide ((part s p).state ≠ .free) || !enabledIn (layoutValue s) p || !rootSet s, St.wrongState, 0)]
    (let n := s.hallmark.draws
     let s := onPart p (Part.created n) (tallyWrite (bumpDraws 2 s))
     let s := notifyPartState p (onMailbox p (fun b => { b with ready := true }) s)
     { st := s, payload := le 4 (part s p).keyGen ++ zeros 4 ++ fitBytes 32 (part s p).pub })

/-- PART_CREATE (R101, R502, R510, R525). -/
def execPartCreate (r : MbxReq) (s : State) : Result :=
  .next (mailbox r Op.partCreate [8] (partCreateBody r.partition) s)

/-! ## Ending submission queues (R87) -/

/-- Entries fetched and not yet begun complete with QUEUE_DELETED. -/
def dropFetched (p : Nat) (q : Sq) (s : State) : State :=
  let s := onPart p (fun t => t.onSq q.id (fun x => { x with fetched := [], arrived := [] })) s
  q.fetched.foldl (fun s e => completeSq p q.id e.tag e.context e.noInt St.queueDeleted 0 0 0 s) s

/-- Fetching has stopped: unbegun entries and running QRY commands of the SQ end. -/
def stopSq (p : Nat) (q : Sq) (s : State) : State :=
  cancelRunning p (fun r => decide (r.sq = q.id) && isQry r.opcode) (dropFetched p q s)

/-- Every completion of the SQ's commands has been written. -/
def sqEnded (t : Part) (q : Sq) : Bool :=
  t.running.all (fun r => decide (r.sq ≠ q.id)) &&
    (match findCq t q.cqId with
     | some c => c.held.all (fun h => decide (h.2.sqId ≠ q.id))
     | none => true)

/-- The CQs, event queue and QPs of a releasing partition go once every SQ has ended (R99). -/
def releaseQueues (p : Nat) (s : State) : State :=
  if (part s p).state = .releasing ∧ (part s p).sqs = [] then
    onPart p (fun t => { t with cqs := [], eq := none, qps := [] }) s
  else s

/-! ## PART_RELEASE and the scrub -/

def partReleaseBody (r : MbxReq) (s : State) : MRes :=
  let p := r.partition
  checked s
    [(decide ((part s p).state = .free) || decide ((part s p).state = .releasing), St.wrongState, 0)]
    (let s := onPart p (fun t => { t with state := .releasing, releaseTag := r.tag, streams := [] }) s
     let s := (part s p).sqs.foldl (fun s q => stopSq p q s) s
     { st := releaseQueues p (notifyPartState p (discardHeld p s)), async := true })

/-- PART_RELEASE (R99–R101, R307). -/
def execPartRelease (r : MbxReq) (s : State) : Result :=
  .next (mailbox r Op.partRelease [8] (partReleaseBody r) s)

/-- A replica shard held here leaves its replica set (R351, step 1 of *Partition release*). -/
def leaveReplicaSet (p : Nat) (c : Coll) (s : State) : State :=
  if c.role = 0 then s
  else
    let left := c.replicaSet.filter (fun x => x.1 ≠ c.role)
    ((c.primary :: left.map (fun x => x.2)).eraseDups.filter (fun d => d ≠ ownId s)).foldl
      (fun s d => sendFw d p (.replicaSet (collNumber c) c.shardOrdinal c.primary left) s) s

/-- Steps 1 to 5 of *Partition release*: replicas leave, keys and salt go in one tally write, mappings and pool units are
given up, memory reads zero, and the partition is FREE (R15, R511). -/
def scrubPart (p : Nat) (s : State) : State :=
  let t := part s p
  let s := t.colls.foldl (fun s c => leaveReplicaSet p c s) s
  let s := (s.skidder.units.filter (fun u => u.part = p)).foldl (fun s u => freeHolders p u s) s
  let ranges := rangesOf s p
  let s := dropUnits (fun u => u.part = p) s
  let s := { s with
    mem := ranges.foldl (fun m x => cellsClear m x.base (roundUp2M x.size)) s.mem
    jobs := s.jobs.filter (fun j => j.dest ≠ .part p)
    runs := s.runs.filter (fun x => x.part ≠ p)
    deck := { s.deck with
      images := s.deck.images.filter (fun i => i.part ≠ p)
      buffer := s.deck.buffer.filter (fun b => b.part ≠ p)
      poisoned := s.deck.poisoned.filter (fun x => x.1 ≠ p) } }
  let s := settlePart p (onPart p (fun t => { share := t.share }) (tallyWrite s))
  let s := discardHeld p (onMailbox p (fun b => { b with ready := false, busy := false }) s)
  notifyPartState p (commandDoneEvent .operator Op.partRelease t.releaseTag p St.ok 0 s)

/-- PARTITION_RELEASE_SCRUB: the rest of a release whose running commands have ended, once Deck is in service (R511,
R562). -/
def execPartitionReleaseScrub (p : Nat) (s : State) : Result :=
  .next
    (if firmwareRuns s ∧ s.deck.inService ∧ (part s p).state = .releasing ∧ (part s p).sqs = [] ∧
        (part s p).running = [] then scrubPart p s
     else s)

/-! ## PART_QUEUE_CREATE and PART_QUEUE_DELETE -/

/-- Step 1 of R84: the fields that the TYPE uses. -/
def queueFieldChecks (a : QueueCreateArgs) : List (Bool × Nat × Nat) :=
  [(decide (2 < a.typ), St.invalidField, 32),
   (if a.typ = 2 then decide (a.queueId ≠ 0) else decide (63 < a.queueId), St.invalidField, 33),
   (!isPow2From 16 (if a.typ = 2 then 4096 else 65536) a.entries, St.invalidField, 36),
   (decide (a.typ = 0) && !within 1 16 a.weight, St.invalidField, 49),
   (decide (a.typ ≠ 0) && !within 2 159 a.vector, St.invalidField, 50),
   (decide (a.typ = 1) && !within 1 256 (dflt 1 a.coalesceCount), St.invalidField, 52),
   (decide (a.typ = 1) && decide (1000 < a.coalesceUs), St.invalidField, 54)]

/-- Steps 2 to 4 of R84. -/
def queueStateChecks (t : Part) (a : QueueCreateArgs) : List (Bool × Nat × Nat) :=
  [(decide (a.base % 4096 ≠ 0), St.invalidAddress, 40),
   (match a.typ with
    | 0 => decide (64 ≤ t.sqs.length)
    | 1 => decide (64 ≤ t.cqs.length)
    | _ => t.eq.isSome, St.queueLimit, 0),
   (decide (a.typ = 0) && (findCq t a.cqId).isNone, St.invalidField, 48),
   (match a.typ with
    | 0 => (findSq t a.queueId).isSome
    | 1 => (findCq t a.queueId).isSome
    | _ => false, St.invalidField, 33)]

/-- The queue as it is created. -/
def Part.addQueue (t : Part) (a : QueueCreateArgs) : Part :=
  match a.typ with
  | 0 => { t with sqs := t.sqs ++ [{ id := a.queueId, entries := a.entries, base := a.base, cqId := a.cqId, weight := a.weight }] }
  | 1 => { t with cqs := t.cqs ++ [{ id := a.queueId, entries := a.entries, base := a.base, vector := a.vector,
                                     coalesceCount := dflt 1 a.coalesceCount, coalesceUs := a.coalesceUs }] }
  | _ => { t with eq := some { entries := a.entries, base := a.base, vector := a.vector } }

def queueCreateBody (p : Nat) (a : QueueCreateArgs) (s : State) : MRes :=
  checked s (queueFieldChecks a ++ queueStateChecks (part s p) a)
    { st := drainHeld (.part p) 256 (onPart p (fun t => t.addQueue a) s) }

/-- PART_QUEUE_CREATE; events held for the partition go to the event queue it creates (R84, R97). -/
def execPartQueueCreate (r : MbxReq) (a : QueueCreateArgs) (s : State) : Result :=
  .next (mailbox r Op.partQueueCreate [32] (queueCreateBody r.partition a) s)

def queueExists (t : Part) (typ id : Nat) : Bool :=
  match typ with
  | 0 => (findSq t id).isSome
  | 1 => (findCq t id).isSome
  | _ => t.eq.isSome

def queueDeleteBody (r : MbxReq) (typ id : Nat) (s : State) : MRes :=
  let p := r.partition
  let t := part s p
  checked s
    [(decide (2 < typ), St.invalidField, 32),
     (if typ = 2 then decide (id ≠ 0) else decide (63 < id), St.invalidField, 33),
     (!queueExists t typ id, St.invalidField, 33),
     (decide (typ = 1) && t.sqs.any (fun q => q.cqId = id), St.wrongState, 0),
     (decide (typ = 0) && ((findSq t id).bind Sq.deleting).isSome, St.wrongState, 0)]
    (match typ with
     | 0 =>
       match findSq t id with
       | some q =>
         { st := stopSq p q (onPart p (fun t => t.onSq id (fun x => { x with deleting := some r.tag })) s), async := true }
       | none => { st := s }
     | 1 => { st := onPart p (fun t => { t with cqs := t.cqs.filter (fun c => c.id ≠ id) }) s }
     | _ => { st := onPart p (fun t => { t with eq := none }) s })

/-- PART_QUEUE_DELETE (R75, R87, R88). -/
def execPartQueueDelete (r : MbxReq) (typ queueId : Nat) (s : State) : Result :=
  .next (mailbox r Op.partQueueDelete [8] (queueDeleteBody r typ queueId) s)

/-- SQ_DELETE_DONE: the last completion of a deleted SQ's commands has been written; its id is free and the COMMAND_DONE
of its deletion goes out (R84, R87). -/
def execSqDeleteDone (p q : Nat) (s : State) : Result :=
  .next
    (match findSq (part s p) q with
     | some x =>
       if firmwareRuns s && (x.deleting.isSome || decide ((part s p).state = .releasing)) && sqEnded (part s p) x then
         let s := onPart p (fun t => { t with sqs := t.sqs.filter (fun y => y.id ≠ q) }) s
         let s := match x.deleting with
           | some tag => commandDoneEvent (.part p) Op.partQueueDelete tag p St.ok 0 s
           | none => s
         releaseQueues p s
       else s
     | none => s)

/-! ## PART_KEY_LOAD -/

/-- KEK, Z and K of R504; none when Z is zero or the tag fails. -/
def unwrapRoot (p : Nat) (t : Part) (a : KeyLoadArgs) : Option (List Byte) :=
  let z := Config.x25519 (Config.drbg t.draw) a.tenantPub
  if z.all (fun b => b = 0) then none
  else
    let info := ascii "FV960 key load" ++ le 1 p ++ le 4 t.keyGen
    let kek := hkdfExpand (hkdfExtract (sha256 Config.idPubKey) z) info 32
    Config.gcmDecrypt kek a.wrapNonce a.wrappedRoot a.wrapTag a.tenantPub

def keyFailure (s : State) (status : Nat) : MRes :=
  { st := { s with hallmark := { s.hallmark with keyFailures := s.hallmark.keyFailures + 1 } }, status := status }

/-- The keys are installed, the private key destroyed, the partition ACTIVE (R504, R567). -/
def installKeys (p : Nat) (k : List Byte) (s : State) : MRes :=
  let t := part s p
  let s := if t.check.isNone then tallyWrite s else s
  let s := onPart p (fun t =>
    { t with state := .active, root := some k, privHeld := false, check := some (checkValue t k), firstLoad := false }) s
  let s := { s with hallmark := { s.hallmark with keyLoads := s.hallmark.keyLoads + 1 } }
  { st := notifyPartState p s, detail := if t.firstLoad ∧ ¬ s.power.hbmFound then 1 else 0 }

def keyLoadBody (p : Nat) (a : KeyLoadArgs) (s : State) : MRes :=
  checked s [(decide ((part s p).state = .active), St.wrongState, 0)]
    (match unwrapRoot p (part s p) a with
     | none => keyFailure s St.keyUnwrapFailed
     | some k =>
       match (part s p).check with
       | some c => if c = checkValue (part s p) k then installKeys p k s else keyFailure s St.keyMismatch
       | none => installKeys p k s)

/-- PART_KEY_LOAD (R504, R566, R567). -/
def execPartKeyLoad (r : MbxReq) (a : KeyLoadArgs) (s : State) : Result :=
  .next (mailbox r Op.partKeyLoad [96] (keyLoadBody r.partition a) s)

end Sys2Proof.Machine
end

