-- ==== Sys2Proof/Machine/Scaler.lean ====
section
/-! DEFINITION. Sys2Proof/Machine/Scaler.lean: the metering island: its readings, compositions, parameters, event log and
signatures, and the apportioned energy that firmware adds (R531–R557). -/
namespace Sys2Proof.Machine

def onScaler (f : Scaler → Scaler) (s : State) : State := { s with scaler := f s.scaler }

/-- Scaler answers: SCL3V3 is up and its firmware verified (R531–R533). -/
def Scaler.runs (x : Scaler) : Bool := x.on && x.firmwareOk

/-- Whole mWh: 1 mWh is 3.6 J (R537). -/
def mwh (uj : Nat) : Nat := uj / 3600000

/-! ## Event log (R554) -/

/-- Make room: entries of kind 2 are never overwritten. -/
def dropOldest (l : List ScalerEvent) : List ScalerEvent :=
  if l.length < 1024 then l
  else match l.find? (fun e => e.kind ≠ 2) with | some e => l.erase e | none => l

def Scaler.log (kind detail : Nat) (x : Scaler) : Scaler :=
  { x with
    eventCount := x.eventCount + 1
    events := dropOldest x.events ++ [{ seq := x.eventCount + 1, kind := kind, startCount := x.startCount, time := x.time,
                                        energy := mwh x.accUj, detail := detail }] }

def scalerEventBytes (e : ScalerEvent) : List Byte :=
  le 4 e.seq ++ le 2 e.kind ++ zeros 2 ++ le 4 e.startCount ++ le 4 e.time ++ le 8 e.energy ++ le 8 e.detail

/-! ## The parameter block (R550–R552) -/

def paramNum (b : List Byte) (off n : Nat) : Nat := unle ((b.drop off).take n)
def Scaler.sidebandCommand (x : Scaler) : Bool := (paramNum x.params 2 2).testBit 0
/-- CREEP_W, in units of 0.01 W. -/
def Scaler.creep (x : Scaler) : Nat := paramNum x.params 28 2

/-- Apply a block (R552). -/
def Scaler.apply (seq : Nat) (block : List Byte) (x : Scaler) : Scaler :=
  ({ x with params := block, lastAudit := seq, paramChanges := x.paramChanges + 1, pendingParams := none } : Scaler).log 2
    (seq % 2 ^ 32 + unle ((sha256 block).take 4) * 2 ^ 32)

/-- The number of the first check of R551 that fails. -/
def paramsRefused (x : Scaler) (f : ParamsFrame) : Option Nat :=
  if !f.verifies then some 1
  else if f.kind ≠ 1 ∨ f.item ≠ 1 then some 2
  else if f.newDigest ≠ sha256 f.block then some 3
  else if f.auditSeq ≤ x.lastAudit then some 4
  else if 32 ≤ x.paramChanges then some 5
  else none

/-- Scaler takes a parameters frame. -/
def takeParams (f : ParamsFrame) (x : Scaler) : Scaler :=
  if !x.runs then x
  else
    match paramsRefused x f with
    | some c => x.log 3 (f.auditSeq % 2 ^ 32 + c * 2 ^ 32)
    | none => if x.openComp.isSome then { x with pendingParams := some (f.auditSeq, f.block) } else x.apply f.auditSeq f.block

/-- SCALER_PARAMS_FRAME. -/
def execScalerParamsFrame (f : ParamsFrame) (s : State) : Result := .next (if firmwareRuns s then onScaler (takeParams f) s else s)

/-- The frame of the newest item-1 audit record, as firmware sends it. -/
def newestParams (s : State) : Option ParamsFrame :=
  ((s.hallmark.audit.filter (fun a => a.kind = 1 && a.item = 1)).getLast?).map (fun a =>
    { block := (tallyItem s 1).value, auditSeq := a.seq, kind := a.kind, item := a.item, newDigest := a.newDigest, verifies := true })

/-- Scaler holds the block of that record, applied or pending. -/
def holdsParams (x : Scaler) (seq : Nat) : Bool :=
  decide (seq ≤ x.lastAudit) || decide (x.pendingParams.map (fun q => q.1) = some seq)

/-- PARAMS_RESEND (R553). -/
def execParamsResend (s : State) : Result :=
  .next
    (match newestParams s with
     | some f => if firmwareRuns s && !holdsParams s.scaler f.auditSeq then onScaler (takeParams f) s else s
     | none => s)

/-! ## Readings and signatures (R547–R549) -/

/-- The composition a reading shows: the open one, else the last closed. -/
def Scaler.shown (x : Scaler) : Option Composition := x.openComp.or x.lastComp

def Scaler.composedMwh (x : Scaler) (c : Composition) : Nat :=
  if x.openComp = some c then mwh (x.accUj - c.startUj) else c.closedMwh

/-- The Scaler reading, 128 bytes. -/
def readingBytes (x : Scaler) (signed : Bool) : List Byte :=
  let c := x.shown
  let flags := (if x.openComp.isSome then 1 else 0) + (if x.clockFault then 2 else 0) + (if x.adcFault then 4 else 0) +
    (if x.mainPower then 8 else 0) + (if x.pendingParams.isSome then 16 else 0) + (if signed then 32 else 0)
  le 2 1 ++ le 2 flags ++ le 4 Config.scalerFwVersion ++ le 4 x.time ++ le 4 x.startCount ++ le 8 (mwh x.accUj) ++
    le 4 x.power ++ le 4 x.rejected ++ le 4 x.eventCount ++ le 1 x.paramChanges ++ zeros 3 ++ sha256 x.params ++
    le 8 ((c.map Composition.id).getD 0) ++ le 4 ((c.map Composition.seconds).getD 0) ++
    le 2 ((c.map Composition.cflags).getD 0) ++ zeros 2 ++ le 8 ((c.map x.composedMwh).getD 0) ++
    fitBytes 16 ((c.map Composition.customer).getD []) ++ (x.params.drop 32).take 16

/-- The leaf of the next signature; leaves are reserved 64 at a time. -/
def Scaler.takeLeaf (x : Scaler) : Nat × Scaler :=
  (x.leaf, { x with leaf := x.leaf + 1, bucket := x.bucket - 1, leafEnd := if x.leaf = x.leafEnd then x.leafEnd + 64 else x.leafEnd })

/-- A signature is available: the bucket holds one, and the key a leaf (R548, R549). -/
def Scaler.maySign (x : Scaler) : Bool := decide (x.bucket ≠ 0) && (decide (x.leaf < x.leafEnd) || decide (x.leafEnd < 2 ^ 20))

/-- Sign NONCE ‖ reading when the bucket holds a signature: the reading as it goes out, and its signature or nothing. -/
def Scaler.signReading (x : Scaler) (nonce : List Byte) : List Byte × List Byte × Scaler :=
  if !x.maySign then (readingBytes x false, [], x)
  else
    let r := readingBytes x true
    let l := x.takeLeaf
    (r, Config.scalerSign l.1 (fitBytes 32 nonce ++ r), l.2)

/-! ## Scaler's requests, whatever path they come by (R534): status, DETAIL, reply and Scaler after it -/

def scalerRead (sign : Bool) (nonce : List Byte) (x : Scaler) : List Byte × Scaler :=
  if sign then
    let r := x.signReading nonce
    (r.1 ++ r.2.1, r.2.2)
  else (readingBytes x false, x)

/-- A certificate of R501: public key, ordering code, serial number and manufacturing signature, 3,572 bytes. -/
def certificateBytes (pub sig : List Byte) : List Byte :=
  fitBytes 60 pub ++ orderingCode ++ fitBytes 16 Config.serial ++ zeros 36 ++ fitBytes 3444 sig

def scalerCertificate : List Byte := certificateBytes Config.scalerPubKey Config.scalerCertSignature

/-- Compose (R541, R542). -/
def scalerCompose (id : Nat) (customer : List Byte) (x : Scaler) : Nat × Nat × Scaler :=
  match x.openComp with
  | some c => if c.id = id then (0, 0, x) else (St.alreadyComposed, c.id % 2 ^ 32, x)
  | none =>
    if id = 0 ∨ x.lastComp.map Composition.id = some id then (St.compositionUsed, 0, x)
    else (0, 0, { x with
      openComp := some { id := id, customer := fitBytes 16 customer, startUj := x.accUj, seconds := 0
                         cflags := if x.clockFault then 1 else 0, closedMwh := 0 }
      storedUj := x.accUj })

/-- Close the open composition, store the receipt and apply a pending block (R543). -/
def closeComposition (c : Composition) (nonce : List Byte) (x : Scaler) : Scaler :=
  let fixed := { c with
    closedMwh := mwh (x.accUj - c.startUj), cflags := c.cflags ||| (if x.pendingParams.isSome then 4 else 0) }
  let r := ({ x with openComp := none, lastComp := some fixed } : Scaler).signReading nonce
  let x := { r.2.2 with receipt := some (r.1, fitBytes 32 nonce, r.2.1), storedUj := x.accUj }
  match x.pendingParams with
  | some q => x.apply q.1 q.2
  | none => x

/-- A stored reading with its SIGNED flag set. -/
def markSigned (r : List Byte) : List Byte := r.set 2 ((r.getD 2 0) ||| 32)

/-- Sign a receipt that was stored unsigned, when a signature is there (R544). -/
def signReceipt (x : Scaler) : Scaler :=
  match x.receipt with
  | some (r, n, []) =>
    if !x.maySign then x
    else
      let l := x.takeLeaf
      { l.2 with receipt := some (markSigned r, n, Config.scalerSign l.1 (n ++ markSigned r)) }
  | _ => x

def receiptBytes (x : Scaler) : List Byte := match x.receipt with | some (r, _, sig) => r ++ sig | none => []

/-- Decompose (R543, R544). -/
def scalerDecompose (id : Nat) (nonce : List Byte) (x : Scaler) : Nat × Scaler :=
  match x.openComp with
  | some c => if c.id = id then (0, closeComposition c nonce x)
    else if x.lastComp.map Composition.id = some id then (0, signReceipt x) else (St.notComposed, x)
  | none => if x.lastComp.map Composition.id = some id then (0, signReceipt x) else (St.notComposed, x)

def scalerEventsReply (x : Scaler) (start maxEntries : Nat) : List Byte :=
  readRing ScalerEvent.seq scalerEventBytes x.events (x.eventCount + 1) (max 1 start) maxEntries

/-! ## MTR commands -/

/-- An MTR command: METER_FAULT where Scaler does not run (R533, R557). -/
def meter (s : State) (k : Scaler → MRes) : MRes := if s.scaler.runs then k s.scaler else .fail s (St.meterFault, 0)

/-- Apportioned energy, 128 bytes (R555). -/
def apportionBytes (s : State) : List Byte :=
  le 2 (1 + if s.apportion.restarted then 2 else 0) ++ zeros 6 ++ le 8 s.apportion.deviceShare ++
    (List.range 12).flatMap (fun p => le 8 (part s p).share) ++ zeros 16

/-- MTR_READ. -/
def execMtrRead (r : MbxReq) (sign cert : Bool) (nonce : List Byte) (s : State) : Result :=
  .next (mailbox r Op.mtrRead [40]
    (fun s => meter s (fun x =>
      if cert then { st := s, payload := scalerCertificate }
      else
        let y := scalerRead sign nonce x
        { st := { s with scaler := y.2 }, payload := y.1 ++ apportionBytes s })) s)

/-- The shares accumulate from the opening of the composition (R556). -/
def restartShares (s : State) : State :=
  { s with
    apportion := { deviceShare := 0, restarted := false, lastTotal := s.apportion.lastTotal.map (fun _ => mwh s.scaler.accUj) }
    parts := s.parts.map (fun t => { t with share := 0 }) }

def composeBody (id : Nat) (customer : List Byte) (s : State) : MRes :=
  meter s (fun x =>
    let y := scalerCompose id customer x
    if y.1 ≠ 0 then .fail s (y.1, y.2.1)
    else
      let opened := x.openComp.isNone
      let s := { s with scaler := y.2.2 }
      { st := if opened then restartShares s else s, payload := readingBytes y.2.2 false })

/-- MTR_COMPOSE (R541, R542). -/
def execMtrCompose (r : MbxReq) (compId : Nat) (customerRef : List Byte) (s : State) : Result :=
  .next (mailbox r Op.mtrCompose [32] (composeBody compId customerRef) s)

/-- MTR_DECOMPOSE (R543, R544). -/
def execMtrDecompose (r : MbxReq) (compId : Nat) (nonce : List Byte) (s : State) : Result :=
  .next (mailbox r Op.mtrDecompose [48]
    (fun s => meter s (fun x =>
      let y := scalerDecompose compId nonce x
      if y.1 ≠ 0 then .fail s (y.1, 0) else { st := { s with scaler := y.2 }, payload := receiptBytes y.2 })) s)

/-- MTR_EVENTS (R554). -/
def execMtrEvents (r : MbxReq) (startSeq maxEntries : Nat) (s : State) : Result :=
  .next (mailbox r Op.mtrEvents [8]
    (fun s => checked s [(!within 1 120 maxEntries, St.invalidField, 36)]
      (meter s (fun x => { st := s, payload := scalerEventsReply x startSeq maxEntries }))) s)

/-! ## What happens to Scaler -/

/-- Pulses due: one for each 360 J (R539). -/
def pulses (uj : Nat) : Nat := uj / 360000000

def emitPulses : Nat → State → State
  | 0, s => s
  | n + 1, s => emitPulses n (emit .meterPulse s)

/-- The energy of a second enters the accumulator unless its mean is below CREEP_W (R536). -/
def secondEnergy (x : Scaler) (uj : Nat) : Nat := if uj < x.creep * 10000 then 0 else uj

/-- A second of Scaler time: energy always, time only while the TCXO is good (R538, R540, R545). -/
def Scaler.second (uj : Nat) (x : Scaler) : Scaler :=
  let e := secondEnergy x uj
  let x := { x with accUj := x.accUj + e, pulseUj := (x.pulseUj + e) % 360000000, power := uj / 10000
                    lostSeconds := if x.mainPower then x.lostSeconds else x.lostSeconds + 1 }
  if x.clockFault then { x with faultSeconds := x.faultSeconds + 1 }
  else { x with time := x.time + 1, openComp := x.openComp.map (fun c => { c with seconds := c.seconds + 1 }) }

/-- SCALER_SECOND; `microjoules` is what the ADC integrated over the second. -/
def execScalerSecond (microjoules : Nat) (s : State) : Result :=
  .next
    (if s.scaler.runs then
      emitPulses (pulses (s.scaler.pulseUj + secondEnergy s.scaler microjoules)) (onScaler (Scaler.second microjoules) s)
     else s)

/-- SCALER_STORE_TIMER (R546). -/
def execScalerStoreTimer (s : State) : Result :=
  .next (if s.scaler.runs then onScaler (fun x => { x with storedUj := x.accUj }) s else s)

/-- SIGN_BUCKET_REFILL (R549). -/
def execSignBucketRefill (s : State) : Result :=
  .next (if s.scaler.runs then onScaler (fun x => { x with bucket := min 96 (x.bucket + 1) }) s else s)

/-- The TCXO input stops or leaves its range (R540). -/
def clockStops (s : State) : State :=
  if s.scaler.runs && !s.scaler.clockFault then
    onScaler (fun x => ({ x with
      clockFault := true, faultSeconds := 0
      openComp := x.openComp.map (fun c => { c with cflags := c.cflags ||| 1 }) } : Scaler).log 4 0) s
  else s

/-- The TCXO input is good again (R540). -/
def clockReturns (s : State) : State :=
  if s.scaler.runs && s.scaler.clockFault then
    onScaler (fun x => ({ x with clockFault := false } : Scaler).log 5 x.faultSeconds) s
  else s

/-- CLOCK_FAULT (R540). -/
def execClockFault (s : State) : Result := .next (clockStops s)

/-- CLOCK_RESTORED (R540). -/
def execClockRestored (s : State) : Result := .next (clockReturns s)

/-- MAIN_POWER_LOST: the input below 36 V (R545). -/
def execMainPowerLost (s : State) : Result :=
  .next
    (if s.scaler.runs && s.scaler.mainPower then
      onScaler (fun x => ({ x with mainPower := false, lostSeconds := 0 } : Scaler).log 6 0) s
     else s)

/-- MAIN_POWER_RESTORED: the input above 40 V (R545). -/
def execMainPowerRestored (s : State) : Result :=
  .next
    (if s.scaler.runs && !s.scaler.mainPower then
      onScaler (fun x => ({ x with mainPower := true } : Scaler).log 7 x.lostSeconds) s
     else s)

/-- ADC_FAULT (R554). -/
def execAdcFault (status : Nat) (s : State) : Result :=
  .next (if s.scaler.runs then onScaler (fun x => ({ x with adcFault := true } : Scaler).log 8 status) s else s)

/-- Scaler starts (R538, R546, R549, R554): the open composition goes on with SUPPLY_INTERRUPTED. -/
def Scaler.start (ok : Bool) (x : Scaler) : Scaler :=
  if !ok then { x with on := true, firmwareOk := false }
  else
    ({ x with
      on := true, firmwareOk := true, startCount := x.startCount + 1, time := 0, rejected := 0, power := 0
      accUj := x.storedUj, clockFault := false, faultSeconds := 0, adcFault := false, leaf := x.leafEnd
      openComp := x.openComp.map (fun c => { c with cflags := c.cflags ||| 2 }) } : Scaler).log 1
      (Config.scalerFwVersion % 2 ^ 32 + if x.openComp.isSome then 2 ^ 32 else 0)

/-- SCL3V3_RISE (R531–R533, R597). -/
def execScl3v3Rise (firmwareOk : Bool) (s : State) : Result :=
  .next (if s.scaler.on then s else onScaler (Scaler.start firmwareOk) s)

/-- SCL3V3_FALL: the counters are stored and Scaler stops (R546). -/
def execScl3v3Fall (s : State) : Result :=
  .next
    (if s.scaler.on then
      { s with
        scaler := { s.scaler with on := false, storedUj := if s.scaler.firmwareOk then s.scaler.accUj else s.scaler.storedUj, sideReply := none }
        power := { s.power with i3cScalerAddr := none } }
     else s)

/-! ## Apportioned energy (R555, R556) -/

/-- Shares of a change of `d` mWh: per ACTIVE partition its part of up to 70 J and its part of the rest by weight. 1 mWh is
3.6 J, so that 70 J are 350/18 mWh. -/
def shareOf (d n total w : Nat) : Nat :=
  let base := min (18 * d) 350
  base / (18 * n) + (if total = 0 then 0 else (18 * d - base) * w / (18 * total))

def applyShares (d : Nat) (weights : List Nat) (s : State) : State :=
  let act := (List.range 12).filter (fun p => decide ((part s p).state = .active))
  let total := (act.map (fun p => weights.getD p 0)).sum
  let sh (p : Nat) : Nat := if p ∈ act then shareOf d act.length total (weights.getD p 0) else 0
  { s with
    parts := s.parts.zipIdx.map (fun x => { x.1 with share := x.1.share + sh x.2 })
    apportion := { s.apportion with deviceShare := s.apportion.deviceShare + (d - ((List.range 12).map sh).sum) } }

/-- APPORTION_ENERGY: `weights` is each partition's weighted busy time and bytes of the second. -/
def execApportionEnergy (weights : List Nat) (s : State) : Result :=
  .next
    (if firmwareRuns s && s.scaler.runs then
      let now := mwh s.scaler.accUj
      let s' := match s.apportion.lastTotal with | some t => applyShares (now - t) weights s | none => s
      { s' with apportion := { s'.apportion with lastTotal := some now } }
     else s)

end Sys2Proof.Machine
end

