-- ==== Sys2Proof/Machine/Power.lean ====
section
/-! DEFINITION. Sys2Proof/Machine/Power.lean: supplies, reset lands, reset release, clock-gated idle, watchdog, wedged
blocks, temperature, input power and reference clocks (R63, R64, R558–R564, R571, R577–R579, R593–R600, R604–R608). -/
namespace Sys2Proof.Machine

def onPower (f : Power → Power) (s : State) : State := { s with power := f s.power }

/-! ## Clock-gated idle (R558, R571) -/

/-- The compute blocks by their device-log SOURCE: Canopy, Pavé, Grader, Bucker. -/
def computeBlocks : List Nat := [5, 6, 7, 8]

/-- A compute block has no work. Grader and Bucker work within a command's own step. -/
def noWork (s : State) (block : Nat) : Bool :=
  if block = 5 then s.runs.isEmpty
  else if block = 6 then s.pave.allStacks.all (fun k => k.granted.isEmpty && k.waiting.isEmpty)
  else true

/-- POWER_STATE is clock-gated idle while every compute block is gated. -/
def idleFrom (p : Power) : Power :=
  { p with state := if p.state = .active ∧ computeBlocks.all (fun b => decide (b ∈ p.gated)) then .idle
                    else if p.state = .idle ∧ !computeBlocks.all (fun b => decide (b ∈ p.gated)) then .active
                    else p.state }

/-- IDLE_GATE. -/
def execIdleGate (block : Nat) (s : State) : Result :=
  .next
    (if s.power.phase = .running ∧ s.power.state = .active ∧ !s.power.idleDisable ∧ block ∈ computeBlocks ∧ block ∉ s.power.gated ∧
        noWork s block then
      onPower (fun p => idleFrom { p with gated := p.gated ++ [block] }) s
     else s)

/-- IDLE_WAKE. -/
def execIdleWake (block : Nat) (s : State) : Result :=
  .next (if s.power.phase = .running then onPower (fun p => idleFrom { p with gated := p.gated.filter (fun b => b ≠ block) }) s else s)

/-! ## Supplies (R559, R594–R596) -/

/-- COLD_POWER_ON: AUX3V3 rises; the management island leaves power-on reset and ETH_MODE is sampled (R594, R608). -/
def execColdPowerOn (ethSgmii : Bool) (s : State) : Result :=
  .next (if s.power.phase = .auxOff then onPower (fun p => { p with phase := .held, ethSgmii := ethSgmii }) s else s)

/-- The dump whose outcome no operand gives. -/
def nextDump (s : State) : Bool := Config.dumpStood s.freeCount

/-- AUX3V3_LOSS: every state ends. With the input still up it counts as a fall of the 48 V input, whose dump may fail; the
seed register, the I3C addresses and the latches go with the supply. -/
def execAux3v3Loss (s : State) : Result :=
  .next
    (if s.power.phase = .auxOff then s
     else
       let t := bumpFree (fullResetEntry (nextDump s) s)
       { t with
         hallmark := { t.hallmark with seed := false }
         power := { t.power with phase := .auxOff, hbmKept := false, thermtrip := false, i3cAddr := none } })

/-- P48V_FALL: dump, full reset, and the internal reset is held until the input is back (R595). HBM loses its contents. -/
def execP48vFall (dumpOk : Bool) (s : State) : Result :=
  .next
    (if s.power.p48v then
      onPower (fun p => { p with p48v := false, hbmKept := false }) (fullResetEntry dumpOk s)
     else s)

/-- P48V_RETURN: the input has stood at 40 V for 20 ms, which is a full reset trigger when AUX3V3 stayed up (R558, R595). -/
def execP48vReturn (s : State) : Result :=
  .next (if s.power.p48v then s else fullTrigger true (onPower (fun p => { p with p48v := true }) s))

/-! ## Reset lands and release (R560, R564, R604) -/

/-- FULLRST_N_ASSERT: a pulse below 200 ns is ignored. -/
def execFullrstNAssert (lowNs : Nat) (dumpOk : Bool) (s : State) : Result :=
  .next (if lowNs < 200 then s else onPower (fun p => { p with fullrstLow := true }) (fullTrigger dumpOk s))

/-- PERST_ASSERT. -/
def execPerstAssert (dumpOk : Bool) (s : State) : Result :=
  .next (onPower (fun p => { p with perst := true }) (fullTrigger dumpOk s))

/-- RESET_RELEASE: FULLRST_N is high and PERST# deasserted; bring-up starts where nothing else holds the reset. -/
def execResetRelease (b : BringUp) (s : State) : Result :=
  .next
    (let s := onPower (fun p => { p with fullrstLow := false, perst := false }) s
     if mayRelease s then bringUp b s else s)

/-! ## Watchdog and wedged blocks (R63, R103, R578) -/

/-- RANGER_WATCHDOG_EXPIRY: FW_FAULT is set and READY cleared in every mailbox; ALERT_N follows (R606). -/
def execRangerWatchdogExpiry (s : State) : Result :=
  .next
    (if firmwareRuns s then
      onPower (fun p => { p with fwFault := true }) { s with mbx := s.mbx.map (fun b => { b with ready := false }) }
     else s)

/-- WEDGED_BLOCK. -/
def execWedgedBlock (block : Nat) (s : State) : Result :=
  .next (if firmwareRuns s ∧ !s.power.needsReset ∧ block ≤ 12 then needsFullReset s else s)

/-! ## Temperature and input power (R577, R593) -/

/-- The 5 °C step that a junction of 95 °C or more stands on. -/
def thermalStepOf (t : Nat) : Nat := if t < 95 then 0 else t - (t - 95) % 5

/-- THERMAL: operator and sideband. -/
def notifyThermal (t : Nat) (s : State) : State := notify .sideband 7 0 14 0 t (notify .operator 7 0 14 0 t s)

/-- The hottest junction reaches `t`; 95 °C and each 5 °C above send one event. -/
def seeTemp (t : Nat) (s : State) : State :=
  let s := onPower (fun p => { p with hottest := t }) s
  if firmwareRuns s ∧ s.power.thermalStep < thermalStepOf t then
    notifyThermal t (onPower (fun p => { p with thermalStep := thermalStepOf t }) s)
  else s

/-- TEMP_ALERT. -/
def execTempAlert (temp : Nat) (s : State) : Result := .next (if s.power.phase = .auxOff then s else seeTemp temp s)

/-- TEMP_LIMIT: at 100 °C and above firmware limits every Cruise cap to 16. -/
def execTempLimit (temp : Nat) (s : State) : Result :=
  .next
    (if firmwareRuns s then
      onPower (fun p => { p with hottest := temp, thermalLimit := p.thermalLimit || decide (100 ≤ temp) }) s
     else s)

/-- TEMP_LIMIT_LIFT: below 95 °C the limit goes, and a later rise counts its steps afresh. -/
def execTempLimitLift (temp : Nat) (s : State) : Result :=
  .next
    (if s.power.phase = .auxOff then s
     else onPower (fun p => { p with
       hottest := temp
       thermalStep := if temp < 95 then 0 else p.thermalStep
       thermalLimit := p.thermalLimit && !decide (temp < 95) }) s)

/-- THERMTRIP: every 48 V rail goes without a dump, and the latch holds (R577, R607). -/
def execThermtrip (temp : Nat) (s : State) : Result :=
  .next
    (if s.power.phase = .auxOff ∨ !s.power.p48v ∨ temp < 115 then s
     else onPower (fun p => { p with hottest := temp, thermtrip := true, hbmKept := false }) (fullResetEntry false s))

/-- POWER_LIMIT: a 10 ms average above 800 W. -/
def execPowerLimit (watts : Nat) (s : State) : Result :=
  .next
    (if firmwareRuns s then
      onPower (fun p => { p with inputPower := watts, powerLimit := p.powerLimit || decide (800 < watts) }) s
     else s)

/-- POWER_LIMIT_LIFT: a 10 ms average below 760 W. -/
def execPowerLimitLift (watts : Nat) (s : State) : Result :=
  .next
    (if firmwareRuns s then
      onPower (fun p => { p with inputPower := watts, powerLimit := p.powerLimit && !decide (watts < 760) }) s
     else s)

/-! ## Reference clocks (R600) -/

/-- A port whose reference is missing does not train: it stands at step 1. -/
def haltTraining (lo : Nat) (s : State) : State :=
  (List.range 4).foldl (fun s k =>
    if (portOf s (lo + k)).state = .joining then
      onPort (lo + k) (fun p => { p with state := .training, beats := 0, neighbour := 0xFFFF }) s
    else s) s

/-- The internal reset is held without REF25M: what the running device kept is open. -/
def loseRef25 (s : State) : State :=
  if s.power.phase = .running then
    let t := fullResetEntry (nextDump s) s
    bumpFree (onPower (fun p => { p with hbmKept := p.hbmKept && Config.refLossKeepsHbm s.freeCount }) t)
  else s

/-- REFERENCE_CLOCK_LOSS: 0 REF25M, 1 FABREF_A, 2 FABREF_B, 3 PCIE_REFCLK, 4 SCL_TCXO goes missing or returns. -/
def execReferenceClockLoss (clock : Nat) (present : Bool) (s : State) : Result :=
  .next
    (let t := onPower (fun p => { p with refclk := p.refclk.set clock present }) s
     if clock = 4 then (if present then clockReturns t else clockStops t)
     else if present then t
     else if clock = 0 then loseRef25 t
     else if clock = 1 then haltTraining 0 t
     else if clock = 2 then haltTraining 4 t
     else t)

end Sys2Proof.Machine
end

