-- ==== Sys2Proof/Machine/RunEnd.lean ====
section
/-! DEFINITION. Sys2Proof/Machine/RunEnd.lean: the end of a run of Canopy: what its command, query or calibration makes of it (R194,
R198, R253, R273, R284–R287). -/
namespace Sys2Proof.Machine

/-- Bytes of an output item go to its place, while the command still runs. -/
def writeItem (m : Model) (r : CanopyRun) (a : MdlRunArgs) (out : List Byte) (s : State) : State :=
  if (runningOf s r).isSome then hostWrite (1 + r.part) (a.outAddr + r.item * runStride m r.generate a) out s else s

/-- The items of an MDL_RUN: the output goes out, and the next item waits, or the command completes (R284–R286). -/
def itemsOver (m : Model) (a : MdlRunArgs) (r next : CanopyRun) (out : List Byte) (s : State) : State :=
  let s := writeItem m r a out (foldRun r.part m.serial r.obs s)
  if next.item < next.inputs.length then onRun r.id (fun _ => next) s else endModelRun next s

/-- The items of a calibration: its observations are kept to its end (R287). -/
def calibrationOver (freeze : Bool) (r next : CanopyRun) (s : State) : State :=
  if next.item < next.inputs.length then onRun r.id (fun _ => next) s else endCalibration freeze next s

/-- A run of a query: the embedding, or one pair of the cross-encoder (R194, R198). -/
def queryOver (m : Model) (r next : CanopyRun) (s : State) : State :=
  match runningQuery s r.part r.sq r.tag with
  | none => endRun r s
  | some (x, q) =>
    let h : Home := { part := r.part, sq := r.sq, tag := r.tag, run := q }
    if q.phase = 0 then
      let input := r.inputs.headD { seq := [], front := 0, bytes := [], cut := false }
      let o := next.encs.headD { pooled := [], rows := [], clamps := 0 }
      settleQuery r.part x (embedDone h m input o next.everReduced r.obs (endRun r s))
    else
      let y := keepObs m.serial [r.obs] h s
      if next.item < next.inputs.length then onRun r.id (fun _ => next) (setRun r.part x (.query y.1.run) y.2)
      else settleQuery r.part x (pairsDone y.1 next.encs next.everReduced (endRun r y.2))

/-- CANOPY_RUN_END: the schedule of a run is over. A cancelled run writes nothing and folds nothing (R260). -/
def execCanopyRunEnd (run : Nat) (s : State) : Result :=
  .next
    (match s.runs.find? (fun r => decide (r.id = run)) with
     | none => s
     | some r =>
       if !firmwareRuns s || !r.started then s
       else if r.cancelled then endRun r (traceRunEnd r s)
       else
         match modelOf (part s r.part) r.model with
         | none => failRun r St.noSuchHandle (traceRunEnd r s)
         | some m =>
           if r.segment < m.segments then s
           else
             let s := traceRunEnd r s
             match endItem s m r with
             | .noMask => failRun r St.notReady s
             | .goes next => onRun r.id (fun _ => next) (foldRun r.part m.serial r.obs s)
             | .ends next out =>
               match r.use with
               | .items a => itemsOver m a r next out s
               | .calibrate freeze => calibrationOver freeze r next s
               | .query _ => queryOver m r next s)

end Sys2Proof.Machine
end

