-- ==== Sys2Proof/Machine/Security.lean ====
section
/-! DEFINITION. Sys2Proof/Machine/Security.lean: signing, Assays, firmware updates, tally-limited settings, the audit log and
management sessions (R490–R530). -/
namespace Sys2Proof.Machine

def onHallmark (f : Hallmark → Hallmark) (s : State) : State := { s with hallmark := f s.hallmark }

/-! ## Signing (R493–R497) -/

/-- Signatures made in the second of device time that ends now. -/
def recentSigns (s : State) : List Nat := s.hallmark.signTimes.filter (fun t => decide (s.time < t + 1000000))

/-- DETAIL_A of SIGN_LIMIT, when no signature is available: 2 when the key is used up, 1 at the rate (R497). -/
def signBlocked (s : State) : Option Nat :=
  let h := s.hallmark
  if h.leaf = h.leafEnd ∧ 2 ^ 35 ≤ h.nextLeaf then some 2
  else if 32 ≤ (recentSigns s).length then some 1
  else none

def signChecks (s : State) : List (Bool × Nat × Nat) :=
  match signBlocked s with
  | some d => [(true, St.signLimit, d)]
  | none => []

/-- Reserve 1,024 leaves with one tally write when the reservation is used up (R495). -/
def reserveLeaves (h : Hallmark) : Hallmark :=
  if h.leaf = h.leafEnd then
    { h with leaf := h.nextLeaf, leafEnd := h.nextLeaf + 1024, nextLeaf := h.nextLeaf + 1024, tallyWrites := h.tallyWrites + 1 }
  else h

/-- Use the next leaf: its index, and a bottom tree that is entered is no longer the next one (R494, R496). -/
def takeLeaf (s : State) : Nat × State :=
  let h := reserveLeaves s.hallmark
  (h.leaf, { s with hallmark := { h with
    leaf := h.leaf + 1, signed := h.signed + 1, signTimes := recentSigns s ++ [s.time]
    nextTree := if h.leaf ≠ 0 ∧ h.leaf % 2 ^ 20 = 0 then 0 else h.nextTree } })

/-- Leaves left in the current bottom tree. -/
def treeLeft (h : Hallmark) : Nat := 2 ^ 20 - (if h.leaf = h.leafEnd then h.nextLeaf else h.leaf) % 2 ^ 20

/-- LMS_TREE_BUILD: the next tree begins, or its build is complete (R496). -/
def execLmsTreeBuild (done : Bool) (s : State) : Result :=
  .next
    (if !firmwareRuns s then s
     else if done then onHallmark (fun h => { h with nextTree := if h.nextTree = 1 then 2 else h.nextTree }) s
     else if treeLeft s.hallmark < 2 ^ 19 ∧ s.hallmark.nextTree = 0 then onHallmark (fun h => { h with nextTree := 1 }) s
     else s)

/-! ## SEC_ATTEST (R501) -/

/-- The value of item 3 as it is reported: the SHA-256 of the root, or zeros while unset. -/
def rootDigest (v : List Byte) : List Byte := if v = [] then zeros 32 else sha256 v

def tallyDigest (s : State) : List Byte :=
  sha256 ((List.range 6).flatMap (fun i => let v := (tallyItem s (i + 1)).value; if i = 2 then rootDigest v else v))

/-- Bytes 0–255 of an Assay. -/
def assayHead (s : State) (p : Nat) (nonce : List Byte) : List Byte :=
  let t := part s p
  let slot := runningSlot s
  le 2 1 ++ le 1 p ++ le 1 (if p = 14 then 0 else partCode t.state) ++ [0xB0, 3, 2, 0] ++ fitBytes 32 nonce ++
    fitBytes 60 Config.idPubKey ++ le 4 slot.version ++ le 1 slot.security ++ le 1 (fwFloor s) ++ le 1 (enableMap s) ++
    zeros 1 ++ sha256 slot.image ++ (if p < 12 ∧ t.privHeld then fitBytes 32 t.pub else zeros 32) ++
    le 4 (if p < 12 then t.keyGen else 0) ++ fitBytes 2 (tallyItem s 6).value ++
    (List.range 6).flatMap (fun i => le 2 (tallyItem s (i + 1)).remaining) ++ zeros 2 ++ tallyDigest s ++
    le 8 (if p < 12 then coarseTime s.time else s.time) ++ zeros 24

/-- A signature of the identity key, 3,444 bytes. -/
def identitySign (leaf : Nat) (m : List Byte) : List Byte := fitBytes 3444 (Config.idSign leaf m)

def attestBody (p : Nat) (nonce : List Byte) (s : State) : MRes :=
  checked s (signChecks s)
    (let h := assayHead s p nonce
     let l := takeLeaf s
     { st := onHallmark (fun x => { x with assays := x.assays + 1 }) l.2, payload := h ++ identitySign l.1 h })

/-- SEC_ATTEST with the KIND it carries: 0 asks for an Assay, one out of range is refused. -/
def execSecAttest (r : MbxReq) (a : AttestArgs) (s : State) : Result :=
  .next (mailbox r Op.secAttest [40]
    (fun s => checked s [(decide (a.kind ≠ 0), St.invalidField, 32)] (attestBody r.partition a.nonce s)) s)

def identityCertificate : List Byte := certificateBytes Config.idPubKey Config.idCertSignature

def certificateBody (s : State) : MRes := { st := s, payload := identityCertificate }

/-- SEC_ATTEST, KIND 1. -/
def execSecAttestCertificate (r : MbxReq) (s : State) : Result :=
  .next (mailbox r Op.secAttest [40] certificateBody s)

/-! ## The audit log (R530) -/

def auditHead (a : AuditRec) : List Byte :=
  le 4 a.seq ++ le 1 a.kind ++ le 1 a.item ++ le 1 a.aflags ++ zeros 1 ++ le 8 a.time ++ le 2 a.remaining ++ le 2 a.cost ++
    zeros 4 ++ a.oldDigest ++ a.newDigest ++ a.prevDigest ++ zeros 8

/-- A whole audit record, 3,572 bytes. -/
def auditRecBytes (a : AuditRec) : List Byte := auditHead a ++ identitySign a.leaf (auditHead a)

/-- Room for one record: when 8,192 are held, the oldest of kind 2 goes. -/
def trimAudit (l : List AuditRec) : List AuditRec :=
  if l.length < 8192 then l
  else match l.find? (fun a => a.kind = 2) with | some a => l.erase a | none => l

/-- Sign and append an audit record. -/
def appendAudit (kind item aflags remaining cost : Nat) (old new : List Byte) (s : State) : State :=
  let l := takeLeaf s
  let h := l.2.hallmark
  let a : AuditRec :=
    { seq := h.auditNewest + 1, kind := kind, item := item, aflags := aflags, time := s.time, remaining := remaining
      cost := cost, oldDigest := old, newDigest := new
      prevDigest := (h.audit.getLast?.map (fun x => sha256 (auditRecBytes x))).getD (fitBytes 32 Config.firstPrevDigest)
      leaf := l.1 }
  { l.2 with hallmark := { h with audit := trimAudit h.audit ++ [a], auditNewest := h.auditNewest + 1 } }

/-- SEC_AUDIT_READ. -/
def execSecAuditRead (r : MbxReq) (auditSeq : Nat) (s : State) : Result :=
  .next (mailbox r Op.secAuditRead [8]
    (fun s =>
      let l := s.hallmark.audit
      let oldest := (l.head?.map AuditRec.seq).getD 0
      let found := l.find? (fun a => a.seq = auditSeq)
      { st := s
        payload := le 4 oldest ++ le 4 s.hallmark.auditNewest ++ le 1 (if found.isSome then 1 else 0) ++ zeros 7 ++
          (match found with | some a => auditRecBytes a | none => []) }) s)

/-! ## SEC_FW_UPDATE (R498–R500) -/

/-- The length of a phase's payload (step 5 of R71). -/
def phaseLength (r : MbxReq) : Option (Nat × Nat) := lengthIn r [16]

/-- Step 5 of R71: a payload too short to hold PHASE, a PHASE above 3, then the length. -/
def phaseStep (r : MbxReq) (phase : Nat) : Option (Nat × Nat) :=
  if r.length < 1 then some (St.invalidLength, 8) else if phase ≠ 0 then some (St.invalidField, 32) else phaseLength r

def setSpare (f : FwSlot → FwSlot) (h : Hallmark) : Hallmark :=
  if h.runB then { h with slotA := f h.slotA } else { h with slotB := f h.slotB }

/-- BEGIN, or a PHASE out of range: the slot that does not run is erased. -/
def execSecFwUpdateBegin (r : MbxReq) (a : UpdateArgs) (s : State) : Result :=
  let imageLen := a.imageLen
  .next (mailboxFull r Op.secFwUpdate none (phaseStep r a.phase)
    (fun s => checked s
      [(!within 4096 33554432 imageLen, St.invalidField, 40), (s.hallmark.update.isSome, St.wrongState, 0)]
      (accept r Op.secFwUpdate St.ok 0 .nothing
        (onHallmark (fun h => setSpare (fun _ => {}) { h with update := some { length := imageLen, image := [] } }) s))) s)

/-- Step 5 of R71 for DATA: its LENGTH, then the payload's length. -/
def dataLength (r : MbxReq) (n : Nat) : Option (Nat × Nat) :=
  if r.length < 12 then some (St.invalidLength, 8)
  else if !within 1 4080 n then some (St.invalidField, 40)
  else if r.length ≠ 16 + n then some (St.invalidLength, 8) else none

/-- DATA: image bytes. -/
def execSecFwUpdateData (r : MbxReq) (offset : Nat) (data : List Byte) (s : State) : Result :=
  .next (mailboxFull r Op.secFwUpdate none (dataLength r data.length)
    (fun s =>
      match s.hallmark.update with
      | none => .fail s (St.wrongState, 0)
      | some u =>
        checked s [(decide (u.length < offset + data.length), St.invalidField, 36)]
          (accept r Op.secFwUpdate St.ok 0 .nothing
            (onHallmark (fun h => { h with update := some { u with
              image := cellsWriteBytes u.image offset data, got := u.got ++ [(offset, data.length)] } }) s))) s)

/-- Every byte from `a` to the end lies in some written range. -/
def coveredFrom (got : List (Nat × Nat)) (len : Nat) : Nat → Nat → Bool
  | 0, a => decide (len ≤ a)
  | f + 1, a =>
    if len ≤ a then true
    else
      match got.find? (fun g => decide (g.1 ≤ a) && decide (a < g.1 + g.2)) with
      | some g => coveredFrom got len f (g.1 + g.2)
      | none => false

/-- The reason for which COMMIT rejects the image, or 0 (R500). -/
def fwReason (s : State) (u : FwUpdate) : Nat :=
  let img := cellsReadBytes u.image 0 u.length
  if !Config.fwSignatureOk img then 1
  else if Config.fwTarget img ≠ 0x00B0 then 2
  else if Config.fwSecurity img < fwFloor s then 3
  else if !coveredFrom u.got u.length (u.got.length + 1) 0 then 4
  else 0

def preferredSlot (h : Hallmark) : FwSlot := if h.preferB then h.slotB else h.slotA

/-- The image stands in the slot, the slot is preferred, and an audit record of kind 2 is appended. -/
def commitFirmware (u : FwUpdate) (s : State) : State :=
  let img := cellsReadBytes u.image 0 u.length
  let old := sha256 (preferredSlot s.hallmark).image
  let s := onHallmark (fun h => { setSpare (fun _ => { image := img, version := Config.fwVersion img, security := Config.fwSecurity img }) h
    with update := none, preferB := !h.runB }) s
  appendAudit 2 0 0 0 0 old (sha256 img) s

/-- COMMIT. A failed check ends with FW_REJECTED in its COMMAND_DONE; the update stays open. -/
def execSecFwUpdateCommit (r : MbxReq) (s : State) : Result :=
  .next (mailboxFull r Op.secFwUpdate none (phaseLength r)
    (fun s =>
      match s.hallmark.update with
      | none => .fail s (St.wrongState, 0)
      | some u =>
        let why := fwReason s u
        if why ≠ 0 then accept r Op.secFwUpdate St.fwRejected why .nothing s
        else checked s (signChecks s) (accept r Op.secFwUpdate St.ok 0 .nothing (commitFirmware u s))) s)

/-- ABORT. -/
def execSecFwUpdateAbort (r : MbxReq) (s : State) : Result :=
  .next (mailboxFull r Op.secFwUpdate none (phaseLength r)
    (fun s => checked s [(s.hallmark.update.isNone, St.wrongState, 0)]
      (accept r Op.secFwUpdate St.ok 0 .nothing (onHallmark (fun h => { h with update := none }) s))) s)

/-! ## SEC_TALLY_READ -/

def itemLen (i : Nat) : Nat :=
  if i = 1 then 512 else if i = 2 then 64 else if i = 3 then 32 else if i = 6 then 2 else 1

def tallyReadBytes (s : State) (i : Nat) : List Byte :=
  let x := tallyItem s i
  let v := if i = 3 then rootDigest x.value else x.value
  le 1 i ++ zeros 1 ++ le 2 x.budget ++ le 2 x.remaining ++ le 2 (itemLen i) ++ le 4 x.lastAudit ++ zeros 4 ++
    fitBytes (itemLen i) v

def tallyReadBody (item : Nat) (s : State) : MRes :=
  checked s [(!within 1 6 item, St.invalidField, 32)] { st := s, payload := tallyReadBytes s item }

/-- SEC_TALLY_READ. -/
def execSecTallyRead (r : MbxReq) (item : Nat) (s : State) : Result :=
  .next (mailbox r Op.secTallyRead [8] (tallyReadBody item) s)

/-! ## SEC_TALLY_CHANGE (R524–R529) -/

/-- A signed 32-bit field. -/
def signedNum (b : List Byte) (off : Nat) : Int :=
  let n := paramNum b off 4
  if n < 2 ^ 31 then n else (n : Int) - 2 ^ 32

def intWithin (lo hi x : Int) : Bool := decide (lo ≤ x) && decide (x ≤ hi)

/-- The fields of a value that lie outside their range, as payload offsets from the value (R524, R550). -/
def valueChecks (item : Nat) (v : List Byte) : List (Bool × Nat × Nat) :=
  let at' (bad : Bool) (o : Nat) : Bool × Nat × Nat := (bad, St.invalidField, 48 + o)
  if item = 1 then
    [at' (paramNum v 0 2 ≠ 1) 0, at' (!within 0x38000000 0x48000000 (paramNum v 4 4)) 4,
     at' (!intWithin (-50000) 50000 (signedNum v 8)) 8, at' (!within 0x38000000 0x48000000 (paramNum v 12 4)) 12,
     at' (!intWithin (-50000) 50000 (signedNum v 16)) 16, at' (!intWithin (-5000) 5000 (signedNum v 20)) 20,
     at' (!intWithin (-2000) 2000 (signedNum v 24)) 24, at' (decide (500 < paramNum v 28 2)) 28,
     at' (!within 10 100 (paramNum v 30 2)) 30]
  else if item = 6 then [at' (decide (4096 ≤ paramNum v 0 2)) 0]
  else []

/-- The value with its reserved bits zero (R18). -/
def cleanValue (item : Nat) (v : List Byte) : List Byte :=
  if item = 1 then (v.take 2 ++ le 2 (paramNum v 2 2 % 2) ++ (v.drop 4).take 60) ++ zeros 448
  else if item = 2 then
    (List.range 12).flatMap (fun p => (v.drop (4 * p)).take 3 ++ [(v.getD (3 + 4 * p) 0) &&& 1]) ++ zeros 16
  else v

/-- R528: a change that conflicts with the state. -/
def tallyConflict (s : State) (item : Nat) (v : List Byte) : Bool :=
  if item = 2 then
    (List.range 12).any (fun p =>
      (!enabledIn v p && decide ((part s p).state ≠ .free)) ||
      (decide (ceilingIn v p ≠ 0) && decide (ceilingIn v p * 1000000000 < hbmOf s p)) ||
      (decide (shareIn v p ≠ 0) && decide (shareIn v p * s.deck.capacity / 256 < flashOf s p)))
  else if item = 4 then
    decide ((v.getD 0 0).toNat < fwFloor s) || decide ((runningSlot s).security < (v.getD 0 0).toNat)
  else if item = 5 then
    s.fabric.deviceId.isSome &&
      decide ((v.getD 0 0).toNat &&& allowedMap { deviceId := 0, racks := s.fabric.racks, ySize := s.fabric.ySize, zSize := s.fabric.zSize }
        ≠ (v.getD 0 0).toNat)
  else false

/-- The value that a request is compared with: an unset root counts as 32 zero bytes (R510). -/
def presentValue (s : State) (item : Nat) : List Byte :=
  let v := (tallyItem s item).value
  if item = 3 ∧ v = [] then zeros 32 else v

def changeCost (s : State) (item : Nat) (v : List Byte) : Nat :=
  if item = 4 then (v.getD 0 0).toNat - fwFloor s else 1

def onItem (i : Nat) (f : TallyItem → TallyItem) (s : State) : State :=
  onHallmark (fun h => { h with items := h.items.modify (i - 1) f }) s

/-- The new port-enable map acts: ports it disables go down as failed links, ports it enables train (R408). -/
def applyPorts (old new : Nat) (s : State) : State :=
  (List.range 8).foldl (fun s n =>
    if old.testBit n && !new.testBit n then
      let s := linkDown n 6 s
      onPort n (fun p => { p with state := .disabled, reason := 6 }) s
    else if !old.testBit n && new.testBit n then onPort n (fun p => { p with state := idleState p }) s
    else s) s

/-- Step 6 of R526: the value acts. -/
def applyTally (item : Nat) (old new : List Byte) (s : State) : State :=
  if item = 1 then
    (match newestParams s with | some f => onScaler (takeParams f) s | none => s)
  else if item = 3 then
    { s with fabric := { s.fabric with
        prevKeySend := some (s.time + 600000000), prevKeyAccept := some (s.time + 1200000000), prevRoot := if old = [] then zeros 32 else old } }
  else if item = 5 then applyPorts (old.getD 0 0).toNat (new.getD 0 0).toNat s
  else s

/-- AFLAGS: SETUP, and SIDEBAND_RESTRICTED for a block that clears SIDEBAND_COMMAND. -/
def auditFlags (setup : Bool) (item : Nat) (v : List Byte) : Nat :=
  (if setup then 2 else 0) + (if item = 1 ∧ (paramNum v 2 2) % 2 = 0 then 4 else 0)

def changeReply (s : State) (item : Nat) : List Byte :=
  le 2 (tallyItem s item).remaining ++ zeros 2 ++ le 4 (tallyItem s item).lastAudit

/-- Steps 4 to 6 of R526. -/
def makeChange (setup : Bool) (item : Nat) (v : List Byte) (s : State) : State :=
  let s0 := s
  let old := (tallyItem s item).value
  let cost := changeCost s item v
  let s := tallyWrite (onItem item (fun x => { x with value := v, remaining := x.remaining - cost }) s)
  let s := appendAudit 1 item (auditFlags setup item v) (tallyItem s item).remaining cost (sha256 (presentValue s0 item)) (sha256 v) s
  applyTally item old v (onItem item (fun x => { x with lastAudit := s.hallmark.auditNewest }) s)

def tallyChangeBody (setup : Bool) (a : TallyChangeArgs) (s : State) : MRes :=
  let v := cleanValue a.item (fitBytes (itemLen a.item) a.value)
  match firstFail (valueChecks a.item (fitBytes (itemLen a.item) a.value)) with
  | some e => .fail s e
  | none =>
    if v = presentValue s a.item then { st := s, payload := changeReply s a.item }
    else
      let cost := changeCost s a.item v
      checked s
        ([(tallyConflict s a.item v, St.wrongState, 0),
          (decide ((tallyItem s a.item).remaining < cost), St.tallyExhausted, 0)] ++ signChecks s)
        (let t := makeChange setup a.item v s
         { st := t, detail := cost, payload := changeReply t a.item })

/-- Step 5 of R71 for SEC_TALLY_CHANGE. -/
def tallyLength (r : MbxReq) (a : TallyChangeArgs) : Option (Nat × Nat) :=
  if r.length < 4 then some (St.invalidLength, 8)
  else if !within 1 6 a.item then some (St.invalidField, 32)
  else if a.valueLen ≠ itemLen a.item then some (St.invalidField, 34)
  else if r.length ≠ 16 + a.valueLen then some (St.invalidLength, 8)
  else none

/-- Sessions under an identity close. -/
def closeSessions (sel : Identity → Bool) (s : State) : State :=
  { s with sessions := s.sessions.filter (fun x => !sel x.identity) }

def isTenantDebug : Identity → Option Nat
  | .tenantDebug p => some p
  | _ => none

/-- Sessions that a change closes once its response has been sent (R529). -/
def sessionsAfter (item : Nat) (old new : List Byte) (s : State) : State :=
  if item = 3 then closeSessions (fun _ => true) s
  else if item = 6 then
    closeSessions (fun i => match isTenantDebug i with
      | some p => (unle old).testBit p && !(unle new).testBit p
      | none => false) s
  else s

/-- SEC_TALLY_CHANGE. -/
def execSecTallyChange (r : MbxReq) (a : TallyChangeArgs) (s : State) : Result :=
  .next
    (let setup := decide (requestIdentity s r = some .setup)
     let t := mailboxFull r Op.secTallyChange (some a.item) (tallyLength r a) (tallyChangeBody setup a) s
     match executedAnswer r Op.secTallyChange (some a.item) (tallyLength r a) (tallyChangeBody setup a) s with
     | some x =>
       if x.status = St.ok ∧ x.detail ≠ 0 then sessionsAfter a.item (tallyItem s a.item).value (tallyItem t a.item).value t
       else t
     | none => t)

/-- FABRIC_KEY_SWITCH: the windows of the previous fabric key end (R529). -/
def execFabricKeySwitch (s : State) : Result :=
  .next
    (let ended (u : Option Nat) : Option Nat := u.bind (fun t => if t ≤ s.time then none else some t)
     { s with fabric := { s.fabric with prevKeySend := ended s.fabric.prevKeySend, prevKeyAccept := ended s.fabric.prevKeyAccept } })

/-! ## Management sessions (R78, R515–R517) -/

/-- The identity is accepted now (R515, R516). -/
def identityAccepted (s : State) : Identity → Bool
  | .setup => !rootSet s
  | .tenantDebug p => rootSet s && decide (p < 12) && (unle (tallyItem s 6).value).testBit p
  | _ => rootSet s

/-- A failed handshake counts; the 16th within 60 s starts the lockout. -/
def handshakeFailed (s : State) : State :=
  let fails := s.hallmark.tlsFails.filter (fun t => decide (s.time < t + 60000000)) ++ [s.time]
  onHallmark (fun h => { h with tlsFailures := h.tlsFailures + 1, tlsFails := fails, lockout := h.lockout || decide (16 ≤ fails.length) }) s

/-- TLS_HANDSHAKE. -/
def execTlsHandshake (identity : Identity) (psk : List Byte) (s : State) : Result :=
  .next
    (if !firmwareRuns s ∨ s.hallmark.lockout then s
     else if psk ≠ sessionPsk s identity ∨ !identityAccepted s identity then handshakeFailed s
     else if 2 ≤ s.sessions.length then s
     else
       drainHeld .operator 256 { s with
         sessions := s.sessions ++ [{ id := s.nextSession, identity := identity }], nextSession := s.nextSession + 1 })

/-- TLS_LOCKOUT_END (R517). -/
def execTlsLockoutEnd (s : State) : Result := .next (onHallmark (fun h => { h with lockout := false, tlsFails := [] }) s)

/-- MANAGEMENT_SESSION_END. -/
def execManagementSessionEnd (session : Nat) (s : State) : Result :=
  .next { s with sessions := s.sessions.filter (fun x => x.id ≠ session) }

/-! ## Operator debug (R518–R523) -/

def traceBytes (r : TraceRec) : List Byte :=
  le 8 r.time ++ le 4 r.seq ++ le 1 r.source ++ le 1 r.partition ++ le 2 r.kind ++ le 8 r.data0 ++ le 8 r.data1

/-- DBG_TRACE. -/
def execDbgTrace (r : MbxReq) (startSeq maxEntries : Nat) (s : State) : Result :=
  .next (mailbox r Op.dbgTrace [8]
    (fun s => checked s [(!within 1 127 maxEntries, St.invalidField, 36)]
      { st := s, payload := readRing TraceRec.seq traceBytes s.loupe.ring s.loupe.count startSeq maxEntries }) s)

/-- DBG_LOUPE: both shadows, then a commit (R521). -/
def execDbgLoupe (r : MbxReq) (ctrl filter : Reg) (s : State) : Result :=
  .next (mailbox r Op.dbgLoupe [16]
    (fun s => { st := loupeCommit { s with loupe := { s.loupe with ctrlShadow := maskReg 0x1FFF0003 ctrl, filterShadow := maskReg 0x00FFFFFF filter } } }) s)

def kvBytesOf (s : State) (p : Nat) : Nat :=
  ((s.skidder.units.filter (fun u => u.part = p && (match u.kind with | .kv _ => true | _ => false))).map PUnit.size).sum

def poolOf (s : State) (p : Nat) : Nat := ((s.skidder.units.filter (fun u => u.part = p)).map PUnit.pool).sum

/-- The Skidder placement record (R364); for a tenant-debug session only partition `p`'s fields (R523). -/
def skidderRecord (s : State) (only : Option Nat) : List Byte :=
  let all := only.isNone
  let v (n k : Nat) : List Byte := le k (if all then n else 0)
  let colls := s.parts.flatMap Part.colls
  v (placeableHbm s) 8 ++ v (hbmUsed s) 8 ++ v ((List.range 12).map (flashOf s)).sum 8 ++ v (poolHeldBytes s) 8 ++
    v ((List.range 12).map (poolOf s)).sum 8 ++ v s.skidder.promotions 8 ++ v s.skidder.demotions 8 ++
    v s.skidder.copyUps 8 ++ v (s.skidder.units.map PUnit.copies).sum 8 ++ v (s.parts.map (fun t => t.kv.length)).sum 4 ++
    v s.skidder.kvEvicted 4 ++ v (colls.filter (fun c => c.role ≠ 0)).length 4 ++
    v (colls.map (fun c => c.rebuilding.length)).sum 4 ++ zeros 40 ++
    (List.range 12).flatMap (fun p =>
      if all ∨ only = some p then le 8 (hbmOf s p) ++ le 8 (flashOf s p) ++ le 8 (poolOf s p) ++ le 8 (kvBytesOf s p)
      else zeros 32)

/-- The Deck record (R405). -/
def deckRecord (s : State) : List Byte :=
  let d := s.deck
  le 1 d.channels ++ le 1 d.luns ++
    le 2 ((if d.inService then 1 else 0) + (if d.readOnly then 2 else 0) + (if d.holdupLost then 4 else 0)) ++
    le 4 s.cruise.spreadLimit ++ le 8 d.rawBytes ++ le 8 d.goodBytes ++ le 8 d.capacity ++ le 8 (flashUsed s) ++
    le 4 ((dirtyList s).length * 65536) ++ le 4 d.deckTime ++ le 4 (peMin d) ++ le 4 (peMax d) ++
    le 4 d.bad.length ++ le 4 d.suspends ++ le 8 d.retryReads ++ le 8 d.softReads ++ le 8 d.uncorrectable ++
    le 8 d.deferredCount ++ le 8 d.wearMoved ++ le 8 d.programmed ++ le 8 d.hostWritten ++ zeros 8

/-- The Hallmark record. -/
def hallmarkRecord (s : State) : List Byte :=
  let h := s.hallmark
  le 8 h.nextLeaf ++ le 8 h.signed ++ le 8 h.forfeited ++ le 1 h.nextTree ++ zeros 3 ++ le 4 h.assays ++ le 4 h.keyLoads ++
    le 4 h.keyFailures ++ le 4 h.tlsFailures ++ le 4 h.ideInsecure ++ le 4 h.auditNewest ++ le 4 h.tallyWrites ++ zeros 8

/-- DBG_COUNTERS (R522, R523). -/
def execDbgCounters (r : MbxReq) (group : Nat) (s : State) : Result :=
  .next (mailbox r Op.dbgCounters [8]
    (fun s =>
      let tenant := (requestIdentity s r).bind isTenantDebug
      checked s
        [(!within 1 5 group, St.invalidField, 32),
         (tenant.isSome && decide (group ≠ 1) && decide (group ≠ 5), St.notPermitted, 0)]
        { st := s
          payload :=
            match group with
            | 1 => skidderRecord s tenant
            | 2 => deckRecord s
            | 3 => portViewBytes s
            | 4 => hallmarkRecord s
            | _ => partViewBytes s r.partition 0 120 }) s)

end Sys2Proof.Machine
end

