-- ==== Sys2Proof/Machine/Segment.lean ====
section
/-! DEFINITION. Sys2Proof/Machine/Segment.lean: SEG_WRITE, SEG_READ, SEG_TRIM and SEG_FLUSH (R399–R404). -/
namespace Sys2Proof.Machine

/-- Segment commands run while Deck is in service (R366, R397). -/
def deckGate (s : State) (k : QRes) : QRes := if s.deck.inService then k else .fail s (St.notReady, 0)

def objCount (s : State) : Nat := ((List.range 12).map (fun p => (part s p).objs.length)).sum

/-- HBM that the write's new extents, or a change of class to PINNED_HBM, would take (R333). -/
def pinNeed (s : State) (p h tier size off n : Nat) : Nat :=
  if tier ≠ 0 then 0
  else
    65536 * (((List.range (ceilDiv size 65536)).filter (fun e =>
      match findUnit s p (.extent h e) with
      | some u => decide (u.loc ≠ .hbm)
      | none => decide (e ∈ extentsOf off n)))).length

/-- Give an object the class `tier`: its units take it, and PINNED_HBM brings them into HBM (R330, R400). -/
def retier (p : Nat) (o : Obj) (tier : Nat) (s : State) : State :=
  let mine (u : PUnit) : Bool := u.part = p && (match u.kind with | .extent h _ => h = o.handle | _ => false)
  let s := settlePart p (moveUnits (fun u => if mine u then { u with cls := tier, loc := if tier = 0 then .hbm else u.loc } else u) s)
  onPart p (fun t => { t with objs := mapWhere (fun x => x.handle = o.handle) (fun x => { x with tier := tier }) t.objs }) s

/-- The checks of SEG_WRITE that name a field of the entry or descriptor (R399, R400). -/
def segWriteChecks (p : Nat) (desc : Bool) (a : SegWriteArgs) (s : State) : List (Bool × Nat × Nat) :=
  let old := findObj s p a.handle
  let size := if desc then a.desc.size else (old.map Obj.size).getD 0
  [(decide (2 ^ 63 ≤ a.handle) || (a.handle = 0 && desc), St.invalidField, 16),
   (decide (16777216 < a.length) || (a.atomic && !within 1 262144 a.length) || (a.length = 0 && !desc),
     St.invalidField, 32),
   (decide (a.length ≠ 0) && decide (a.srcAddr % 64 ≠ 0), St.invalidAddress, 40),
   (desc && decide (a.descAddr % 64 ≠ 0), St.invalidAddress, 48),
   (desc && (!within 4096 (2 ^ 44) a.desc.size || decide (4 < a.desc.tierClass) ||
     (match old with | some o => decide (o.size ≠ a.desc.size) | none => false)), St.invalidField, 48),
   (!desc && old.isNone, St.noSuchHandle, 16),
   (decide (size < a.offset + a.length), St.invalidField, 24)]

/-- SEG_WRITE past its operand checks, on an object that exists. -/
def segWriteTo (p : Nat) (desc : Bool) (a : SegWriteArgs) (o : Obj) (s : State) : State :=
  let data := fitBytes a.length a.data
  let es := extentsOf a.offset a.length
  let g := if a.atomic then some s.deck.groups else none
  let s := if a.atomic then onDeck (fun d => { d with groups := d.groups + 1 }) s else s
  let s := segStore p o a.offset data g s
  let s := onDeck (fun d => { d with hostWritten := d.hostWritten + a.length }) s
  let s := if a.fua then es.foldl (fun s e => if isDirty s p o.handle e then programExtent p o.handle e s else s) s else s
  if desc then
    hostWrite (1 + p) a.descAddr (descriptorBytes s { part := p, handle := o.handle, base := o.base, size := o.size, host := true } o.tier) s
  else s

def segWriteBody (p : Nat) (desc : Bool) (a : SegWriteArgs) (s : State) : QRes :=
  deckGate s (qchecked s (segWriteChecks p desc a s)
    (let old := findObj s p a.handle
     let tier := if desc then a.desc.tierClass else (old.map Obj.tier).getD 0
     let size := if desc then a.desc.size else (old.map Obj.size).getD 0
     let need := 65536 * (extentsOf a.offset a.length).length
     let share := shareIn (layoutValue s) p
     let base := match old with | some o => some o.base | none => allocObj s p size true
     qchecked s
       [(s.deck.readOnly, St.flashReadOnly, 0),
        (old.isNone && (decide (65536 ≤ (part s p).objs.length) || decide (262144 ≤ objCount s)), St.noMemory, 0),
        (base.isNone, St.noMemory, 0),
        (decide (need ≠ 0) && decide (s.deck.capacity < flashUsed s + need), St.flashFull, 0),
        (decide (need ≠ 0) && decide (share ≠ 0) && decide (share * s.deck.capacity / 256 < flashOf s p + need),
          St.noMemory, 0),
        (decide (pinNeed s p a.handle tier size a.offset a.length ≠ 0) &&
          !hbmRoom s p (pinNeed s p a.handle tier size a.offset a.length), St.noMemory, 0)]
       (let o : Obj := { handle := a.handle, size := size, base := base.getD 0, tier := tier }
        let s := match old with
          | some x => if desc then retier p x tier s else s
          | none => onPart p (fun t => { t with objs := t.objs ++ [o] }) { s with mem := cellsClear s.mem o.base (roundUp2M size) }
        { st := segWriteTo p desc a o s })))

/-- SEG_WRITE without DESC. -/
def execSegWrite (q : SqReq) (a : SegWriteArgs) (s : State) : Result :=
  .next (queue q Op.segWrite (segWriteBody q.part false a) s)

/-- SEG_WRITE with DESC: creates the object or changes its class (R400). -/
def execSegWriteDesc (q : SqReq) (a : SegWriteArgs) (s : State) : Result :=
  .next (queue q Op.segWrite (segWriteBody q.part true a) s)

/-! ## SEG_READ -/

/-- The tier class that a described object's descriptor shows (R331). -/
def rangeTier (s : State) (r : ObjRange) : Nat :=
  if r.host then ((findObj s r.part r.handle).map Obj.tier).getD 0
  else ((part s r.part).colls.find? (fun c => c.kind = 1 && deviceHandle 1 c.num = r.handle)).elim 0 (fun c => c.cfg.tier)

/-- An extent's flash copy is read and proves uncorrectable: not in the buffer, not in HBM, mapped (R378, R387). -/
def badExtent (s : State) (bad : List (Nat × Nat)) (p h e : Nat) : Bool :=
  isPoisoned s p h e ||
    (decide ((h, e) ∈ bad) && !s.deck.buffer.any (isBuf p h e) && s.deck.images.any (isImg p h e) &&
      (match findUnit s p (.extent h e) with | some u => decide (u.loc ≠ .hbm) | none => true))

/-- The bytes of one list entry, all-ones over every bad extent. -/
def segBytes (s : State) (bad : List (Nat × Nat)) (p : Nat) (o : Obj) (off n : Nat) : List Byte :=
  (readMem s (o.base + off) n).zipIdx.map (fun b =>
    if badExtent s bad p o.handle ((off + b.2) / 65536) then (0xFF : Byte) else b.1)

/-- The first fault of a list entry, with its index (R399, R401). -/
def segListCheck (s : State) (p : Nat) (l : List SegListEntry) : List (Bool × Nat × Nat) :=
  l.zipIdx.flatMap (fun x =>
    let o := findObj s p x.1.handle
    [(decide (2 ^ 63 ≤ x.1.handle) || !within 1 16777216 x.1.length, St.invalidField, x.2),
     (o.isNone, St.noSuchHandle, x.2),
     (decide ((o.map Obj.size).getD 0 < x.1.offset + x.1.length), St.invalidField, x.2)])

def descRange (s : State) (p h : Nat) : Option ObjRange := (rangesOf s p).find? (fun r => r.handle = h)

/-- Move the buffered extents of a read to the young end of the buffer (R377). -/
def touchBuffer (p h : Nat) (es : List Nat) (d : Deck) : Deck :=
  let mine (b : BufExtent) : Bool := b.part = p && b.handle = h && decide (b.extent ∈ es)
  { d with buffer := d.buffer.filter (fun b => !mine b) ++ d.buffer.filter mine }

def segReadEntry (bad : List (Nat × Nat)) (p : Nat) (x : SegListEntry) (s : State) : State :=
  let es := extentsOf x.offset x.length
  let fresh := es.filter (fun e => badExtent s bad p x.handle e && !isPoisoned s p x.handle e)
  let s := fresh.foldl (fun s e =>
    logAdd 4 4 p (((findObj s p x.handle).map Obj.base).getD 0 + e * 65536) 3
      (onDeck (fun d => { d with uncorrectable := d.uncorrectable + 1 }) s)) s
  es.foldl (fun s e => heatUnit p (.extent x.handle e) s) (onDeck (touchBuffer p x.handle es) s)

def segReadBody (p : Nat) (a : SegReadArgs) (s : State) : QRes :=
  let l := a.list.take a.extentCount
  let total := (l.map SegListEntry.length).sum
  deckGate s (qchecked s
    ([(decide (256 < a.extentCount) || decide (a.list.length ≠ a.extentCount), St.invalidField, 16),
      (decide (a.extentCount ≠ 0) && decide (a.listAddr % 64 ≠ 0), St.invalidAddress, 24),
      (decide (a.extentCount ≠ 0) && decide (a.dstAddr % 64 ≠ 0), St.invalidAddress, 32),
      (a.desc && decide (a.descAddr % 64 ≠ 0), St.invalidAddress, 48),
      (a.desc && (descRange s p a.descHandle).isNone, St.noSuchHandle, 56)] ++
     segListCheck s p l ++ [(decide (268435456 < total) || decide (a.dstLen < total), St.invalidField, 40)])
    (let data := l.flatMap (fun x =>
       match findObj s p x.handle with | some o => segBytes s a.bad p o x.offset x.length | none => [])
     let hit := (l.zipIdx.filter (fun x => (extentsOf x.1.offset x.1.length).any (fun e => badExtent s a.bad p x.1.handle e))).map
       (fun x => x.2)
     let s1 := l.foldl (fun s x => segReadEntry a.bad p x s) s
     let s1 := hostWrite (1 + p) a.dstAddr data s1
     let s1 := match descRange s p a.descHandle with
       | some r => if a.desc then hostWrite (1 + p) a.descAddr (descriptorBytes s r (rangeTier s r)) s1 else s1
       | none => s1
     match hit with
     | [] => { st := s1 }
     | i :: _ => { st := s1, status := St.uncorrectable, dA := hit.length, dB := i }))

def execSegRead (q : SqReq) (a : SegReadArgs) (s : State) : Result := .next (queue q Op.segRead (segReadBody q.part a) s)

/-! ## SEG_TRIM and SEG_FLUSH -/

/-- Trim [off, off + n) of an object that survives: whole extents lose their mappings, the rest is written with zeros. -/
def trimRange (p : Nat) (o : Obj) (off n : Nat) (s : State) : State :=
  (extentsOf off n).foldl (fun s e =>
    let lo := e * 65536
    let hi := lo + extentLen o e
    if off ≤ lo ∧ hi ≤ off + n then
      let s := match findUnit s p (.extent o.handle e) with | some u => freeHolders p u s | none => s
      dropExtent p o.handle e { s with mem := cellsClear s.mem (o.base + lo) (extentLen o e) }
    else
      let a := max off lo
      segStore p o a (zeros (min hi (off + n) - a)) none s) s

def segTrimBody (p : Nat) (a : SegTrimArgs) (s : State) : QRes :=
  deckGate s (qchecked s
    [(decide (2 ^ 63 ≤ a.handle), St.invalidField, 16), ((findObj s p a.handle).isNone, St.noSuchHandle, 16)]
    (match findObj s p a.handle with
     | none => .fail s (St.noSuchHandle, 16)
     | some o =>
       let n := if a.length = 2 ^ 64 - 1 then o.size - a.offset else a.length
       if o.size < a.offset + n then .fail s (St.invalidField, 32)
       else if a.offset = 0 ∧ n = o.size then { st := destroyObj p o s }
       else { st := trimRange p o a.offset n s }))

def execSegTrim (q : SqReq) (a : SegTrimArgs) (s : State) : Result := .next (queue q Op.segTrim (segTrimBody q.part a) s)

/-- Give a flash image to every unit of the partition's host objects that lacks one under R382. -/
def imageMissing (p : Nat) (s : State) : State :=
  s.skidder.units.foldl (fun s u =>
    match u.kind with
    | .extent h e =>
      if u.part = p ∧ ¬ s.deck.images.any (isImg p h e) then
        match findObj s p h with | some o => programOne p o e s | none => s
      else s
    | _ => s) s

def deferredBytes (d : Deferred) : List Byte := le 8 d.handle ++ le 4 d.extent ++ le 2 d.reason ++ zeros 2

/-- The journal reaches flash (R394). -/
def flushJournal (s : State) : State := onDeck (fun d => { d with journal := 0, lastFlush := s.time }) s

def segFlushBody (p : Nat) (a : SegFlushArgs) (s : State) : QRes :=
  deckGate s (qchecked s
    [(decide (a.reportAddr % 64 ≠ 0), St.invalidAddress, 16), (decide (1024 < a.reportMax), St.invalidField, 24)]
    (let s := flushJournal (imageMissing p (programWhere (fun b => b.part = p) s))
     let t := part s p
     let n := if a.reportAddr = 0 then 0 else a.reportMax
     let out := t.deferred.take n
     let left := t.deferred.drop n
     let s1 := hostWrite (1 + p) a.reportAddr (out.flatMap deferredBytes)
       (onPart p (fun t => { t with deferred := left, deferredExtra := if left.isEmpty then 0 else t.deferredExtra }) s)
     if out.isEmpty ∧ left.isEmpty ∧ t.deferredExtra = 0 then { st := s1 }
     else { st := s1, status := St.deferredWriteError, dA := out.length, dB := left.length + t.deferredExtra }))

def execSegFlush (q : SqReq) (a : SegFlushArgs) (s : State) : Result :=
  .next (queue q Op.segFlush (segFlushBody q.part a) s)

end Sys2Proof.Machine
end

