-- ==== Sys2Proof/Machine/Sideband.lean ====
section
/-! DEFINITION. Sys2Proof/Machine/Sideband.lean: the two I3C targets: mailbox 13 over the main target, Scaler's frames over
its own, GETSTATUS, RSTACT and addresses (R82, R534, R601–R603). -/
namespace Sys2Proof.Machine

/-! ## The main target: mailbox 13 (R70, R82) -/

/-- Field of `n` bytes at `off` of a message. -/
def field (bs : List Byte) (off n : Nat) : Nat := unle ((bs.drop off).take n)

/-- The request that a private write spells. -/
def i3cRequest (bs : List Byte) : MbxReq :=
  { mbx := 13, path := .i3c, tag := field bs 2 2, partition := field bs 4 1, length := field bs 8 4, seq := BitVec.ofNat 32 (field bs 12 4) }

/-- Run the request on mailbox 13: the commands that source S may send (R106), and no other. -/
def runSideband (op : Nat) (r : MbxReq) (pl : List Byte) (s : State) : State :=
  if op = Op.devIdentify then mailbox r op [0] identifyBody s
  else if op = Op.devStatus then mailbox r op [0] (statusBody 13) s
  else if op = Op.devFullReset then bumpFree (resetAfter r (decide (r.length = 8) && (pl.getD 0 0).toNat.testBit 0) (nextDump s) s)
  else if op = Op.devSetPower then
    setPower r { target := field pl 0 1, idleDisable := field pl 1 1, idleAfterUs := field pl 2 2 } s
  else if op = Op.secAttest then
    mailbox r op [40] (fun t =>
      checked t [(decide (1 < field pl 0 1), St.invalidField, 32)]
        (if field pl 0 1 = 1 then certificateBody t else attestBody r.partition ((pl.drop 8).take 32) t)) s
  else if op = Op.secTallyRead then mailbox r op [8] (tallyReadBody (field pl 0 1)) s
  else mailboxFull r op none none (fun t => { st := t }) s

/-- A private write to the main target: a message is at least its header; a short payload reads as zeros. -/
def mainWrite (bs : List Byte) (s : State) : State :=
  if bs.length < 32 then s else runSideband (field bs 0 2) (i3cRequest bs) (fitBytes (min 4096 (field bs 8 4)) (bs.drop 32)) s

/-! ## Scaler's target (R534) -/

/-- Payload length of a frame type that Scaler defines on the sideband. -/
def frameLen (t : Nat) : Option Nat :=
  if t = 1 then some 40 else if t = 2 then some 32 else if t = 3 then some 48 else if t = 4 then some 8 else none

/-- Scaler's reply: status and response payload. -/
def sideAnswer (status : Nat) (pl : List Byte) : List Byte := le 2 status ++ pl

/-- A read request: RFLAGS bit 0 SIGN, bit 1 CERT; 32 bytes of NONCE at 8. -/
def sideRead (pl : List Byte) (x : Scaler) : List Byte × Scaler :=
  if (field pl 0 1).testBit 1 then (sideAnswer 0 scalerCertificate, x)
  else
    let y := scalerRead ((field pl 0 1).testBit 0) ((pl.drop 8).take 32) x
    (sideAnswer 0 y.1, y.2)

def sideEvents (pl : List Byte) (x : Scaler) : List Byte :=
  if within 1 120 (field pl 4 2) then sideAnswer 0 (scalerEventsReply x (field pl 0 4) (field pl 4 2))
  else sideAnswer St.invalidField []

def sideCompose (pl : List Byte) (x : Scaler) : List Byte × Scaler :=
  let y := scalerCompose (field pl 0 8) ((pl.drop 8).take 16) x
  if y.1 = 0 then (sideAnswer 0 (readingBytes y.2.2 false), y.2.2) else (sideAnswer y.1 [], x)

def sideDecompose (pl : List Byte) (x : Scaler) : List Byte × Scaler :=
  let y := scalerDecompose (field pl 0 8) ((pl.drop 16).take 32) x
  if y.1 = 0 then (sideAnswer 0 (receiptBytes y.2), y.2) else (sideAnswer y.1 [], x)

/-- What a frame of a defined type and length does: reply and Scaler after it. -/
def sideRequest (t : Nat) (pl : List Byte) (x : Scaler) : List Byte × Scaler :=
  if t = 1 then sideRead pl x
  else if t = 4 then (sideEvents pl x, x)
  else if !x.sidebandCommand then (sideAnswer St.notPermitted [], x)
  else if t = 2 then sideCompose pl x
  else sideDecompose pl x

/-- A private write to Scaler's target: discarded and counted unless its type and length are defined. Its ROM, where the
firmware fails verification, counts nothing and answers METER_FAULT (R533). -/
def scalerWrite (bs : List Byte) (x : Scaler) : Scaler :=
  if !x.on then x
  else if !x.firmwareOk then { x with sideReply := some (sideAnswer St.meterFault []) }
  else
    let t := field bs 0 1
    if frameLen t = some (bs.length - 1) ∧ bs ≠ [] then
      let y := sideRequest t bs.tail x
      { y.2 with sideReply := some y.1 }
    else { x with rejected := x.rejected + 1 }

/-- I3C_PRIVATE_WRITE. -/
def execI3cPrivateWrite (scaler : Bool) (bytes : List Byte) (s : State) : Result :=
  .next
    (if scaler then
      -- a compose that opens a composition restarts the shares (R556)
      let t := onScaler (scalerWrite bytes) s
      if s.scaler.openComp.isNone && t.scaler.openComp.isSome then restartShares t else t
     else mainWrite bytes s)

/-- I3C_PRIVATE_READ: the signalled item, after which the next is signalled; nothing signalled is not acknowledged. -/
def execI3cPrivateRead (scaler : Bool) (s : State) : Result :=
  .next
    (if scaler then
      match s.scaler.sideReply with
      | some b => if s.scaler.on then emit (.i3cRead b) (onScaler (fun x => { x with sideReply := none }) s) else emit .i3cNack s
      | none => emit .i3cNack s
     else
      match s.i3cSignalled with
      | some x => if s.power.phase = .auxOff then emit .i3cNack s else signalI3c (emit (.i3cRead x.2) { s with i3cSignalled := none })
      | none => emit .i3cNack s)

/-! ## Common commands (R601–R603) -/

/-- The hardware status of the main target, bits [15:8] (R602). -/
def hardwareStatus (s : State) : Nat :=
  let p := s.power
  let up := decide (p.phase = .running)
  (if up then powerCode p.state else 0) + 4 * (if up then serviceLevel s else 0) + (if p.needsReset then 16 else 0) +
    (if p.p48v && !p.thermtrip then 32 else 0) + (if p.thermtrip then 64 else 0) + (if p.fwFault then 128 else 0)

/-- GETSTATUS: the main target answers while AUX3V3 is present, Scaler's while SCL3V3 is. -/
def execGetstatus (scaler : Bool) (s : State) : Result :=
  .next
    (if scaler then (if s.scaler.on then emit (.i3cStatus 0) s else emit .i3cNack s)
     else if s.power.phase = .auxOff then emit .i3cNack s
     else emit (.i3cStatus (BitVec.ofNat 16 (256 * hardwareStatus s))) s)

/-- RSTACT_TARGET_RESET: the target's own I3C logic and dynamic address only. -/
def execRstactTargetReset (s : State) : Result :=
  .next (if s.power.phase = .auxOff then s else onPower (fun p => { p with i3cAddr := none }) s)

/-- RSTACT_FULL_RESET: the sideband reset request. -/
def execRstactFullReset (dumpOk : Bool) (s : State) : Result := .next (fullTrigger dumpOk s)

/-- I3C_ADDRESS_ASSIGN: SETDASA or ENTDAA gives an address, RSTDAA takes it. -/
def execI3cAddressAssign (scaler : Bool) (address : Option Nat) (s : State) : Result :=
  .next
    (if scaler then (if s.scaler.on then onPower (fun p => { p with i3cScalerAddr := address }) s else s)
     else if s.power.phase = .auxOff then s
     else onPower (fun p => { p with i3cAddr := address }) s)

end Sys2Proof.Machine
end

