-- ==== Sys2Proof/Machine/Dispatch.lean ====
section
/-! DEFINITION. Sys2Proof/Machine/Dispatch.lean: one arm for each command or event of the opcode table. -/
namespace Sys2Proof.Machine

def exec (i : Instr) (s : State) : Host.Outcome State Fault Refusal :=
  match i with
  | .devIdentify r => Sys2Proof.Machine.execDevIdentify r s
  | .devStatus r => Sys2Proof.Machine.execDevStatus r s
  | .devFullReset r dumpOk => Sys2Proof.Machine.execDevFullReset r dumpOk s
  | .devFullResetFormatFlash r dumpOk => Sys2Proof.Machine.execDevFullResetFormatFlash r dumpOk s
  | .devSetPower r a => Sys2Proof.Machine.execDevSetPower r a s
  | .devCruise r a => Sys2Proof.Machine.execDevCruise r a s
  | .devCruiseRun r a => Sys2Proof.Machine.execDevCruiseRun r a s
  | .devLogRead r startSeq maxEntries => Sys2Proof.Machine.execDevLogRead r startSeq maxEntries s
  | .partCreate r => Sys2Proof.Machine.execPartCreate r s
  | .partRelease r => Sys2Proof.Machine.execPartRelease r s
  | .partitionReleaseScrub p => Sys2Proof.Machine.execPartitionReleaseScrub p s
  | .partQueueCreate r a => Sys2Proof.Machine.execPartQueueCreate r a s
  | .partQueueDelete r typ queueId => Sys2Proof.Machine.execPartQueueDelete r typ queueId s
  | .sqDeleteDone p q => Sys2Proof.Machine.execSqDeleteDone p q s
  | .partKeyLoad r a => Sys2Proof.Machine.execPartKeyLoad r a s
  | .collCreate r a => Sys2Proof.Machine.execCollCreate r a s
  | .collDrop r coll => Sys2Proof.Machine.execCollDrop r coll s
  | .collConfig r a => Sys2Proof.Machine.execCollConfig r a s
  | .collStats r coll => Sys2Proof.Machine.execCollStats r coll s
  | .collSeason r a => Sys2Proof.Machine.execCollSeason r a s
  | .collSeasonCompact r coll => Sys2Proof.Machine.execCollSeasonCompact r coll s
  | .collSeasonRequantise r coll => Sys2Proof.Machine.execCollSeasonRequantise r coll s
  | .collAudit r a => Sys2Proof.Machine.execCollAudit r a s
  | .rowInsert q a => Sys2Proof.Machine.execRowInsert q a s
  | .rowUpsert q a => Sys2Proof.Machine.execRowUpsert q a s
  | .rowDelete q a => Sys2Proof.Machine.execRowDelete q a s
  | .rowAdd q a => Sys2Proof.Machine.execRowAdd q a s
  | .rowAddMerged q a => Sys2Proof.Machine.execRowAddMerged q a s
  | .ingestCommit q coll => Sys2Proof.Machine.execIngestCommit q coll s
  | .rowRead q a => Sys2Proof.Machine.execRowRead q a s
  | .pooledRowRequest m => Sys2Proof.Machine.execPooledRowRequest m s
  | .replicaIngest m => Sys2Proof.Machine.execReplicaIngest m s
  | .replicaSeason m => Sys2Proof.Machine.execReplicaSeason m s
  | .leaseExpiry a => Sys2Proof.Machine.execLeaseExpiry a s
  | .qrySearch q a => Sys2Proof.Machine.execQrySearch q a s
  | .qryRetrieve q a => Sys2Proof.Machine.execQryRetrieve q a s
  | .qryRerank q a => Sys2Proof.Machine.execQryRerank q a s
  | .qryCancel q targetSq targetTag => Sys2Proof.Machine.execQryCancel q targetSq targetTag s
  | .qryAttend q a => Sys2Proof.Machine.execQryAttend q a s
  | .qryAttendStore q a => Sys2Proof.Machine.execQryAttendStore q a s
  | .qryAttendDrop q a => Sys2Proof.Machine.execQryAttendDrop q a s
  | .shardPart m => Sys2Proof.Machine.execShardPart m s
  | .shardMerge a => Sys2Proof.Machine.execShardMerge a s
  | .lateInteractionPart m => Sys2Proof.Machine.execLateInteractionPart m s
  | .attendPart m => Sys2Proof.Machine.execAttendPart m s
  | .shardReissue a => Sys2Proof.Machine.execShardReissue a s
  | .mdlLoad r a => Sys2Proof.Machine.execMdlLoad r a s
  | .mdlUnload r model => Sys2Proof.Machine.execMdlUnload r model s
  | .mdlRun q a => Sys2Proof.Machine.execMdlRun q a s
  | .mdlRunGenerate q a => Sys2Proof.Machine.execMdlRunGenerate q a s
  | .mdlCalibrate r a => Sys2Proof.Machine.execMdlCalibrate r a s
  | .canopyRunStart => Sys2Proof.Machine.execCanopyRunStart s
  | .canopySegmentEnd run => Sys2Proof.Machine.execCanopySegmentEnd run s
  | .canopyRunEnd run => Sys2Proof.Machine.execCanopyRunEnd run s
  | .tileFault grove tile => Sys2Proof.Machine.execTileFault grove tile s
  | .txtTokenize q a => Sys2Proof.Machine.execTxtTokenize q a s
  | .txtDetokStream q a => Sys2Proof.Machine.execTxtDetokStream q a s
  | .grmLoad r a => Sys2Proof.Machine.execGrmLoad r a s
  | .grmUnload r a => Sys2Proof.Machine.execGrmUnload r a s
  | .grmStep q a => Sys2Proof.Machine.execGrmStep q a s
  | .promptPack q a => Sys2Proof.Machine.execPromptPack q a s
  | .vocabLoad r a => Sys2Proof.Machine.execVocabLoad r a s
  | .vocabUnload r a => Sys2Proof.Machine.execVocabUnload r a s
  | .trieRebuild part vocab done => Sys2Proof.Machine.execTrieRebuild part vocab done s
  | .streamContextTimeout part stream => Sys2Proof.Machine.execStreamContextTimeout part stream s
  | .fabPortConfig r a => Sys2Proof.Machine.execFabPortConfig r a s
  | .fabQpCreate r a => Sys2Proof.Machine.execFabQpCreate r a s
  | .fabQpDelete r qp => Sys2Proof.Machine.execFabQpDelete r qp s
  | .fabShaperSet r entries => Sys2Proof.Machine.execFabShaperSet r entries s
  | .fabPolicerSet r entries => Sys2Proof.Machine.execFabPolicerSet r entries s
  | .fabStats r qpFirst qpCount => Sys2Proof.Machine.execFabStats r qpFirst qpCount s
  | .mtrRead r sign cert nonce => Sys2Proof.Machine.execMtrRead r sign cert nonce s
  | .mtrCompose r compId customerRef => Sys2Proof.Machine.execMtrCompose r compId customerRef s
  | .mtrDecompose r compId nonce => Sys2Proof.Machine.execMtrDecompose r compId nonce s
  | .mtrEvents r startSeq maxEntries => Sys2Proof.Machine.execMtrEvents r startSeq maxEntries s
  | .scalerParamsFrame f => Sys2Proof.Machine.execScalerParamsFrame f s
  | .paramsResend => Sys2Proof.Machine.execParamsResend s
  | .secAttest r a => Sys2Proof.Machine.execSecAttest r a s
  | .secAttestCertificate r => Sys2Proof.Machine.execSecAttestCertificate r s
  | .secFwUpdateBegin r a => Sys2Proof.Machine.execSecFwUpdateBegin r a s
  | .secFwUpdateData r offset data => Sys2Proof.Machine.execSecFwUpdateData r offset data s
  | .secFwUpdateCommit r => Sys2Proof.Machine.execSecFwUpdateCommit r s
  | .secFwUpdateAbort r => Sys2Proof.Machine.execSecFwUpdateAbort r s
  | .secTallyRead r item => Sys2Proof.Machine.execSecTallyRead r item s
  | .secTallyChange r a => Sys2Proof.Machine.execSecTallyChange r a s
  | .secAuditRead r auditSeq => Sys2Proof.Machine.execSecAuditRead r auditSeq s
  | .dbgTrace r startSeq maxEntries => Sys2Proof.Machine.execDbgTrace r startSeq maxEntries s
  | .dbgCounters r group => Sys2Proof.Machine.execDbgCounters r group s
  | .dbgLoupe r ctrl filter => Sys2Proof.Machine.execDbgLoupe r ctrl filter s
  | .segWrite q a => Sys2Proof.Machine.execSegWrite q a s
  | .segWriteDesc q a => Sys2Proof.Machine.execSegWriteDesc q a s
  | .segRead q a => Sys2Proof.Machine.execSegRead q a s
  | .segTrim q a => Sys2Proof.Machine.execSegTrim q a s
  | .segFlush q a => Sys2Proof.Machine.execSegFlush q a s
  | .commandDone opcode tag => Sys2Proof.Machine.execCommandDone opcode tag s
  | .sqTailDoorbell a => Sys2Proof.Machine.execSqTailDoorbell a s
  | .cqHeadDoorbell a => Sys2Proof.Machine.execCqHeadDoorbell a s
  | .eqHeadDoorbell a => Sys2Proof.Machine.execEqHeadDoorbell a s
  | .cqCoalesceTimer part cq => Sys2Proof.Machine.execCqCoalesceTimer part cq s
  | .qpSqTailDoorbell a => Sys2Proof.Machine.execQpSqTailDoorbell a s
  | .qpRqTailDoorbell a => Sys2Proof.Machine.execQpRqTailDoorbell a s
  | .wrSend q => Sys2Proof.Machine.execWrSend q s
  | .wrWrite q => Sys2Proof.Machine.execWrWrite q s
  | .wrRead q => Sys2Proof.Machine.execWrRead q s
  | .wrFlush q => Sys2Proof.Machine.execWrFlush q s
  | .wrWaitCount q => Sys2Proof.Machine.execWrWaitCount q s
  | .wrRecv q => Sys2Proof.Machine.execWrRecv q s
  | .pktSendRx m => Sys2Proof.Machine.execPktSendRx m s
  | .pktWriteRx m => Sys2Proof.Machine.execPktWriteRx m s
  | .pktReadReqRx m => Sys2Proof.Machine.execPktReadReqRx m s
  | .pktReadRespRx m => Sys2Proof.Machine.execPktReadRespRx m s
  | .pktAckRx m => Sys2Proof.Machine.execPktAckRx m s
  | .pktNakRx m => Sys2Proof.Machine.execPktNakRx m s
  | .pktFlushReqRx m => Sys2Proof.Machine.execPktFlushReqRx m s
  | .pktFlushAckRx m => Sys2Proof.Machine.execPktFlushAckRx m s
  | .pktSystemRx m => Sys2Proof.Machine.execPktSystemRx m s
  | .pauseFrameRx port states => Sys2Proof.Machine.execPauseFrameRx port states s
  | .pauseRepeatTimer port => Sys2Proof.Machine.execPauseRepeatTimer port s
  | .heartbeatTimer => Sys2Proof.Machine.execHeartbeatTimer s
  | .heartbeatRx port device srcPort deviceFault => Sys2Proof.Machine.execHeartbeatRx port device srcPort deviceFault s
  | .heartbeatLoss port => Sys2Proof.Machine.execHeartbeatLoss port s
  | .pauseWatchdog port pair => Sys2Proof.Machine.execPauseWatchdog port pair s
  | .laneFailure port lane => Sys2Proof.Machine.execLaneFailure port lane s
  | .trainingNeighbourArrival port device srcPort racks ySize zSize => Sys2Proof.Machine.execTrainingNeighbourArrival port device srcPort racks ySize zSize s
  | .linkUp port => Sys2Proof.Machine.execLinkUp port s
  | .trainingTimeout port => Sys2Proof.Machine.execTrainingTimeout port s
  | .retryTimeout q => Sys2Proof.Machine.execRetryTimeout q s
  | .rnrDelayExpiry q => Sys2Proof.Machine.execRnrDelayExpiry q s
  | .ackDelayTimer q => Sys2Proof.Machine.execAckDelayTimer q s
  | .egressArbitration port => Sys2Proof.Machine.execEgressArbitration port s
  | .queueSampleTimer ages => Sys2Proof.Machine.execQueueSampleTimer ages s
  | .chkCommit value => Sys2Proof.Machine.execChkCommit value s
  | .pavCommit value => Sys2Proof.Machine.execPavCommit value s
  | .governorGrant a => Sys2Proof.Machine.execGovernorGrant a s
  | .pavePassEnd a => Sys2Proof.Machine.execPavePassEnd a s
  | .passOverrun a => Sys2Proof.Machine.execPassOverrun a s
  | .engineFault a => Sys2Proof.Machine.execEngineFault a s
  | .skippedRowRestore a => Sys2Proof.Machine.execSkippedRowRestore a s
  | .fwdCommit value throughPf => Sys2Proof.Machine.execFwdCommit value throughPf s
  | .fwdAbort value => Sys2Proof.Machine.execFwdAbort value s
  | .fwdChannelDone run => Sys2Proof.Machine.execFwdChannelDone run s
  | .lndIntRearm value => Sys2Proof.Machine.execLndIntRearm value s
  | .lpeCommit value => Sys2Proof.Machine.execLpeCommit value s
  | .registerWrite w => Sys2Proof.Machine.execRegisterWrite w s
  | .bar2Read a => Sys2Proof.Machine.execBar2Read a s
  | .bar2Write a => Sys2Proof.Machine.execBar2Write a s
  | .hostNonIdeTlp t => Sys2Proof.Machine.execHostNonIdeTlp t s
  | .ideKmKeyProgram a => Sys2Proof.Machine.execIdeKmKeyProgram a s
  | .ideIntegrityFailure stream => Sys2Proof.Machine.execIdeIntegrityFailure stream s
  | .hostReadFailure a => Sys2Proof.Machine.execHostReadFailure a s
  | .busMasterEnableChange fn enable => Sys2Proof.Machine.execBusMasterEnableChange fn enable s
  | .flrVf p => Sys2Proof.Machine.execFlrVf p s
  | .flrPf => Sys2Proof.Machine.execFlrPf s
  | .pcieLinkDown => Sys2Proof.Machine.execPcieLinkDown s
  | .pcieLinkUp => Sys2Proof.Machine.execPcieLinkUp s
  | .pfD3hotEntry => Sys2Proof.Machine.execPfD3hotEntry s
  | .pfD0Return => Sys2Proof.Machine.execPfD0Return s
  | .idleGate block => Sys2Proof.Machine.execIdleGate block s
  | .idleWake block => Sys2Proof.Machine.execIdleWake block s
  | .coldPowerOn ethSgmii => Sys2Proof.Machine.execColdPowerOn ethSgmii s
  | .aux3v3Loss => Sys2Proof.Machine.execAux3v3Loss s
  | .p48vFall dumpOk => Sys2Proof.Machine.execP48vFall dumpOk s
  | .p48vReturn => Sys2Proof.Machine.execP48vReturn s
  | .fullrstNAssert lowNs dumpOk => Sys2Proof.Machine.execFullrstNAssert lowNs dumpOk s
  | .perstAssert dumpOk => Sys2Proof.Machine.execPerstAssert dumpOk s
  | .resetRelease b => Sys2Proof.Machine.execResetRelease b s
  | .rangerWatchdogExpiry => Sys2Proof.Machine.execRangerWatchdogExpiry s
  | .wedgedBlock block => Sys2Proof.Machine.execWedgedBlock block s
  | .tempAlert temp => Sys2Proof.Machine.execTempAlert temp s
  | .tempLimit temp => Sys2Proof.Machine.execTempLimit temp s
  | .tempLimitLift temp => Sys2Proof.Machine.execTempLimitLift temp s
  | .thermtrip temp => Sys2Proof.Machine.execThermtrip temp s
  | .powerLimit watts => Sys2Proof.Machine.execPowerLimit watts s
  | .powerLimitLift watts => Sys2Proof.Machine.execPowerLimitLift watts s
  | .i3cPrivateWrite scaler bytes => Sys2Proof.Machine.execI3cPrivateWrite scaler bytes s
  | .i3cPrivateRead scaler => Sys2Proof.Machine.execI3cPrivateRead scaler s
  | .getstatus scaler => Sys2Proof.Machine.execGetstatus scaler s
  | .rstactTargetReset => Sys2Proof.Machine.execRstactTargetReset s
  | .rstactFullReset dumpOk => Sys2Proof.Machine.execRstactFullReset dumpOk s
  | .i3cAddressAssign scaler address => Sys2Proof.Machine.execI3cAddressAssign scaler address s
  | .tlsHandshake identity psk => Sys2Proof.Machine.execTlsHandshake identity psk s
  | .tlsLockoutEnd => Sys2Proof.Machine.execTlsLockoutEnd s
  | .fabricKeySwitch => Sys2Proof.Machine.execFabricKeySwitch s
  | .seasoning part coll => Sys2Proof.Machine.execSeasoning part coll s
  | .compaction part coll stand => Sys2Proof.Machine.execCompaction part coll stand s
  | .heatDecay => Sys2Proof.Machine.execHeatDecay s
  | .placementPlan => Sys2Proof.Machine.execPlacementPlan s
  | .unitMove a => Sys2Proof.Machine.execUnitMove a s
  | .rowMigration a => Sys2Proof.Machine.execRowMigration a s
  | .copyUp a => Sys2Proof.Machine.execCopyUp a s
  | .poolUnitRecopy unit lostDevice newDevice => Sys2Proof.Machine.execPoolUnitRecopy unit lostDevice newDevice s
  | .replicaRebuild part coll number device copy => Sys2Proof.Machine.execReplicaRebuild part coll number device copy s
  | .cacheEntryExpiry part key => Sys2Proof.Machine.execCacheEntryExpiry part key s
  | .extentProgram a => Sys2Proof.Machine.execExtentProgram a s
  | .programFailure a => Sys2Proof.Machine.execProgramFailure a s
  | .journalFlush => Sys2Proof.Machine.execJournalFlush s
  | .flashPieceRead a => Sys2Proof.Machine.execFlashPieceRead a s
  | .readSuspend channel lun => Sys2Proof.Machine.execReadSuspend channel lun s
  | .garbageCollection => Sys2Proof.Machine.execGarbageCollection s
  | .wearLevelling => Sys2Proof.Machine.execWearLevelling s
  | .cruiseRun a => Sys2Proof.Machine.execCruiseRun a s
  | .hwVoltageRaise grove m => Sys2Proof.Machine.execHwVoltageRaise grove m s
  | .lmsTreeBuild done => Sys2Proof.Machine.execLmsTreeBuild done s
  | .apportionEnergy weights => Sys2Proof.Machine.execApportionEnergy weights s
  | .scl3v3Rise firmwareOk => Sys2Proof.Machine.execScl3v3Rise firmwareOk s
  | .scl3v3Fall => Sys2Proof.Machine.execScl3v3Fall s
  | .scalerSecond microjoules => Sys2Proof.Machine.execScalerSecond microjoules s
  | .scalerStoreTimer => Sys2Proof.Machine.execScalerStoreTimer s
  | .signBucketRefill => Sys2Proof.Machine.execSignBucketRefill s
  | .clockFault => Sys2Proof.Machine.execClockFault s
  | .clockRestored => Sys2Proof.Machine.execClockRestored s
  | .mainPowerLost => Sys2Proof.Machine.execMainPowerLost s
  | .mainPowerRestored => Sys2Proof.Machine.execMainPowerRestored s
  | .undefinedOpcode c opcode => Sys2Proof.Machine.execUndefinedOpcode c opcode s
  | .packetForwarding m => Sys2Proof.Machine.execPacketForwarding m s
  | .passageFetch home part q ids => Sys2Proof.Machine.execPassageFetch home part q ids s
  | .shardCancellation home part c => Sys2Proof.Machine.execShardCancellation home part c s
  | .poolHolderRequest owner part op key data => Sys2Proof.Machine.execPoolHolderRequest owner part op key data s
  | .managementSessionEnd session => Sys2Proof.Machine.execManagementSessionEnd session s
  | .referenceClockLoss clock present => Sys2Proof.Machine.execReferenceClockLoss clock present s
  | .bar2Resize code => Sys2Proof.Machine.execBar2Resize code s
  | .adcFault status => Sys2Proof.Machine.execAdcFault status s

end Sys2Proof.Machine
end

