-- ==== Sys2Proof/Machine/Tick.lean ====
section
/-! DEFINITION. Sys2Proof/Machine/Tick.lean: one microsecond without a command: device time, and what rises with it (R36,
R385, R445, R447, R454, R589). -/
namespace Sys2Proof.Machine

/-- A bucket fills at RATE: so many millionths of a token in a microsecond (R447). -/
def Policer.fill (b : Policer) (j : Nat) : Policer :=
  if b.entry.enable = 0 then b
  else { b with level := min (b.entry.burst * 1000000) (b.level + b.entry.rate * (if j < 12 then 1 else 1000000)) }

/-- A credit rises at IDLE_RATE while the class waits or the credit is below 0, and is 0 where nothing waits and it would be
above (R445). -/
def Shaper.rise (x : Shaper) (waits : Bool) : Shaper :=
  if x.entry.idleRate = 0 then x
  else if waits then { x with credit := clampCredit x.entry (x.credit + (x.entry.idleRate : Int)) }
  else if x.credit < 0 then { x with credit := min 0 (clampCredit x.entry (x.credit + (x.entry.idleRate : Int))) }
  else { x with credit := 0 }

/-- The values of the partition view, taken at each whole millisecond (R454). -/
def snapStats (s : State) : State :=
  { s with parts := s.parts.zipIdx.map (fun x => { x.1 with seenHead := admissionNow s x.2, seenQps := x.1.qps }) }

/-- Deck's seconds and the powered hours. -/
def slowCounts (s : State) : State :=
  let s := if s.time % 1000000 = 0 then { s with deck := { s.deck with deckTime := s.deck.deckTime + 1 } } else s
  if s.time % 3600000000 = 0 then { s with cruise := { s.cruise with poweredHours := s.cruise.poweredHours + 1 } } else s

/-- One microsecond of a running device; a device in reset or without power keeps no time. -/
def tick (s : State) : State :=
  if s.power.phase ≠ .running then s
  else
    let s := { s with
      time := s.time + 1
      choker := { s.choker with
        policers := s.choker.policers.zipIdx.map (fun x => x.1.fill x.2)
        shapers := s.choker.shapers.zipIdx.map (fun x => x.1.rise (classWaits s (x.2 / 8) (x.2 % 8))) }
      fabric := { s.fabric with ports := s.fabric.ports.map (fun p => if p.xoffRx = 0 then p else { p with pausedNs := p.pausedNs + 1000 }) } }
    let s := if s.time % 1000 = 0 then snapStats s else s
    let s := slowCounts s
    if firmwareRuns s then takeOwnMessages s else s

end Sys2Proof.Machine
end

