-- ==== Sys2Proof/Machine/Post.lean ====
section
/-! DEFINITION. Sys2Proof/Machine/Post.lean: how a command comes to wait in the queue: messages of mailboxes 12 and 13 are taken ahead of
those of mailboxes 0 to 11 (R76). -/
namespace Sys2Proof.Machine

/-- The mailbox of a command that is a message. -/
def messageOf : Instr → Option Nat
  | .devIdentify r => some r.mbx
  | .devStatus r => some r.mbx
  | .devFullReset r _ => some r.mbx
  | .devFullResetFormatFlash r _ => some r.mbx
  | .devSetPower r _ => some r.mbx
  | .devCruise r _ => some r.mbx
  | .devCruiseRun r _ => some r.mbx
  | .devLogRead r _ _ => some r.mbx
  | .partCreate r => some r.mbx
  | .partRelease r => some r.mbx
  | .partQueueCreate r _ => some r.mbx
  | .partQueueDelete r _ _ => some r.mbx
  | .partKeyLoad r _ => some r.mbx
  | .collCreate r _ => some r.mbx
  | .collDrop r _ => some r.mbx
  | .collConfig r _ => some r.mbx
  | .collStats r _ => some r.mbx
  | .collSeason r _ => some r.mbx
  | .collSeasonCompact r _ => some r.mbx
  | .collSeasonRequantise r _ => some r.mbx
  | .collAudit r _ => some r.mbx
  | .mdlLoad r _ => some r.mbx
  | .mdlUnload r _ => some r.mbx
  | .mdlCalibrate r _ => some r.mbx
  | .grmLoad r _ => some r.mbx
  | .grmUnload r _ => some r.mbx
  | .vocabLoad r _ => some r.mbx
  | .vocabUnload r _ => some r.mbx
  | .fabPortConfig r _ => some r.mbx
  | .fabQpCreate r _ => some r.mbx
  | .fabQpDelete r _ => some r.mbx
  | .fabShaperSet r _ => some r.mbx
  | .fabPolicerSet r _ => some r.mbx
  | .fabStats r _ _ => some r.mbx
  | .mtrRead r _ _ _ => some r.mbx
  | .mtrCompose r _ _ => some r.mbx
  | .mtrDecompose r _ _ => some r.mbx
  | .mtrEvents r _ _ => some r.mbx
  | .secAttest r _ => some r.mbx
  | .secAttestCertificate r => some r.mbx
  | .secFwUpdateBegin r _ => some r.mbx
  | .secFwUpdateData r _ _ => some r.mbx
  | .secFwUpdateCommit r => some r.mbx
  | .secFwUpdateAbort r => some r.mbx
  | .secTallyRead r _ => some r.mbx
  | .secTallyChange r _ => some r.mbx
  | .secAuditRead r _ => some r.mbx
  | .dbgTrace r _ _ => some r.mbx
  | .dbgCounters r _ => some r.mbx
  | .dbgLoupe r _ _ => some r.mbx
  | .undefinedOpcode (.mailbox r) _ => some r.mbx
  | .i3cPrivateWrite false _ => some 13
  | _ => none

/-- A command arrives: it waits behind every other, but for a message of mailbox 12 or 13, which stands ahead of the waiting messages of
the partitions (R76). -/
def State.post (c : Instr) (s : State) : State := { s with pending := enqueueMessage messageOf c s.pending }

end Sys2Proof.Machine
end

