-- ==== Sys2Proof/Safety.lean ====
section
/-! DEFINITION. Sys2Proof/Safety.lean: the words claims are stated in: when a mailbox request or a submission entry is
taken, what an answer and a completion are, and what a command leaves as it was. -/
namespace Sys2Proof.Safety
open Sys2Proof.Machine

/-- A step answers a next state. -/
def Goes (s : State) : Prop := ∃ t, step s = .next t

/-! ## Frames -/

/-- A partition but for its event queue, which the delivery of an event advances. -/
def quietPart (t : Part) : Part := { t with eq := none }

/-- A partition but for its queues and its list of running commands, which the completion of an entry changes. -/
def barePart (t : Part) : Part := { t with eq := none, sqs := [], cqs := [], running := [] }

/-- What a response, an event or an interrupt changes, laid over `s`: mailboxes, event destinations, the I3C target's items,
what has been issued and what Landing holds back, and Loupe's record of it. -/
def shownOver (s t : State) : State :=
  { s with
    mbx := t.mbx, partEvents := t.partEvents, operatorEvents := t.operatorEvents, sidebandEvents := t.sidebandEvents
    i3cSignalled := t.i3cSignalled, i3cResponses := t.i3cResponses, issued := t.issued, loupe := t.loupe
    landing := { s.landing with waiting := t.landing.waiting }, parts := t.parts }

/-- `t` is `s` after answers, events and interrupts went out: all else, in every partition too, is as it was. -/
structure Shown (s t : State) : Prop where
  rest : t = shownOver s t
  parts : t.parts.map quietPart = s.parts.map quietPart

/-- As `Shown`, but entries may also have been taken from submission queues and completions written. -/
structure Settled (s t : State) : Prop where
  rest : t = shownOver s t
  parts : t.parts.map barePart = s.parts.map barePart

/-- Every byte of memory is as it was, but for HBM bytes of regions newly assigned to a partition, overwritten with zeros
(R340). -/
def KeepsMem (s t : State) : Prop :=
  ∀ a, cellsRead t.mem a = cellsRead s.mem a ∨ (hbmBase ≤ a ∧ a < objRegion ∧ cellsRead t.mem a = 0)

/-! ## Mailbox requests -/

/-- Mailbox `r.mbx` executes the request, and neither R71 nor the states of R99, R103 and R565 stop it before the command's
own checks. -/
structure Admits (s : State) (r : MbxReq) (op : Nat) (item : Option Nat) (step5 : Option (Nat × Nat)) : Prop where
  runs : executes s r = true
  header : headerCheck s r op item step5 = none
  states : gate s op (if r.mbx < 12 then some r.mbx else none) false = none

/-- The state in which the command's own work begins: Loupe has recorded CMD_BEGIN. -/
def begun (r : MbxReq) (op : Nat) (s : State) : State := trace 0 r.partition 0 (mbxTrace r op 0) r.seq.toNat s

/-- The mailbox has answered: the response is stored under the request's SEQUENCE (R70, R72). -/
structure Answered (r : MbxReq) (op status detail : Nat) (async : Bool) (payload : List Byte) (t : State) : Prop where
  stored : (mailboxOf t r.mbx).stored =
    some { opcode := op, tag := r.tag, partition := r.partition, async := async, seq := r.seq, status := status,
           detail := detail, payload := payload }
  lastSeq : (mailboxOf t r.mbx).lastSeq = r.seq

/-- The request is executed and answered, and the machine is then `u` but for what answers and events show. -/
def Answers (c : Instr) (r : MbxReq) (op status detail : Nat) (async : Bool) (payload : List Byte) (u s : State) : Prop :=
  ∃ t, exec c s = .next t ∧ Answered r op status detail async payload t ∧ Shown u t

/-! ## Submission entries -/

/-- The entry begins now, and neither R624, R106 nor the states of R99, R103 and R565 stop it before the command's own
checks. -/
structure Takes (s : State) (q : SqReq) (op : Nat) (blockLen : Option Nat) : Prop where
  begins : mayBegin s q op = true
  entry : entryCheck (takeEntry q s) q op blockLen = none

/-- The state in which the entry's own work begins: it has left its queue, and Loupe has recorded CMD_BEGIN. -/
def entryBegun (q : SqReq) (op : Nat) (s : State) : State :=
  trace 0 q.part 0 (entryTrace op q.tag q.sq 0) q.context (takeEntry q s)

/-- The entry runs and its completion goes to its CQ, and the machine is then `u` but for queues and what is shown. -/
def Completes (c : Instr) (q : SqReq) (status cond dA dB : Nat) (u s : State) : Prop :=
  ∃ v, exec c s = .next (completeSq q.part q.sq q.tag q.context q.noInt status cond dA dB v) ∧ Settled u v

/-! ## What every step keeps -/

/-- Scaler's store: it never runs ahead of the accumulator, and holds the same while Scaler does not run (R546). -/
def storeHolds (x : Scaler) : Prop := x.storedUj ≤ x.accUj ∧ (x.runs = false → x.accUj = x.storedUj)

/-- The states that runs reach, as far as statements ask: memory in canonical form (the model's own), the fixed numbers of
partitions, mailboxes and tally items (R65, R99, R524), leaves used inside what NEXT_LEAF has covered (R495), and Scaler's
store behind its accumulator (R546). -/
structure Sound (s : State) : Prop where
  memory : Memory.wf s.mem = true
  partitions : s.parts.length = 12
  mailboxes : s.mbx.length = 16
  items : s.hallmark.items.length = 6
  leaves : s.hallmark.leaf ≤ s.hallmark.leafEnd ∧ s.hallmark.leafEnd ≤ s.hallmark.nextLeaf
  energy : storeHolds s.scaler

/-- What no command takes back: ENERGY_TOTAL never decreases (R537), no leaf is used again (R494, R495), a budget is never
restored (R524, R526), and the tally die's count never decreases (R491). -/
structure Onward (s t : State) : Prop where
  energy : s.scaler.accUj ≤ t.scaler.accUj
  leaves : s.hallmark.nextLeaf ≤ t.hallmark.nextLeaf
  budgets : ∀ i, (tallyItem t i).remaining ≤ (tallyItem s i).remaining
  writes : s.hallmark.tallyWrites ≤ t.hallmark.tallyWrites

end Sys2Proof.Safety
end

