-- ==== Sys2Proof/Certificates/Slice0/Obligations.lean ====
section
/-! DEFINITION. Sys2Proof/Certificates/Slice0/Obligations.lean: the statements for the provers. -/
open Sys2Proof Sys2Proof.Machine Sys2Proof.Safety

/-- For every command c, rest of the queue and state s, a step of s with c at the front of its queue is exec of c on s with the queue's rest. -/
def Obligations.StepRunsFrontCommand : Prop :=
  ∀ (c : Instr) (rest : List Instr) (s : State), step { s with pending := c :: rest } = exec c { s with pending := rest }

/-- The model's choice of log entry 1: with no command waiting, a step adds one microsecond to the device time of a running device and changes nothing of a device in reset or without power; commands, partitions' objects, tally items and the meter are as before. -/
def Obligations.EmptyQueueStepIsOneMicrosecond : Prop :=
  ∀ s : State, s.pending = [] →
    ∃ t, step s = .next t ∧ (s.power.phase ≠ .running → t = s) ∧
      (s.power.phase = .running → t.time = s.time + 1 ∧ t.pending = [] ∧ t.mem = s.mem ∧ t.hallmark = s.hallmark ∧
        t.scaler = s.scaler ∧ t.issued = s.issued ∧ ∀ p, (part t p).colls = (part s p).colls ∧ (part t p).objs = (part s p).objs)

/-- When a mailbox that serves a path holds the stored response of the message whose SEQUENCE equals LAST_SEQ, a request with that SEQUENCE changes nothing inside the device: the stored response and LAST_SEQ stay, on the BAR path DONE is set again, and a mailbox rung by a register write of its doorbell is no longer busy; and so for whichever mailbox command it carries. -/
def Obligations.ReplayAnswersAgain : Prop :=
  ∀ (r : MbxReq) (op : Nat) (item : Option Nat) (step5 : Option (Nat × Nat)) (body : State → MRes) (s : State) (rep : Reply),
    firmwareRuns s = true → pathServes s r = true → (mailboxOf s r.mbx).ready = true →
    (mailboxOf s r.mbx).busy = decide (r.path = .rung) →
    ¬(r.path = .bar ∧ (mailboxOf s r.mbx).done = true) → (mailboxOf s r.mbx).stored = some rep →
    (mailboxOf s r.mbx).lastSeq = r.seq →
    ∃ t, mailboxFull r op item step5 body s = t ∧ Shown s t ∧ (mailboxOf t r.mbx).stored = some rep ∧
      (mailboxOf t r.mbx).lastSeq = r.seq ∧ (r.path = .bar ∨ r.path = .rung → (mailboxOf t r.mbx).done = true) ∧
      (mailboxOf t r.mbx).busy = false

/-- A BAR request to a mailbox of a device out of reset whose READY is 0, or which is busy, or whose DONE is 1, changes only that mailbox's OVERRUN, whichever mailbox command it carries. A command that arrives waits behind all that wait, but a message of mailbox 12 or 13 stands ahead of every waiting message of mailboxes 0 to 11 and behind everything before the first of them; the order of the others does not change, and nothing else of the machine. -/
def Obligations.UnservedDoorbellSetsOverrun : Prop :=
  (∀ (r : MbxReq) (op : Nat) (item : Option Nat) (step5 : Option (Nat × Nat)) (body : State → MRes) (s : State),
    r.path = .bar → pathServes s r = true → s.power.phase = .running →
    ((mailboxOf s r.mbx).ready = false ∨ (mailboxOf s r.mbx).busy = true ∨ (mailboxOf s r.mbx).done = true) →
    mailboxFull r op item step5 body s = onMailbox r.mbx (fun b => { b with overrun := true }) s) ∧
  (∀ (c : Instr) (s : State), ∃ before behind, s.pending = before ++ behind ∧
    s.post c = { s with pending := before ++ c :: behind } ∧
    ((messageOf c = some 12 ∨ messageOf c = some 13) → (∀ x ∈ before, ∀ k, messageOf x = some k → 12 ≤ k) ∧
      ∀ x ∈ behind.head?, ∃ k, messageOf x = some k ∧ k < 12) ∧
    (messageOf c ≠ some 12 → messageOf c ≠ some 13 → behind = []))

/-- An executed request whose LENGTH is above 4,096 is answered INVALID_LENGTH at 8; else, whose opcode is not defined, INVALID_OPCODE at 0; else, whose opcode the mailbox does not carry, NOT_PERMITTED at 0; and each leaves the machine as it was but for the answer. -/
def Obligations.HeaderChecksAnswerInOrder : Prop :=
  ∀ (r : MbxReq) (op : Nat) (item : Option Nat) (step5 : Option (Nat × Nat)) (body : State → MRes) (s : State),
    executes s r = true →
    (4096 < r.length → Answered r op St.invalidLength 8 false [] (mailboxFull r op item step5 body s) ∧
      Shown s (mailboxFull r op item step5 body s)) ∧
    (r.length ≤ 4096 → carried op = none → Answered r op St.invalidOpcode 0 false [] (mailboxFull r op item step5 body s) ∧
      Shown s (mailboxFull r op item step5 body s)) ∧
    (∀ c, r.length ≤ 4096 → carried op = some c → (c.queue = true ∨ c.fromMailbox r.mbx = false) →
      Answered r op St.notPermitted 0 false [] (mailboxFull r op item step5 body s) ∧
      Shown s (mailboxFull r op item step5 body s))

/-- A mailbox request or submission entry that passes its form checks while NEEDS_FULL_RESET holds completes with NEEDS_FULL_RESET and has no effect, unless its opcode is one of DEV_IDENTIFY, DEV_STATUS, DEV_LOG_READ, DEV_FULL_RESET or 0x0Bxx. -/
def Obligations.NeedsFullResetStopsCommands : Prop :=
  ∀ (s : State) (op : Nat), s.power.needsReset = true →
    op ≠ 0x0101 → op ≠ 0x0102 → op ≠ 0x0106 → op ≠ 0x0103 → op / 256 ≠ 0x0B →
    (∀ (r : MbxReq) item step5 body, executes s r = true → headerCheck s r op item step5 = none →
      Answered r op St.needsFullReset 0 false [] (mailboxFull r op item step5 body s) ∧
      Shown s (mailboxFull r op item step5 body s)) ∧
    (∀ (q : SqReq) bl body, mayBegin s q op = true → q.indirect = bl.isSome →
      (q.indirect = true → q.paramAddr % 64 = 0 ∧ 1 ≤ q.paramLen ∧ q.paramLen ≤ 4096 ∧ some q.paramLen = bl) →
      (∀ c, carried op = some c → c.queue = true) → carried op ≠ none →
      queueFull q op bl body s =
        completeSq q.part q.sq q.tag q.context q.noInt St.needsFullReset 0 0 0 (takeEntry q s))

/-- A command's completion goes to the CQ its SQ is bound to: discarded when that CQ is in error; held back, with nothing written, while it is full or holds others; else the entry leaves, as its 32 bytes, for the next slot of the ring with the present PHASE, echoing TAG, CONTEXT, SQ_ID and SQ_HEAD, and the slot, the count of entries and PHASE advance. All else is as before. -/
def Obligations.CompletionIsWrittenHeldOrDiscarded : Prop :=
  ∀ (p sq tag ctx st cond a b : Nat) (ni : Bool) (s : State) (q : Sq) (c : Cq),
    p < s.parts.length → findSq (part s p) sq = some q → findCq (part s p) q.cqId = some c →
    let e : CqEntry := { tag := tag, status := st, sqId := sq, sqHead := q.head, context := ctx, conditions := cond,
                         detailA := a, detailB := b }
    let t := completeSq p sq tag ctx ni st cond a b s
    Settled s t ∧
    (c.error = true → t = s) ∧
    (c.error = false → c.entries ≤ c.used → t.issued = s.issued ∧
      findCq (part t p) q.cqId = some { c with held := c.held ++ [(ni, e)] }) ∧
    (c.error = false → c.used < c.entries → c.held = [] → s.landing.linkActive = true → landingBlocked s (1 + p) = false →
      t.issued.take (s.issued.length + 1) = s.issued ++ [Out.completion p c.id c.slot (ringSlot c.base c.slot) (completionBytes c.phase e)] ∧
      ∃ n, findCq (part t p) q.cqId = some { c.advance with unsignalled := n })

/-- An admitted DEV_IDENTIFY, DEV_STATUS or DEV_LOG_READ completes: the response carries OK and the identity, the status (coarsened for a partition mailbox) or the log entries from START_SEQ onward, and nothing but the answer changes. -/
def Obligations.DeviceQueriesAnswer : Prop :=
  ∀ (s : State) (r : MbxReq),
    (Admits s r Op.devIdentify none (lengthIn r [0]) →
      Answers (.devIdentify r) r Op.devIdentify St.ok 0 false (identifyBytes s) s s) ∧
    (Admits s r Op.devStatus none (lengthIn r [0]) →
      Answers (.devStatus r) r Op.devStatus St.ok 0 false (statusBytes s (decide (r.mbx < 12))) s s) ∧
    (∀ first n, Admits s r Op.devLogRead none (lengthIn r [8]) → 1 ≤ n → n ≤ 127 →
      Answers (.devLogRead r first n) r Op.devLogRead St.ok 0 false (readRing LogEntry.seq logBytes s.log s.logSeq first n) s s)

/-- An admitted DEV_SET_POWER fails with the first field out of range, or with WRONG_STATE where shard hold may not be entered, be it at SERVICE_LEVEL 0, or answers OK with its set active and the state change made: ACTIVE again, or shard hold with queries and model runs cancelled, the journal flushed and SRAM lost; an admitted DEV_CRUISE with fields in range sets the four parameters, 0 taking the default, and is accepted, MODE 0 with its COMMAND_DONE due and MODE 1 with a run due, which is that in progress where one is; a MODE that is neither is answered INVALID_FIELD at 32. Nothing else changes. -/
def Obligations.DeviceSettingsTakeEffect : Prop :=
  ∀ (s : State) (r : MbxReq),
    (∀ a : SetPowerArgs, executes s r = true → headerCheck s r Op.devSetPower none (lengthIn r [8]) = none → serviceLevel s = 0 →
      Answers (.devSetPower r a) r Op.devSetPower (if a.target = 2 then St.wrongState else St.notReady) 0 false [] s s) ∧
    (∀ a, Admits s r Op.devSetPower none (lengthIn r [8]) →
      let us := if a.idleAfterUs = 0 then 100 else a.idleAfterUs
      let set : Power := { s.power with idleDisable := decide (a.idleDisable = 1), idleAfterUs := us }
      (a.target ≠ 0 → a.target ≠ 2 → Answers (.devSetPower r a) r Op.devSetPower St.invalidField 32 false [] s s) ∧
      ((a.target = 0 ∨ a.target = 2) → 1 < a.idleDisable → Answers (.devSetPower r a) r Op.devSetPower St.invalidField 33 false [] s s) ∧
      ((a.target = 0 ∨ a.target = 2) → a.idleDisable ≤ 1 → (us < 10 ∨ 10000 < us) →
        Answers (.devSetPower r a) r Op.devSetPower St.invalidField 34 false [] s s) ∧
      (a.target = 2 → a.idleDisable ≤ 1 → 10 ≤ us → us ≤ 10000 → s.power.state = .d3hot →
        Answers (.devSetPower r a) r Op.devSetPower St.wrongState 0 false [] s s) ∧
      (a.idleDisable ≤ 1 → 10 ≤ us → us ≤ 10000 →
        (a.target = 0 → Answers (.devSetPower r a) r Op.devSetPower St.ok 0 false []
          { s with power :=
            if s.power.state = .shardHold then { set with state := .active }
            else if a.idleDisable = 1 ∧ s.power.state = .idle then { set with state := .active, gated := [] } else set } s) ∧
        (a.target = 2 → s.power.state ≠ .d3hot →
          (s.power.state = .shardHold → Answers (.devSetPower r a) r Op.devSetPower St.ok 0 false [] { s with power := set } s) ∧
          (s.power.state ≠ .shardHold → ∃ u, Answers (.devSetPower r a) r Op.devSetPower St.ok 0 false [] u s ∧
            u.power.state = .shardHold ∧ u.power.idleDisable = decide (a.idleDisable = 1) ∧ u.power.idleAfterUs = us ∧
            u.deck.journal = 0 ∧ (∀ x ∈ u.runs, x.started = false ∧ ∃ freeze, x.use = .calibrate freeze) ∧
            (∀ p, p < 12 → ∀ x ∈ (part u p).running, isHoldCancelled x = false) ∧
            (∀ y, sramBase ≤ y → y < hbmBase → cellsRead u.mem y = 0) ∧
            ∀ y, hbmBase ≤ y → cellsRead u.mem y = cellsRead s.mem y)))) ∧
    (∀ a, Admits s r Op.devCruise none (lengthIn r [32]) → a.mode ≠ 0 →
      Answers (.devCruise r a) r Op.devCruise St.invalidField 32 false [] s s) ∧
    (∀ a, Admits s r Op.devCruise none (lengthIn r [32]) → a.mode = 0 →
      (a.targetSlackPs = 0 ∨ 40 ≤ a.targetSlackPs ∧ a.targetSlackPs ≤ 200) → (a.excursionC = 0 ∨ 5 ≤ a.excursionC ∧ a.excursionC ≤ 40) →
      (a.vCeil = 0 ∨ 700 ≤ a.vCeil ∧ a.vCeil ≤ 800) → (a.spreadLimit = 0 ∨ 50 ≤ a.spreadLimit ∧ a.spreadLimit ≤ 2000) →
      let set : Cruise := { s.cruise with
        targetSlackPs := if a.targetSlackPs = 0 then 80 else a.targetSlackPs, excursionC := if a.excursionC = 0 then 15 else a.excursionC
        vCeil := if a.vCeil = 0 then 800 else a.vCeil, spreadLimit := if a.spreadLimit = 0 then 400 else a.spreadLimit }
      Answers (.devCruise r a) r Op.devCruise St.ok 0 true []
        { s with
          cruise := set
          jobs := s.jobs ++ [{ dest := doneDest r, opcode := Op.devCruise, tag := r.tag, partition := r.partition, status := St.ok,
                               detail := newestSeq s, action := .nothing }] } s ∧
      Answers (.devCruiseRun r a) r Op.devCruise St.ok 0 true []
        { s with cruise := { set with
          running := true, startCause := if s.cruise.running then s.cruise.startCause else some 2
          doneTags := s.cruise.doneTags ++ [(r.tag, r.partition)] } } s)

/-- An admitted DEV_FULL_RESET without FORMAT_FLASH, and one with it while every partition is FREE, answers OK and then the device enters a full reset, held until release; FORMAT_FLASH is kept for the next bring-up. With a partition that is not FREE, FORMAT_FLASH completes with WRONG_STATE and no reset follows. -/
def Obligations.FullResetCommandsAnswerFirst : Prop :=
  ∀ (s : State) (r : MbxReq) (dump : Bool),
    (Admits s r Op.devFullReset none (lengthIn r [0, 8]) →
      ∃ t, Answered r Op.devFullReset St.ok 0 false [] t ∧ Shown s t ∧
        exec (.devFullReset r dump) s = .next (fullResetEntry dump t) ∧ (fullResetEntry dump t).power.phase = .held) ∧
    (Admits s r Op.devFullReset none (lengthIn r [8]) → (∀ x ∈ s.parts, x.state = .free) →
      ∃ t, Answered r Op.devFullReset St.ok 0 false [] t ∧ Shown s t ∧
        exec (.devFullResetFormatFlash r dump) s =
          .next { fullResetEntry dump t with power := { (fullResetEntry dump t).power with formatFlash := true } }) ∧
    (Admits s r Op.devFullReset none (lengthIn r [8]) → (∃ x ∈ s.parts, x.state ≠ .free) →
      Answers (.devFullResetFormatFlash r dump) r Op.devFullReset St.wrongState 0 false [] s s)

/-- Entering a full reset, a running device is held; every mailbox, LAST_SEQ included, session, event, log entry and Loupe record goes; caps are 32 and shapers default; every partition loses its keys, queues, QPs, streams and running work, keeps salt, collections' numbers and host objects, and is in KEYS_PENDING if it was created; tally items, audit log, NEXT_LEAF, ledger, firmware slots, flash images, the device id and Scaler are as they were. -/
def Obligations.FullResetKeepsAndClears : Prop :=
  ∀ (s : State) (dump : Bool), s.power.phase = .running →
    let t := fullResetEntry dump s
    t.power.phase = .held ∧ (∀ m, m < 16 → mailboxOf t m = {} ∧ (mailboxOf t m).lastSeq = 0xFFFFFFFF) ∧ t.sessions = [] ∧ t.log = [] ∧
    t.loupe.ring = [] ∧ t.jobs = [] ∧ t.runs = [] ∧ (∀ k, k < 8 → (stackOf t k).opActive = 32) ∧ t.choker = {} ∧
    t.landing.intEnable = 0 ∧ t.landing.bar2Code = 0 ∧ t.parts.length = s.parts.length ∧
    (∀ p, p < s.parts.length →
      (part t p).root = none ∧ (part t p).privHeld = false ∧ (part t p).sqs = [] ∧ (part t p).cqs = [] ∧ (part t p).eq = none ∧
      (part t p).qps = [] ∧ (part t p).streams = [] ∧ (part t p).running = [] ∧ (part t p).salt = (part s p).salt ∧
      (part t p).keyGen = (part s p).keyGen ∧ (part t p).objs = (part s p).objs ∧
      (part t p).colls.map Coll.num = (part s p).colls.map Coll.num ∧
      ((part s p).state = .active ∨ (part s p).state = .keysPending → (part t p).state = .keysPending) ∧
      ((part s p).state = .free → (part t p).state = .free) ∧ ((part s p).state = .releasing → (part t p).state = .releasing)) ∧
    t.hallmark.items = s.hallmark.items ∧ t.hallmark.audit = s.hallmark.audit ∧ t.hallmark.nextLeaf = s.hallmark.nextLeaf ∧
    t.hallmark.slotA = s.hallmark.slotA ∧ t.hallmark.slotB = s.hallmark.slotB ∧ t.hallmark.preferB = s.hallmark.preferB ∧
    t.cruise.ledger = s.cruise.ledger ∧ t.cruise.targetSlackPs = s.cruise.targetSlackPs ∧ t.deck.images = s.deck.images ∧
    t.fabric.deviceId = s.fabric.deviceId ∧ t.fabric.racks = s.fabric.racks ∧ t.scaler = s.scaler

/-- On a running device FULLRST_N held low for 200 ns, PERST#, the sideband reset request, the fall of the 48 V input, THERMTRIP_N at 115 °C, loss of AUX3V3 and loss of REF25M enter the full reset at once, each with its own latch, pin or supply set; the return of the 48 V input to a device held in reset only restores the supply. -/
def Obligations.ResetTriggersAct : Prop :=
  ∀ (s : State), s.power.phase = .running →
    (∀ ns d, 200 ≤ ns → exec (.fullrstNAssert ns d) s =
      .next { fullResetEntry d s with power := { (fullResetEntry d s).power with fullrstLow := true } }) ∧
    (∀ d, exec (.perstAssert d) s = .next { fullResetEntry d s with power := { (fullResetEntry d s).power with perst := true } }) ∧
    (∀ d, exec (.rstactFullReset d) s = .next (fullResetEntry d s)) ∧
    (∀ d, s.power.p48v = true → exec (.p48vFall d) s =
      .next { fullResetEntry d s with power := { (fullResetEntry d s).power with p48v := false, hbmKept := false } }) ∧
    (∀ c, s.power.p48v = true → 115 ≤ c → exec (.thermtrip c) s =
      .next { fullResetEntry false s with power := { (fullResetEntry false s).power with hottest := c, thermtrip := true, hbmKept := false } }) ∧
    (∃ t d, exec .aux3v3Loss s = .next t ∧ t.power.phase = .auxOff ∧ t.hallmark.seed = false ∧ t.power.hbmKept = false ∧
      t.parts = (fullResetEntry d s).parts ∧ t.scaler = s.scaler) ∧
    (∃ t d, exec (.referenceClockLoss 0 false) s = .next t ∧ t.power.phase = .held ∧ t.power.refclk = s.power.refclk.set 0 false ∧
      t.parts = (fullResetEntry d s).parts ∧ t.scaler = s.scaler) ∧
    (∀ u : State, u.power.phase = .held → u.power.p48v = false → 90 ≤ u.power.hottest →
      exec .p48vReturn u = .next { u with power := { u.power with p48v := true } })

/-- RESET_RELEASE on a held device with the 48 V input, REF25M and no THERMTRIP_N latch, whose seed is present, whose preferred firmware slot verifies and meets the floor and whose Deck can serve, answers a device that runs at SERVICE_LEVEL 2 with device time 0 and mailboxes 12 to 15 READY; COLD_POWER_ON of an unpowered device only ends the power-on reset and samples ETH_MODE. -/
def Obligations.BringUpReachesFullService : Prop :=
  (∀ (s : State) (b : BringUp), s.power.phase = .held → s.power.p48v = true → s.power.thermtrip = false →
      s.power.refclk.getD 0 false = true → (s.hallmark.seed = true ∨ b.seedOk = true) →
      (if s.hallmark.preferB then b.slotBOk else b.slotAOk) = true →
      fwFloor s ≤ (if s.hallmark.preferB then s.hallmark.slotB.security else s.hallmark.slotA.security) →
      populationOk b.luns = true → b.metadataOk = true → s.mbx.length = 16 → s.parts.length = 12 →
      ∃ t, exec (.resetRelease b) s = .next t ∧ t.power.phase = .running ∧ t.power.level = 2 ∧ t.time = 0 ∧ t.deck.inService = true ∧
        t.hallmark.runB = s.hallmark.preferB ∧ t.hallmark.items = s.hallmark.items ∧ t.scaler = s.scaler ∧
        (∀ m, 12 ≤ m → m < 16 → (mailboxOf t m).ready = true)) ∧
  (∀ (s : State) (sgmii : Bool), s.power.phase = .auxOff →
      exec (.coldPowerOn sgmii) s = .next { s with power := { s.power with phase := .held, ethSgmii := sgmii } })

/-- On expiry of Ranger's watchdog FW_FAULT is set, READY is cleared in every mailbox and ALERT_N is asserted, and from then on no mailbox request or submission entry is executed; a block found wedged sets NEEDS_FULL_RESET, SERVICE_LEVEL 3 and ALERT_N and sends its event. -/
def Obligations.WatchdogAndWedgedBlocks : Prop :=
  ∀ (s : State), firmwareRuns s = true →
    (∃ t, exec .rangerWatchdogExpiry s = .next t ∧ t.power.fwFault = true ∧ (∀ b ∈ t.mbx, b.ready = false) ∧ alert t = true ∧
      t.mbx.length = s.mbx.length ∧ t.parts = s.parts ∧
      (∀ r, executes t r = false) ∧ (∀ q op, mayBegin t q op = false)) ∧
    (∀ block, block ≤ 12 → s.power.needsReset = false →
      ∃ t, exec (.wedgedBlock block) s = .next t ∧ Shown { s with power := { s.power with needsReset := true } } t ∧
        serviceLevel t = 3 ∧ alert t = true)

/-- At 95 °C ALERT_N is asserted and a first THERMAL step sends its event; at 100 °C every stack's effective cap is at most 16 until the junction is below 95 °C; above 800 W it is at most 16 until input power is below 760 W. -/
def Obligations.HeatAndPowerLimits : Prop :=
  ∀ (s : State), firmwareRuns s = true →
    (∀ c, 95 ≤ c → s.power.thermalStep = 0 →
      ∃ t, exec (.tempAlert c) s = .next t ∧ alert t = true ∧
        Shown { s with power := { s.power with hottest := c, thermalStep := c - (c - 95) % 5 } } t) ∧
    (∀ c, 100 ≤ c → ∃ t, exec (.tempLimit c) s = .next t ∧
      t = { s with power := { s.power with hottest := c, thermalLimit := true } } ∧ ∀ k, effectiveCap t k ≤ 16) ∧
    (∀ c, c < 95 → ∃ t, exec (.tempLimitLift c) s = .next t ∧
      t = { s with power := { s.power with hottest := c, thermalStep := 0, thermalLimit := false } } ∧
      (s.power.powerLimit = false → ∀ k, effectiveCap t k = min 32 (min k.opActive k.cruiseActive))) ∧
    (∀ w, 800 < w → ∃ t, exec (.powerLimit w) s = .next t ∧
      t = { s with power := { s.power with inputPower := w, powerLimit := true } } ∧ ∀ k, effectiveCap t k ≤ 16) ∧
    (∀ w, w < 760 → exec (.powerLimitLift w) s = .next { s with power := { s.power with inputPower := w, powerLimit := false } })

/-- IDLE_GATE of a compute block without work, allowed and not yet gated, gates it, and POWER_STATE is clock-gated idle once all four are gated; IDLE_WAKE takes the block out, and the device is active again when it was idle; nothing else changes. -/
def Obligations.ClockGatedIdle : Prop :=
  (∀ (s : State) (block : Nat), s.power.phase = .running → s.power.state = .active → s.power.idleDisable = false →
      block ∈ [5, 6, 7, 8] → block ∉ s.power.gated → noWork s block = true →
      ∃ t, exec (.idleGate block) s = .next t ∧ t = { s with power := { s.power with gated := s.power.gated ++ [block], state := t.power.state } } ∧
        ((∀ b ∈ [5, 6, 7, 8], b ∈ s.power.gated ∨ b = block) → t.power.state = .idle) ∧
        ((∃ b ∈ [5, 6, 7, 8], b ∉ s.power.gated ∧ b ≠ block) → t.power.state = .active)) ∧
  (∀ (s : State) (block : Nat), s.power.phase = .running → s.power.state = .idle → block ∈ [5, 6, 7, 8] →
      exec (.idleWake block) s =
        .next { s with power := { s.power with state := .active, gated := s.power.gated.filter (fun b => b ≠ block) } })

/-- PART_CREATE of a FREE partition that the layout enables, with the credential root set, puts it in KEYS_PENDING with KEY_GENERATION 1, answers generation and public key, and makes its mailbox READY. PART_KEY_LOAD with a root that unwraps and matches an existing check value makes it ACTIVE with that root; a root that does not unwrap, or does not match, only counts a failure. PART_RELEASE puts it in RELEASING. The scrub of a releasing partition whose queues and commands have ended leaves it FREE without keys, salt, objects or collections. -/
def Obligations.PartitionLifeCycle : Prop :=
  ∀ (s : State) (r : MbxReq),
    (Admits s r Op.partCreate none (lengthIn r [8]) → r.partition < s.parts.length → (part s r.partition).state = .free →
      enabledIn (layoutValue s) r.partition = true → rootSet s = true →
      ∃ t, exec (.partCreate r) s = .next t ∧ (part t r.partition).state = .keysPending ∧ (part t r.partition).keyGen = 1 ∧
        (part t r.partition).privHeld = true ∧ (part t r.partition).salt = Config.drbg s.hallmark.draws ∧
        (part t r.partition).pub = Config.x25519Pub (Config.drbg (s.hallmark.draws + 1)) ∧
        Answered r Op.partCreate St.ok 0 false (le 4 1 ++ zeros 4 ++ fitBytes 32 (part t r.partition).pub) t ∧
        t.hallmark.tallyWrites = s.hallmark.tallyWrites + 1 ∧ t.hallmark.items = s.hallmark.items) ∧
    (∀ a k, Admits s r Op.partKeyLoad none (lengthIn r [96]) → r.partition < s.parts.length →
      (part s r.partition).state = .keysPending → unwrapRoot r.partition (part s r.partition) a = some k →
      ((part s r.partition).check = none ∨ (part s r.partition).check = some (checkValue (part s r.partition) k)) →
      ∃ t, exec (.partKeyLoad r a) s = .next t ∧ (part t r.partition).state = .active ∧ (part t r.partition).root = some k ∧
        (part t r.partition).privHeld = false ∧ (part t r.partition).check = some (checkValue (part s r.partition) k) ∧
        t.hallmark.keyLoads = s.hallmark.keyLoads + 1) ∧
    (∀ a, Admits s r Op.partKeyLoad none (lengthIn r [96]) → (part s r.partition).state = .keysPending →
      let u : State := { s with hallmark := { s.hallmark with keyFailures := s.hallmark.keyFailures + 1 } }
      (unwrapRoot r.partition (part s r.partition) a = none →
        Answers (.partKeyLoad r a) r Op.partKeyLoad St.keyUnwrapFailed 0 false [] u s) ∧
      (∀ k c, unwrapRoot r.partition (part s r.partition) a = some k → (part s r.partition).check = some c →
        c ≠ checkValue (part s r.partition) k → Answers (.partKeyLoad r a) r Op.partKeyLoad St.keyMismatch 0 false [] u s)) ∧
    (Admits s r Op.partRelease none (lengthIn r [8]) → r.partition < s.parts.length →
      ((part s r.partition).state = .active ∨ (part s r.partition).state = .keysPending) →
      ∃ t, exec (.partRelease r) s = .next t ∧ (part t r.partition).state = .releasing ∧ (part t r.partition).releaseTag = r.tag ∧
        (part t r.partition).streams = [] ∧ Answered r Op.partRelease St.ok 0 true [] t) ∧
    (∀ p, firmwareRuns s = true → p < s.parts.length → s.deck.inService = true → (part s p).state = .releasing → (part s p).sqs = [] →
      (part s p).running = [] →
      ∃ t, exec (.partitionReleaseScrub p) s = .next t ∧ part t p = { share := (part s p).share } ∧
        (∀ i ∈ t.deck.images, i.part ≠ p) ∧ (∀ b ∈ t.deck.buffer, b.part ≠ p) ∧ (∀ u ∈ t.skidder.units, u.part ≠ p) ∧
        (∀ x ∈ rangesOf s p, ∀ i, i < x.size → cellsRead t.mem (x.base + i) = 0))

/-- An admitted PART_QUEUE_CREATE whose checks of R84 all pass answers OK with the queue of its TYPE in the partition; PART_QUEUE_DELETE of a CQ to which no SQ is bound removes it at once; of an SQ it is accepted, the SQ keeps its id with the deletion noted and nothing fetched, and once its commands have ended SQ_DELETE_DONE frees the id. COMMAND_DONE takes the oldest accepted job of its opcode and tag off the list. -/
def Obligations.QueuesAreCreatedAndDeleted : Prop :=
  ∀ (s : State) (r : MbxReq), r.partition < s.parts.length →
    (∀ a, Admits s r Op.partQueueCreate none (lengthIn r [32]) →
      firstFail (queueFieldChecks a ++ queueStateChecks (part s r.partition) a) = none → a.typ ≤ 1 →
      ∃ t, exec (.partQueueCreate r a) s = .next t ∧ Answered r Op.partQueueCreate St.ok 0 false [] t ∧
        (a.typ = 0 → (part t r.partition).sqs = (part s r.partition).sqs ++
          [{ id := a.queueId, entries := a.entries, base := a.base, cqId := a.cqId, weight := a.weight }]) ∧
        (a.typ = 1 → (part t r.partition).cqs = (part s r.partition).cqs ++
          [{ id := a.queueId, entries := a.entries, base := a.base, vector := a.vector,
             coalesceCount := if a.coalesceCount = 0 then 1 else a.coalesceCount, coalesceUs := a.coalesceUs }])) ∧
    (∀ id c, Admits s r Op.partQueueDelete none (lengthIn r [8]) → id ≤ 63 → findCq (part s r.partition) id = some c →
      (∀ q ∈ (part s r.partition).sqs, q.cqId ≠ id) →
      Answers (.partQueueDelete r 1 id) r Op.partQueueDelete St.ok 0 false []
        (onPart r.partition (fun t => { t with cqs := t.cqs.filter (fun c => c.id ≠ id) }) s) s) ∧
    (∀ id q, Admits s r Op.partQueueDelete none (lengthIn r [8]) → id ≤ 63 → findSq (part s r.partition) id = some q →
      q.deleting = none →
      ∃ t q', exec (.partQueueDelete r 0 id) s = .next t ∧ Answered r Op.partQueueDelete St.ok 0 true [] t ∧
        findSq (part t r.partition) id = some q' ∧ q'.deleting = some r.tag ∧ q'.fetched = []) ∧
    (∀ id q tag, firmwareRuns s = true → findSq (part s r.partition) id = some q → q.deleting = some tag →
      (part s r.partition).state = .active → sqEnded (part s r.partition) q = true →
      ∃ t, exec (.sqDeleteDone r.partition id) s = .next t ∧ findSq (part t r.partition) id = none ∧
        Shown (onPart r.partition (fun t => { t with sqs := t.sqs.filter (fun y => y.id ≠ id) }) s) t) ∧
    (∀ op tag (j : AsyncJob), firmwareRuns s = true → s.jobs.find? (fun j => j.opcode = op && j.tag = tag) = some j →
      j.action = .nothing → ∃ t, exec (.commandDone op tag) s = .next t ∧ Shown { s with jobs := s.jobs.erase j } t)

/-- Each doorbell register takes the value written. A TAIL inside the ring is the SQ's TAIL; a TAIL of ENTRIES or more puts the SQ in error. A HEAD that consumes only written entries frees their slots on the CQ or event queue; a HEAD beyond puts the queue in error. A queue in error only takes the value. The coalescing timer of a CQ with unsignalled completions signals them. -/
def Obligations.DoorbellsMoveTheQueues : Prop :=
  ∀ (s : State) (p : Nat), p < s.parts.length → hostReaches s (1 + p) = true →
    (∀ (a : TailArgs) q, a.part = p → findSq (part s p) a.queue = some q → q.error = false → a.fetched = [] →
      (a.value % 65536 < q.entries → exec (.sqTailDoorbell a) s =
        .next (onPart p (fun t => t.onSq q.id (fun x => { x with tail := a.value % 65536 })) s)) ∧
      (q.entries ≤ a.value % 65536 → ∃ t, exec (.sqTailDoorbell a) s = .next t ∧
        Shown (onPart p (fun t => t.onSq q.id (fun x => { x with tail := a.value % 65536, error := true })) s) t)) ∧
    (∀ (a : TailArgs) q, a.part = p → findSq (part s p) a.queue = some q → q.error = true → exec (.sqTailDoorbell a) s =
      .next (onPart p (fun t => t.onSq q.id (fun x => { x with tail := a.value % 65536 })) s)) ∧
    (∀ (a : HeadArgs) c, a.part = p → findCq (part s p) a.queue = some c → c.error = false → c.held = [] → a.fetched = [] →
      let v := a.value % 65536
      (v < c.entries → consumed c.entries c.used c.head v ≤ c.used → exec (.cqHeadDoorbell a) s =
        .next (onPart p (fun t => t.onCq c.id (fun x => { x with head := v, used := x.used - consumed c.entries c.used c.head v })) s)) ∧
      ((c.entries ≤ v ∨ c.used < consumed c.entries c.used c.head v) → ∃ t, exec (.cqHeadDoorbell a) s = .next t ∧
        Shown (onPart p (fun t => t.onCq c.id (fun x => { x with head := v, error := true, held := [] })) s) t)) ∧
    (∀ (a : HeadArgs) c, a.part = p → findCq (part s p) a.queue = some c → c.error = true → exec (.cqHeadDoorbell a) s =
      .next (onPart p (fun t => t.onCq c.id (fun x => { x with head := a.value % 65536 })) s)) ∧
    (∀ (a : HeadArgs) q, a.part = p → (part s p).eq = some q → q.error = false → (destOf s (.part p)).held = [] →
      a.value % 65536 < q.entries → consumed q.entries q.used q.head (a.value % 65536) ≤ q.used →
      exec (.eqHeadDoorbell a) s = .next (onPart p (fun t => { t with eq := some { q with
        head := a.value % 65536, used := q.used - consumed q.entries q.used q.head (a.value % 65536) } }) s)) ∧
    (∀ (a : HeadArgs) q, a.part = p → (part s p).eq = some q → q.error = false →
      (q.entries ≤ a.value % 65536 ∨ q.used < consumed q.entries q.used q.head (a.value % 65536)) →
      ∃ t, exec (.eqHeadDoorbell a) s = .next t ∧
        Shown (onPart p (fun t => { t with eq := some { q with head := a.value % 65536, error := true } }) s) t) ∧
    (∀ id c, findCq (part s p) id = some c → c.coalesceUs ≠ 0 → c.unsignalled ≠ 0 →
      ∃ t, exec (.cqCoalesceTimer p id) s = .next t ∧
        Shown (onPart p (fun t => t.onCq id (fun x => { x with unsignalled := 0 })) s) t)

/-- An executed mailbox request with an undefined opcode and a LENGTH of 4,096 or less is answered INVALID_OPCODE, and one with a queue-borne opcode NOT_PERMITTED; a submission entry with an undefined opcode completes with INVALID_OPCODE, and one with a mailbox opcode with NOT_PERMITTED. -/
def Obligations.UndefinedOpcodesAreRefused : Prop :=
  ∀ (s : State) (op : Nat),
    (∀ (r : MbxReq), executes s r = true → r.length ≤ 4096 →
      (carried op = none → Answers (.undefinedOpcode (.mailbox r) op) r op St.invalidOpcode 0 false [] s s) ∧
      (∀ c, carried op = some c → c.queue = true → Answers (.undefinedOpcode (.mailbox r) op) r op St.notPermitted 0 false [] s s)) ∧
    (∀ (q : SqReq), mayBegin s q op = true → q.indirect = false →
      (carried op = none → Completes (.undefinedOpcode (.queue q) op) q St.invalidOpcode 0 0 0 s s) ∧
      (∀ c, carried op = some c → c.queue = false → Completes (.undefinedOpcode (.queue q) op) q St.notPermitted 0 0 0 s s))

/-- An admitted COLL_CREATE that fails a check of R118 answers with the first one; else it adds the empty collection with the default configuration, its seed the given one or, for 0, a free one (log entry 22). COLL_CONFIG replaces the whole set and tells the replicas; COLL_STATS answers 128 bytes and changes nothing, for a replica shard too; COLL_DROP is accepted, the number stops resolving, its running queries end, and other collections stay where no add waits on a row lock of the dropped one. An unknown number answers NO_SUCH_COLLECTION, a replica shard WRONG_STATE with its primary. -/
def Obligations.CollectionsAreCreatedConfiguredAndDropped : Prop :=
  ∀ (s : State) (r : MbxReq), r.partition < s.parts.length →
    (∀ (a : CollCreateArgs) (base : Nat), Admits s r Op.collCreate none (createLength r a) →
      let seed := if a.seed = 0 then Config.seedChoice s.freeCount % 2 ^ 64 else a.seed
      let cents := createCentroids a seed
      let c := newColl a seed base (ownId s) (cents.map (fun x => x.getD []))
      let checks := createFields a ++ [(decide (a.centroidAddr % 64 ≠ 0), St.invalidAddress, 56),
        ((findColl s r.partition a.coll).isSome, St.collectionExists, 0),
        ((decide (a.kind = 0) || a.pooled) && s.fabric.deviceId.isNone, St.wrongState, 0)] ++
        createEntries (ownId s) a ++ [(decide (16384 ≤ collCount s), St.collectionLimit, 0)]
      (∀ e, firstFail checks = some e → Answers (.collCreate r a) r Op.collCreate e.1 e.2 false [] s s) ∧
      (firstFail checks = none → firstBad cents = none →
        (if a.kind = 1 then allocObj s r.partition (tableSpan c) false = some base else base = 0) →
        (c.centroids = [] ∨ hbmRoom s r.partition (2 * a.dim * c.centroids.length) = true) →
        c.committed = 0 ∧ c.nextOrdinal = 0 ∧ c.recs = [] ∧ c.green = [] ∧ c.segs = [] ∧ c.rows = [] ∧ c.leases = [] ∧ c.cfg = {} ∧
        Answers (.collCreate r a) r Op.collCreate St.ok 0 false []
          (settlePart r.partition
            (onPart r.partition (fun t => { t with colls := t.colls ++ [c] }) (if a.seed = 0 then bumpFree s else s))) s)) ∧
    (∀ (a : CollConfigArgs) c, Admits s r Op.collConfig none (lengthIn r [32]) → findColl s r.partition a.coll = some c →
      (c.role ≠ 0 → Answers (.collConfig r a) r Op.collConfig St.wrongState c.primary false [] s s) ∧
      (c.role = 0 → firstFail (cfgChecks c a) = none →
        (a.tier ≠ 0 ∨ pinCollNeed s r.partition a.coll = 0 ∨ hbmRoom s r.partition (pinCollNeed s r.partition a.coll) = true) →
        Answers (.collConfig r a) r Op.collConfig St.ok 0 false []
          (tellIngest (r.partition, 64, 0) c (.config a)
            (retierColl r.partition a.coll a.tier (onColl r.partition a.coll (fun c => { c with cfg := cfgOf a }) s))) s)) ∧
    (∀ coll, Admits s r Op.collStats none (lengthIn r [8]) →
      (findColl s r.partition coll = none → Answers (.collStats r coll) r Op.collStats St.noSuchCollection 32 false [] s s) ∧
      (∀ c, findColl s r.partition coll = some c → (statsOf s r.partition c).length = 128 ∧
        Answers (.collStats r coll) r Op.collStats St.ok 0 false (statsOf s r.partition c) s s)) ∧
    (∀ coll c, Admits s r Op.collDrop none (lengthIn r [8]) → findColl s r.partition coll = some c →
      (c.role ≠ 0 → Answers (.collDrop r coll) r Op.collDrop St.wrongState c.primary false [] s s) ∧
      (c.role = 0 →
        ∃ t, exec (.collDrop r coll) s = .next t ∧ Answered r Op.collDrop St.ok 0 true [] t ∧ findColl t r.partition coll = none ∧
          (c.leases = [] → ∀ n, n ≠ coll → findColl t r.partition n = findColl s r.partition n) ∧
          (∀ x ∈ (part t r.partition).running, queriesOn coll x = false) ∧
          (∀ u ∈ t.skidder.units, u.part = r.partition → collUnit coll u = false) ∧ KeepsMem s t ∧ t.deck = s.deck))

/-- On a primary INDEX shard with no commit waiting, ROW_INSERT and ROW_UPSERT that pass their checks write one version per entry, in entry order, into the pending epoch, and pass it on to the replicas; without replicas they complete with OK, and with replicas they run on until each has answered. A failing check completes with its status and no effect. ROW_DELETE sets DEATH_EPOCH to the pending epoch for every id alive and reports the absent ones. INGEST_COMMIT makes the pending epoch committed and reports it, or waits for the ingest commands begun before it. A version just written is the one a lookup at the pending epoch gives, under the next ordinal, the version it replaced carries the pending epoch as DEATH_EPOCH in record and trailer, and the committed epoch stays. -/
def Obligations.IndexRowsAreIngestedAndCommitted : Prop :=
  (∀ (s : State) (q : SqReq), q.part < s.parts.length →
    (∀ (a : RowWriteArgs) c (ps : List Prep), findColl s q.part a.coll = some c → c.role = 0 → c.kind = 0 →
      ingestHeld s q.part a.coll = false →
      (∀ e, firstFail (writeChecks a) = some e → (Takes s q Op.rowInsert none → Completes (.rowInsert q a) q e.1 0 e.2 0 s s) ∧
        (Takes s q Op.rowUpsert none → Completes (.rowUpsert q a) q e.1 0 e.2 0 s s)) ∧
      (firstFail (writeChecks a) = none → (∀ r ∈ writeRowsIn a, r.id ≠ sentinel) →
        (writeRowsIn a).map (prepRow c a.inputType a.tokensPresent a.attrPresent) = ps.map some →
        let wrote := settlePart q.part (onColl q.part a.coll (fun x => ps.foldl (fun y r => putVersion (c.committed + 1) r y) x) s)
        let onward (t : State) : Prop := ∃ r ∈ (part t q.part).running, r.sq = q.sq ∧ r.tag = q.tag ∧
          r.kind = .ingest { coll := c.num, waitFor := replicaWaits s c }
        (Takes s q Op.rowInsert none → (∀ e, firstFail (versionChecks c true ((writeRowsIn a).map RowIn.id)) = some e →
            Completes (.rowInsert q a) q e.1 0 e.2 0 s s) ∧
          (firstFail (versionChecks c true ((writeRowsIn a).map RowIn.id)) = none →
            (c.replicaSet = [] → Completes (.rowInsert q a) q St.ok 0 0 0 wrote s) ∧
            (replicaWaits s c ≠ [] → ∃ t, exec (.rowInsert q a) s = .next t ∧ onward t))) ∧
        (Takes s q Op.rowUpsert none → (∀ e, firstFail (versionChecks c false ((writeRowsIn a).map RowIn.id)) = some e →
            Completes (.rowUpsert q a) q e.1 0 e.2 0 s s) ∧
          (firstFail (versionChecks c false ((writeRowsIn a).map RowIn.id)) = none →
            (c.replicaSet = [] → Completes (.rowUpsert q a) q St.ok 0 0 0 wrote s) ∧
            (replicaWaits s c ≠ [] → ∃ t, exec (.rowUpsert q a) s = .next t ∧ onward t))))) ∧
    (∀ (a : RowDeleteArgs) c, findColl s q.part a.coll = some c → c.role = 0 → c.kind = 0 → Takes s q Op.rowDelete none →
      ingestHeld s q.part a.coll = false →
      within 1 65536 a.count = true → a.idsAddr % 64 = 0 → a.ids.length = a.count → (∀ i ∈ a.ids, i ≠ sentinel) →
      c.committed < epochLimit → c.replicaSet = [] →
      Completes (.rowDelete q a) q St.ok 0 (deleteIds (c.committed + 1) a.ids c).2 0
        (onColl q.part a.coll (fun _ => (deleteIds (c.committed + 1) a.ids c).1) s) s) ∧
    (∀ coll c, findColl s q.part coll = some c → c.role = 0 → Takes s q Op.ingestCommit none → ingestHeld s q.part coll = false →
      (c.kind ≠ 0 → Completes (.ingestCommit q coll) q St.wrongKind 0 16 0 s s) ∧
      (c.kind = 0 → epochLimit ≤ c.committed → Completes (.ingestCommit q coll) q St.epochExhausted 0 0 0 s s) ∧
      (c.kind = 0 → c.committed < epochLimit → ingestsOpen s q.part coll = [] → c.replicaSet = [] →
        Completes (.ingestCommit q coll) q St.ok 0 0 (c.committed + 1) (onColl q.part coll (commitEpoch s.time) s) s) ∧
      (c.kind = 0 → c.committed < epochLimit → ingestsOpen s q.part coll ≠ [] →
        ∃ t, exec (.ingestCommit q coll) s = .next t ∧ findColl t q.part coll = some c ∧
          ∃ r ∈ (part t q.part).running, r.sq = q.sq ∧ r.tag = q.tag ∧
            r.kind = .ingest { coll := coll, isCommit := true, before := ingestsOpen s q.part coll }))) ∧
  (∀ (c : Coll) (time : Nat), (commitEpoch time c).committed = c.committed + 1 ∧ (commitEpoch time c).recs = c.recs ∧
    (commitEpoch time c).green = c.green ∧ (commitEpoch time c).segs = c.segs ∧
    (c.committed + 1, time) ∈ (commitEpoch time c).commitTimes) ∧
  (∀ (c : Coll) (r : Prep) (e : Nat), e < alive → (∀ x ∈ c.recs, x.ordinal < c.nextOrdinal) →
    let c2 := putVersion e r c
    c2.committed = c.committed ∧ c2.nextOrdinal = c.nextOrdinal + 1 ∧ c2.recs.length = c.recs.length + 1 ∧
    c2.segs.map Segment.number = c.segs.map Segment.number ∧ c2.green.length = c.green.length + 1 ∧
    (∀ old, lookupId c r.extId e = some old → (∃ x ∈ c2.recs, x.ordinal = old.ordinal ∧ x.death = e) ∧
      (∀ g ∈ c2.green, g.ordinal = old.ordinal → g.epochs = (old.birth, e)) ∧
      (∀ x ∈ c2.segs, ∀ y ∈ segRows x, y.ordinal = old.ordinal → y.epochs = (old.birth, e))) ∧
    lookupId c2 r.extId e = some { ordinal := c.nextOrdinal, extId := r.extId, birth := e, death := alive,
                                   stand := bestStand c r.y, attrs := r.attrs })

/-- A ROW_INSERT or ROW_UPSERT on an INDEX collection that passes its earlier checks and would take the green segment beyond 2 × GREEN_LIMIT row versions completes with GREEN_FULL, and nothing but its completion changes. -/
def Obligations.FullGreenSegmentRefusesIngest : Prop :=
  ∀ (s : State) (q : SqReq) (a : RowWriteArgs) (c : Coll) (ps : List Prep), q.part < s.parts.length →
    findColl s q.part a.coll = some c → c.role = 0 → c.kind = 0 → ingestHeld s q.part a.coll = false →
    firstFail (writeChecks a) = none →
    (∀ r ∈ writeRowsIn a, r.id ≠ sentinel) →
    (writeRowsIn a).map (prepRow c a.inputType a.tokensPresent a.attrPresent) = ps.map some →
    c.committed < epochLimit → c.nextOrdinal + (writeRowsIn a).length ≤ epochLimit + 1 →
    2 * c.cfg.greenLimit < c.green.length + (writeRowsIn a).length →
    (Takes s q Op.rowInsert none → (∀ r ∈ writeRowsIn a, lookupId c r.id (c.committed + 1) = none) →
      ((writeRowsIn a).map RowIn.id).Nodup → Completes (.rowInsert q a) q 0x0211 0 0 0 s s) ∧
    (Takes s q Op.rowUpsert none → Completes (.rowUpsert q a) q 0x0211 0 0 0 s s)

/-- On a primary TABLE of this device's own rows, ROW_INSERT, ROW_UPSERT and ROW_DELETE that pass their checks write each listed row whole and complete with OK; ROW_ADD with every lease in time and no lock held applies each entry in the order of the environment, ROW_ADD_MERGED one sum per row; ROW_READ writes rows and found bits to the host and changes no row. A BF16 row written or added to reads back as the rounded value, unpoisoned after a write, and no other row moves. A lease that expires counts up, the second time with its engine marked faulted; the third expiry abandons the add: the row is as it was and the command ends with UNCORRECTABLE and its count. -/
def Obligations.TableRowsAreWrittenAddedAndRead : Prop :=
  (∀ (s : State) (q : SqReq) (coll : Nat) (c : Coll), q.part < s.parts.length → findColl s q.part coll = some c →
    c.role = 0 → c.kind = 1 → s.power.level ≠ 1 →
    (∀ (a : RowWriteArgs), a.coll = coll → firstFail (writeChecks a) = none → (∀ r ∈ writeRowsIn a, ownRow c r.id = true) →
      c.rowBase + c.tableRows ≤ 2 ^ 48 - 1 →
      (∀ r ∈ writeRowsIn a, (prepVec 0 (!c.noRotate) c.seed (fitRaw a.inputType c.dim r.vec)).isSome) →
      let rows := (writeRowsIn a).map (fun r => (r.id, rotateFor c (fitRaw a.inputType c.dim r.vec)))
      (Takes s q Op.rowInsert none → Completes (.rowInsert q a) q St.ok 0 0 0 (writeRows q.part coll rows s) s) ∧
      (Takes s q Op.rowUpsert none → Completes (.rowUpsert q a) q St.ok 0 0 0 (writeRows q.part coll rows s) s)) ∧
    (∀ (a : RowDeleteArgs), a.coll = coll → Takes s q Op.rowDelete none → within 1 65536 a.count = true → a.idsAddr % 64 = 0 →
      a.ids.length = a.count → c.rowBase + c.tableRows ≤ 2 ^ 48 - 1 → (∀ i ∈ a.ids, ownRow c i = true) →
      Completes (.rowDelete q a) q St.ok 0 0 0
        (writeRows q.part coll (a.ids.map (fun i => (i, rotateFor c (List.replicate c.dim 0)))) s) s) ∧
    (∀ (a : RowAddArgs), a.coll = coll → firstFail (addChecks c (ownId s) a) = none → a.stalled = [] → a.unreadable = [] →
      (∀ g ∈ a.grads.take a.count, ownRow c g.row = true ∧ isPoisonedRow c g.row = false ∧ rowLeases c g.row = []) →
      let lease (e : PooledAdd) : Lease := leaseOf c q.sq q.tag none [] e
      (Takes s q Op.rowAdd none →
        Completes (.rowAdd q a) q St.ok 0 0 0
          ((addOrder (a.grads.take a.count).length a.order).foldl (fun x i =>
            match (a.grads.take a.count)[i]? with
            | some g => applyLease q.part coll (lease { row := g.row, v := scaledGrad c.dim a.alpha g.grad }) x
            | none => x) s) s) ∧
      (Takes s q Op.rowAddMerged none →
        Completes (.rowAddMerged q a) q St.ok 0 0 0
          ((mergeAdds ((a.grads.take a.count).map (fun g => (g.row, scaledGrad c.dim a.alpha g.grad)))).foldl
            (fun x e => applyLease q.part coll (lease e) x) s) s)) ∧
    (∀ (a : RowReadArgs), a.coll = coll → Takes s q Op.rowRead none → a.outType ≤ 1 → within 1 65536 a.count = true →
      a.idsAddr % 64 = 0 → a.outAddr % 64 = 0 → a.foundAddr % 64 = 0 → a.withAttr = false → a.ids.length = a.count →
      c.rowBase + c.tableRows ≤ 2 ^ 48 - 1 → (∀ i ∈ a.ids, ownRow c i = true ∧ isPoisonedRow c i = false) →
      let rows := a.ids.map (fun i => if c.noRotate then tableVec c i else unrotate c.seed (tableVec c i))
      (∃ v, Completes (.rowRead q a) q St.ok 0 0 0 v s ∧ v.parts = s.parts ∧ v.mem = s.mem ∧ v.deck = s.deck) ∧
      (s.landing.linkActive = true → rows.flatMap (outBytes a.outType) ≠ [] → ∃ t, exec (.rowRead q a) s = .next t ∧
        Out.hostWrite (1 + q.part) a.outAddr (rows.flatMap (outBytes a.outType)) ∈ t.issued ∧
        Out.hostWrite (1 + q.part) a.foundAddr (foundBytes (a.ids.map (fun _ => true))) ∈ t.issued))) ∧
  (∀ (c : Coll) (pl : RowPlace) (i : Nat) (y d : List F32), c.format = 2 →
    tableVec (writeRow pl i y c) i = bfVals (bfRow (cleanNan y)) ∧ isPoisonedRow (writeRow pl i y c) i = false ∧
    tableVec (addRow pl i d c) i = bfVals (bfRow (cleanNan (List.zipWith F.add (tableVec c i) d))) ∧
    ∀ j, j ≠ i → tableRow (writeRow pl i y c) j = tableRow c j ∧ tableRow (addRow pl i d c) j = tableRow c j) ∧
  (∀ (s : State) (a : LeaseArgs) c l, firmwareRuns s = true → findColl s a.part a.coll = some c → (rowLeases c a.row).head? = some l →
    leaseWaits s l = false → (leaseOnEngine s l = true → l.engine = some (a.stack, a.engine)) →
    let counted (n : Nat) (u : State) : State := onColl a.part a.coll (fun c =>
      { c with leases := c.leases.map (fun x => if x = l then { l with attempt := n } else x) }) u
    (a.switches = false → l.attempt = 1 → exec (.leaseExpiry a) s = .next (counted 2 s)) ∧
    (a.switches = false → l.attempt = 2 → leaseOnEngine s l = false → exec (.leaseExpiry a) s = .next (counted 3 s)) ∧
    (a.switches = false → l.attempt = 2 → leaseOnEngine s l = true → a.stack < s.pave.allStacks.length → a.engine < 64 →
      exec (.leaseExpiry a) s = .next (counted 3 (faultEngine a.stack a.engine s)) ∧
      (stackOf (faultEngine a.stack a.engine s) a.stack).faulted.getLsbD a.engine = true) ∧
    (∀ x w, a.part < s.parts.length → l.attempt = 3 → l.peer = none → l.weight ≠ 0 →
      (∀ y ∈ (part s a.part).colls, y = c ∨ y.leases = []) → c.leases = [l] →
      ingestOf s a.part l.sq l.tag = some (x, w) → w.before = [] → w.waitFor = [] → w.read = none →
      ∃ v, exec (.leaseExpiry a) s = .next (ingestEnded a.part l.sq l.tag
          (endRunning a.part { x with kind := .ingest (w.fails l.weight a.row) } St.uncorrectable 0 (w.failed + l.weight)
            (if w.failed = 0 then a.row else w.first) v)) ∧
        v.mem = s.mem ∧ ∃ c2, findColl v a.part a.coll = some c2 ∧ c2.leases = [] ∧ c2.rows = c.rows ∧ c2.blocks = c.blocks))

/-- COLL_SEASON on a busy collection answers WRONG_STATE and on the wrong kind WRONG_KIND. Mode 0 with nothing to season, mode 1 without segments and mode 2 on an uncoded TABLE answer OK and change nothing; else each is accepted and does its work, the collection busy until COMMAND_DONE. A MODE that is none of the three answers INVALID_FIELD. The device seasons by itself only where SEASON_ENABLE and a trigger of R137 hold, and compacts where a trigger of R137 or R241 holds, and then does the same work. A replica builds the primary's segment and drops the committed green rows that the primary left out. Conversions change no committed epoch. -/
def Obligations.ConversionsOfCollections : Prop :=
  (∀ (s : State) (r : MbxReq) (coll : Nat) (c : Coll), r.partition < s.parts.length → findColl s r.partition coll = some c →
    c.role = 0 → Admits s r Op.collSeason none (lengthIn r [8]) →
    let job (act : AsyncAction) (u : State) : State := addJob (doneDest r) Op.collSeason r.tag r.partition St.ok 0 act u
    (∀ m, m ≠ 0 → Answers (.collSeason r { coll := coll, mode := m }) r Op.collSeason St.invalidField 34 false [] s s) ∧
    (c.kind = 1 → Answers (.collSeason r { coll := coll, mode := 0 }) r Op.collSeason St.wrongKind 32 false [] s s ∧
      Answers (.collSeasonCompact r coll) r Op.collSeason St.wrongKind 32 false [] s s) ∧
    (c.kind = 0 → Answers (.collSeasonRequantise r coll) r Op.collSeason St.wrongKind 32 false [] s s) ∧
    (c.kind = 0 → c.busy = true → Answers (.collSeason r { coll := coll, mode := 0 }) r Op.collSeason St.wrongState 0 false [] s s ∧
      Answers (.collSeasonCompact r coll) r Op.collSeason St.wrongState 0 false [] s s) ∧
    (c.kind = 0 → c.busy = false → c.segs.length < 65535 → greenDue c c.committed = [] →
      Answers (.collSeason r { coll := coll, mode := 0 }) r Op.collSeason St.ok 0 false [] s s) ∧
    (c.kind = 0 → c.busy = false → c.segs.length < 65535 → greenDue c c.committed ≠ [] → maySeason s r.partition c = true →
      Answers (.collSeason r { coll := coll, mode := 0 }) r Op.collSeason St.ok 0 true []
        (job (.collReady coll) (markBusy r.partition coll (seasonNow r.partition c s))) s) ∧
    (c.kind = 0 → c.busy = false → c.segs = [] → Answers (.collSeasonCompact r coll) r Op.collSeason St.ok 0 false [] s s) ∧
    (c.kind = 0 → c.busy = false → 2 ≤ c.segs.length →
      Answers (.collSeasonCompact r coll) r Op.collSeason St.ok 0 true []
        (job (.collReady coll) (markBusy r.partition coll (compactNow r.partition (fun _ => true) c s))) s) ∧
    (c.kind = 1 → c.busy = false → coded c.format = false → Answers (.collSeasonRequantise r coll) r Op.collSeason St.ok 0 false [] s s) ∧
    (c.kind = 1 → c.busy = false → coded c.format = true → c.blocks ≠ [] →
      Answers (.collSeasonRequantise r coll) r Op.collSeason St.ok 0 true []
        (job (.collReady coll) (markBusy r.partition coll (onColl r.partition coll requantise s))) s)) ∧
  (∀ (s : State) (p coll : Nat) (c : Coll), findColl s p coll = some c → firmwareRuns s = true → holding s = false →
    c.kind = 0 → c.role = 0 → c.busy = false →
    (c.cfg.seasonEnable = true → greenDue c c.committed ≠ [] → c.cfg.greenLimit ≤ c.green.length → maySeason s p c = true →
      exec (.seasoning p coll) s = .next (seasonNow p c s)) ∧
    (c.cfg.seasonEnable = false → exec (.seasoning p coll) s = .next s) ∧
    (∀ st, c.segs.length < 65535 → (c.cfg.segmentTarget < c.segs.length ∨ deadDue s p c = true) →
      exec (.compaction p coll st) s = .next (compactNow p (fun x => decide (x = st)) c s)) ∧
    (∀ st, 65535 ≤ c.segs.length → exec (.compaction p coll st) s = .next (compactNow p (fun _ => true) c s)) ∧
    (∀ st, c.segs.length < 65535 → c.segs.length ≤ c.cfg.segmentTarget → deadDue s p c = false → exec (.compaction p coll st) s = .next s)) ∧
  (∀ (s : State) (m : ReplicaSeasonMsg) c, m.part < s.parts.length → findShard s m.part m.coll m.shard = some c →
    findColl s m.part c.num = some c → firmwareRuns s = true → c.role ≠ 0 →
    ∃ t, exec (.replicaSeason m) s = .next t ∧ t.time = s.time ∧ KeepsMem s t ∧
      ∃ c2, findColl t m.part c.num = some c2 ∧ c2.committed = c.committed ∧ c2.nextOrdinal = c.nextOrdinal ∧ c2.role = c.role ∧
        (m.compaction = false → c2.green = c.green.filter (fun g => decide (g.ordinal ∉ m.ordinals) &&
          decide (g.ordinal ∉ (greenDue c c.committed).map GreenRow.ordinal)))) ∧
  (∀ (c : Coll) n os gone sel keep, (buildSeason n os gone c).committed = c.committed ∧ (buildSeason n os gone c).rows = c.rows ∧
    (buildCompact n sel keep c).1.committed = c.committed ∧ (buildCompact n sel keep c).1.green = c.green)

/-- POOLED_ROW_REQUEST on a running device out of shard hold applies or reads the owner's rows and answers; in shard hold it answers NOT_READY and changes nothing. REPLICA_INGEST applies the primary's writes, deletes, commit or parameter set to the replica and answers OK; a collection that is no replica answers WRONG_STATE, and one that is not held NO_SUCH_COLLECTION. An answer to a device not declared lost is held by firmware's queue pair toward it. A row migration moves only the named row's place, of a TABLE or an INDEX, and one whose lease expires moves nothing. -/
def Obligations.PoolOwnersAndReplicasApply : Prop :=
  (∀ (s : State) (d p : Nat) (m : FwMsg), d ∉ s.fabric.lost → fwHolds (sendFw d p m s) d p m ∧ (sendFw d p m s).parts = s.parts ∧
    (sendFw d p m s).mem = s.mem) ∧
  (∀ (s : State) (m : PooledMsg), firmwareRuns s = true →
    let answer (st : Nat) (rows : List (Nat × List F32)) (u : State) : State :=
      sendFw m.src m.part (.pooledAnswer m.sq m.tag st 0 0 rows) u
    ((holding s = true ∨ s.power.level = 0) → exec (.pooledRowRequest m) s = .next (answer St.notReady [] s)) ∧
    (holding s = false → s.power.level ≠ 0 → findColl s m.part m.coll = none →
      exec (.pooledRowRequest m) s = .next (answer St.noSuchCollection [] s)) ∧
    (∀ c, holding s = false → s.power.level = 2 → findColl s m.part m.coll = some c → c.kind = 1 →
      (∀ rows, m.op = .write rows → (∀ r ∈ rows, ownRow c r.1 = true) →
        exec (.pooledRowRequest m) s = .next (answer St.ok [] (writeRows m.part c.num (rows.map (fun r => (r.1, rotateFor c r.2))) s))) ∧
      (∀ rows, m.op = .delete rows → (∀ i ∈ rows, ownRow c i = true) →
        exec (.pooledRowRequest m) s = .next (answer St.ok []
          (writeRows m.part c.num (rows.map (fun i => (i, List.replicate c.dim 0))) s))) ∧
      (∀ rows, m.op = .read rows → (∀ i ∈ rows, ownRow c i = true ∧ isPoisonedRow c i = false) →
        exec (.pooledRowRequest m) s = .next (answer St.ok
          (rows.map (fun i => (i, if c.noRotate then tableVec c i else unrotate c.seed (tableVec c i))))
          ((rows.map (blockNo c)).eraseDups.foldl (fun s b => heatUnit m.part (.tableBlock c.num b) s) s))) ∧
      (∀ es, m.op = .add es → m.stalled = [] → m.unreadable = [] →
        (∀ e ∈ es, ownRow c e.row = true ∧ isPoisonedRow c e.row = false ∧ rowLeases c e.row = []) →
        exec (.pooledRowRequest m) s = .next (answer St.ok []
          (es.foldl (fun x e => applyLease m.part c.num (leaseOf c m.sq m.tag (some m.src) [] e) x) s))))) ∧
  (∀ (s : State) (m : ReplicaMsg), firmwareRuns s = true →
    let answer (st : Nat) (u : State) : State := sendFw m.src m.part (.replicaAnswer m.sq m.tag st) u
    (findShard s m.part m.coll m.shard = none → exec (.replicaIngest m) s = .next (answer St.noSuchCollection s)) ∧
    (∀ c, findShard s m.part m.coll m.shard = some c →
      (c.role = 0 → exec (.replicaIngest m) s = .next (answer St.wrongState s)) ∧
      (c.role ≠ 0 → m.op = .commit →
        exec (.replicaIngest m) s = .next (answer St.ok (onColl m.part c.num (commitEpoch s.time) s))) ∧
      (∀ ids, c.role ≠ 0 → m.op = .delete ids → exec (.replicaIngest m) s =
        .next (answer St.ok (onColl m.part c.num (fun x => (deleteIds (c.committed + 1) ids x).1) s))) ∧
      (∀ u rows ty, c.role ≠ 0 → m.op = .write u rows ty → exec (.replicaIngest m) s =
        .next (answer St.ok (settlePart m.part (onColl m.part c.num (fun x =>
          (rows.filterMap (prepRow x ty true true)).foldl (fun x r => putVersion (c.committed + 1) r x) x) s)))) ∧
      (∀ a, c.role ≠ 0 → m.op = .config a → exec (.replicaIngest m) s =
        .next (answer St.ok (retierColl m.part c.num a.tier (onColl m.part c.num (fun x => { x with cfg := cfgOf a }) s)))))) ∧
  (∀ (s : State) (a : RowMoveArgs) c, skidderRuns s = true → findColl s a.part a.coll = some c →
    (a.leaseExpires = true → exec (.rowMigration a) s = .next s) ∧
    (a.leaseExpires = false → validPlace s a.dest = true → movable c a.row = true → exec (.rowMigration a) s =
      .next (onColl a.part a.coll (moveRow a.row a.dest) s))) ∧
  (∀ (c : Coll) (i : Nat) (d : RowPlace), movedTo (moveRow i d c) i = some d ∧ (∀ r ∈ (moveRow i d c).rows, r.index = i → r.place = d) ∧
    (moveRow i d c).recs = c.recs ∧ (moveRow i d c).segs = c.segs ∧ (moveRow i d c).green = c.green ∧
    ∀ j, tableVec (moveRow i d c) j = tableVec c j ∧
      (j ≠ i → tableRow (moveRow i d c) j = tableRow c j ∧ movedTo (moveRow i d c) j = movedTo c j))

/-- A query on a primary INDEX shard fails its checks with the first of them and runs no stage. With one shard QRY_SEARCH completes with the conditions of its merged lists, the number of short queries and the epoch, and its areas go to the host; with other shards it stays running, and firmware's queue pairs hold the part of each whose device is reachable. QRY_RETRIEVE past its checks waits for the run of its embedding model, and QRY_RERANK for late interaction alone completes with the list its scores give, or waits for the shards its candidates name. QRY_CANCEL reports 1 and ends the running query it names, or reports 0. COLL_AUDIT is accepted and its output goes to the host. -/
def Obligations.QueriesRunAtTheirHome : Prop :=
  ∀ (s : State),
    (∀ (q : SqReq) (a0 : SearchParams) (c : Coll), q.part < s.parts.length → Takes s q Op.qrySearch (some 192) →
      findColl s q.part a0.coll = some c → c.role = 0 → c.kind = 0 →
      let a := searchDefaults a0
      (∀ e, firstFail (searchChecks a a.k) = some e → Completes (.qrySearch q a0) q e.1 0 e.2 0 s s) ∧
      (∀ i, firstFail (searchChecks a a.k) = none → prepQueries c a = .error i →
        Completes (.qrySearch q a0) q St.invalidValue 0 i 0 s s) ∧
      (∀ qs, firstFail (searchChecks a a.k) = none → prepQueries c a = .ok qs →
        let x := runPart ((admitted s q c a).part1 s q.part) qs s
        let run := { admitted s q c a with vecs := qs, own := x.1 }
        (otherShards c = [] →
          let ms := (List.range a.queryCount).map (fun i => mergeQuery c.metric a.k i [x.1])
          let n := if promoted s c then 1 else 0
          let cond (m : Merged) : Nat := m.conditions a.k false (promoted s c)
          let all := ms.foldl (fun z m => z ||| cond m) 0
          Completes (.qrySearch q a0) q (statusOfConditions all) all ((ms.filter (fun m => decide (m.recs.length < a.k))).length)
            c.committed x.2 s ∧
          (s.landing.linkActive = true → ∃ t, exec (.qrySearch q a0) s = .next t ∧ ∀ y ∈ ms.zipIdx,
            Out.hostWrite (1 + q.part) (a.outAddr + y.2 * (64 + 32 * a.k)) (areaBytes c.num a.k c.committed n (cond y.1) y.1) ∈
              t.issued)) ∧
        (otherShards c ≠ [] →
          ∃ t w, exec (.qrySearch q a0) s = .next t ∧ (part t q.part).running = (part s q.part).running ++ [w] ∧
            w = { sq := q.sq, tag := q.tag, opcode := Op.qrySearch, context := q.context, noInt := q.noInt, kind := .query run } ∧
            ∀ y ∈ otherShards c, let d := shardDevice run y.1
              d ∉ s.fabric.lost → fwHolds t d q.part
                (partMsg s { part := q.part, sq := q.sq, tag := q.tag, run := run } y.1 (decide (d ≠ y.2)))))) ∧
    (∀ (q : SqReq) (a : RetrieveArgs) (c : Coll), q.part < s.parts.length → Takes s q Op.qryRetrieve (some 320) →
      findColl s q.part a.search.coll = some c → c.role = 0 → c.kind = 0 →
      let k := { searchDefaults a.search with queryCount := a.search.queryCount, inputType := 0, queryAddr := 0 }
      let em := findModel (part s q.part) a.embedModel
      let xm := if a.cross then findModel (part s q.part) a.xencModel else none
      let late := c.tokens && !a.noLate && !reducedService s
      let checks := (decide (a.search.queryCount ≠ 1), St.invalidField, inBlock 4) :: searchChecks k (dfltFinal k.k a.finalK) ++
        retrieveFields a em ++ retrieveHandles s q.part a
      (∀ e, firstFail checks = some e → Completes (.qryRetrieve q a) q e.1 0 e.2 0 s s) ∧
      (∀ e, firstFail checks = none → packAdmission s q.part a = some e → Completes (.qryRetrieve q a) q e.1 0 e.2 0 s s) ∧
      (∀ m, firstFail checks = none → packAdmission s q.part a = none → em = some m →
        (shapesFit c a late m xm = false → Completes (.qryRetrieve q a) q St.modelMismatch 0 0 0 s s) ∧
        (shapesFit c a late m xm = true → (variantNow s m).isSome →
          (a.cross = true → reducedService s = false → (xm.bind (variantNow s)).isSome) →
          ∃ t w, exec (.qryRetrieve q a) s = .next t ∧ (part t q.part).running = (part s q.part).running ++ [w] ∧
            w.sq = q.sq ∧ w.tag = q.tag ∧ w.kind = .query (admittedRetrieve s q c a k xm) ∧
            t.runs = s.runs ++ [{ id := s.nextRun, part := q.part, sq := q.sq, tag := q.tag, model := m.serial
                                  use := .query (reducedService s), generate := false
                                  inputs := [embedInput m (findVocab (part s q.part) a.vocab) a] }]))) ∧
    (∀ (q : SqReq) (a : RerankArgs) (c : Coll), q.part < s.parts.length → Takes s q Op.qryRerank (some 64) →
      findColl s q.part a.coll = some c → c.role = 0 → c.kind = 0 →
      (∀ e, firstFail (rerankChecks s q.part c a) = some e → Completes (.qryRerank q a) q e.1 0 e.2 0 s s) ∧
      (∀ ts, firstFail (rerankChecks s q.part c a) = none → a.cross = false → hostTokens c a = .ok ts →
        let run := { admitted s q c (blankParams a.coll a.count a.outAddr) with
                     own := resolvePart s c false (candsOf a c.shardOrdinal)
                     asked := (otherShards c).filter (fun x => !(candsOf a x.1).isEmpty), rerank := some a
                     qtoks := (tok8 ts).codes, qscales := (tok8 ts).scales }
        (run.asked = [] →
          let f := dfltFinal a.count a.finalK
          let r := { run with phase := 2, recs := (baseMerge run).recs }
          let l := sortBy (recAhead c.metric) ((r.recs.map (lateOne r)).filterMap LateOutcome.rec?)
          let x := writeRounds { part := q.part, sq := q.sq, tag := q.tag
                                 run := { r with recs := l.take f, ties := tiesBeyond c.metric f l
                                                 dropped := r.recs.length - l.length } } s
          Completes (.qryRerank q a) q x.status x.cond x.dA x.dB x.st s) ∧
        (run.asked ≠ [] →
          ∃ t w, exec (.qryRerank q a) s = .next t ∧ (part t q.part).running = (part s q.part).running ++ [w] ∧
            w.sq = q.sq ∧ w.tag = q.tag ∧ w.kind = .query run ∧
            ∀ y ∈ run.asked, let d := shardDevice run y.1
              d ∉ s.fabric.lost → fwHolds t d q.part
                (partMsg s { part := q.part, sq := q.sq, tag := q.tag, run := run } y.1 (decide (d ≠ y.2)))))) ∧
    (∀ (q : SqReq) tsq ttag, q.part < s.parts.length → Takes s q Op.qryCancel none → tsq ≤ 63 →
      let sel (r : Running) : Bool := decide (r.sq = tsq) && decide (r.tag = ttag) && isQry r.opcode
      ((∀ x ∈ (part s q.part).running, sel x = false) → Completes (.qryCancel q tsq ttag) q St.ok 0 0 0 s s) ∧
      ((∃ x ∈ (part s q.part).running, sel x = true) →
        Completes (.qryCancel q tsq ttag) q St.ok 0 1 0 (cancelRunning q.part sel s) s ∧
        ∃ t, exec (.qryCancel q tsq ttag) s = .next t ∧ ∀ x ∈ (part t q.part).running, sel x = false)) ∧
    (∀ (r : MbxReq) (a : AuditArgs) c qs, r.partition < s.parts.length → Admits s r Op.collAudit none (lengthIn r [40]) →
      findColl s r.partition a.coll = some c → c.role = 0 →
      let k := searchDefaults { a.block with k := a.k, queryCount := a.queryCount, inputType := 0
                                             queries := a.queries.map (fun q => q.map BitVec.toNat) }
      (c.kind ≠ 0 → Answers (.collAudit r a) r Op.collAudit St.wrongKind 32 false [] s s) ∧
      (c.kind = 0 → 1 ≤ a.k → a.k ≤ 1024 → 1 ≤ a.queryCount → a.queryCount ≤ 256 → firstFail (searchFields k) = none →
        prepQueries c k = .ok qs →
        Answers (.collAudit r a) r Op.collAudit St.ok 0 true []
          (addJob (doneDest r) Op.collAudit r.tag r.partition St.ok 0 .nothing s) s ∧
        (s.landing.linkActive = true → ∃ t, exec (.collAudit r a) s = .next t ∧
          Out.hostWrite (mailboxFn r.mbx) a.outAddr
            (auditBytes c.committed (qs.map (auditQuery (part1 s r.partition c false k)))) ∈ t.issued)))

/-- Merging shard lists of versions below 2^48 keeps at most K records, in result order, one per external id, each a record some shard returned, with the shard of its answer; with fewer than K, every id any shard returned is there, in its largest version. The output area of a list of at most S records is 64 + 32 × S bytes. -/
def Obligations.MergedResultsAreOrderedAndDistinct : Prop :=
  (∀ (metric k i : Nat) (answers : List ShardAnswer),
    (∀ a ∈ answers, ∀ x ∈ (a.lists.getD i emptyList).records, x.version < 2 ^ 48) →
    let m := mergeQuery metric k i answers
    m.recs.length ≤ k ∧ (m.recs.map Rec.extId).Nodup ∧ m.recs.Pairwise (fun a b => recAhead metric b a = false) ∧
    (∀ r ∈ m.recs, ∃ a ∈ answers, ∃ x ∈ (a.lists.getD i emptyList).records,
      r = { x with shard := a.shard, replica := x.replica || a.reissued }) ∧
    (m.recs.length < k → ∀ a ∈ answers, ∀ x ∈ (a.lists.getD i emptyList).records,
      ∃ r ∈ m.recs, r.extId = x.extId ∧ x.version ≤ r.version)) ∧
  (∀ coll width epoch n c (m : Merged), m.recs.length ≤ width → (areaBytes coll width epoch n c m).length = 64 + 32 * width)

/-- Whatever the shard's rows and the query, the list the cascade returns has at most K records; each is a row record of the collection stored at a place whose epoch pair shows it visible at the captured epoch, its sketch and epochs readable, with its id, ordinal, stand and birth epoch; with a filter its attributes pass it; and in reduced service no record was scored by stage 3. -/
def Obligations.ShardListsHoldVisibleRows : Prop :=
  ∀ (x : Part1) (q : List F32), (cascade x q).1.records.length ≤ x.params.k ∧
    ∀ r ∈ (cascade x q).1.records, ∃ v ∈ x.coll.recs, ∃ pl ∈ places x.coll, pl.ordinal = v.ordinal ∧
      pl.visible x.epoch = true ∧ x.skips v.ordinal = false ∧
      r.ordinal = v.ordinal ∧ r.extId = v.extId ∧ r.version = v.birth ∧ r.stand = v.stand ∧ r.segment = pl.seg ∧
      r.shard = x.coll.shardOrdinal ∧
      (x.params.filters ≠ [] → passes x.params v.attrs = true) ∧ 1 ≤ r.stage ∧ r.stage ≤ 3 ∧ (x.reduced = true → r.stage ≤ 2)

/-- A running device answers a query part with its shard's lists or with the status that stops it, keeping its epoch and segment list when rounds follow, a late-interaction part with its scores and a passage request with the texts it has; a cancellation drops what it keeps for the command. At the home SHARD_MERGE ends a QRY_SEARCH whose shards have all answered with the merged result, or with SHARD_UNAVAILABLE when one failed, and waits on otherwise; an answer that comes from another device than the one asked, or from a lost one, is discarded; SHARD_REISSUE of a lost device's part sends it to the lowest-numbered reachable replica, or ends the query when there is none. -/
def Obligations.ShardDevicesServeHomes : Prop :=
  (∀ (s : State), firmwareRuns s = true →
    (∀ (m : PartMsg) st, peerGate s m.part = some st → exec (.shardPart m) s =
      .next (sendFw m.home m.part (.queryAnswer m.sq m.tag
        { shard := m.shard, device := ownId s, status := st, epoch := 0, reissued := false, lists := [] }) s)) ∧
    (∀ (m : PartMsg) st, peerGate s m.part = none → partColl s m = .error st → exec (.shardPart m) s =
      .next (sendFw m.home m.part (.queryAnswer m.sq m.tag (failAnswer s m.shard st)) s)) ∧
    (∀ (m : PartMsg) c qs, peerGate s m.part = none → partColl s m = .ok c → m.cands = none →
      prepQueries c (searchDefaults m.params) = .ok qs →
      let x := runPart (part1 s m.part c m.asReplica (searchDefaults m.params)) qs (keepGuest m c s)
      x.1.status = St.ok ∧ x.1.device = ownId s ∧ x.1.epoch = c.committed ∧ x.1.shard = c.shardOrdinal ∧
      x.1.lists.length = qs.length ∧
      exec (.shardPart m) s = .next (sendFw m.home m.part (.queryAnswer m.sq m.tag x.1) x.2)) ∧
    (∀ (m : PartMsg) c, m.rounds = true → m.part < s.parts.length →
      findGuest (keepGuest m c s) m.home m.part m.sq m.tag =
        some { home := m.home, sq := m.sq, tag := m.tag, coll := c.num, epoch := c.committed, reduced := reducedService s
               snap := { c with skipped := c.skipped ++ m.params.deckBad } }) ∧
    (∀ (m : LateMsg),
      (∀ st, roundBase s m.home m.part m.sq m.tag m.coll m.shard = .error st → exec (.lateInteractionPart m) s =
        .next (sendFw m.home m.part (.lateAnswer m.sq m.tag m.shard st [] [] []) s)) ∧
      (∀ c, roundBase s m.home m.part m.sq m.tag m.coll m.shard = .ok (c, false) → m.unreadable = [] →
        (∀ o ∈ m.ordinals, ({ ordinal := o, form := .tok } : Skip) ∉ c.skipped) →
        let sc := m.ordinals.filterMap (fun o => (tokOf c o).map (fun t => (o, maxSim m.qcodes m.qscales t)))
        ∃ t, exec (.lateInteractionPart m) s = .next t ∧
          (m.home ∉ s.fabric.lost → fwHolds t m.home m.part
            (.lateAnswer m.sq m.tag m.shard St.ok sc (m.ordinals.filter (fun o => (tokOf c o).isNone)) [])) ∧
          t.parts = s.parts ∧ t.mem = s.mem)) ∧
    (∀ (m : PassageMsg), holding s = false → findGuest s m.home m.part m.sq m.tag = none → peerGate s m.part = none →
      let text (i : Nat) : List Byte := passageText s (reducedService s) m.part m.object i
      exec (.passageFetch m.home m.part m.toPassageQuery m.ids) s = .next (sendFw m.home m.part (.passageAnswer m.sq m.tag m.shard St.ok
        ((m.ids.filter (fun i => !(text i).isEmpty)).map (fun i => (i, text i))) (m.ids.filter (fun i => (text i).isEmpty))) s)) ∧
    (∀ home p sq tag, p < s.parts.length → ∃ t, exec (.shardCancellation home p { sq := sq, tag := tag }) s = .next t ∧
      findGuest t home p sq tag = none ∧ t.mem = s.mem ∧ t.issued = s.issued)) ∧
  (∀ (s : State) (a : MergeArgs) x r, firmwareRuns s = true → runningQuery s a.part a.sq a.tag = some (x, r) → r.phase = 1 →
    let r2 := a.answers.foldl (fun r y => takeAnswer s y r) r
    (∀ y ∈ r2.ins.answers, y ∈ r.ins.answers ∨ (y ∈ a.answers ∧ y.device = shardDevice r y.shard ∧ y.device ∉ s.fabric.lost)) ∧
    (r.hasRounds = false →
      (∀ y, (gathered r2).find? (fun y => decide (y.status ≠ St.ok)) = some y →
        exec (.shardMerge a) s = .next (endRunning a.part x St.shardUnavailable 0 y.shard (y.status % 65536) s)) ∧
      ((∀ y ∈ gathered r2, y.status = St.ok) → r2.blocked s = false → (gathered r2).length = r2.asked.length →
        let z := writeSearch { part := a.part, sq := a.sq, tag := a.tag, run := r2 } s
        exec (.shardMerge a) s = .next (endRunning a.part x z.status z.cond z.dA z.dB z.st)) ∧
      ((∀ y ∈ gathered r2, y.status = St.ok) → (r2.blocked s = true ∨ (gathered r2).length < r2.asked.length) →
        exec (.shardMerge a) s = .next (setRun a.part x (.query r2) s)))) ∧
  (∀ (s : State) (a : ReissueArgs) x r, firmwareRuns s = true → runningQuery s a.part a.sq a.tag = some (x, r) →
    (∃ y ∈ r.asked, y.1 = a.shard) → r.owes a.shard = true → shardDevice r a.shard ∈ s.fabric.lost →
    let live := liveReplicas s ((findColl s a.part r.coll).getD r.snap) a.shard
    (live = [] → ∃ u, exec (.shardReissue a) s = .next (endRunning a.part x St.shardUnavailable 0 a.shard 0 u) ∧
      u.mem = s.mem ∧ u.parts = s.parts) ∧
    (∀ d, live.head? = some d → d ∉ s.fabric.lost ∧
      ∃ t r2, exec (.shardReissue a) s = .next t ∧ shardDevice r2 a.shard = d ∧ r2.phase = 1 ∧
        fwHolds t d a.part (partMsg s { part := a.part, sq := a.sq, tag := a.tag, run := r2 } a.shard true) ∧
        (part t a.part).running.length = (part s a.part).running.length ∧ t.mem = s.mem))

/-- STORE with valid fields, finite components and room replaces the entry under its key and reports its blocks; DROP removes the listed keys and reports those absent or expired. ATTEND with every holder here or lost folds the entries' states in list order, writes 192 + Q_HEADS × (16 + 4 × DH) bytes and reports the missing entries, or completes with MODEL_MISMATCH and the index, no output and no change; with other holders it stays running and firmware's queue pairs hold their parts. A holder answers a part as the entry stands. An entry whose time is over goes, one whose time is not over stays. -/
def Obligations.CacheEntriesAreStoredAttendedAndDropped : Prop :=
  (∀ (s : State) (q : SqReq), q.part < s.parts.length → Takes s q Op.qryAttend (some 64) →
    (∀ (a : StoreArgs),
      (∀ e, firstFail (storeChecks a) = some e → Completes (.qryAttendStore q a) q e.1 0 e.2 0 s s) ∧
      (∀ t, firstFail (storeChecks a) = none → kvBadToken a = some t → Completes (.qryAttendStore q a) q St.invalidValue 0 t 0 s s) ∧
      (∀ loc, firstFail (storeChecks a) = none → kvBadToken a = none → (part s q.part).state = .active →
        kvRoom (dropKv q.part a.key s) q.part (kvEntryOf s a).bytes = some loc →
        ∃ u, Completes (.qryAttendStore q a) q St.ok 0
            (a.kvHeads * ceilDiv a.count (min 64 (4032 / (if a.enc = 0 then 2 * a.dh + 4 else 4 * a.dh)))) 0 u s ∧
          findKv (part u q.part) a.key = some (kvEntryOf s a) ∧ (kvEntryOf s a).named = s.time ∧
          (∀ k, k ≠ a.key → findKv (part u q.part) k = findKv (part s q.part) k) ∧ KeepsMem s u)) ∧
    (∀ (a : DropArgs), within 1 1024 a.count = true → a.inAddr % 64 = 0 → a.keys.length = a.count → a.keys.Nodup →
      ∃ u, Completes (.qryAttendDrop q a) q St.ok 0 ((a.keys.filter (fun k =>
          match findKv (part s q.part) k with | some e => kvExpired s e | none => true)).length) 0 u s ∧
        (part u q.part).kv = (part s q.part).kv.filter (fun e => decide (e.key ∉ a.keys)) ∧ KeepsMem s u) ∧
    (∀ (a : AttendArgs),
      (∀ e, firstFail (attendChecks a) = some e → Completes (.qryAttend q a) q e.1 0 e.2 0 s s) ∧
      (firstFail (attendChecks a) = none → otherHolders s a = [] →
        let l := sortBy (fun (x y : HolderAnswer) => decide (x.index < y.index)) (ownAnswers s q.part a)
        let u := ((attendList a).filter (ownHolder s)).foldl (fun s x => nameKv q.part x.key s) s
        (∀ y, l.find? HolderAnswer.mismatch = some y → Completes (.qryAttend q a) q St.modelMismatch 0 y.index 0 s s) ∧
        (l.find? HolderAnswer.mismatch = none →
          Completes (.qryAttend q a) q St.ok 0 (l.filter HolderAnswer.missing).length 0 u s ∧
          (s.landing.linkActive = true → ∃ t, exec (.qryAttend q a) s = .next t ∧
            Out.hostWrite (1 + q.part) a.outAddr (attendBytes a l) ∈ t.issued))) ∧
      (firstFail (attendChecks a) = none → otherHolders s a ≠ [] →
        ∃ t w, exec (.qryAttend q a) s = .next t ∧ (part t q.part).running = (part s q.part).running ++ [w] ∧
          w.sq = q.sq ∧ w.tag = q.tag ∧
          w.kind = .attend { args := a, answers := ownAnswers s q.part a, asked := otherHolders s a } ∧
          ∀ x ∈ otherHolders s a, fwHolds t x.2 q.part (.attendPart
            { home := ownId s, part := q.part, sq := q.sq, tag := q.tag, index := x.1, dh := a.dh, kvHeads := a.kvHeads
              qHeads := a.qHeads, scale := a.scale
              entry := (attendList a).getD x.1 { key := 0, device := 0, firstToken := 0, tokenCount := 0 }
              queries := attendQueries a, unreadable := [] })))) ∧
  (∀ (s : State) (m : AttendMsg), firmwareRuns s = true →
    (peerGate s m.part ≠ none → exec (.attendPart m) s =
      .next (sendFw m.home m.part (.attendAnswer m.sq m.tag (missingAnswer m.index)) s)) ∧
    (peerGate s m.part = none →
      let y := holderAnswer s m.part m.index m.dh m.kvHeads m.qHeads m.scale m.entry m.queries (fun i => decide (i ∈ m.unreadable))
      exec (.attendPart m) s =
        .next (sendFw m.home m.part (.attendAnswer m.sq m.tag y) (if y.mismatch then s else nameKv m.part m.entry.key s)))) ∧
  (∀ (s : State) p key e, p < s.parts.length → firmwareRuns s = true → findKv (part s p) key = some e →
    (s.time < e.named + e.ttl * 1000000 → exec (.cacheEntryExpiry p key) s = .next s) ∧
    (e.named + e.ttl * 1000000 ≤ s.time → ∃ t, exec (.cacheEntryExpiry p key) s = .next t ∧ findKv (part t p) key = none ∧
      KeepsMem s t ∧ t.issued = s.issued))

/-- HEAT_DECAY halves every heat and drops copies of units below 256, and does nothing in shard hold. A plan moves units without changing any collection or object, and no byte but in regions newly assigned, and never a PINNED_HBM unit. A move of one unit promotes or demotes it, and a write during a demotion abandons it. A copy-up brings the unit into HBM and performs the write, or marks it unreadable. A pool unit's second holder is replaced; the device holds, returns and frees other owners' units; and a replica is rebuilt at the chosen device. -/
def Obligations.SkidderPlacesAndMovesUnits : Prop :=
  (∀ (s : State), s.power.phase = .running →
    (holding s = true → exec .heatDecay s = .next s) ∧
    (holding s = false → ∃ t, exec .heatDecay s = .next t ∧ t = { s with skidder := t.skidder } ∧
      t.skidder = { s.skidder with units := s.skidder.units.map (fun u =>
        { u with heat := u.heat / 2, copies := if u.heat / 2 < 256 then 0 else u.copies }) })) ∧
  (∀ (s : State), skidderRuns s = true → (s.skidder.units.map PUnit.id).Nodup →
    ∃ t, exec .placementPlan s = .next t ∧ t.skidder.lastPlan = s.time ∧ KeepsMem s t ∧ t.parts = s.parts ∧
      t.skidder.units.map (fun u => (u.id, u.part, u.kind, u.cls, u.size, u.heat)) =
        s.skidder.units.map (fun u => (u.id, u.part, u.kind, u.cls, u.size, u.heat)) ∧
      (∀ u ∈ t.skidder.units, u.cls = 0 → ∃ v ∈ s.skidder.units, v.id = u.id ∧ v.loc = u.loc)) ∧
  (∀ (s : State) (a : UnitMoveArgs) u, skidderRuns s = true → unitById s a.unit = some u →
    (a.toHbm = true → u.loc = .flash → (u.cls = 1 ∨ u.cls = 2) → mayPromote s u = true → u.span ≤ freeHbm s →
      exec (.unitMove a) s = .next (promote u s)) ∧
    (a.toHbm = false → a.dirtied = true → exec (.unitMove a) s = .next s) ∧
    (a.toHbm = false → u.cls = 0 → exec (.unitMove a) s = .next s) ∧
    (a.toHbm = false → a.dirtied = false → u.loc = .hbm → exec (.unitMove a) s = .next (demote u s))) ∧
  (∀ (s : State) (a : CopyUpArgs) u, s.power.phase = .running → unitById s a.unit = some u → u.loc ≠ .hbm →
    (a.ok = false → exec (.copyUp a) s = .next (unitUnreadable u s)) ∧
    (∀ h e, a.ok = true → u.kind = .extent h e → isPoisoned s u.part h e = true → exec (.copyUp a) s = .next (unitUnreadable u s)) ∧
    (∀ h e, a.ok = true → u.kind = .extent h e → isPoisoned s u.part h e = false → a.data = [] →
      ∃ t, exec (.copyUp a) s = .next t ∧ (∀ v ∈ t.skidder.units, v.id = a.unit → v.loc = .hbm ∧ v.holders = []) ∧
        KeepsMem s t ∧ (∀ i ∈ t.deck.images, isImg u.part h e i = false)) ∧
    (a.ok = true → (∀ h e, u.kind ≠ .extent h e) → exec (.copyUp a) s = .next (copyUpUnit u s))) ∧
  (∀ (s : State) unit lost new u other, firmwareRuns s = true → unitById s unit = some u → u.loc = .pool → lost ∈ u.holders →
    (u.holders.filter (fun d => d ≠ lost) = [other] → new ≠ other → new ≠ ownId s →
      ∃ t, exec (.poolUnitRecopy unit lost new) s = .next t ∧
        (∀ v ∈ t.skidder.units, v.id = unit → v.holders = [other, new]) ∧
        (other ∉ s.fabric.lost → fwHolds t other u.part (.poolRead unit)) ∧ t.mem = s.mem ∧ t.parts = s.parts) ∧
    (u.holders.filter (fun d => d ≠ lost) = [] →
      exec (.poolUnitRecopy unit lost new) s = .next (unitUnreadable u (onUnit unit (fun u => { u with holders := [] }) s)))) ∧
  (∀ (s : State) owner p key data, s.power.phase = .running → s.deck.inService = true →
    (holding s = false → heldFor s owner p key = none → mayHold s data.length = true →
      ∃ t, exec (.poolHolderRequest owner p 0 key data) s = .next t ∧
        heldFor t owner p key = some { owner := owner, part := p, key := key, data := data } ∧ t.mem = s.mem) ∧
    (∀ h, heldFor s owner p key = some h →
      exec (.poolHolderRequest owner p 1 key data) s = .next (sendFw owner p (.poolData key h.data) s)) ∧
    (∃ t, exec (.poolHolderRequest owner p 2 key data) s = .next t ∧ heldFor t owner p key = none ∧ t.mem = s.mem)) ∧
  (∀ (s : State) p coll number device c, skidderRuns s = true →
    (findColl s p coll = some c → c.role = 0 → number ∈ c.rebuilding → replicaPlace s c number device = true → p < s.parts.length →
      ∃ t c2, exec (.replicaRebuild p coll number device none) s = .next t ∧ findColl t p coll = some c2 ∧
        (number, device) ∈ c2.replicaSet ∧ number ∉ c2.rebuilding ∧ c2.recs = c.recs ∧ c2.committed = c.committed) ∧
    (device = ownId s → c.num = coll → (part s p).state = .active → findShard s p coll c.shardOrdinal = none → number ≠ 0 →
      p < s.parts.length → coll < 65536 → (findColl s p coll = none ∨ findColl s p (replicaKey coll c.shardOrdinal) = none) →
      ∃ t n, exec (.replicaRebuild p coll number device (some c)) s = .next t ∧
        n = (if (findColl s p coll).isNone then coll else replicaKey coll c.shardOrdinal) ∧
        findColl t p n = some { c with role := number, num := n }))

/-- GOVERNOR_GRANT on a running device grants passes that waited or have just been handed over, of engines not marked faulted, until the grants reach the effective cap or no engine without a grant has a waiting pass; grants never rise above the larger of their number before and the cap, and no engine gets two. At an effective cap of 0 no pass is left waiting. Nothing else changes but what Loupe records. -/
def Obligations.GovernorGrantsWithinTheCap : Prop :=
  ∀ (s : State) (a : GrantArgs), paveRuns s = true → a.stack < s.pave.allStacks.length →
    let k := stackOf s a.stack
    ∃ t, exec (.governorGrant a) s = .next t ∧ Shown { s with pave := t.pave } t ∧
      (∀ n, n ≠ a.stack → stackOf t n = stackOf s n) ∧
      let j := stackOf t a.stack
      j = { k with granted := j.granted, waiting := j.waiting, lastGrant := j.lastGrant } ∧
      j.granted.length ≤ max k.granted.length (effectiveCap s k) ∧
      ((k.granted.map Pass.engine).Nodup → (j.granted.map Pass.engine).Nodup) ∧
      (∃ more, j.granted = k.granted ++ more ∧ ∀ x ∈ more,
        (x ∈ k.waiting ∨ x ∈ a.arrivals ∧ validPass s a.stack x = true) ∧ k.faulted.getLsbD x.engine = false) ∧
      (effectiveCap s k = 0 → j.waiting = []) ∧
      (j.granted.length < effectiveCap s k → ∀ x ∈ j.waiting, x.engine < 64 → ∃ y ∈ j.granted, y.engine = x.engine)

/-- PAVE_PASS_END frees the engine's grant unless an add of the engine has its row's lock, counts each row of an uncorrectable line, puts it among the collection's skipped rows and the requesting query's, sets the stack's bit of PAV_INT_STATUS, and counts each corrected line, of which one a second is logged. PASS_OVERRUN and ENGINE_FAULT mark the engine, with the stack's fault bit and a ledger entry when the mark is new, and leave it no pass granted or waiting. PAV_COMMIT with bit 0 copies the operator's shadows only. SKIPPED_ROW_RESTORE takes the row off the skipped ones and retires the line when one of its steps succeeds, and logs the loss otherwise. -/
def Obligations.PassesEndAndFaultedEnginesStop : Prop :=
  (∀ (s : State) (a : PassEndArgs) (x : Pass), a.stack < 8 → s.pave.allStacks.length = 8 →
    (stackOf s a.stack).granted.find? (fun y => y.engine = a.engine) = some x →
    let k := stackOf s a.stack
    let rows := (a.lines.filter (fun l => decide (decodeLine l.wrong = .uncorrectable))).flatMap LineRead.rows
    let fixed := a.lines.filter (fun l => decide (decodeLine l.wrong = .corrected))
    let quiet : Bool := match k.eccLogged.getD a.engine none with | some t => decide (s.time < t + 1000000) | none => false
    (engineLeased s a.stack a.engine = true → exec (.pavePassEnd a) s = .next s) ∧
    (engineLeased s a.stack a.engine = false →
      ∃ t, exec (.pavePassEnd a) s = .next t ∧
        (∃ more, (stackOf t a.stack).granted = k.granted.erase x ++ more) ∧
        (stackOf t a.stack).granted.length ≤ max (k.granted.length - 1) (effectiveCap s k) ∧
        t.pave.skipCount.toNat = min 0xFFFFFFFF (s.pave.skipCount.toNat + rows.length) ∧
        (a.engine < k.corrected.length →
          (stackOf t a.stack).corrected.getD a.engine 0 = k.corrected.getD a.engine 0 + fixed.length) ∧
        (s.power.fwFault = false → a.engine < k.eccLogged.length →
          t.logSeq = s.logSeq + rows.length + (if fixed.isEmpty || quiet then 0 else 1)) ∧
        (∀ r ∈ rows, ∀ c, findColl t r.part r.coll = some c → ({ ordinal := r.ordinal, form := r.form } : Skip) ∈ c.skipped) ∧
        (∀ p sq tag, x.requester = some (p, sq, tag) → ∀ w ∈ (part t p).running, w.sq = sq → w.tag = tag →
          ∀ y, w.kind = .query y → ∀ r ∈ rows, r.part = p → r.coll = y.coll →
            ({ ordinal := r.ordinal, form := r.form } : Skip) ∈ y.snap.skipped) ∧
        (rows ≠ [] → t.pave.intStatus.toNat.testBit a.stack = true) ∧ t.mem = s.mem ∧ t.time = s.time)) ∧
  (∀ (s : State) (a : EngineArgs) (c : Instr), s.pave.allStacks.length = 8 → a.stack < 8 → a.engine < 64 →
    (c = .engineFault a ∧ s.power.phase = .running ∨
      c = .passOverrun a ∧ paveRuns s = true ∧ (stackOf s a.stack).granted.any (fun x => x.engine = a.engine) = true) →
    ((stackOf s a.stack).granted.map Pass.engine).Nodup →
    let k := stackOf s a.stack
    ∃ t, exec c s = .next t ∧ t.parts = s.parts ∧ t.mem = s.mem ∧ (∀ n, n ≠ a.stack → stackOf t n = stackOf s n) ∧
      (stackOf t a.stack).faulted = k.faulted ||| BitVec.ofNat 64 (2 ^ a.engine) ∧
      (∀ x ∈ (stackOf t a.stack).granted ++ (stackOf t a.stack).waiting, x.engine ≠ a.engine) ∧
      (stackOf t a.stack).granted.length ≤ max k.granted.length (effectiveCap s k) ∧
      (k.faulted.getLsbD a.engine = false →
        t.pave.intStatus.toNat.testBit (8 + a.stack) = true ∧ t.cruise.ledgerSeq = s.cruise.ledgerSeq + 1 ∧
        ∃ e, t.cruise.ledger.getLast? = some e ∧ e.seq = s.cruise.ledgerSeq + 1 ∧ e.cause = 3 ∧ e.result = 0x40)) ∧
  (∀ (s : State) (v : Reg), hostReaches s 0 = true →
    ∃ t, exec (.pavCommit v) s = .next t ∧ t = { s with pave := { s.pave with allStacks := t.pave.allStacks } } ∧
      t.pave.allStacks.length = s.pave.allStacks.length ∧ ∀ n, n < s.pave.allStacks.length →
        stackOf t n = if v.toNat.testBit 0 then { stackOf s n with opActive := (stackOf s n).opShadow } else stackOf s n) ∧
  (∀ (s : State) (a : RestoreArgs) (c : Coll), a.part < s.parts.length → findColl s a.part a.coll = some c →
    firmwareRuns s = true → ({ ordinal := a.ordinal, form := a.lost } : Skip) ∈ c.skipped →
    let reads := a.rereads.any (fun w => decide (decodeLine w ≠ .uncorrectable)) || (a.copy && hasCopy s a.part c a.ordinal a.lost)
    (reads = true ∨ (deriveForm c a.ordinal a.lost a.readable).isSome = true →
      ∃ t d, exec (.skippedRowRestore a) s = .next t ∧ findColl t a.part a.coll = some d ∧
        d.skipped = c.skipped.filter (fun y => y ≠ { ordinal := a.ordinal, form := a.lost }) ∧ d.recs = c.recs ∧
        (reads = true → d.green = c.green ∧ d.segs = c.segs) ∧
        ({ ordinal := a.ordinal, form := a.lost, line := Config.freshLine s.freeCount } : Fresh) ∈ d.fresh ∧
        a.line ∈ t.skidder.retiredLines ∧ t.mem = s.mem ∧ t.logSeq = s.logSeq) ∧
    (reads = false → deriveForm c a.ordinal a.lost a.readable = none →
      exec (.skippedRowRestore a) s = .next (logAdd 4 6 a.part a.line 2 s)))

/-- CRUISE_RUN without a cause for a run does nothing. With one, at SERVICE_LEVEL 2, it sets each grove in plan to its lowest step with slack enough, or takes a spare, or puts the grove out of service at the ceiling; it sets every stack's Cruise cap and refresh rate and leaves its operator cap alone; one ledger entry follows and no DEV_CRUISE waits any more. The lowest step lies from 560 mV to the ceiling, has the slack, and no lower one has. The hardware raise adds 10 mV up to the ceiling and starts a run; at the ceiling it is a fault of the tile beside the monitor. -/
def Obligations.CruisePlansVoltagesAndCaps : Prop :=
  (∀ (target ceil : Nat) (slack : List Nat) (v : Nat × Nat), lowestStep target ceil slack = some v →
    560 ≤ v.1 ∧ v.1 ≤ ceil ∧ v.1 % 5 = 0 ∧ target ≤ v.2 ∧ slack[(v.1 - 560) / 5]? = some v.2 ∧
    ∀ i, 560 + 5 * i < v.1 → ∀ x, slack[i]? = some x → x < target) ∧
  (∀ (s : State) (a : CruiseSamples), firmwareRuns s = true → s.power.level = 2 → s.power.needsReset = false → holding s = false →
    s.groves.length = 16 → s.pave.allStacks.length = 8 → runDue a s = true → (∀ g, a.slowest.getD g 0 < 36) →
    let c := s.cruise
    ∃ t, exec (.cruiseRun a) s = .next t ∧ t.cruise.running = false ∧ t.cruise.doneTags = [] ∧
      (∀ x, hbmBase ≤ x → cellsRead t.mem x = cellsRead s.mem x) ∧ t.cruise.lastRun = some s.time ∧ t.cruise.lastHottest = a.hottest ∧
      t.cruise.thresholdGen = c.thresholdGen + 1 ∧ t.cruise.ledgerSeq = c.ledgerSeq + 1 ∧
      (∃ e, t.cruise.ledger.getLast? = some e ∧ e.seq = c.ledgerSeq + 1 ∧ e.cause = c.startCause.getD a.cause ∧ e.hottest = a.hottest ∧
        e.caps = t.pave.allStacks.map Stack.cruiseActive ∧ e.groveMv = t.groves.map Grove.mv) ∧
      (∀ n, n < 8 →
        let k := stackOf t n
        k.cruiseActive = 32 - 4 * ((c.targetSlackPs - a.baseSlack.getD n 0 + 9) / 10) ∧ k.cruiseShadow = k.cruiseActive ∧
        k.opShadow = (stackOf s n).opShadow ∧ k.opActive = (stackOf s n).opActive ∧ k.granted = (stackOf s n).granted ∧
        k.refresh = (if 128 ≤ a.retentionMs.getD n 0 then 0 else if 64 ≤ a.retentionMs.getD n 0 then 1 else 2)) ∧
      ∀ g, g < 16 → (groveOf s g).degraded = false →
        (∀ v, lowestStep c.targetSlackPs c.vCeil (a.groveSlack.getD g []) = some v →
          groveOf t g = { groveOf s g with mv := v.1, slack := v.2 }) ∧
        (lowestStep c.targetSlackPs c.vCeil (a.groveSlack.getD g []) = none →
          ((groveOf s g).sparesUsed < 2 → (groveOf t g).sparesUsed = (groveOf s g).sparesUsed + 1 ∧
            (groveOf t g).inService = (groveOf s g).inService ∧
            (a.slowest.getD g 0, 37 - (groveOf s g).sparesUsed) ∈ (groveOf t g).remap) ∧
          (2 ≤ (groveOf s g).sparesUsed → (groveOf t g).degraded = true ∧ (groveOf t g).inService = false ∧
            (groveOf t g).mv = c.vCeil ∧ ∀ r ∈ t.runs, r.started = true → g ∉ r.groves))) ∧
  (∀ (s : State) (a : CruiseSamples), runDue a s = false → exec (.cruiseRun a) s = .next s) ∧
  (∀ (s : State) (g slack tile : Nat), s.power.phase = .running → g < 16 → s.groves.length = 16 →
    (20 ≤ slack → exec (.hwVoltageRaise g { slack := slack, tile := tile }) s = .next s) ∧
    (slack < 20 → s.cruise.vCeil ≤ (groveOf s g).mv → exec (.hwVoltageRaise g { slack := slack, tile := tile }) s = .next (tileFault g tile s)) ∧
    (slack < 20 → (groveOf s g).mv < s.cruise.vCeil →
      ∃ t, exec (.hwVoltageRaise g { slack := slack, tile := tile }) s = .next t ∧
        groveOf t g = { groveOf s g with mv := min s.cruise.vCeil ((groveOf s g).mv + 10), slack := slack } ∧
        t.cruise.intStatus = s.cruise.intStatus ||| 8 ∧ t.parts = s.parts ∧ t.mem = s.mem ∧
        t.cruise.running = (s.cruise.running || cruiseMayRun s)))

/-- An image within its limits gets weight space and the load is accepted; its COMMAND_DONE reports the first image check that fails, and an image that passes has its weights there. One beyond the limits answers MODEL_LIMIT. A loaded model unloads at once, or when its last run is over. A calibration with good items is accepted and its runs wait; while it goes on no run folds ranges. A tile fault takes a spare, logged and in the ledger, whose SRAM holds nothing of the former tile, or puts the grove out of service and restarts its runs elsewhere. -/
def Obligations.ModelsLoadUnloadAndCalibrate : Prop :=
  (∀ (s : State) (r : MbxReq) (a : MdlLoadArgs), r.partition < s.parts.length → Admits s r Op.mdlLoad none (lengthIn r [32]) →
    let p := r.partition
    let img := fitBytes a.imageLen a.image
    1 ≤ a.model → a.model ≤ 65535 → 1 ≤ dflt 4 a.emaShift → dflt 4 a.emaShift ≤ 8 → 1 ≤ dflt 1 a.instances →
    dflt 1 a.instances ≤ 16 → a.imageAddr % 4096 = 0 → findModel (part s p) a.model = none →
    (overModelLimit s p img = true → Answers (.mdlLoad r a) r Op.mdlLoad St.modelLimit 0 false [] s s) ∧
    (∀ base, overModelLimit s p img = false → hbmRoom s p (imgNum img 16 8 + imgNum img 24 8) = true →
      allocObj s p (imgNum img 16 8 + imgNum img 24 8) false = some base →
      let m : Model := { parseModel a s.nextRun 0 img with base := base }
      let u := settlePart p (onPart p (fun t => { t with models := t.models ++ [m] })
        { s with nextRun := s.nextRun + 1, mem := cellsClear s.mem base (roundUp2M m.weightBytes) })
      m.invalid = imageReason (dflt 1 a.instances) img ∧
      (m.invalid = 0 → Answers (.mdlLoad r a) r Op.mdlLoad St.ok 0 true []
        (addJob (doneDest r) Op.mdlLoad r.tag p St.ok 0 (.modelReady a.model) (writeMem base (weightImage img) u)) s) ∧
      (m.invalid ≠ 0 → Answers (.mdlLoad r a) r Op.mdlLoad St.ok 0 true []
        (addJob (doneDest r) Op.mdlLoad r.tag p St.imageInvalid m.invalid (.modelDrop a.model) u) s))) ∧
  (∀ (s : State) (r : MbxReq) (h : Nat) (m : Model), r.partition < s.parts.length →
    Admits s r Op.mdlUnload none (lengthIn r [8]) → 1 ≤ h → h ≤ 65535 → findModel (part s r.partition) h = some m →
    m.loading = false →
    ∃ u, Answers (.mdlUnload r h) r Op.mdlUnload St.ok 0 false [] u s ∧
      (∀ x ∈ (part u r.partition).models, x.serial = m.serial → x.unloaded = true ∧ modelUsed s r.partition m.serial = true) ∧
      u = { s with parts := u.parts } ∧ ∀ n, n ≠ r.partition → part u n = part s n) ∧
  (∀ (s : State) (r : MbxReq) (a : CalibrateArgs) (m : Model), r.partition < s.parts.length →
    Admits s r Op.mdlCalibrate none (lengthIn r [32]) → findModel (part s r.partition) a.model = some m → m.loading = false →
    (if a.inputKind = 1 then firstFail (vocabChecks (part s r.partition) a.vocab 34) = none else a.vocab = 0) →
    kindSuits m.inputBinding a.inputKind = true → 1 ≤ a.count → a.count ≤ 4096 → itemsLen (fitItems a.count a.items) ≤ a.inLen →
    (∀ x ∈ fitItems a.count a.items, itemBad m a.inputKind x = false) → (variantNow s m).isSome = true →
    let run : CanopyRun :=
      { id := s.nextRun, part := r.partition, sq := 64, tag := r.tag, model := m.serial, use := .calibrate a.freezeAfter
        generate := false
        inputs := (fitItems a.count a.items).map (itemInput m (findVocab (part s r.partition) a.vocab) a.inputKind) }
    Answers (.mdlCalibrate r a) r Op.mdlCalibrate St.ok 0 true []
      (addJob (doneDest r) Op.mdlCalibrate r.tag r.partition St.ok 0 (.modelCalibrated m.serial)
        (queueRun run (onModel r.partition m.serial (fun m => { m with calibrating := m.calibrating + 1 }) s))) s) ∧
  (∀ (s : State) (p n : Nat) obs m, modelOf (part s p) n = some m → m.calibrating ≠ 0 →
    modelOf (part (foldRun p n obs s) p) n = some m) ∧
  (∀ (s : State) (g tile : Nat), firmwareRuns s = true → g < s.groves.length → (groveOf s g).inService = true → tile < 36 →
    Memory.wf s.mem = true →
    ∃ t, exec (.tileFault g tile) s = .next t ∧ (∀ n, n ≠ g → groveOf t n = groveOf s n) ∧
      (∀ x, x < tileAddr g tile ∨ tileAddr g tile + 0x40000 ≤ x → cellsRead t.mem x = cellsRead s.mem x) ∧
      ((groveOf s g).sparesUsed < 2 →
        (groveOf t g).sparesUsed = (groveOf s g).sparesUsed + 1 ∧
        (groveOf t g).remap = (groveOf s g).remap.filter (fun r => r.1 ≠ tile) ++ [(tile, 37 - (groveOf s g).sparesUsed)] ∧
        (groveOf t g).inService = true ∧ (groveOf t g).degraded = (groveOf s g).degraded ∧ (groveOf t g).mv = (groveOf s g).mv ∧
        ((∀ r ∈ s.runs, r.started = true → g ∉ r.groves) →
          ∀ x, tileAddr g tile ≤ x → x < tileAddr g tile + 0x40000 → cellsRead t.mem x = 0) ∧
        t.runs = s.runs ∧ t.logSeq = s.logSeq + 1 ∧ t.cruise.ledgerSeq = s.cruise.ledgerSeq + 1) ∧
      (2 ≤ (groveOf s g).sparesUsed →
        groveOf t g = { groveOf s g with degraded := true, inService := false } ∧ t.runs.length = s.runs.length ∧ t.mem = s.mem ∧
        ∀ r ∈ t.runs, r.started = true → g ∉ r.groves))

/-- MDL_RUN fails its checks with the first of them, and otherwise stays running with its items waiting, tokenised as admitted. CANOPY_RUN_START gives the first waiting run as many groves in service as its variant needs, none of them held by another started run, each with its place in the image, and writes no byte of HBM. CANOPY_SEGMENT_END executes a segment, or ends a cancelled run. CANOPY_RUN_END after the last segment folds what the run observed, writes the item's output, and lets the next item wait, or completes the command and lets the run go; the last item of a calibration commits its ranges. -/
def Obligations.CanopyRunsWaitStartAndEnd : Prop :=
  (∀ (s : State) (q : SqReq) (a : MdlRunArgs) (gen : Bool), q.part < s.parts.length → Takes s q Op.mdlRun none →
    let c : Instr := if gen then .mdlRunGenerate q a else .mdlRun q a
    (∀ e, firstFail (modelChecks (part s q.part) a.model 16) = some e → Completes c q e.1 0 e.2 0 s s) ∧
    ∀ m, firstFail (modelChecks (part s q.part) a.model 16) = none → findModel (part s q.part) a.model = some m →
      (∀ e, firstFail (mdlRunChecks s (part s q.part) m gen a) = some e → Completes c q e.1 0 e.2 0 s s) ∧
      (firstFail (mdlRunChecks s (part s q.part) m gen a) = none →
        ∃ t w, exec c s = .next t ∧ t.nextRun = s.nextRun + 1 ∧
          t.runs = s.runs ++ [{ id := s.nextRun, part := q.part, sq := q.sq, tag := q.tag, model := m.serial, use := .items a
                                generate := gen
                                inputs := (fitItems a.batch a.items).map
                                  (itemInput m (findVocab (part s q.part) a.vocab) a.inputKind)
                                grammar := if gen then grammarPair (part s q.part) a.grammar else none }] ∧
          (part t q.part).running = (part s q.part).running ++ [w] ∧
          w = { sq := q.sq, tag := q.tag, opcode := Op.mdlRun, context := q.context, noInt := q.noInt, kind := .model s.nextRun })) ∧
  (∀ (s : State) (r : CanopyRun) (m : Model) (red : Bool), s.runs.find? (fun r => !r.started) = some r → mayStart s = true →
    r.cancelled = false → modelOf (part s r.part) r.model = some m → variantAt (r.full s) s m = some red → contextShort s r = false →
    let w := if red then m.reducedWidth else m.width
    let gs := (freeGroves s).take w
    w ≤ (freeGroves s).length → ((runsOf s r.part r.model).filter CanopyRun.started).length < m.instances →
    ∃ t, exec .canopyRunStart s = .next t ∧ t = { s with runs := t.runs, groves := t.groves, mem := t.mem, loupe := t.loupe } ∧
      gs.length = w ∧ gs.Nodup ∧ (∃ r' ∈ t.runs, r' = beginItem m red gs r ∧ r'.started = true ∧ r'.groves = gs ∧ r'.set = m.set) ∧
      (∀ g ∈ gs, (groveOf s g).inService = true ∧ ∀ y ∈ s.runs, y.started = true → g ∉ y.groves) ∧
      (∀ x ∈ gs.zipIdx, (groveOf t x.1).last = some (r.part, m.digest, red, x.2)) ∧
      (Memory.wf s.mem = true → s.groves.length = 16 → ∀ x, hbmBase ≤ x → cellsRead t.mem x = cellsRead s.mem x) ∧
      ((s.runs.map CanopyRun.id).Nodup →
        (s.runs.filter CanopyRun.started).Pairwise (fun x y => ∀ g ∈ x.groves, g ∉ y.groves) →
        (t.runs.filter CanopyRun.started).Pairwise (fun x y => ∀ g ∈ x.groves, g ∉ y.groves))) ∧
  (∀ (s : State) (r : CanopyRun), s.runs.find? (fun x => decide (x.id = r.id)) = some r → firmwareRuns s = true →
    (r.cancelled = true → ∃ t, exec (.canopySegmentEnd r.id) s = .next t ∧ t.runs = s.runs.filter (fun x => x.id ≠ r.id) ∧
      t.issued = s.issued) ∧
    (∀ m, r.cancelled = false → r.started = true → modelOf (part s r.part) r.model = some m → r.segment < m.segments →
      let e := runSegment m r s
      ∃ t, exec (.canopySegmentEnd r.id) s = .next t ∧ t.runs.length = s.runs.length ∧
        { r with segment := r.segment + 1, bufs := e.bufs, obs := e.obs, clamps := e.clamps } ∈ t.runs ∧
        t = { e.st with runs := t.runs })) ∧
  (∀ (s : State) (r : CanopyRun) (m : Model), s.runs.find? (fun y => decide (y.id = r.id)) = some r → r.part < s.parts.length →
    modelOf (part s r.part) r.model = some m → firmwareRuns s = true → r.started = true → m.segments ≤ r.segment →
    r.cancelled = false →
    let folded := if m.calibrating = 0 then foldObs m r.obs else m
    (∀ a next out x, r.use = .items a → endItem s m r = .ends next out → runningOf s r = some x →
      (next.item < next.inputs.length →
        ∃ t, exec (.canopyRunEnd r.id) s = .next t ∧ next ∈ t.runs ∧ t.mem = s.mem ∧ t.groves = s.groves ∧
          modelOf (part t r.part) r.model = some folded ∧
          (s.landing.linkActive = true → out ≠ [] →
            Out.hostWrite (1 + r.part) (a.outAddr + r.item * runStride m r.generate a) out ∈ t.issued ++ t.landing.waiting)) ∧
      (next.inputs.length ≤ next.item →
        let c := if next.everReduced then condReduced else 0
        ∃ v, exec (.canopyRunEnd r.id) s = .next (endRunning r.part x (statusOfConditions c) c 0 0 v) ∧
          v.runs = s.runs.filter (fun y => y.id ≠ r.id) ∧ v.mem = s.mem ∧ v.groves = s.groves ∧
          (s.landing.linkActive = true → out ≠ [] →
            Out.hostWrite (1 + r.part) (a.outAddr + r.item * runStride m r.generate a) out ∈ v.issued ++ v.landing.waiting))) ∧
    (∀ a next, r.use = .items a → endItem s m r = .goes next →
      ∃ t, exec (.canopyRunEnd r.id) s = .next t ∧ next ∈ t.runs ∧ next.toks.length = r.toks.length + 1 ∧
        next.toks.length < a.maxNew ∧ modelOf (part t r.part) r.model = some folded ∧ t.issued = s.issued) ∧
    (∀ freeze next out, r.use = .calibrate freeze → endItem s m r = .ends next out → next.inputs.length ≤ next.item →
      m.unloaded = false →
      ∃ t, exec (.canopyRunEnd r.id) s = .next t ∧ t.runs = s.runs.filter (fun y => y.id ≠ r.id) ∧
        modelOf (part t r.part) r.model = some (calibrated m freeze next.seen)))

/-- An item's output fits the stride between items when its sequence is no longer than SEQ_MAX and fewer than MAX_NEW tokens stood before its last step. An input sequence of a model whose fields leave it room is at most SEQ_MAX long. Every code of a quantiser and of an integer layer lies in the range of its format. A generated token is allowed by the mask, in the vocabulary, and no allowed token ranks ahead of it. -/
def Obligations.RunOutputsFitAndFollowTheGrammar : Prop :=
  (∀ (s : State) (m : Model) (r next : CanopyRun) a out, r.use = .items a → endItem s m r = .ends next out →
    (r.inputs.getD r.item { seq := [], front := 0, bytes := [], cut := false }).seq.length ≤ m.seqMax →
    (r.generate = true → r.toks.length < a.maxNew) → out.length ≤ runStride m r.generate a) ∧
  (∀ (m : Model) (a b : List Nat),
    (m.inputBinding = 1 → m.queryMax + 3 ≤ m.seqMax → (seqInput m a b).seq.length ≤ m.seqMax ∧
      ((seqInput m a b).cut = false → a.Sublist (seqInput m a b).seq ∧ b.Sublist (seqInput m a b).seq)) ∧
    (m.inputBinding = 0 → (optId m.cls ++ optId m.sep).length ≤ m.seqMax → (seqInput m a b).seq.length ≤ m.seqMax ∧
      ((seqInput m a b).cut = false → (seqInput m a b).seq = optId m.cls ++ a ++ optId m.sep))) ∧
  (∀ (t : Tensor) (x : List F32), ∀ q ∈ (quantise t x).1, (codeRange t.int4).1 ≤ q ∧ q ≤ (codeRange t.int4).2) ∧
  (∀ (t : Tensor) table accs, (layerCodes t table accs).1.length = accs.length ∧
    ∀ q ∈ (layerCodes t table accs).1, (codeRange t.int4).1 ≤ q ∧ q ≤ (codeRange t.int4).2) ∧
  (∀ (logits : List F32) (allowed : Nat → Bool) (n t : Nat), bestLogit logits allowed n = some t →
    t < n ∧ allowed t = true ∧ ∀ u, u < n → allowed u = true →
      ¬ rankKey true (logits.getD u 0) < rankKey true (logits.getD t 0) ∧
      (rankKey true (logits.getD u 0) = rankKey true (logits.getD t 0) → t ≤ u)) ∧
  (∀ (logits : List F32) (allowed : Nat → Bool) (n : Nat), bestLogit logits allowed n = none ↔ ∀ u, u < n → allowed u = false)

/-- A NaN has rank key 0xFFFF_FFFF; any other score the key of R239's mapping, with −0 as +0. A lower key ranks ahead: where lower scores are better, of two non-NaN scores the numerically lower one has the lower key, and where higher scores are better the higher one. Non-NaN keys lie between 0x007F_FFFF and 0xFF80_0000, so every NaN, 0xFFFF_FFFF among them, ranks worst in both directions. -/
def Obligations.RankKeysOrderScores : Prop :=
  let nan (x : F32) : Prop := 0x7F800000 < x.toNat % 2 ^ 31
  let value (x : F32) : Int := if x.toNat < 2 ^ 31 then (x.toNat : Int) else -((x.toNat : Int) - 2 ^ 31)
  (∀ (hi : Bool) (x : F32), nan x → rankKey hi x = 0xFFFFFFFF) ∧ nan 0xFFFFFFFF ∧
  (∀ (hi : Bool) (x : F32), ¬nan x →
    let b : F32 := if x = 0x80000000 then 0 else x
    let u : F32 := if b.toNat < 2 ^ 31 then b ||| 0x80000000 else ~~~b
    rankKey hi x = (if hi then ~~~u else u).toNat ∧ 0x007FFFFF ≤ rankKey hi x ∧ rankKey hi x ≤ 0xFF800000) ∧
  (∀ x y : F32, ¬nan x → ¬nan y →
    (rankKey false x < rankKey false y ↔ value x < value y) ∧ (rankKey true x < rankKey true y ↔ value y < value x)) ∧
  (∀ (hi : Bool) (x y : F32), ¬nan x → nan y → rankKey hi x < rankKey hi y)

/-- Each command fails its checks with the first of them. A tokenisation whose tokens exceed OUT_MAX answers BUFFER_TOO_SMALL with their number and keeps the stream as it was; one that fits writes its tokens and keeps what the stream holds. A detokenisation of a halted stream answers STREAM_HALTED, or closes it with END; another writes the released bytes, or answers BUFFER_TOO_SMALL with their number. -/
def Obligations.TextIsTokenizedAndReleased : Prop :=
  (∀ (s : State) (q : SqReq) (a : TokenizeArgs), q.part < s.parts.length → Takes s q Op.txtTokenize none →
    let u := if a.useStream = true ∧ ¬ a.open_ = true then touchStream q.part a.stream s else s
    (∀ e, firstFail (tokenizeChecks u q.part a) = some e → Completes (.txtTokenize q a) q e.1 0 e.2 0 u s) ∧
    (∀ v, firstFail (tokenizeChecks u q.part a) = none → findVocab (part s q.part) a.vocab = some v →
      let before : List Byte × Nat × Bool := match (if a.open_ then none else findStream (part s q.part) a.stream) with
        | some { kind := .tok _ h o st, .. } => (h, o, st)
        | _ => ([], 0, false)
      let text := fitBytes a.inLen a.text
      let r : StreamOut := if a.useStream then streamStep v before.1 before.2.1 before.2.2 text a.end_
        else { toks := tokenise v true text, held := [], offset := a.inLen, started := true, cut := false }
      let toks := (if a.addBos = true ∧ (a.useStream = false ∨ a.open_ = true) then [(v.bos, 0)] else []) ++ r.toks ++
        (if a.addEos = true ∧ (a.useStream = false ∨ a.end_ = true) then [(v.eos, r.offset)] else [])
      (a.outMax < toks.length → Completes (.txtTokenize q a) q St.bufferTooSmall 0 toks.length 0 u s) ∧
      (toks.length ≤ a.outMax →
        Completes (.txtTokenize q a) q St.ok 0 toks.length (r.held.length % 65536 + (if r.cut then 65536 else 0))
          (if a.useStream then
            setStream q.part a.stream (if a.end_ then none else some (.tok a.vocab r.held r.offset r.started)) u
          else u) s ∧
        (toks ≠ [] → s.landing.linkActive = true → ∃ t, exec (.txtTokenize q a) s = .next t ∧
          Out.hostWrite (1 + q.part) a.outAddr (toks.flatMap (fun t => le 4 t.1)) ∈ t.issued)))) ∧
  (∀ (s : State) (q : SqReq) (a : DetokArgs), q.part < s.parts.length → Takes s q Op.txtDetok none →
    let u := if a.open_ then s else touchStream q.part a.stream s
    (∀ e, firstFail (detokChecks u q.part a) = some e → Completes (.txtDetokStream q a) q e.1 0 e.2 0 u s) ∧
    (∀ v, firstFail (detokChecks u q.part a) = none → findVocab (part s q.part) a.vocab = some v →
      let toks := a.toks.take a.count ++ List.replicate (a.count - a.toks.length) 0
      let done (held : List Byte) (stops : List (List Byte)) (render eos : Bool) : Prop :=
        let r := detokRun v stops render eos a.end_ held toks
        (a.outLen < r.released.length → Completes (.txtDetokStream q a) q St.bufferTooSmall 0 r.released.length 0 u s) ∧
        (r.released.length ≤ a.outLen →
          Completes (.txtDetokStream q a) q St.ok 0 r.released.length
            (r.consumed % 65536 + r.out.length % 256 * 65536 + ((r.stop.map (fun n => n + 1)).getD 0) * 2 ^ 24 +
              (if r.stop.isSome then 2 ^ 32 else 0) + (if r.ended then 2 ^ 33 else 0))
            (setStream q.part a.stream
              (if a.end_ then none else some (.detok a.vocab r.out stops render eos (r.stop.isSome || r.ended))) u) s ∧
          (r.released ≠ [] → s.landing.linkActive = true → ∃ t, exec (.txtDetokStream q a) s = .next t ∧
            Out.hostWrite (1 + q.part) a.outAddr r.released ∈ t.issued))
      (a.open_ = true → done [] (a.stops.take a.stopCount) a.renderSpecial a.eosEnds) ∧
      (∀ n w held stops render eos halted l, a.open_ = false →
        findStream (part s q.part) a.stream = some { num := n, kind := .detok w held stops render eos halted, lastUse := l } →
        (halted = false → done held stops render eos) ∧
        (halted = true → a.end_ = false → Completes (.txtDetokStream q a) q St.streamHalted 0 0 0 u s) ∧
        (halted = true → a.end_ = true → Completes (.txtDetokStream q a) q St.ok 0 0 0 (setStream q.part a.stream none u) s))))

/-- A load fails its checks with the first of them, or is accepted, its COMMAND_DONE carrying the first image check that fails; an unload of a loaded, unnamed handle is accepted and drops it. A trie build begins and ends; a context unnamed for 600 s closes. GRM_STEP refuses a token out of range or not allowed, closes on its own, and otherwise steps the automaton and writes the mask of where it stands, halting on EOS or where no token is allowed, NO_MASK leaving only the write out. -/
def Obligations.ImagesLoadAndGrammarsStep : Prop :=
  (∀ (s : State) (r : MbxReq) (a : TextLoadArgs), r.partition < s.parts.length → Admits s r Op.vocabLoad none (lengthIn r [32]) →
    let p := r.partition
    let cs := (!within 1 65535 a.handle, St.invalidField, 32) :: (decide (268435456 < a.imageLen), St.invalidField, 48) ::
      textLoadChecks s p (findVocab (part s p) a.handle).isSome
        (part s p).vocabs.length (s.parts.map (fun t => t.vocabs.length)).sum 16 64 a
    (a.imageLen = 0 → exec (.vocabLoad r a) s = exec (.vocabUnload r { handle := a.handle, imageAddr := a.imageAddr }) s) ∧ (a.imageLen ≠ 0 →
    (∀ e, firstFail cs = some e → Answers (.vocabLoad r a) r Op.vocabLoad e.1 e.2 false [] s s) ∧
    (firstFail cs = none →
      let n := vocabReason (fitBytes a.imageLen a.image)
      ∃ base, allocObj s p a.imageLen false = some base ∧
        Answers (.vocabLoad r a) r Op.vocabLoad St.ok 0 true []
          (addJob (doneDest r) Op.vocabLoad r.tag p (if n = 0 then St.ok else St.textImageInvalid) n
            (if n = 0 then .vocabReady a.handle else .vocabDrop a.handle)
            (settlePart p (onPart p (fun t => { t with vocabs := t.vocabs ++
              [parseVocab a.handle base a.imageLen (fitBytes a.imageLen a.image)] }) s))) s))) ∧
  (∀ (s : State) (r : MbxReq) (a : TextLoadArgs) (v : Vocab), r.partition < s.parts.length →
    Admits s r Op.grmLoad none (lengthIn r [32]) → findVocab (part s r.partition) a.vocab = some v →
    let p := r.partition
    let cs := (!within 1 65535 a.handle, St.invalidField, 32) :: vocabChecks (part s p) a.vocab 34 ++
      textLoadChecks s p (findGrammar (part s p) a.handle).isSome (part s p).grammars.length
        (s.parts.map (fun t => t.grammars.length)).sum 256 1024 a
    (a.imageLen = 0 → exec (.grmLoad r a) s = exec (.grmUnload r { handle := a.handle, imageAddr := a.imageAddr }) s) ∧ (a.imageLen ≠ 0 →
    (∀ e, firstFail cs = some e → Answers (.grmLoad r a) r Op.grmLoad e.1 e.2 false [] s s) ∧
    (firstFail cs = none →
      let n := gramReason v (fitBytes a.imageLen a.image)
      ∃ base, allocObj s p a.imageLen false = some base ∧
        Answers (.grmLoad r a) r Op.grmLoad St.ok 0 true []
          (addJob (doneDest r) Op.grmLoad r.tag p (if n = 0 then St.ok else St.textImageInvalid) n
            (if n = 0 then .grammarReady a.handle else .grammarDrop a.handle)
            (settlePart p (onPart p (fun t => { t with grammars := t.grammars ++
              [parseGrammar a.handle a.vocab base a.imageLen (fitBytes a.imageLen a.image)] }) s))) s))) ∧
  (∀ (s : State) (r : MbxReq) (h : Nat), r.partition < s.parts.length → 1 ≤ h → h ≤ 65535 →
    (∀ v, Admits s r Op.vocabLoad none (lengthIn r [32]) → findVocab (part s r.partition) h = some v → v.loading = false →
      (∀ g ∈ (part s r.partition).grammars, g.vocab ≠ h) → streamsVocab (part s r.partition) h = false →
      Answers (.vocabUnload r { handle := h, imageAddr := 0 }) r Op.vocabLoad St.ok 0 true []
        (addJob (doneDest r) Op.vocabLoad r.tag r.partition St.ok 0 .nothing
          (onPart r.partition (fun t => { t with vocabs := t.vocabs.filter (fun x => x.handle ≠ h) }) s)) s) ∧
    (∀ g addr, addr % 4096 = 0 → Admits s r Op.grmLoad none (lengthIn r [32]) → findGrammar (part s r.partition) h = some g → g.loading = false →
      namesGrammar s r.partition h = false →
      Answers (.grmUnload r { handle := h, imageAddr := addr }) r Op.grmLoad St.ok 0 true []
        (addJob (doneDest r) Op.grmLoad r.tag r.partition St.ok 0 .nothing
          (onPart r.partition (fun t => { t with grammars := t.grammars.filter (fun x => x.handle ≠ h) }) s)) s)) ∧
  (∀ (s : State) (p v : Nat) (done : Bool), firmwareRuns s = true → (done = true → s.power.level = 2) →
    ∃ t, exec (.trieRebuild p v done) s = .next t ∧ t = { s with parts := t.parts } ∧
      (part t p).vocabs.length = (part s p).vocabs.length ∧ ∀ x ∈ (part t p).vocabs, x.handle = v → x.trie = done) ∧
  (∀ (s : State) (p n : Nat) (x : Stream), findStream (part s p) n = some x →
    (x.lastUse + 600000000 ≤ s.time → ∃ t, exec (.streamContextTimeout p n) s = .next t ∧ findStream (part t p) n = none ∧
      (∀ k, k ≠ n → findStream (part t p) k = findStream (part s p) k) ∧ t = { s with parts := t.parts }) ∧
    (s.time < x.lastUse + 600000000 → exec (.streamContextTimeout p n) s = .next s)) ∧
  (∀ (s : State) (q : SqReq) (a : GrmStepArgs), q.part < s.parts.length → Takes s q Op.grmStep none →
    let u := if a.open_ then s else touchStream q.part a.stream s
    (∀ e, firstFail (grmStepChecks u q.part a) = some e → Completes (.grmStep q a) q e.1 0 e.2 0 u s) ∧
    (∀ g v, firstFail (grmStepChecks u q.part a) = none → findGrammar (part s q.part) a.grammar = some g →
      findVocab (part s q.part) g.vocab = some v →
      (∀ n h c halted l, a.open_ = false →
        findStream (part s q.part) a.stream = some { num := n, kind := .gram h c halted, lastUse := l } →
        (a.close = true → a.hasToken = false → a.verify = false →
          Completes (.grmStep q a) q St.ok 0 0 (grmDetail g c false) (setStream q.part a.stream none u) s) ∧
        (halted = true → (a.close && !a.hasToken && !a.verify) = false →
          Completes (.grmStep q a) q St.streamHalted 0 0 0 u s)) ∧
      (∀ c, (a.open_ = true ∧ c = { state := g.start, stack := [] } ∨
          a.open_ = false ∧ (a.close && !a.hasToken && !a.verify) = false ∧
            ∃ n h l, findStream (part s q.part) a.stream = some { num := n, kind := .gram h c false, lastUse := l }) →
        (a.verify = true → preOnly s v = true → Completes (.grmStep q a) q St.notReady 0 0 0 u s) ∧
        ((a.verify = true → preOnly s v = false) →
        let cond := if reducedService s then condReduced else 0
        let put (d : Conf) (halted : Bool) : State :=
          setStream q.part a.stream (if a.close then none else some (.gram a.grammar d halted)) u
        (a.hasToken = true → v.tokens.length ≤ a.token → Completes (.grmStep q a) q St.invalidToken 0 0 0 u s) ∧
        (a.hasToken = true → a.token < v.tokens.length → gramAllows g v c a.token = false →
          Completes (.grmStep q a) q St.tokenNotAllowed 0 0 0 u s) ∧
        (a.hasToken = true → a.token < v.tokens.length → gramAllows g v c a.token = true → a.token = v.eos →
          Completes (.grmStep q a) q (statusOfConditions cond) cond 0 (grmDetail g c false) (put c true) s) ∧
        (∀ d, (a.hasToken = false ∧ d = c ∨ a.hasToken = true ∧ a.token < v.tokens.length ∧
            gramAllows g v c a.token = true ∧ a.token ≠ v.eos ∧ gramBytes g c (v.text a.token) = some d) →
          (serveMask (preOnly s v) g v a.verify d = none → Completes (.grmStep q a) q St.notReady 0 0 0 u s) ∧
          (∀ m pre wrong, serveMask (preOnly s v) g v a.verify d = some (m, pre, wrong) →
            let dead := !gramAccepts g d && (List.range v.tokens.length).all (fun t => decide (t = v.eos) || !maskBit m t)
            (wrong = none → dead = false →
              Completes (.grmStep q a) q (statusOfConditions cond) cond (maskCount v m) (grmDetail g d pre) (put d false) s) ∧
            (wrong = none → dead = true →
              Completes (.grmStep q a) q St.grammarDeadEnd 0 0 (grmDetail g d pre) (put d true) s) ∧
            (∀ i, wrong = some i → dead = false →
              Completes (.grmStep q a) q St.maskMismatch 0 (maskCount v m) (grmDetail g d pre - d.state % 65536 + i)
                (put d false) s) ∧
            (a.noMask = false → g.maskBytes ≠ 0 → s.landing.linkActive = true → ∃ t, exec (.grmStep q a) s = .next t ∧
              Out.hostWrite (1 + q.part) a.maskAddr (fitBytes g.maskBytes (if dead then [] else m)) ∈ t.issued)))))))

/-- When the held output has no stop string in it, neither have the bytes released nor the bytes held afterwards; without a stop or an end, the two together are the held output and the text of every token, and no stop string that later bytes complete begins before what is still held. Bit t of a walked mask is set exactly when token t is allowed. No accepted byte takes the stack past 256. -/
def Obligations.OutputsHoldNoStopAndMasksAreExact : Prop :=
  (∀ (v : Vocab) (stops : List (List Byte)) (render eos last : Bool) (held : List Byte) (toks : List Nat),
    findStop held stops = none →
    let r := detokRun v stops render eos last held toks
    findStop r.released stops = none ∧ findStop r.out stops = none ∧ r.consumed ≤ toks.length ∧
    (r.stop.isSome = true ∨ r.ended = true → r.out = []) ∧
    (r.stop = none → r.ended = false → r.consumed = toks.length ∧
      r.released ++ r.out = held ++ toks.flatMap (fun t => if v.special t then (if render then v.str t else []) else v.text t) ∧
      (last = true → r.out = []) ∧
      (last = false → ∀ more i n, findStop (r.released ++ r.out ++ more) stops = some (i, n) → r.released.length ≤ i))) ∧
  (∀ (g : Grammar) (v : Vocab) (c : Conf) (t : Nat), t < v.tokens.length → t < 8 * g.maskBytes →
    maskBit (walkMask g v c) t = gramAllows g v c t) ∧
  (∀ (g : Grammar) (c d : Conf) (bs : List Byte), gramBytes g c bs = some d → c.stack.length ≤ 256 → d.stack.length ≤ 256) ∧
  (∀ (g : Grammar) (c : Conf) (xs ys : List Byte),
    gramBytes g c (xs ++ ys) = (gramBytes g c xs).bind (fun d => gramBytes g d ys))

/-- A packed prompt has at most TOKEN_BUDGET tokens and one map entry for each passage; behind a passage trimmed or dropped every passage is dropped; no passage keeps more than PASSAGE_MAX tokens, and none is trimmed without TRIM_TAIL. PROMPT_PACK fails its checks with the first of them, fails with the fault of its template, fixed parts or text buffer, or completes with the counts and its outputs go to the host. -/
def Obligations.PackedPromptsStayInBudget : Prop :=
  (∀ (v : Vocab) (a : PackParams) (query : List Byte) (ps : List (Nat × List Byte)) (k : Packed), packRun v a query ps = .ok k →
    (k.bos ++ k.toks).length ≤ budget a ∧ k.maps.length = ps.length ∧
    k.maps.Pairwise (fun x y => x.dropped = true ∨ x.trimmed = true → y.dropped = true) ∧
    (∀ m ∈ k.maps, (m.dropped = true → m.kept = 0 ∧ m.first = noId ∧ m.trimmed = false) ∧
      (a.passageMax ≠ 0 → m.kept ≤ a.passageMax) ∧ (a.trimTail = false → m.trimmed = false)) ∧
    (a.textOut = true → (k.toks.flatMap v.text).length ≤ a.outTextLen)) ∧
  (∀ (s : State) (q : SqReq) (a : PackParams), q.part < s.parts.length → Takes s q Op.promptPack (some 128) →
    let checks := packChecks (part s q.part) a false inBlock
    (∀ e, firstFail checks = some e → Completes (.promptPack q a) q e.1 0 e.2 0 s s) ∧
    (∀ v, firstFail checks = none → findVocab (part s q.part) a.vocab = some v →
      let run := packRun v a (fitBytes a.queryLen a.query) (a.passages.take a.passageCount)
      (∀ e, run = .error e → Completes (.promptPack q a) q e.1 0 e.2 0 s s) ∧
      (∀ k, run = .ok k →
        let inc := (k.maps.filter (fun m => !m.dropped)).length
        Completes (.promptPack q a) q St.ok 0 (if a.tokensOut then (k.bos ++ k.toks).length else 0)
          (inc + (k.maps.length - inc) * 65536 + (if a.textOut then (k.toks.flatMap v.text).length else 0) * 2 ^ 32) s s ∧
        (s.landing.linkActive = true → ∃ t, exec (.promptPack q a) s = .next t ∧
          (a.tokensOut = true → k.bos ++ k.toks ≠ [] →
            Out.hostWrite (1 + q.part) a.outTokAddr ((k.bos ++ k.toks).flatMap (le 4)) ∈ t.issued) ∧
          (a.textOut = true → k.toks.flatMap v.text ≠ [] →
            Out.hostWrite (1 + q.part) a.outTextAddr (k.toks.flatMap v.text) ∈ t.issued) ∧
          (k.maps ≠ [] → Out.hostWrite (1 + q.part) a.mapAddr (k.maps.flatMap mapBytes) ∈ t.issued)))))

/-- Out of service every segment command answers NOT_READY. A SEG_WRITE that fits leaves exactly its bytes in the object and its extents dirty in the buffer, or with FUA programmed; with DESC a new handle becomes an object first. A SEG_READ sends the entries' bytes in list order and counts the entries with lost extents. A trim leaves zeros in its range and destroys the object when it covers it. A flush programs the partition's dirty extents and delivers its oldest records. -/
def Obligations.SegmentsAreWrittenReadTrimmedAndFlushed : Prop :=
  (∀ (s : State) (q : SqReq) (w : SegWriteArgs) (r : SegReadArgs) (t : SegTrimArgs) (f : SegFlushArgs) (c : Instr) (op : Nat),
    q.part < s.parts.length → s.deck.inService = false →
    (c, op) ∈ [(Instr.segWrite q w, Op.segWrite), (.segWriteDesc q w, Op.segWrite), (.segRead q r, Op.segRead),
      (.segTrim q t, Op.segTrim), (.segFlush q f, Op.segFlush)] → Takes s q op none → Completes c q St.notReady 0 0 0 s s) ∧
  (∀ (s : State) (q : SqReq) (a : SegWriteArgs) (desc : Bool) (o : Obj), q.part < s.parts.length → Takes s q Op.segWrite none →
    Memory.wf s.mem = true → s.deck.inService = true →
    let c : Instr := if desc then .segWriteDesc q a else .segWrite q a
    let es := extentsOf a.offset a.length
    (∀ e, firstFail (segWriteChecks q.part desc a s) = some e → Completes c q e.1 0 e.2 0 s s) ∧
    (firstFail (segWriteChecks q.part desc a s) = none → s.deck.readOnly = true → Completes c q St.flashReadOnly 0 0 0 s s) ∧
    (firstFail (segWriteChecks q.part desc a s) = none → s.deck.readOnly = false →
      (desc = false ∧ findObj s q.part a.handle = some o ∨
        desc = true ∧ findObj s q.part a.handle = none ∧ (part s q.part).objs.length < 65536 ∧ objCount s < 262144 ∧
          o.handle = a.handle ∧ o.size = a.desc.size ∧ o.tier = a.desc.tierClass ∧
          allocObj s q.part a.desc.size true = some o.base) →
      flashUsed s + 65536 * es.length ≤ s.deck.capacity →
      (shareIn (layoutValue s) q.part = 0 ∨
        flashOf s q.part + 65536 * es.length ≤ shareIn (layoutValue s) q.part * s.deck.capacity / 256) →
      (pinNeed s q.part a.handle o.tier o.size a.offset a.length = 0 ∨
        hbmRoom s q.part (pinNeed s q.part a.handle o.tier o.size a.offset a.length) = true) →
      objRegion ≤ o.base →
      ∃ u, Completes c q St.ok 0 0 0 u s ∧ findObj u q.part a.handle = some o ∧
        readMem u (o.base + a.offset) a.length = fitBytes a.length a.data ∧
        (∀ x, x < o.base + a.offset ∨ o.base + a.offset + a.length ≤ x →
          if desc ∧ o.base ≤ x ∧ x < o.base + roundUp2M o.size then cellsRead u.mem x = 0
          else cellsRead u.mem x = cellsRead s.mem x ∨ (hbmBase ≤ x ∧ x < objRegion ∧ cellsRead u.mem x = 0)) ∧
        u.deck.hostWritten = s.deck.hostWritten + a.length ∧
        ∀ e ∈ es, (∃ b ∈ u.deck.buffer, isBuf q.part a.handle e b = true ∧ b.dirty = !a.fua) ∧
          (a.fua = true → ∃ i ∈ u.deck.images, isImg q.part a.handle e i = true ∧
            i.cells = sliceCells u.mem (o.base + e * 65536) (extentLen o e)) ∧
          (a.offset ≤ e * 65536 → e * 65536 + extentLen o e ≤ a.offset + a.length → isPoisoned u q.part a.handle e = false))) ∧
  (∀ (s : State) (q : SqReq) (a : SegReadArgs), q.part < s.parts.length → Takes s q Op.segRead none → s.deck.inService = true →
    let l := a.list.take a.extentCount
    a.list.length = a.extentCount → a.extentCount ≤ 256 → a.listAddr % 64 = 0 → a.dstAddr % 64 = 0 → a.desc = false →
    firstFail (segListCheck s q.part l) = none → (l.map SegListEntry.length).sum ≤ 268435456 →
    (l.map SegListEntry.length).sum ≤ a.dstLen →
    let lost (x : SegListEntry) : Bool := (extentsOf x.offset x.length).any (fun e => badExtent s a.bad q.part x.handle e)
    let data := l.flatMap (fun x =>
      match findObj s q.part x.handle with | some o => segBytes s a.bad q.part o x.offset x.length | none => [])
    data.length = (l.map SegListEntry.length).sum ∧
    (∃ u, u.mem = s.mem ∧ u.deck.images = s.deck.images ∧
      ((∀ x ∈ l, lost x = false) → Completes (.segRead q a) q St.ok 0 0 0 u s) ∧
      (∀ i, (l.findIdx? lost) = some i → Completes (.segRead q a) q St.uncorrectable 0 (l.filter lost).length i u s)) ∧
    (data ≠ [] → s.landing.linkActive = true → ∃ t, exec (.segRead q a) s = .next t ∧
      Out.hostWrite (1 + q.part) a.dstAddr data ∈ t.issued)) ∧
  (∀ (s : State) (q : SqReq) (a : SegTrimArgs) (o : Obj), q.part < s.parts.length → Takes s q Op.segTrim none →
    Memory.wf s.mem = true → s.deck.inService = true → a.handle < 2 ^ 63 → findObj s q.part a.handle = some o →
    let n := if a.length = 2 ^ 64 - 1 then o.size - a.offset else a.length
    (o.size < a.offset + n → Completes (.segTrim q a) q St.invalidField 0 32 0 s s) ∧
    (a.offset + n ≤ o.size → ∃ u, Completes (.segTrim q a) q St.ok 0 0 0 u s ∧
      (∀ x, o.base + a.offset ≤ x → x < o.base + a.offset + n → cellsRead u.mem x = 0) ∧
      (a.offset = 0 → n = o.size → findObj u q.part a.handle = none ∧
        ∀ x, x < o.base ∨ o.base + roundUp2M o.size ≤ x →
          cellsRead u.mem x = cellsRead s.mem x ∨ (hbmBase ≤ x ∧ x < objRegion ∧ cellsRead u.mem x = 0)) ∧
      ((a.offset ≠ 0 ∨ n ≠ o.size) → findObj u q.part a.handle = some o ∧
        ∀ x, x < o.base + a.offset ∨ o.base + a.offset + n ≤ x →
          cellsRead u.mem x = cellsRead s.mem x ∨ (hbmBase ≤ x ∧ x < objRegion ∧ cellsRead u.mem x = 0)))) ∧
  (∀ (s : State) (q : SqReq) (a : SegFlushArgs), q.part < s.parts.length → Takes s q Op.segFlush none →
    s.deck.inService = true → a.reportAddr % 64 = 0 → a.reportMax ≤ 1024 →
    (∀ b ∈ s.deck.buffer, b.part = q.part → (findObj s b.part b.handle).isSome = true) →
    let t := part s q.part
    let n := if a.reportAddr = 0 then 0 else a.reportMax
    ∃ u, u.mem = s.mem ∧ u.deck.journal = 0 ∧ (∀ b ∈ u.deck.buffer, b.part = q.part → b.dirty = false) ∧
      (part u q.part).deferred = t.deferred.drop n ∧
      (t.deferred = [] → t.deferredExtra = 0 → Completes (.segFlush q a) q St.ok 0 0 0 u s) ∧
      ((t.deferred ≠ [] ∨ t.deferredExtra ≠ 0) →
        Completes (.segFlush q a) q St.deferredWriteError 0 (min n t.deferred.length)
          (t.deferred.length - n + t.deferredExtra) u s ∧
        (t.deferred.take n ≠ [] → s.landing.linkActive = true → ∃ z, exec (.segFlush q a) s = .next z ∧
          Out.hostWrite (1 + q.part) a.reportAddr ((t.deferred.take n).flatMap deferredBytes) ∈ z.issued)))

/-- EXTENT_PROGRAM gives the extent and its whole atomic group images of their present bytes, in pieces of 16 KiB under new write sequence numbers. A failed block is retired and holds no piece; a program that fails again poisons the extent and records it. GARBAGE_COLLECTION empties and erases the written block of fewest valid pieces, WEAR_LEVELLING the least erased one that holds pieces, and neither changes any image's bytes nor a piece's WRITE_TIME. Reads climb the ladder of R386, and a LUN is suspended at most 8 times. -/
def Obligations.DeckKeepsDataOffBadBlocks : Prop :=
  let same (s t : State) : Prop :=
    t.deck.images.map (fun i => (i.part, i.handle, i.extent, i.cells, i.rawLen, i.frameLen,
        i.pieces.map (fun x => (x.time, x.temp, x.delta)))) =
      s.deck.images.map (fun i => (i.part, i.handle, i.extent, i.cells, i.rawLen, i.frameLen,
        i.pieces.map (fun x => (x.time, x.temp, x.delta))))
  (∀ (s : State) (a : ExtentArgs), deckRuns s = true → (dirtyList s).any (isBuf a.part a.handle a.extent) = true →
    ∃ t, exec (.extentProgram a) s = .next t ∧ t = { s with deck := t.deck, loupe := t.loupe } ∧
      s.deck.writeSeq ≤ t.deck.writeSeq ∧ (a.part, a.handle, a.extent) ∈ groupOf s a.part a.handle a.extent ∧
      ∀ x ∈ groupOf s a.part a.handle a.extent, ∀ o, findObj s x.1 x.2.1 = some o →
        (∀ b ∈ t.deck.buffer, isBuf x.1 x.2.1 x.2.2 b = true → b.dirty = false) ∧
        ∃ i ∈ t.deck.images, isImg x.1 x.2.1 x.2.2 i = true ∧ i.rawLen = extentLen o x.2.2 ∧
          i.pieces.length = ceilDiv i.frameLen 16384 ∧
          (∀ y ∈ i.pieces, s.deck.writeSeq ≤ y.seq ∧ y.seq < t.deck.writeSeq ∧ y.time = s.deck.deckTime) ∧
          i.cells = sliceCells s.mem (o.base + x.2.2 * 65536) (extentLen o x.2.2)) ∧
  (∀ (s : State) (a : ProgramFailArgs), deckRuns s = true → a.block ∉ s.deck.bad → 0 < s.deck.channels → a.block ≠ noBlock →
    ∃ t, exec (.programFailure a) s = .next t ∧ t.mem = s.mem ∧ a.block ∈ t.deck.bad ∧
      (∀ i ∈ t.deck.images, ∀ x ∈ i.pieces, x.block ≠ a.block) ∧
      (a.isErase = true → same s t) ∧
      (a.isErase = false → a.again = true → (dirtyList s).any (isBuf a.part a.handle a.extent) = true →
        isPoisoned t a.part a.handle a.extent = true ∧ t.deck.deferredCount = s.deck.deferredCount + 1 ∧
        (a.part < s.parts.length → (part s a.part).deferred.length < 1024 →
          (part t a.part).deferred = (part s a.part).deferred ++ [{ handle := a.handle, extent := a.extent, reason := 1 }]))) ∧
  (∀ (s : State), deckRuns s = true →
    exec .journalFlush s = .next { s with deck := { s.deck with journal := 0, lastFlush := s.time } }) ∧
  (∀ (s : State) (a : PieceReadArgs), deckRuns s = true →
    let k := thresholdKey s a
    let first := decide (offsetsOf k ∈ a.levels)
    let later := ((List.range 8).map (· + 1)).any (fun n => decide (retryOf k n ∈ a.levels))
    ∃ t, exec (.flashPieceRead a) s = .next t ∧ t.mem = s.mem ∧
      (readEnd s a = .lost ↔ (a.authOk = false ∨ (first = false ∧ later = false ∧ a.softOk = false))) ∧
      t.logSeq = s.logSeq + (if readEnd s a = .hard then 0 else 1) ∧
      t.deck.retryReads = s.deck.retryReads + (if first then 0 else 1) ∧
      t.deck.softReads = s.deck.softReads + (if first || later then 0 else 1) ∧
      t.deck.uncorrectable = s.deck.uncorrectable + (if readEnd s a = .lost then 1 else 0) ∧ same s t ∧
      ((readEnd s a = .hard ∨ readEnd s a = .lost ∨ ∃ n, n < 4 ∧ readEnd s a = .retried n) → t.deck.images = s.deck.images)) ∧
  (∀ (s : State) (channel lun : Nat), deckRuns s = true → channel < s.deck.channels → lun < s.deck.luns →
    (suspendsOf s.deck channel lun < 8 → ∃ t, exec (.readSuspend channel lun) s = .next t ∧ t = { s with deck := t.deck } ∧
      suspendsOf t.deck channel lun = suspendsOf s.deck channel lun + 1 ∧ t.deck.suspends = s.deck.suspends + 1 ∧
      ∀ c l, (c, l) ≠ (channel, lun) → suspendsOf t.deck c l = suspendsOf s.deck c l) ∧
    (8 ≤ suspendsOf s.deck channel lun → exec (.readSuspend channel lun) s = .next s)) ∧
  (∀ (s : State) (b : FlashBlock), deckRuns s = true → 0 < s.deck.channels → b.id ≠ noBlock →
    (victimBlock s.deck = some b →
      b ∈ s.deck.blocks ∧ b.written = true ∧
      (∀ x ∈ s.deck.blocks, x.written = true → validPieces s.deck b.id ≤ validPieces s.deck x.id) ∧
      ∃ t, exec .garbageCollection s = .next t ∧ t = { s with deck := t.deck, loupe := t.loupe } ∧
        (∀ i ∈ t.deck.images, ∀ x ∈ i.pieces, x.block ≠ b.id) ∧
        (∃ x ∈ t.deck.blocks, x.id = b.id ∧ x.pe = b.pe + 1 ∧ x.written = false) ∧ same s t) ∧
    (s.cruise.spreadLimit < peMax s.deck - peMin s.deck → youngest s.deck = some b →
      b ∈ s.deck.blocks ∧ b.written = true ∧ (∀ x ∈ s.deck.blocks, x.written = true → b.pe ≤ x.pe) ∧
      ∃ t, exec .wearLevelling s = .next t ∧ t = { s with deck := t.deck, loupe := t.loupe } ∧
        (∀ i ∈ t.deck.images, ∀ x ∈ i.pieces, x.block ≠ b.id) ∧
        (∃ x ∈ t.deck.blocks, x.id = b.id ∧ x.pe = b.pe + 1 ∧ x.written = false) ∧
        t.deck.wearMoved = s.deck.wearMoved + validBytes s.deck b.id ∧ same s t)) ∧
  (∀ (s : State), deckRuns s = true → s.deck.blocks.filter FlashBlock.written = [] →
    ∃ t, exec .garbageCollection s = .next t ∧ t = { s with loupe := t.loupe }) ∧
  (∀ (s : State), peMax s.deck - peMin s.deck ≤ s.cruise.spreadLimit → exec .wearLevelling s = .next s)

/-- FAB_PORT_CONFIG fails its checks with the first of them, or sets the id and geometry and takes every enabled port down. A rightly wired neighbour moves a port to heartbeats, a wrong one leaves it down; five beats bring it up, with its new states in the device's own record and a packet of every record of the table on its way to the neighbour. Each of heartbeat loss, DEVICE_FAULT, the pause watchdog and a failed lane takes an up link down with its reason, empties the port's egress and input regions and clears the neighbour's pause states. -/
def Obligations.PortsTrainAndLinksGoDown : Prop :=
  (∀ (s : State) (r : MbxReq) (a : PortConfigArgs), Admits s r Op.fabPortConfig none (lengthIn r [16]) →
    s.fabric.ports.length = 8 →
    (∀ e, firstFail (portConfigChecks s a) = some e → Answers (.fabPortConfig r a) r Op.fabPortConfig e.1 e.2 false [] s s) ∧
    (firstFail (portConfigChecks s a) = none → ∃ u, Answers (.fabPortConfig r a) r Op.fabPortConfig St.ok 0 false [] u s ∧
      u.fabric.deviceId = some a.deviceId ∧ u.fabric.racks = a.racks ∧ u.fabric.ySize = a.ySize ∧ u.fabric.zSize = a.zSize ∧
      u.fabric.lost = [] ∧ u.mem = s.mem ∧ ∀ n, n < 8 → portEnabled s n = true →
        (portOf u n).isUp = false ∧ (portOf u n).egress = [] ∧
        (s.fabric.deviceId ≠ none → (portOf u n).reason = 7 ∧ (portOf u n).downEvents = (portOf s n).downEvents + 1))) ∧
  (∀ (s : State) (n own device src racks ySize zSize : Nat), s.power.phase = .running → portRef s n = true →
    portEnabled s n = true → n < 8 → s.fabric.ports.length = 8 → (portOf s n).isUp = false →
    bothHalves (portOf s n).failed = false → (portOf s n).faultHold ≠ .untilStop → s.fabric.deviceId = some own →
    (wiredRight s.fabric own n device src racks ySize zSize = true →
      ∃ t, exec (.trainingNeighbourArrival n device src racks ySize zSize) s = .next t ∧
        t = { s with fabric := { s.fabric with ports := t.fabric.ports } } ∧
        (portOf t n).state = .joining ∧ (portOf t n).neighbour = device ∧ (portOf t n).beats = 0 ∧
        (portOf t n).xoffRx = 0 ∧ ∀ k, k ≠ n → portOf t k = portOf s k) ∧
    (wiredRight s.fabric own n device src racks ySize zSize = false →
      ∃ t, exec (.trainingNeighbourArrival n device src racks ySize zSize) s = .next t ∧ (portOf t n).state = .down ∧
        (portOf t n).reason = 4 ∧ (portOf t n).neighbour = 0xFFFF ∧ (firmwareRuns s = true → t.logSeq = s.logSeq + 1))) ∧
  (∀ (s : State) (n device src : Nat), s.power.phase = .running → n < 8 → s.fabric.ports.length = 8 →
    (portOf s n).state = .joining →
    (device = (portOf s n).neighbour → src = partner n →
      ∃ t, exec (.heartbeatRx n device src false) s = .next t ∧ portOf t n = { portOf s n with beats := (portOf s n).beats + 1 } ∧
        t = { s with fabric := { s.fabric with ports := t.fabric.ports } }) ∧
    (∃ t, exec (.trainingTimeout n) s = .next t ∧ (portOf t n).state = .training ∧ (portOf t n).beats = 0 ∧
      (portOf t n).neighbour = 0xFFFF) ∧
    (portRef s n = true → 5 ≤ (portOf s n).beats →
      ∃ t, exec (.linkUp n) s = .next t ∧ (portOf t n).isUp = true ∧ KeepsMem s t ∧
        (∀ x ∈ t.fabric.links, ∃ w ∈ (portOf t n).egress, w.pkt.typ = .system ∧ w.pkt.record = some x) ∧
        (portOf t n).state = (if (portOf s n).failed = 0 then .up8 else .up4) ∧
        (∀ own, s.fabric.deviceId = some own → ∃ r, t.fabric.links.find? (fun r => r.device = own) = some r ∧
          ∀ k, k < 8 → r.ports.getLsbD k = (portOf t k).isUp))) ∧
  (∀ (s : State) (n why device src pair lane : Nat) (c : Instr), s.power.phase = .running → n < 8 →
    s.fabric.ports.length = 8 → (portOf s n).isUp = true →
    (c = .heartbeatLoss n ∧ why = 1 ∨ c = .heartbeatRx n device src true ∧ why = 2 ∨
      c = .pauseWatchdog n pair ∧ (portOf s n).xoffRx.getLsbD pair = true ∧ why = 3 ∨ c = .laneFailure n lane ∧ lane < 8 ∧ why = 5) →
    ∃ t, exec c s = .next t ∧ (portOf t n).isUp = false ∧ (portOf t n).reason = why ∧ KeepsMem s t ∧
      (portOf t n).downEvents = (portOf s n).downEvents + 1 ∧ (portOf t n).egress = [] ∧ (portOf t n).xoffRx = 0 ∧ (portOf t n).neighbour = 0xFFFF ∧
      (∀ k, k < 8 → ∀ w ∈ (portOf t k).egress, w.src ≠ n) ∧
      (∀ own, s.fabric.deviceId = some own → ∃ r, t.fabric.links.find? (fun r => r.device = own) = some r ∧
        ∀ k, k < 8 → r.ports.getLsbD k = (portOf t k).isUp)) ∧
  (∀ (s : State) (n : Nat) (x : BitVec 16), s.power.phase = .running → n < 8 → s.fabric.ports.length = 8 →
    (∃ t, exec .heartbeatTimer s = .next t ∧ t = { s with issued := s.issued ++
      ((List.range 8).filter (fun k => sendsBeats (portOf s k))).map (fun k => Out.heartbeat k (ownId s) (deviceFault s)) }) ∧
    ((portOf s n).isUp = true →
      (∃ t, exec (.pauseFrameRx n x) s = .next t ∧ portOf t n = { portOf s n with xoffRx := x } ∧
        t = { s with fabric := { s.fabric with ports := t.fabric.ports } }) ∧
      ((portOf s n).xoffTx ≠ 0 → exec (.pauseRepeatTimer n) s = .next (emit (.pause n (portOf s n).xoffTx) s))))

/-- In a system of valid sizes, a packet for any device of it arrives within 72 hops whatever its directions. Round each ring the source takes a way without a link known to be down when there is one, and the shorter of two such. A packet for another device joins the egress of the port its header gives, on the channel of the dateline rule, or is discarded when that link is down. A newer record of another device, in a packet that is authentic and of partition value 15, replaces the table's; other SYSTEM packets are discarded and counted. -/
def Obligations.RoutesReachAndPacketsAreForwarded : Prop :=
  (∀ (f : Fabric) (p : Packet) (own : Nat), 1 ≤ f.racks → f.racks ≤ 64 → f.ySize ∈ [1, 2, 4] → f.zSize ∈ [1, 2, 4] →
    own ∈ sysDevices f → p.dest ∈ sysDevices f →
    (List.range 72).foldl (fun d _ => match egressPort p d with | some k => neighbourAt f d k | none => d) own = p.dest) ∧
  (∀ (f : Fabric) (own k d dest : Nat), ringCoord k d ≠ ringCoord k dest →
    let n := ringLen f k
    let a := ringCoord k d
    let b := ringCoord k dest
    let down (v : Bool) : Bool := wayDown f own (if v then k + 1 else k) (ringDist n a b v) d
    let x := ringChoice f own k d dest
    (x.2 = true ↔ down false = true ∧ down true = true) ∧ (x.2 = false → down x.1 = false) ∧
    (down false = false → down true = false → x.1 = decide (ringDist n a b true < ringDist n a b false))) ∧
  (∀ (s : State) (m : PacketIn) (own n : Nat), s.fabric.deviceId = some own → m.pkt.dest ≠ own → (arrive m s).1 = true →
    s.fabric.ports.length = 8 → egressPort m.pkt own = some n → n < 8 →
    ∃ t, exec (.packetForwarding m) s = .next t ∧ t.parts = s.parts ∧ t.mem = s.mem ∧
      ((portOf s n).isUp = true → (portOf t n).egress = (portOf s n).egress ++
        [{ src := m.port, vcIn := m.pkt.vc, pkt := { m.pkt with vc := nextVc s.fabric own n (some m.port) m.pkt.vc }, since := s.time }]) ∧
      ((portOf s n).isUp = false → (portOf t n).egress = (portOf s n).egress ∧
        (portOf t n).discards = countDiscard .linkDown 1 (portOf s n).discards)) ∧
  (∀ (s : State) (m : PacketIn) (own : Nat) (r : FloodRec), s.fabric.deviceId = some own → m.pkt.dest = own →
    m.pkt.typ = .system → (arrive m s).1 = true →
    (authentic s m = false → exec (.pktSystemRx m) s = .next (discardAt m.port .authentication (arrive m s).2)) ∧
    (authentic s m = true → m.pkt.partition ≠ 15 →
      exec (.pktSystemRx m) s = .next (discardAt m.port .otherPartition (arrive m s).2)) ∧
    (m.pkt.partition = 15 → authentic s m = true → m.pkt.record = some r → r.device ≠ own →
    ∃ t, exec (.pktSystemRx m) s = .next t ∧ KeepsMem s t ∧
      (∀ x, s.fabric.links.find? (fun x => x.device = r.device) = some x →
        t.fabric.links.find? (fun x => x.device = r.device) = some (if x.seq < r.seq then r else x)) ∧
      (s.fabric.links.find? (fun x => x.device = r.device) = none →
        t.fabric.links.find? (fun x => x.device = r.device) = some r) ∧
      ∀ d, d ≠ r.device → t.fabric.links.find? (fun x => x.device = d) = s.fabric.links.find? (fun x => x.device = d)))

/-- FAB_QP_CREATE fails its checks with the first of them or adds the queue pair; a delete removes one, and of none answers INVALID_FIELD. A tail inside the ring puts what Landing read behind what waits; a tail of ENTRIES or more ends in the error state. A valid SEND, WRITE, READ or FLUSH leaves the ring and its packets go out numbered without a gap, never more than 1,024 unacknowledged; a WAIT_COUNT whose count is reached completes; an invalid one puts the queue pair into the error state with every request ended. A valid RECV is posted. Each packet for one of firmware's own queue pairs that may be performed is performed and advances its expected PSN, acknowledgements release its copies, a NAK makes it wait or send again, and its timers send again without limit. -/
def Obligations.QueuePairsTakeWorkRequests : Prop :=
  let forFw (s : State) (m : PacketIn) (ty : PktType) : Prop :=
    m.pkt.typ = ty ∧ s.fabric.deviceId = some m.pkt.dest ∧ isFwWire m.pkt.destQp = true ∧ (arrive m s).1 = true ∧
      authentic s m = true ∧ (m.pkt.partition < 12 ∨ m.pkt.partition = 14) ∧ m.pkt.src ∉ s.fabric.lost ∧
      wrapAgrees (fwQpOf s m.pkt.src m.pkt.partition).expPsn (fwQpOf s m.pkt.src m.pkt.partition).expWrap m.pkt = true
  (∀ (s : State) (r : MbxReq) (a : QpCreateArgs) (n : Nat), r.partition < s.parts.length →
    Admits s r Op.fabQpCreate none (lengthIn r [64]) →
    (∀ e, firstFail (qpFields s r.partition a) = some e → Answers (.fabQpCreate r a) r Op.fabQpCreate e.1 e.2 false [] s s) ∧
    (firstFail (qpFields s r.partition a) = none → Answers (.fabQpCreate r a) r Op.fabQpCreate St.ok 0 false []
      (onPart r.partition (fun t => { t with qps := t.qps ++ [newQp a] }) s) s) ∧
    (findQp s r.partition n = none → Answers (.fabQpDelete r n) r Op.fabQpCreate St.invalidField 32 false [] s s) ∧
    (∀ q, findQp s r.partition n = some q → ∃ u, Answers (.fabQpDelete r n) r Op.fabQpCreate St.ok 0 false [] u s ∧
      findQp u r.partition n = none ∧ u.mem = s.mem)) ∧
  (∀ (s : State) (a : QpTailArgs) (q : Qp), findQp s a.part a.qp = some q → hostReaches s (1 + a.part) = true →
    (a.value % 4096 < q.sqEntries → q.error = false → qpFetches s a.part = true →
      let ws := a.fetched.take ((a.value % 4096 + q.sqEntries - q.sqHead) % q.sqEntries)
      ∃ t, exec (.qpSqTailDoorbell a) s = .next t ∧ t = { s with parts := t.parts } ∧ findQp t a.part a.qp =
        some { q with sqTail := a.value % 4096, sqHead := (q.sqHead + ws.length) % q.sqEntries, sendQ := q.sendQ ++ ws }) ∧
    (a.value % 4096 < q.rqEntries → q.error = false → qpFetches s a.part = true →
      let ws := a.fetched.take ((a.value % 4096 + q.rqEntries - q.rqHead) % q.rqEntries)
      ∃ t, exec (.qpRqTailDoorbell a) s = .next t ∧ t = { s with parts := t.parts } ∧ findQp t a.part a.qp =
        some { q with rqTail := a.value % 4096, rqHead := (q.rqHead + ws.length) % q.rqEntries,
                      recvFetched := q.recvFetched ++ ws }) ∧
    (∀ c, (c = .qpSqTailDoorbell a ∧ q.sqEntries ≤ a.value % 4096 ∨ c = .qpRqTailDoorbell a ∧ q.rqEntries ≤ a.value % 4096) →
      ∃ t y, exec c s = .next t ∧ findQp t a.part a.qp = some y ∧ y.error = true)) ∧
  (∀ (s : State) (q : QpRef) (x : Qp) (w : WorkReq) (ws : List WorkReq) (c : Instr) (op : Nat),
    (c, op) ∈ [(Instr.wrSend q, 1), (.wrWrite q, 2), (.wrRead q, 3), (.wrFlush q, 4), (.wrWaitCount q, 5)] →
    findQp s q.part q.qp = some x → x.sendQ = w :: ws → w.opcode = op → x.error = false → notHeld x = true →
    holding s = false → s.power.phase = .running →
    (op ≤ 4 → wrValid s q.part x w = true → ∃ t y more, exec c s = .next t ∧ findQp t q.part q.qp = some y ∧
      y.sendQ = ws ∧ y.error = false ∧ y.unacked = x.unacked ++ more ∧ t.mem = s.mem ∧
      y.nextPsn % 2 ^ 32 = (x.nextPsn + more.length) % 2 ^ 32 ∧
      (∀ i pk, more[i]? = some pk → pk.psn % 2 ^ 32 = (x.nextPsn + i) % 2 ^ 32) ∧
      (x.nextPsn < 2 ^ 32 → x.nextWrap < 2 ^ 32 → ∀ i pk, more[i]? = some pk →
        pk.wrap * 2 ^ 32 + pk.psn = (x.nextWrap * 2 ^ 32 + x.nextPsn + i) % 2 ^ 64) ∧
      (x.unacked.length ≤ 1024 → y.unacked.length ≤ 1024)) ∧
    (∀ z, op = 5 → wrValid s q.part x w = true → x.active = [] → findQp s q.part w.waitQp = some z →
      w.waitTarget ≤ (if w.waitQueue = 0 then z.sqDone else z.rqDone) →
      ∃ t y, exec c s = .next t ∧ findQp t q.part q.qp = some y ∧ y.sendQ = ws ∧ y.active = [] ∧ y.error = false ∧
        y.sqDone = x.sqDone + 1) ∧
    (wrValid s q.part x w = false → ∃ t y, exec c s = .next t ∧ findQp t q.part q.qp = some y ∧ y.error = true ∧
      y.lastError = St.invalidField ∧ y.active = [] ∧ y.sendQ = [] ∧ y.unacked = [] ∧
      y.sqDone = x.sqDone + x.active.length + 1 + ws.length)) ∧
  (∀ (s : State) (q : QpRef) (x : Qp) (w : WorkReq) (ws : List WorkReq), findQp s q.part q.qp = some x →
    x.recvFetched = w :: ws → x.error = false → holding s = false → s.power.phase = .running → w.opcode = 6 →
    w.length ≤ 16777216 → (w.localObj = true → insideObject s q.part w.localAddr w.length true = true) →
    ∃ t, exec (.wrRecv q) s = .next t ∧ t = { s with parts := t.parts } ∧
      findQp t q.part q.qp = some { x with recvFetched := ws, recvQ := x.recvQ ++ [w] }) ∧
  (∀ (s : State) (m : PacketIn) (act : State → Nat × State) (c : Instr) (ty : PktType),
    let d := m.pkt.src
    let p := m.pkt.partition
    (c, ty, act) ∈ [(Instr.pktSendRx m, PktType.send, fwReceive d p m.pkt), (.pktWriteRx m, .write, fwWrite p m.pkt),
      (.pktReadReqRx m, .readReq, fwRead d p m.pkt), (.pktReadRespRx m, .readResp, fun s => (0, s)),
      (.pktFlushReqRx m, .flushReq, fun s => (0, answerFrom p (fwWire (ownId s) p d) m.pkt .flushAck m.pkt.psn 0 s))] →
    forFw s m ty →
    let a := (arrive m s).2
    let q := fwQpOf s d p
    (m.pkt.psn = q.expPsn → (act a).1 = 0 → exec c s = .next (fwAccept d p m.pkt (act a).2)) ∧
    (m.pkt.psn = q.expPsn → ty = .send → firmwareRuns s = false →
      ∃ t, exec c s = .next t ∧ t.mem = s.mem ∧ t.parts = s.parts ∧ fwQpOf t d p = { q with gapNak := true }) ∧
    (m.pkt.psn = q.expPsn →
      (ty = .write ∧ fwMayAccess a p m.pkt.addr m.pkt.payload.length true = false ∨
        ty = .readReq ∧ fwMayAccess a p m.pkt.addr m.pkt.msgLen false = false) →
      ∃ t, exec c s = .next t ∧ t.mem = s.mem ∧ t.parts = s.parts ∧ (fwQpOf t d p).expPsn = psnAfter q.expPsn ∧
        (fwQpOf t d p).unacked = q.unacked) ∧
    (m.pkt.psn ≠ q.expPsn → ∃ t, exec c s = .next t ∧ t.mem = s.mem ∧ t.parts = s.parts ∧
      (fwQpOf t d p).expPsn = q.expPsn ∧ (fwQpOf t d p).unacked = q.unacked)) ∧
  (∀ (d p : Nat) (x : Packet) (s : State),
    let q := fwQpOf s d p
    let t := fwAccept d p x s
    t.mem = s.mem ∧ t.parts = s.parts ∧ fwQpOf t d p = { q with
      expPsn := psnAfter q.expPsn, expWrap := wrapAfter q.expPsn q.expWrap, gapNak := false,
      unackedRx := if x.ackNow ∨ 16 ≤ q.unackedRx + 1 then 0 else q.unackedRx + 1 }) ∧
  (∀ (s : State) (m : PacketIn),
    let d := m.pkt.src
    let p := m.pkt.partition
    let q := fwQpOf s d p
    let kept (n : Nat) : List Packet := q.unacked.filter (fun x => psnOlder n x.psn)
    let sends (t : State) (n : Nat) : Prop := t.mem = s.mem ∧ t.parts = s.parts ∧ ∃ more,
      (fwQpOf t d p).unacked = kept n ++ more ∧ more.length + (fwQpOf t d p).todo.length = q.todo.length ∧
      (fwQpOf t d p).expPsn = q.expPsn
    (forFw s m .ack → ∃ t, exec (.pktAckRx m) s = .next t ∧ sends t m.pkt.psn) ∧
    (forFw s m .flushAck → ∃ t, exec (.pktFlushAckRx m) s = .next t ∧ sends t m.pkt.psn) ∧
    (forFw s m .nak → m.pkt.aux = 3 → ∃ t, exec (.pktNakRx m) s = .next t ∧ sends t m.pkt.psn) ∧
    (forFw s m .nak → m.pkt.aux ∈ [1, 2, 4, 5] → ∃ t, exec (.pktNakRx m) s = .next t ∧ t.mem = s.mem ∧ t.parts = s.parts ∧
      fwQpOf t d p = { q with
        unacked := if m.pkt.aux = 4 then q.unacked else kept (psnBefore m.pkt.psn),
        rnrWait := if m.pkt.aux = 2 then decide (kept (psnBefore m.pkt.psn) ≠ []) else q.rnrWait })) ∧
  (∀ (s : State) (r : QpRef) (d : Nat), r.peer = some d → s.power.phase = .running →
    let q := fwQpOf s d r.part
    (q.rnrWait = false → exec (.retryTimeout r) s = .next (q.unacked.foldl (fun s x => inject x s) s) ∧
      ∀ t, exec (.retryTimeout r) s = .next t → t.mem = s.mem ∧ t.parts = s.parts ∧ t.fabric.fwQps = s.fabric.fwQps) ∧
    (q.rnrWait = true → ∃ t more, exec (.rnrDelayExpiry r) s = .next t ∧ t.mem = s.mem ∧ t.parts = s.parts ∧
      (fwQpOf t d r.part).rnrWait = false ∧ (fwQpOf t d r.part).unacked = q.unacked ++ more) ∧
    (q.unackedRx ≠ 0 → ∃ t, exec (.ackDelayTimer r) s = .next t ∧ t.mem = s.mem ∧ t.parts = s.parts ∧
      fwQpOf t d r.part = { q with unackedRx := 0 }))

/-- The expected SEND with a receive long enough, a WRITE inside a host object, a READ inside an object, READ data and a flush request each advance the expected PSN; a SEND without a receive, and a WRITE or READ elsewhere, change no byte and do not. A READ's answer and READ data carry their bytes. An older packet changes no byte. ACK and FLUSH_ACK release the copies up to their PSN, a NAK of reason 3 fails the queue pair, one of reason 2 makes it wait, one of reason 4 sends again until the limit. Packets that are not authentic, name another partition or no queue pair are discarded and counted. Time-outs resend until the limit and then fail it; the delayed ACK goes out. -/
def Obligations.PacketsArriveInOrderAndAreAcknowledged : Prop :=
  let comes (s : State) (m : PacketIn) (t : PktType) : Prop :=
    m.pkt.typ = t ∧ s.fabric.deviceId = some m.pkt.dest ∧ (arrive m s).1 = true ∧ isFwWire m.pkt.destQp = false
  let fits (s : State) (m : PacketIn) (t : PktType) (q : Qp) : Prop :=
    comes s m t ∧ authentic s m = true ∧ m.pkt.partition < 12 ∧ m.pkt.destQp / 128 = m.pkt.partition ∧
      packetQp s m.pkt = some q ∧ q.error = false ∧ wrapAgrees q.expPsn q.expWrap m.pkt = true
  let after (t : State) (m : PacketIn) (f : Qp → Prop) : Prop :=
    ∃ y, findQp t m.pkt.partition (m.pkt.destQp % 128) = some y ∧ f y
  let accepted (q y : Qp) : Prop := y.expPsn = psnAfter q.expPsn ∧ y.expWrap = wrapAfter q.expPsn q.expWrap ∧ y.gapNak = false
  let kept (q : Qp) (n : Nat) : List Packet := q.unacked.filter (fun x => psnOlder n x.psn)
  (∀ (s : State) (m : PacketIn) (q : Qp), fits s m .send q → m.pkt.psn = q.expPsn → m.pkt.first = true →
    (q.recvQ = [] → ∃ t, exec (.pktSendRx m) s = .next t ∧ t.mem = s.mem ∧ after t m (fun y => y.expPsn = q.expPsn)) ∧
    (∀ w, q.recvQ.head? = some w → m.pkt.msgLen ≤ w.length → m.pkt.payload.length ≤ w.length →
      ∃ t, exec (.pktSendRx m) s = .next t ∧ after t m (fun y => accepted q y ∧ (m.pkt.last = true → q.rqDone + 1 ≤ y.rqDone)) ∧
        (w.localObj = false → m.pkt.payload ≠ [] → s.landing.linkActive = true → t.mem = s.mem ∧
          Out.hostWrite (1 + m.pkt.partition) w.localAddr m.pkt.payload ∈ t.issued ++ t.landing.waiting)) ∧
    (∀ w, q.recvQ.head? = some w → w.length < m.pkt.msgLen →
      ∃ t, exec (.pktSendRx m) s = .next t ∧ t.mem = s.mem ∧
        after t m (fun y => y.error = true ∧ y.lastError = St.messageTooLong))) ∧
  (∀ (s : State) (m : PacketIn) (q : Qp), fits s m .write q → m.pkt.psn = q.expPsn →
    (remoteOk s m.pkt.partition m.pkt.addr m.pkt.payload.length true = true →
      ∃ t, exec (.pktWriteRx m) s = .next t ∧ after t m (accepted q) ∧
        t.mem = (busWrite 3 (poolLocal m.pkt.addr) m.pkt.payload (arrive m s).2).2.mem) ∧
    (remoteOk s m.pkt.partition m.pkt.addr m.pkt.payload.length true = false →
      ∃ t, exec (.pktWriteRx m) s = .next t ∧ t.mem = s.mem ∧ after t m (fun y => y.expPsn = q.expPsn))) ∧
  (∀ (s : State) (m : PacketIn) (q : Qp), fits s m .readReq q → m.pkt.psn = q.expPsn →
    (remoteOk s m.pkt.partition m.pkt.addr m.pkt.msgLen false = true →
      let data := (busRead 3 (poolLocal m.pkt.addr) m.pkt.msgLen (arrive m s).2).2.1
      ∃ t, exec (.pktReadReqRx m) s = .next t ∧ t.mem = s.mem ∧ after t m (fun y => accepted q y ∧ ∃ sent,
        y.unacked = q.unacked ++ sent ∧ (q.respQ.map Packet.payload ++ pieces data) =
          ((sent ++ y.respQ).map Packet.payload).take (q.respQ.length + (pieces data).length))) ∧
    (remoteOk s m.pkt.partition m.pkt.addr m.pkt.msgLen false = false →
      ∃ t, exec (.pktReadReqRx m) s = .next t ∧ t.mem = s.mem ∧ after t m (fun y => y.expPsn = q.expPsn))) ∧
  (∀ (s : State) (m : PacketIn) (q : Qp), m.pkt.psn = q.expPsn →
    (fits s m .readResp q → ∃ t, exec (.pktReadRespRx m) s = .next t ∧ after t m (accepted q) ∧
      ((fillRead m.pkt q.active).2 = none → t.mem = s.mem) ∧
      ∀ w off, (fillRead m.pkt q.active).2 = some (w, off) → w.localObj = false → s.landing.linkActive = true →
        m.pkt.payload.take (w.length - off) ≠ [] → t.mem = s.mem ∧
        Out.hostWrite (1 + m.pkt.partition) (w.localAddr + off) (m.pkt.payload.take (w.length - off)) ∈
          t.issued ++ t.landing.waiting) ∧
    (fits s m .flushReq q → ∃ t, exec (.pktFlushReqRx m) s = .next t ∧ t.mem = s.mem ∧ after t m (accepted q))) ∧
  (∀ (s : State) (m : PacketIn) (q : Qp) (c : Instr) (ty : PktType),
    (c, ty) ∈ [(Instr.pktSendRx m, PktType.send), (.pktWriteRx m, .write), (.pktReadReqRx m, .readReq),
      (.pktReadRespRx m, .readResp), (.pktFlushReqRx m, .flushReq)] →
    fits s m ty q → m.pkt.psn ≠ q.expPsn →
    ∃ t, exec c s = .next t ∧ t.mem = s.mem ∧ after t m (fun y => y.expPsn = q.expPsn)) ∧
  (∀ (s : State) (m : PacketIn) (c : Instr) (ty : PktType) (request : Bool),
    (c, ty, request) ∈ [(Instr.pktSendRx m, PktType.send, true), (.pktWriteRx m, .write, true), (.pktReadReqRx m, .readReq, true),
      (.pktReadRespRx m, .readResp, false), (.pktFlushReqRx m, .flushReq, true), (.pktAckRx m, .ack, false),
      (.pktFlushAckRx m, .flushAck, false), (.pktNakRx m, .nak, false)] →
    comes s m ty →
    let a := (arrive m s).2
    (authentic s m = false → exec c s = .next (discardAt m.port .authentication a)) ∧
    (authentic s m = true → (12 ≤ m.pkt.partition ∨ m.pkt.destQp / 128 ≠ m.pkt.partition) →
      exec c s = .next (discardAt m.port .otherPartition a)) ∧
    (authentic s m = true → m.pkt.partition < 12 → m.pkt.destQp / 128 = m.pkt.partition → packetQp s m.pkt = none →
      (request = false → exec c s = .next (discardAt m.port .noQueuePair a)) ∧
      (request = true → exec c s = .next (answerPacket m.pkt.partition (m.pkt.destQp % 128) m.pkt .nak m.pkt.psn 4
        (discardAt m.port .noQueuePair a))))) ∧
  (∀ (s : State) (m : PacketIn) (q : Qp), q.index = m.pkt.destQp % 128 →
    (fits s m .ack q → ∃ t, exec (.pktAckRx m) s = .next t ∧ t.mem = s.mem ∧ after t m (fun y => y.error = false →
      ∃ more, y.unacked = kept q m.pkt.psn ++ more)) ∧
    (fits s m .flushAck q → ∃ t, exec (.pktFlushAckRx m) s = .next t ∧ t.mem = s.mem ∧ after t m (fun y => y.error = false →
      ∃ more, y.unacked = kept q m.pkt.psn ++ more)) ∧
    (fits s m .nak q → m.pkt.aux = 2 → kept q (psnBefore m.pkt.psn) ≠ [] →
      ∃ t, exec (.pktNakRx m) s = .next t ∧ after t m (fun y => y.error = false → y.rnrWait = true ∧ y.rnrNaks = q.rnrNaks + 1)) ∧
    (fits s m .nak q → m.pkt.aux = 3 → ∃ t, exec (.pktNakRx m) s = .next t ∧
      after t m (fun y => y.error = true ∧ y.lastError = St.remoteAccess ∧ y.active = [] ∧ y.unacked = [])) ∧
    (fits s m .nak q → m.pkt.aux = 4 → q.retryLimit ≤ q.noQpRetries + 1 → ∃ t, exec (.pktNakRx m) s = .next t ∧
      after t m (fun y => y.error = true ∧ y.lastError = St.noRemoteQp ∧ y.unacked = [])) ∧
    (fits s m .nak q → m.pkt.aux = 4 → q.noQpRetries + 1 < q.retryLimit → ∃ t, exec (.pktNakRx m) s = .next t ∧
      after t m (fun y => y.error = false → y.noQpRetries = q.noQpRetries + 1 ∧
        y.retransmitted = q.retransmitted + q.unacked.length))) ∧
  (∀ (s : State) (r : QpRef) (q : Qp), r.peer = none → findQp s r.part r.qp = some q → q.error = false →
    s.power.phase = .running →
    (q.rnrWait = false → q.unacked ≠ [] → q.retries + 1 < q.retryLimit →
      ∃ t, exec (.retryTimeout r) s = .next t ∧ findQp t r.part r.qp =
        some { q with retries := q.retries + 1, retransmitted := q.retransmitted + q.unacked.length }) ∧
    (q.rnrWait = false → q.unacked ≠ [] → q.retryLimit ≤ q.retries + 1 →
      ∃ t y, exec (.retryTimeout r) s = .next t ∧ findQp t r.part r.qp = some y ∧ y.error = true ∧
        y.lastError = St.transportTimeout ∧ y.unacked = []) ∧
    (q.rnrWait = true → (q.rnrRetry = 7 ∨ q.rnrRetries < q.rnrRetry) →
      ∃ t y, exec (.rnrDelayExpiry r) s = .next t ∧ findQp t r.part r.qp = some y ∧
        (y.error = false → y.rnrWait = false ∧ y.rnrRetries = q.rnrRetries + 1)) ∧
    (q.rnrWait = true → q.rnrRetry ≠ 7 → q.rnrRetry ≤ q.rnrRetries →
      ∃ t y, exec (.rnrDelayExpiry r) s = .next t ∧ findQp t r.part r.qp = some y ∧ y.error = true ∧
        y.lastError = St.receiverNotReady ∧ y.unacked = []) ∧
    (q.unackedRx ≠ 0 → ∃ t, exec (.ackDelayTimer r) s = .next t ∧ findQp t r.part r.qp = some { q with unackedRx := 0 } ∧
      t.mem = s.mem))

/-- FAB_SHAPER_SET and FAB_POLICER_SET fail with the first faulty field or set every entry, keeping the credit and level of entries that do not change. EGRESS_ARBITRATION sends one waiting packet of a pair the neighbour has not paused whenever a class is eligible, class 7 first and then of the highest priority. A sample stores every depth and age; CHK_COMMIT copies the sampling set only. FAB_STATS answers the view of its mailbox. -/
def Obligations.ChokerShapesPolicesAndSamples : Prop :=
  (∀ (s : State) (r : MbxReq) (es : List ShaperEntry) (ps : List PolicerEntry) (first count : Nat),
    (Admits s r Op.fabShaperSet none (lengthIn r [1024]) →
      let cs := (List.range 64).flatMap (fun i => shaperChecks i (shaperEntry es i))
      (∀ e, firstFail cs = some e → Answers (.fabShaperSet r es) r Op.fabShaperSet e.1 e.2 false [] s s) ∧
      (firstFail cs = none → ∃ u, Answers (.fabShaperSet r es) r Op.fabShaperSet St.ok 0 false [] u s ∧
        u = { s with choker := { s.choker with shapers := u.choker.shapers } } ∧
        ∀ i, i < s.choker.shapers.length → (shaperOf u i).entry = shaperEntry es i ∧
          ((shaperOf s i).entry = shaperEntry es i → shaperOf u i = shaperOf s i) ∧
          ((shaperOf s i).entry ≠ shaperEntry es i → (shaperOf u i).credit = 0 ∧ (shaperOf u i).deficit = 0))) ∧
    (Admits s r Op.fabPolicerSet none (lengthIn r [384]) →
      let cs := (List.range 24).flatMap (fun j => policerChecks j (policerEntry ps j))
      (∀ e, firstFail cs = some e → Answers (.fabPolicerSet r ps) r Op.fabPolicerSet e.1 e.2 false [] s s) ∧
      (firstFail cs = none → ∃ u, Answers (.fabPolicerSet r ps) r Op.fabPolicerSet St.ok 0 false [] u s ∧
        u = { s with choker := { s.choker with policers := u.choker.policers } } ∧
        ∀ j, j < s.choker.policers.length → (policerOf u j).entry = policerEntry ps j ∧
          (policerOf u j).drops = (policerOf s j).drops ∧
          (policerOf u j).level = (if (policerOf s j).entry = policerEntry ps j then (policerOf s j).level
            else (policerEntry ps j).burst * 1000000))) ∧
    (Admits s r Op.fabStats none (lengthIn r [8]) → first ≤ 127 → count ≤ 120 →
      (r.mbx = 12 → Answers (.fabStats r first count) r Op.fabStats St.ok 0 false (portViewBytes s) s s) ∧
      (r.mbx ≠ 12 → Answers (.fabStats r first count) r Op.fabStats St.ok 0 false (partViewBytes s r.partition first count) s s))) ∧
  (∀ (s : State) (n : Nat), (portOf s n).isUp = true → s.power.phase = .running → n < 8 → s.fabric.ports.length = 8 →
    s.choker.shapers.length = 64 → (∀ c, c < 7 → 1 ≤ (shaperOf s (n * 8 + c)).entry.quantum) →
    (∀ v ∈ s.choker.lastVc, v ≤ 1) → (∀ w ∈ (portOf s n).egress, packetSize w.pkt ≤ 4144 ∧ w.src ≤ 8 ∧ w.pkt.vc ≤ 1) →
    ((∀ c, c < 8 → eligible s n c = false) → ∃ t, exec (.egressArbitration n) s = .next t ∧ t = { s with choker := t.choker }) ∧
    (∀ c, c < 8 → eligible s n c = true →
      ∃ t w, exec (.egressArbitration n) s = .next t ∧ w ∈ (portOf s n).egress ∧
        (portOf t n).egress = (portOf s n).egress.erase w ∧ Out.packet n (headerBytes w.pkt) w.pkt ∈ t.issued ∧ w.pkt.cls < 8 ∧
        eligible s n w.pkt.cls = true ∧ (portOf s n).xoffRx.getLsbD (pairOf w.pkt.cls w.pkt.vc) = false ∧
        (portOf t n).txBytes = (portOf s n).txBytes + packetSize w.pkt ∧ t.parts = s.parts ∧ t.mem = s.mem ∧
        (eligible s n 7 = true → w.pkt.cls = 7) ∧
        (eligible s n 7 = false → (shaperOf s (n * 8 + c)).entry.priority ≤ (shaperOf s (n * 8 + w.pkt.cls)).entry.priority))) ∧
  (∀ (s : State) (ages : List Nat), s.power.phase = .running → s.choker.sampleActive.toNat.testBit 16 = true →
    ∃ t, exec (.queueSampleTimer ages) s = .next t ∧ t.parts = s.parts ∧ t.choker.qdepth.length = 76 ∧
      t.choker.qdelay.length = 76 ∧ t.choker.intStatus = s.choker.intStatus ||| 4 ∧
      ∀ q, q < 76 → t.choker.qdepth[q]? = some (BitVec.ofNat 32 (min 0xFFFFFFFF (queueDepth s q))) ∧
        t.choker.qdelay[q]? = some (if queueDepth s q = 0 then 0
          else BitVec.ofNat 32 (min 0xFFFFFFFF ((s.time - queueSince s q) * 1000 + ages.getD q 0 % 1000)))) ∧
  (∀ (s : State) (v : Reg), hostReaches s 0 = true → exec (.chkCommit v) s = .next
    (if v.toNat.testBit 0 then { s with choker := { s.choker with sampleActive := s.choker.sampleShadow } } else s)) ∧
  (∀ (s : State) (j n : Nat) (bit : Reg), j < s.choker.policers.length →
    let b := policerOf s j
    let x := police j n bit s
    (x.1 = false ↔ b.entry.enable ≠ 0 ∧ b.level < n) ∧
    (x.1 = true → (policerOf x.2 j).level = (if b.entry.enable = 0 then b.level else b.level - n) ∧
      (policerOf x.2 j).drops = b.drops) ∧
    (x.1 = false → (policerOf x.2 j).level = b.level ∧ (policerOf x.2 j).drops.toNat = min 0xFFFFFFFF (b.drops.toNat + 1) ∧
      x.2.choker.intStatus = s.choker.intStatus ||| bit))

/-- A write of a form or offset that no register has is a decode error, one to a range its function does not expose is ignored, and no other changes a partition or memory. Enables and shadows take the masked value, status bits clear where 1 is written, and none of these copies a shadow. A status bit that makes the summary non-zero sends PF vector 1, as REARM does while it is non-zero. LPE_COMMIT takes the shadows and starts the ring afresh. FWD_ABORT stops busy host channels with code 8 and no other. -/
def Obligations.RegistersTakeWritesAsTheirTypesSay : Prop :=
  (∀ (s : State) (w : RegWrite), hostReaches s w.fn = true →
    (regAccessOk w.offset w.size = false → exec (.registerWrite w) s = .next (logDecode 1 w.offset 1 s)) ∧
    (regAccessOk w.offset w.size = true → ∀ rg, regRange w.offset = some rg → exposed w.fn rg.1 = false →
      exec (.registerWrite w) s = .next s) ∧
    (regAccessOk w.offset w.size = true → ∃ t, exec (.registerWrite w) s = .next t ∧ t.parts = s.parts ∧ t.mem = s.mem) ∧
    (w.fn = 0 → w.size = 4 → w.value < 2 ^ 32 →
      let v : Reg := BitVec.ofNat 32 w.value
      ∃ t, exec (.registerWrite w) s = .next t ∧
        (w.offset = 0x4 → t.landing.intStatus = s.landing.intStatus &&& ~~~v ∧ t.landing.intEnable = s.landing.intEnable) ∧
        (w.offset = 0x8 → t.landing.intEnable = v &&& 0x7F ∧ t.landing.intStatus = s.landing.intStatus) ∧
        (∀ n, n < 8 → s.pave.allStacks.length = 8 → w.offset = 0x300100 + 4 * n →
          stackOf t n = { stackOf s n with opShadow := min 32 (w.value % 64) }) ∧
        (w.offset = 0x300400 → t.pave.intStatus = s.pave.intStatus &&& ~~~v) ∧
        (w.offset = 0x340010 → t.choker.sampleActive = s.choker.sampleActive ∧
          t.choker.sampleShadow.toNat % 1024 = min 1000 (max 1 (w.value % 1024))) ∧
        (w.offset = 0x340800 → t.choker.intStatus = s.choker.intStatus &&& ~~~v) ∧
        (w.offset = 0x3C0400 → t.cruise.intStatus = s.cruise.intStatus &&& ~~~v) ∧
        (w.offset = 0x400010 → t.loupe.ctrlShadow = v &&& 0x1FFF0003 ∧ t.loupe.ctrl = s.loupe.ctrl) ∧
        (∀ c, 24 ≤ c → c < 32 → s.channels.length = 32 → w.offset = 0x380104 + 0x40 * c →
          (channelOf t c).shadow.srcCount = w.value % 65536 ∧ (channelOf t c).shadow.dstCount = w.value / 65536 ∧
          (channelOf t c).active = (channelOf s c).active) ∧
        (∀ c, c < 24 → w.offset = 0x380100 + 0x40 * c → t.channels = s.channels) ∧
        (w.offset ∈ [0x0, 0x300200, 0x300300, 0x300408, 0x340100, 0x340300, 0x340400, 0x3C0000, 0x400020, 0x400028] →
          ∀ o, regRead t o = regRead s o))) ∧
  (∀ (s : State) (bits : Reg), s.landing.linkActive = true → s.landing.bme.getD 0 false = true → insecureFn s 0 = false →
    s.power.state ≠ .d3hot → summary s = 0 → summary (setLndStatus bits s) ≠ 0 →
    (setLndStatus bits s).issued = s.issued ++ [Out.msix 0 1]) ∧
  (∀ (s : State) (v : Reg), hostReaches s 0 = true →
    (exec (.lndIntRearm v) s = .next (if v.toNat.testBit 0 = true ∧ summary s ≠ 0 then sendMsix 0 1 s else s)) ∧
    (v.toNat.testBit 0 = false → exec (.lpeCommit v) s = .next s) ∧
    (v.toNat.testBit 0 = true → ∃ t, exec (.lpeCommit v) s = .next t ∧ t = { s with loupe := t.loupe } ∧
      t.loupe.ctrl = s.loupe.ctrlShadow ∧ t.loupe.filter = s.loupe.filterShadow ∧
      t.loupe.running = s.loupe.ctrlShadow.toNat.testBit 0 ∧
      (s.loupe.ctrlShadow.toNat.testBit 0 = true → t.loupe.ring = [] ∧ t.loupe.count = 0 ∧ t.loupe.full = false) ∧
      (s.loupe.ctrlShadow.toNat.testBit 0 = false → t.loupe.ring = s.loupe.ring)) ∧
    (s.channels.length = 32 → ∃ t, exec (.fwdAbort v) s = .next t ∧ t.parts = s.parts ∧ t.mem = s.mem ∧ ∀ c, c < 32 →
      channelOf t c = if v.toNat.testBit c && decide (24 ≤ c) && (channelOf s c).busy then
        { channelOf s c with busy := false, due := false, done := true, error := true, errCode := 8,
                             progress := (channelOf s c).runBytes }
      else channelOf s c))

/-- FWD_COMMIT copies every shadow; an idle channel that it starts is busy with the set it captures, a busy one only shows START_IGNORED, and channels 0 to 23 do not start through the PF. A run whose counts, lists, alignment or totals fail moves nothing and will end with the first such code. A run from host memory into one populated HBM range leaves there the bytes read, and every other byte as it was. FWD_CHANNEL_DONE moves a started channel's bytes and ends the run with its code and its bytes once no remote access is unacknowledged. -/
def Obligations.ForwarderChannelsMoveTheirBytes : Prop :=
  (∀ (s : State) (v : Reg) (pf : Bool), (pf = true → hostReaches s 0 = true) → s.channels.length = 32 →
    ∃ t, exec (.fwdCommit v pf) s = .next t ∧ t = { s with channels := t.channels } ∧ t.channels.length = 32 ∧ ∀ c, c < 32 →
      let x := channelOf s c
      let y : Channel := { x with active := x.shadow }
      channelOf t c =
        if v.toNat.testBit c && (!pf || decide (24 ≤ c)) then
          (if x.busy then { y with startIgnored := true }
           else { y with busy := true, due := true, captured := x.shadow, progress := 0, runBytes := 0, runError := 0,
                         runInt := x.shadow.intEn })
        else y) ∧
  (∀ (s : State) (f : FwdSet) (r : FwdRun) (src dst : List SgEntry), f.srcCount ≠ 0 → f.dstCount ≠ 0 →
    f.srcListHost = true → f.dstListHost = true →
    ((r.listsRead = false ∨ r.srcList.length ≠ f.srcCount ∨ r.dstList.length ≠ f.dstCount) → runMove f r s = (6, 0, s)) ∧
    (r.listsRead = true → r.srcList = src → src.length = f.srcCount → r.dstList = dst → dst.length = f.dstCount →
      ((misaligned f.srcWidth src || misaligned f.dstWidth dst) = true → runMove f r s = (5, 0, s)) ∧
      (misaligned f.srcWidth src = false → misaligned f.dstWidth dst = false → sgTotal src ≠ sgTotal dst →
        runMove f r s = (4, 0, s)))) ∧
  (∀ (s : State) (f : FwdSet) (r : FwdRun), (f.srcCount = 0 ∨ f.dstCount = 0) → runMove f r s = (9, 0, s)) ∧
  (∀ (s : State) (f : FwdSet) (r : FwdRun) (a b : SgEntry) (own : Nat), Memory.wf s.mem = true → s.fabric.deviceId = some own →
    f.srcCount = 1 → f.dstCount = 1 → f.srcListHost = true → f.dstListHost = true → f.srcHost = true → f.dstHost = false →
    r.listsRead = true → r.srcList = [a] → r.dstList = [b] → r.failAt = none → poolDevice b.addr = own →
    misaligned f.srcWidth [a] = false → misaligned f.dstWidth [b] = false → a.length = b.length →
    (∀ x, x < objRegion → objAt s x = none) → hbmBase ≤ poolLocal b.addr →
    poolLocal b.addr + b.length ≤ hbmBase + stackBytes → poolLocal b.addr + b.length ≤ 2 ^ 52 →
    let x := runMove f r s
    x.1 = 0 ∧ x.2.1 = b.length ∧ readMem x.2.2 (poolLocal b.addr) b.length = givenBytes s r.bytes a.addr a.length ∧
    x.2.2 = { s with mem := x.2.2.mem } ∧
    ∀ y, y < poolLocal b.addr ∨ poolLocal b.addr + b.length ≤ y → cellsRead x.2.2.mem y = cellsRead s.mem y) ∧
  (∀ (s : State) (r : FwdRun),
    let c := r.channel
    let f := (channelOf s c).captured
    let x := runMove f r (onChannel c (fun y => { y with due := false }) s)
    (channelOf s c).busy = true → s.power.phase = .running → (channelOf s c).due = true →
    (hostWaits s f = true → exec (.fwdChannelDone r) s = .next s) ∧
    (hostWaits s f = false → x.2.2.channels.length = 32 → ∃ t, exec (.fwdChannelDone r) s = .next t ∧ t.mem = x.2.2.mem ∧
      (channelOf t c).runBytes = x.2.1 ∧ (channelOf t c).runError = x.1 ∧
      (remoteOpen x.2.2 c = false → (channelOf t c).busy = false ∧ (channelOf t c).done = true ∧
        (channelOf t c).progress = x.2.1 ∧ (x.1 ≠ 0 → (channelOf t c).error = true ∧ (channelOf t c).errCode = x.1)))) ∧
  (∀ (s : State) (r : FwdRun), let c := r.channel
    (channelOf s c).busy = true → s.power.phase = .running → (channelOf s c).due = false →
    (remoteOpen s c = true → exec (.fwdChannelDone r) s = .next s) ∧
    (remoteOpen s c = false →
    ∃ t, exec (.fwdChannelDone r) s = .next t ∧ t.parts = s.parts ∧ t.mem = s.mem ∧
      (channelOf t c).busy = false ∧ (channelOf t c).done = true ∧ (channelOf t c).progress = (channelOf s c).runBytes ∧
      ((channelOf s c).runError ≠ 0 → (channelOf t c).error = true ∧ (channelOf t c).errCode = (channelOf s c).runError) ∧
      (∀ d, d ≠ c → channelOf t d = channelOf s d) ∧
      (24 ≤ c → (channelOf s c).runInt = true → insecureFn s 0 = false → s.landing.linkActive = true →
        landingBlocked s 0 = false → t.issued = s.issued ++ [Out.msix 0 (8 + (c - 24))])))

/-- A BAR2 access inside an object of the partition reads its bytes or writes a host object; any other is a decode error. TLPs without IDE to an associated function are refused; a failed check makes a stream Insecure and a new key ends that. Failed reads put the SQ in error, complete the command or stop the channel. A function reset of a VF clears that partition's queues and nothing it stores, and its commands on stored rows run on without a completion; one of the PF clears VF Enable and the host channels; a link-down drops what waits; D3hot cancels, flushes and powers compute off. -/
def Obligations.HostLinkKeepsItsRules : Prop :=
  (∀ (s : State) (a : Bar2Access) (r : ObjRange), hostReaches s (1 + a.part) = true → a.offset + a.length ≤ bar2Size s →
    let x := sliceBase a.part + a.offset
    (bar2Range s a.part x a.length = none →
      exec (.bar2Read a) s = .next (emit (.unsupportedRequest (1 + a.part)) (logDecode 1 x 0 s)) ∧
      exec (.bar2Write a) s = .next (logDecode 1 x 1 s)) ∧
    (bar2Range s a.part x a.length = some r →
      exec (.bar2Read a) s = .next (emit (.tlpData (1 + a.part) (objLoad s r x a.length)) s) ∧
      (r.host = false → exec (.bar2Write a) s = .next (logDecode 1 x 1 s)) ∧
      (∀ o, r.host = true → findObj s r.part r.handle = some o →
        (∀ e ∈ extentsOf (x - o.base) (a.data.take a.length).length, isPoisoned s r.part r.handle e = false) →
        ∃ t, exec (.bar2Write a) s = .next t ∧ t.mem = cellsWriteBytes s.mem x (a.data.take a.length) ∧
          t.parts = s.parts))) ∧
  (∀ (s : State) (code : Nat), s.power.phase = .running → code ≤ 4 →
    exec (.bar2Resize code) s = .next { s with landing := { s.landing with bar2Code := code } }) ∧
  (∀ (s : State) (t : HostTlp), s.power.phase = .running → s.landing.linkActive = true →
    s.landing.ide.any (fun i => i.holds t.fn) = true →
    ∃ u, exec (.hostNonIdeTlp t) s = .next u ∧ u.landing.intStatus = s.landing.intStatus ||| 0x40 ∧
      u.landing.ide = s.landing.ide ∧ u.parts = s.parts ∧
      (t.isWrite = false → Out.unsupportedRequest t.fn ∈ u.issued)) ∧
  (∀ (s : State) (a : IdeKeyArgs), firmwareRuns s = true → s.landing.linkActive = true → s.landing.ide.length = 4 →
    mayKey s a = true → ∃ t, exec (.ideKmKeyProgram a) s = .next t ∧ t.parts = s.parts ∧ t.mem = s.mem ∧
      t.landing.ide = s.landing.ide.set a.stream { firstFn := a.firstFn, fnCount := a.fnCount, state := .secure } ∧
      ∀ o ∈ t.landing.waiting, landingBlocked t o.fn = true) ∧
  (∀ (s : State) (n : Nat) (i : IdeStream), s.landing.ide[n]? = some i → i.state = .secure → n < 4 →
    ∃ t, exec (.ideIntegrityFailure n) s = .next t ∧ t.landing.ide = s.landing.ide.set n { i with state := .insecure } ∧
      t.landing.intStatus.toNat.testBit n = true ∧ t.hallmark.ideInsecure = s.hallmark.ideInsecure + 1 ∧
      ∀ fn, i.firstFn ≤ fn → fn < i.firstFn + i.fnCount → insecureFn t fn = true ∧
        ∀ v o u, u.landing = t.landing → (sendMsix fn v u).issued = u.issued ∧ (issueHost fn o u).issued = u.issued) ∧
  (∀ (s : State) (p sq tag off cause c : Nat) (x : Sq) (e : Entry) (inP : Bool), s.power.phase = .running →
    findSq (part s p) sq = some x →
    (∃ t y, exec (.hostReadFailure { what := .sqFetch p sq, cause := cause }) s = .next t ∧ findSq (part t p) sq = some y ∧
      y.error = true ∧ t.landing.intStatus = s.landing.intStatus ||| 0x20 ∧ t.mem = s.mem) ∧
    (x.fetched.head? = some e → e.tag = tag →
      ∃ v, exec (.hostReadFailure { what := .command p sq tag off inP, cause := cause }) s = .next
          (completeSq p sq tag e.context e.noInt St.hostAccessFailed 0 (if inP then off + 0x80000000 else off) cause v) ∧
        v.landing.intStatus = s.landing.intStatus ||| 0x20 ∧ v.mem = s.mem ∧
        findSq (part v p) sq = some { x with fetched := x.fetched.tail, arrived := x.arrived.tail }) ∧
    (c < 32 → (channelOf s c).busy = true → (channelOf s c).due = true →
      ∃ t, exec (.hostReadFailure { what := .channel c, cause := cause }) s = .next t ∧ (channelOf t c).busy = false ∧
        (channelOf t c).errCode = 3 ∧ (channelOf t c).error = true ∧ t.parts = s.parts) ∧
    ((channelOf s c).due = false → exec (.hostReadFailure { what := .channel c, cause := cause }) s = .next s)) ∧
  (∀ (s : State) (fn : Nat), s.power.phase = .running → fn < s.landing.bme.length →
    (∃ t, exec (.busMasterEnableChange fn false) s = .next t ∧ t.landing.bme.getD fn true = false ∧ t.issued = s.issued ∧
      t.parts = s.parts ∧ ∀ o u, u.landing = t.landing → (issueHost fn o u).issued = u.issued) ∧
    (∃ t, exec (.busMasterEnableChange fn true) s = .next t ∧ t.landing.bme.getD fn false = true ∧ t.parts = s.parts ∧
      ∀ o ∈ t.landing.waiting, landingBlocked t o.fn = true)) ∧
  (∀ (s : State) (p : Nat), s.power.phase = .running → p < 12 → s.parts.length = 12 → s.landing.bme.length = 13 →
    ∃ t, exec (.flrVf p) s = .next t ∧ t.mem = s.mem ∧ t.deck = s.deck ∧ (∀ n, n ≠ p → part t n = part s n) ∧
      (let left := ((part s p).running.filter Running.isIngest).map Running.orphan
       part t p = { part s p with sqs := [], cqs := [], eq := none, streams := [], qps := [], running := left }) ∧
      t.landing.bme.getD (1 + p) true = false ∧ (mailboxOf t p).busy = false ∧ (mailboxOf t p).done = false) ∧
  (∀ (s : State), s.power.phase = .running → s.parts.length = 12 → s.channels.length = 32 →
    ∃ t, exec .flrPf s = .next t ∧ t.landing.vfEnable = false ∧ t.landing.intEnable = 0 ∧ t.pave.intEnable = 0 ∧
      t.choker.intEnable = 0 ∧ t.mem = s.mem ∧ t.pave.allStacks = s.pave.allStacks ∧ t.landing.intStatus = s.landing.intStatus ∧
      (∀ c, c < 32 → channelOf t c = if 24 ≤ c then {} else channelOf s c) ∧
      ∀ p, p < 12 → let left := ((part s p).running.filter Running.isIngest).map Running.orphan
        part t p = { part s p with sqs := [], cqs := [], eq := none, streams := [], qps := [], running := left }) ∧
  (∀ (s : State), s.power.phase = .running →
    (s.landing.linkActive = true → ∃ t, exec .pcieLinkDown s = .next t ∧ t.landing.linkActive = false ∧
      t.landing.waiting = [] ∧ t.issued = s.issued ∧ t.landing.intStatus = s.landing.intStatus ||| 0x10 ∧ t.parts = s.parts) ∧
    (s.landing.linkActive = false → s.power.refclk.getD 3 false = true → s.parts.length = 12 →
      ∃ t, exec .pcieLinkUp s = .next t ∧ t.landing.linkActive = true ∧ t.landing.vfEnable = false ∧ t.mem = s.mem ∧
        ∀ p, p < 12 → (part t p).sqs = [] ∧ (part t p).qps = [] ∧ (part t p).colls = (part s p).colls)) ∧
  (∀ (s : State), s.power.phase = .running → s.power.state ≠ .d3hot → s.power.state ≠ .shardHold →
    (∀ b ∈ s.deck.buffer, (findObj s b.part b.handle).isSome = true) →
    ∃ t, exec .pfD3hotEntry s = .next t ∧ t.power.state = .d3hot ∧ t.deck.journal = 0 ∧
      (∀ r ∈ t.runs, r.started = false ∧ ∃ freeze, r.use = .calibrate freeze) ∧
      (∀ b ∈ t.deck.buffer, b.dirty = false) ∧ (∀ p, p < 12 → ∀ r ∈ (part t p).running, isHoldCancelled r = false) ∧
      (∀ a, sramBase ≤ a → a < hbmBase → cellsRead t.mem a = 0) ∧
      (∀ a, hbmBase ≤ a → cellsRead t.mem a = cellsRead s.mem a)) ∧
  (∀ (s : State), s.power.state = .d3hot → ∃ t, exec .pfD0Return s = .next t ∧ t.power = { s.power with state := .active } ∧
    t.parts = s.parts ∧ t.mem = s.mem ∧ ∀ o ∈ t.landing.waiting, landingBlocked t o.fn = true)

/-- An Assay is signed with the next leaf, from a reservation that a tally write has covered; beyond 32 signatures in a second, or with the key used up, SIGN_LIMIT and no effect. A tally change writes the value and its cost, signs and appends the next audit record and answers with the cost; a value equal to the present one changes nothing; a conflict or a spent budget changes nothing. A change of the root closes every session and keeps the previous fabric key for its windows. -/
def Obligations.SignaturesAndTallyChanges : Prop :=
  (∀ (s : State) (r : MbxReq) (nonce : List Byte), Admits s r Op.secAttest none (lengthIn r [40]) →
    (signBlocked s = none →
      let head := assayHead s r.partition nonce
      let l := takeLeaf s
      Answers (.secAttest r { kind := 0, nonce := nonce }) r Op.secAttest St.ok 0 false (head ++ identitySign l.1 head)
        { l.2 with hallmark := { l.2.hallmark with assays := l.2.hallmark.assays + 1 } } s) ∧
    (∀ d, signBlocked s = some d → Answers (.secAttest r { kind := 0, nonce := nonce }) r Op.secAttest St.signLimit d false [] s s) ∧
    (∀ kind, kind ≠ 0 → Answers (.secAttest r { kind := kind, nonce := nonce }) r Op.secAttest St.invalidField 32 false [] s s) ∧
    Answers (.secAttestCertificate r) r Op.secAttest St.ok 0 false (certificateBytes Config.idPubKey Config.idCertSignature) s s) ∧
  (∀ s : State, let h := s.hallmark
    let t := (takeLeaf s).2
    t = { s with hallmark := t.hallmark } ∧ t.hallmark.signed = h.signed + 1 ∧ t.hallmark.items = h.items ∧
    t.hallmark.audit = h.audit ∧ t.hallmark.leaf = (takeLeaf s).1 + 1 ∧
    (h.leaf ≠ h.leafEnd → (takeLeaf s).1 = h.leaf ∧ t.hallmark.nextLeaf = h.nextLeaf ∧ t.hallmark.tallyWrites = h.tallyWrites) ∧
    (h.leaf = h.leafEnd → (takeLeaf s).1 = h.nextLeaf ∧ t.hallmark.nextLeaf = h.nextLeaf + 1024 ∧
      t.hallmark.leafEnd = h.nextLeaf + 1024 ∧ t.hallmark.tallyWrites = h.tallyWrites + 1) ∧
    (h.leaf = h.leafEnd → 2 ^ 35 ≤ h.nextLeaf → signBlocked s = some 2) ∧
    ((h.leaf ≠ h.leafEnd ∨ h.nextLeaf < 2 ^ 35) →
      signBlocked s = if 32 ≤ (h.signTimes.filter (fun u => decide (s.time < u + 1000000))).length then some 1 else none)) ∧
  (∀ (s : State) (r : MbxReq) (item : Nat), Admits s r Op.secTallyRead none (lengthIn r [8]) →
    (1 ≤ item → item ≤ 6 → let x := tallyItem s item
      Answers (.secTallyRead r item) r Op.secTallyRead St.ok 0 false
        (le 1 item ++ [0] ++ le 2 x.budget ++ le 2 x.remaining ++ le 2 (itemLen item) ++ le 4 x.lastAudit ++ [0, 0, 0, 0] ++
          fitBytes (itemLen item) (if item = 3 then (if x.value = [] then zeros 32 else sha256 x.value) else x.value)) s s) ∧
    ((item = 0 ∨ 6 < item) → Answers (.secTallyRead r item) r Op.secTallyRead St.invalidField 32 false [] s s)) ∧
  (∀ (s : State) (r : MbxReq) (a : TallyChangeArgs), Admits s r Op.secTallyChange (some a.item) (tallyLength r a) →
    firstFail (valueChecks a.item (fitBytes (itemLen a.item) a.value)) = none → s.hallmark.items.length = 6 →
    let v := cleanValue a.item (fitBytes (itemLen a.item) a.value)
    let x := tallyItem s a.item
    let cost := if a.item = 4 then (v.getD 0 0).toNat - fwFloor s else 1
    (v = presentValue s a.item → Answers (.secTallyChange r a) r Op.secTallyChange St.ok 0 false
      (le 2 x.remaining ++ [0, 0] ++ le 4 x.lastAudit) s s) ∧
    (v ≠ presentValue s a.item →
      (tallyConflict s a.item v = true → Answers (.secTallyChange r a) r Op.secTallyChange St.wrongState 0 false [] s s) ∧
      (tallyConflict s a.item v = false → x.remaining < cost →
        Answers (.secTallyChange r a) r Op.secTallyChange St.tallyExhausted 0 false [] s s) ∧
      (∀ d, tallyConflict s a.item v = false → cost ≤ x.remaining → signBlocked s = some d →
        Answers (.secTallyChange r a) r Op.secTallyChange St.signLimit d false [] s s) ∧
      (tallyConflict s a.item v = false → cost ≤ x.remaining → signBlocked s = none → cost ≠ 0 →
        ∃ t, exec (.secTallyChange r a) s = .next t ∧ KeepsMem s t ∧
          Answered r Op.secTallyChange St.ok cost false (le 2 (x.remaining - cost) ++ [0, 0] ++ le 4 (s.hallmark.auditNewest + 1)) t ∧
          tallyItem t a.item = { x with value := v, remaining := x.remaining - cost, lastAudit := s.hallmark.auditNewest + 1 } ∧
          (∀ i, 1 ≤ i → i ≤ 6 → i ≠ a.item → tallyItem t i = tallyItem s i) ∧
          t.hallmark.auditNewest = s.hallmark.auditNewest + 1 ∧
          (∃ rec, t.hallmark.audit.getLast? = some rec ∧ rec.seq = s.hallmark.auditNewest + 1 ∧ rec.kind = 1 ∧ rec.item = a.item ∧
            rec.cost = cost ∧ rec.remaining = x.remaining - cost ∧ rec.newDigest = sha256 v ∧
            rec.oldDigest = sha256 (presentValue s a.item) ∧ rec.leaf = (takeLeaf s).1) ∧
          (∀ rec ∈ s.hallmark.audit, rec.kind = 1 → rec ∈ t.hallmark.audit) ∧
          (a.item = 3 → t.sessions = [] ∧ t.fabric.prevKeySend = some (s.time + 600000000) ∧
            t.fabric.prevKeyAccept = some (s.time + 1200000000) ∧ t.fabric.prevRoot = presentValue s 3) ∧
          (a.item = 6 → ∀ y ∈ t.sessions, y ∈ s.sessions ∧ ∀ p, y.identity = .tenantDebug p →
            ¬((unle x.value).testBit p = true ∧ (unle v).testBit p = false)) ∧
          ((a.item = 2 ∨ a.item = 4) → Shown { s with hallmark := t.hallmark } t)))) ∧
  (∀ (s : State) (r : MbxReq) (n : Nat), Admits s r Op.secAuditRead none (lengthIn r [8]) → let l := s.hallmark.audit
    let head := le 4 ((l.head?.map AuditRec.seq).getD 0) ++ le 4 s.hallmark.auditNewest
    (∀ x, l.find? (fun a => a.seq = n) = some x →
      Answers (.secAuditRead r n) r Op.secAuditRead St.ok 0 false (head ++ [1] ++ zeros 7 ++ auditRecBytes x) s s) ∧
    (l.find? (fun a => a.seq = n) = none → Answers (.secAuditRead r n) r Op.secAuditRead St.ok 0 false (head ++ [0] ++ zeros 7) s s)) ∧
  (∀ s : State, firmwareRuns s = true →
    (treeLeft s.hallmark < 2 ^ 19 → s.hallmark.nextTree = 0 →
      exec (.lmsTreeBuild false) s = .next { s with hallmark := { s.hallmark with nextTree := 1 } }) ∧
    (s.hallmark.nextTree = 1 → exec (.lmsTreeBuild true) s = .next { s with hallmark := { s.hallmark with nextTree := 2 } })) ∧
  (∀ s : State, ∃ t, exec .fabricKeySwitch s = .next t ∧ t = { s with fabric := t.fabric } ∧
    t.fabric = { s.fabric with prevKeySend := t.fabric.prevKeySend, prevKeyAccept := t.fabric.prevKeyAccept } ∧
    (∀ u, s.fabric.prevKeySend = some u → t.fabric.prevKeySend = if u ≤ s.time then none else some u) ∧
    ∀ u, s.fabric.prevKeyAccept = some u → t.fabric.prevKeyAccept = if u ≤ s.time then none else some u)

/-- BEGIN erases the slot that does not run and opens an update, DATA writes its bytes, ABORT discards it, each of them WRONG_STATE out of turn; COMMIT marks a checked image preferred and appends its audit record, or ends with FW_REJECTED and its reason. A handshake under the PSK of an identity accepted now opens a session, any other counts as failed, and the 16th within 60 s refuses connections until the lockout ends. DBG_TRACE, DBG_COUNTERS and DBG_LOUPE answer, and DBG_LOUPE writes both shadows and commits. -/
def Obligations.UpdatesSessionsAndDebugAct : Prop :=
  (∀ (s : State) (r : MbxReq),
    let h := s.hallmark
    let job (status detail : Nat) : AsyncJob :=
      { dest := doneDest r, opcode := Op.secFwUpdate, tag := r.tag, partition := r.partition, status := status, detail := detail, action := .nothing }
    (∀ n phase, Admits s r Op.secFwUpdate none none → 1 ≤ r.length → phase ≠ 0 →
      Answers (.secFwUpdateBegin r { phase := phase, imageLen := n }) r Op.secFwUpdate St.invalidField 32 false [] s s) ∧
    (∀ n, Admits s r Op.secFwUpdate none (phaseStep r 0) → (n < 4096 ∨ 33554432 < n) →
      Answers (.secFwUpdateBegin r { phase := 0, imageLen := n }) r Op.secFwUpdate St.invalidField 40 false [] s s) ∧
    (∀ n, Admits s r Op.secFwUpdate none (phaseStep r 0) → 4096 ≤ n → n ≤ 33554432 →
      (h.update = none → Answers (.secFwUpdateBegin r { phase := 0, imageLen := n }) r Op.secFwUpdate St.ok 0 true []
        { s with
          hallmark := { h with
            update := some { length := n, image := [] }, slotA := if h.runB then {} else h.slotA, slotB := if h.runB then h.slotB else {} }
          jobs := s.jobs ++ [job St.ok 0] } s) ∧
      (h.update ≠ none → Answers (.secFwUpdateBegin r { phase := 0, imageLen := n }) r Op.secFwUpdate St.wrongState 0 false [] s s)) ∧
    (∀ off data, Admits s r Op.secFwUpdate none (dataLength r data.length) →
      (h.update = none → Answers (.secFwUpdateData r off data) r Op.secFwUpdate St.wrongState 0 false [] s s) ∧
      (∀ u, h.update = some u → off + data.length ≤ u.length → Answers (.secFwUpdateData r off data) r Op.secFwUpdate St.ok 0 true []
        { s with
          hallmark := { h with update := some { u with
            image := cellsWriteBytes u.image off data, got := u.got ++ [(off, data.length)] } }
          jobs := s.jobs ++ [job St.ok 0] } s)) ∧
    (Admits s r Op.secFwUpdate none (lengthIn r [16]) →
      (h.update = none → Answers (.secFwUpdateCommit r) r Op.secFwUpdate St.wrongState 0 false [] s s ∧
        Answers (.secFwUpdateAbort r) r Op.secFwUpdate St.wrongState 0 false [] s s) ∧
      (∀ u, h.update = some u →
        Answers (.secFwUpdateAbort r) r Op.secFwUpdate St.ok 0 true []
          { s with hallmark := { h with update := none }, jobs := s.jobs ++ [job St.ok 0] } s ∧
        (fwReason s u ≠ 0 → Answers (.secFwUpdateCommit r) r Op.secFwUpdate St.ok 0 true []
          { s with jobs := s.jobs ++ [job St.fwRejected (fwReason s u)] } s) ∧
        (fwReason s u = 0 → signBlocked s = none →
          ∃ t, Answers (.secFwUpdateCommit r) r Op.secFwUpdate St.ok 0 true []
              { s with hallmark := t, jobs := s.jobs ++ [job St.ok 0] } s ∧
            let img := cellsReadBytes u.image 0 u.length
            t.update = none ∧ t.preferB = !h.runB ∧ t.runB = h.runB ∧ t.items = h.items ∧ (preferredSlot t).image = img ∧
            (if h.runB then t.slotB = h.slotB else t.slotA = h.slotA) ∧ t.auditNewest = h.auditNewest + 1 ∧
            ∃ rec, t.audit.getLast? = some rec ∧ rec.kind = 2 ∧ rec.newDigest = sha256 img ∧
              rec.oldDigest = sha256 (preferredSlot h).image)))) ∧
  (∀ (s : State) (u : FwUpdate), let img := cellsReadBytes u.image 0 u.length
    (Config.fwSignatureOk img = false → fwReason s u = 1) ∧
    (Config.fwSignatureOk img = true → Config.fwTarget img ≠ 0x00B0 → fwReason s u = 2) ∧
    (Config.fwSignatureOk img = true → Config.fwTarget img = 0x00B0 → Config.fwSecurity img < fwFloor s → fwReason s u = 3) ∧
    (fwReason s u = 0 → ∀ k, k < u.length → ∃ g ∈ u.got, g.1 ≤ k ∧ k < g.1 + g.2)) ∧
  (∀ (s : State) (i : Identity), firmwareRuns s = true → s.hallmark.lockout = false →
    (identityAccepted s i = true → s.sessions.length < 2 →
      ∃ t, exec (.tlsHandshake i (sessionPsk s i)) s = .next t ∧ t.sessions = s.sessions ++ [{ id := s.nextSession, identity := i }] ∧
        Shown { s with sessions := t.sessions, nextSession := s.nextSession + 1 } t) ∧
    (∀ psk, (psk ≠ sessionPsk s i ∨ identityAccepted s i = false) →
      ∃ t, exec (.tlsHandshake i psk) s = .next t ∧ t = { s with hallmark := t.hallmark } ∧
        t.hallmark.tlsFailures = s.hallmark.tlsFailures + 1 ∧ t.hallmark.items = s.hallmark.items ∧
        (t.hallmark.lockout = true ↔ 15 ≤ (s.hallmark.tlsFails.filter (fun u => decide (s.time < u + 60000000))).length))) ∧
  (∀ s : State, (s.hallmark.lockout = true → ∀ i psk, exec (.tlsHandshake i psk) s = .next s) ∧
    (firmwareRuns s = true → ∀ i, identityAccepted s i = true → 2 ≤ s.sessions.length →
      exec (.tlsHandshake i (sessionPsk s i)) s = .next s) ∧
    exec .tlsLockoutEnd s = .next { s with hallmark := { s.hallmark with lockout := false, tlsFails := [] } } ∧
    ∀ n, exec (.managementSessionEnd n) s = .next { s with sessions := s.sessions.filter (fun x => decide (x.id ≠ n)) }) ∧
  (∀ (s : State) (r : MbxReq),
    (∀ a n, Admits s r Op.dbgTrace none (lengthIn r [8]) → 1 ≤ n → n ≤ 127 →
      let l := (begun r Op.dbgTrace s).loupe
      Answers (.dbgTrace r a n) r Op.dbgTrace St.ok 0 false (readRing TraceRec.seq traceBytes l.ring l.count a n) s s) ∧
    (∀ g, Admits s r Op.dbgCounters none (lengthIn r [8]) → (requestIdentity s r).bind isTenantDebug = none →
      (g = 1 → Answers (.dbgCounters r g) r Op.dbgCounters St.ok 0 false (skidderRecord s none) s s) ∧
      (g = 2 → Answers (.dbgCounters r g) r Op.dbgCounters St.ok 0 false (deckRecord s) s s) ∧
      (g = 3 → Answers (.dbgCounters r g) r Op.dbgCounters St.ok 0 false (portViewBytes s) s s) ∧
      (g = 4 → Answers (.dbgCounters r g) r Op.dbgCounters St.ok 0 false (hallmarkRecord s) s s) ∧
      (g = 5 → Answers (.dbgCounters r g) r Op.dbgCounters St.ok 0 false (partViewBytes s r.partition 0 120) s s) ∧
      ((g = 0 ∨ 5 < g) → Answers (.dbgCounters r g) r Op.dbgCounters St.invalidField 32 false [] s s)) ∧
    (∀ c f, Admits s r Op.dbgLoupe none (lengthIn r [16]) →
      ∃ t, exec (.dbgLoupe r c f) s = .next t ∧ Answered r Op.dbgLoupe St.ok 0 false [] t ∧ Shown s t ∧
        t.loupe.ctrlShadow = c &&& 0x1FFF0003 ∧ t.loupe.ctrl = c &&& 0x1FFF0003 ∧ t.loupe.filterShadow = f &&& 0x00FFFFFF ∧
        t.loupe.filter = f &&& 0x00FFFFFF ∧ t.loupe.running = c.toNat.testBit 0 ∧
        (c.toNat.testBit 0 = true → t.loupe.ring.length ≤ 1 ∧ t.loupe.lost = 0)))

/-- While Scaler runs, MTR_READ answers the reading, signed from the bucket, while the key has a leaf, when asked, and the apportioned energy, or only the certificate. MTR_COMPOSE opens a composition and restarts the shares, repeats the open one, or fails. MTR_DECOMPOSE closes it with its receipt and applies a pending block, repeats the receipt of the last closed one, or fails. MTR_EVENTS answers from the event log. While Scaler does not run, each completes with METER_FAULT and no effect. -/
def Obligations.MeterRequestsAnswer : Prop :=
  ∀ (s : State) (r : MbxReq), let x := s.scaler
  (x.maySign = true ↔ x.bucket ≠ 0 ∧ (x.leaf < x.leafEnd ∨ x.leafEnd < 2 ^ 20)) ∧
  (x.runs = true →
    (∀ nonce, Admits s r Op.mtrRead none (lengthIn r [40]) →
      let rd := readingBytes x true
      (∀ n, Answers (.mtrRead r false false n) r Op.mtrRead St.ok 0 false (readingBytes x false ++ apportionBytes s) s s) ∧
      (∀ sign, Answers (.mtrRead r sign true nonce) r Op.mtrRead St.ok 0 false scalerCertificate s s) ∧
      (x.maySign = false → Answers (.mtrRead r true false nonce) r Op.mtrRead St.ok 0 false (readingBytes x false ++ apportionBytes s) s s) ∧
      (x.maySign = true → Answers (.mtrRead r true false nonce) r Op.mtrRead St.ok 0 false
        (rd ++ Config.scalerSign x.leaf (fitBytes 32 nonce ++ rd) ++ apportionBytes s)
        { s with scaler := { x with
          leaf := x.leaf + 1, bucket := x.bucket - 1, leafEnd := if x.leaf = x.leafEnd then x.leafEnd + 64 else x.leafEnd } } s)) ∧
    (∀ id ref, Admits s r Op.mtrCompose none (lengthIn r [32]) →
      (∀ c, x.openComp = some c → c.id = id →
        Answers (.mtrCompose r id ref) r Op.mtrCompose St.ok 0 false (readingBytes x false) s s) ∧
      (∀ c, x.openComp = some c → c.id ≠ id →
        Answers (.mtrCompose r id ref) r Op.mtrCompose St.alreadyComposed (c.id % 2 ^ 32) false [] s s) ∧
      (x.openComp = none → (id = 0 ∨ x.lastComp.map Composition.id = some id) →
        Answers (.mtrCompose r id ref) r Op.mtrCompose St.compositionUsed 0 false [] s s) ∧
      (x.openComp = none → id ≠ 0 → x.lastComp.map Composition.id ≠ some id →
        let y : Scaler := { x with
          openComp := some { id := id, customer := fitBytes 16 ref, startUj := x.accUj, seconds := 0
                             cflags := if x.clockFault then 1 else 0, closedMwh := 0 }
          storedUj := x.accUj }
        Answers (.mtrCompose r id ref) r Op.mtrCompose St.ok 0 false (readingBytes y false)
          { s with
            scaler := y
            apportion := { deviceShare := 0, restarted := false, lastTotal := s.apportion.lastTotal.map (fun _ => x.accUj / 3600000) }
            parts := s.parts.map (fun t => { t with share := 0 }) } s)) ∧
    (∀ id nonce, Admits s r Op.mtrDecompose none (lengthIn r [48]) →
      (∀ c, x.openComp = some c → c.id = id →
        let fixed : Composition := { c with
          closedMwh := (x.accUj - c.startUj) / 3600000, cflags := c.cflags ||| (if x.pendingParams.isSome then 4 else 0) }
        let y : Scaler := { x with openComp := none, lastComp := some fixed }
        let rd := readingBytes y true
        let sig := Config.scalerSign x.leaf (fitBytes 32 nonce ++ rd)
        let after (z : Scaler) : Scaler := match x.pendingParams with | some q => z.apply q.1 q.2 | none => z
        (x.maySign = true → Answers (.mtrDecompose r id nonce) r Op.mtrDecompose St.ok 0 false (rd ++ sig)
          { s with scaler := after { y with
            leaf := x.leaf + 1, bucket := x.bucket - 1, leafEnd := if x.leaf = x.leafEnd then x.leafEnd + 64 else x.leafEnd
            receipt := some (rd, fitBytes 32 nonce, sig), storedUj := x.accUj } } s) ∧
        (x.maySign = false → Answers (.mtrDecompose r id nonce) r Op.mtrDecompose St.ok 0 false (readingBytes y false)
          { s with scaler := after { y with receipt := some (readingBytes y false, fitBytes 32 nonce, []), storedUj := x.accUj } } s)) ∧
      (∀ rd n sig, x.openComp.map Composition.id ≠ some id → x.lastComp.map Composition.id = some id →
        x.receipt = some (rd, n, sig) → sig ≠ [] →
        Answers (.mtrDecompose r id nonce) r Op.mtrDecompose St.ok 0 false (rd ++ sig) s s) ∧
      (x.openComp.map Composition.id ≠ some id → x.lastComp.map Composition.id ≠ some id →
        Answers (.mtrDecompose r id nonce) r Op.mtrDecompose St.notComposed 0 false [] s s)) ∧
    (∀ start n, Admits s r Op.mtrEvents none (lengthIn r [8]) → 1 ≤ n → n ≤ 120 →
      Answers (.mtrEvents r start n) r Op.mtrEvents St.ok 0 false
        (readRing ScalerEvent.seq scalerEventBytes x.events (x.eventCount + 1) (max 1 start) n) s s)) ∧
  (x.runs = false →
    (∀ a b n, Admits s r Op.mtrRead none (lengthIn r [40]) →
      Answers (.mtrRead r a b n) r Op.mtrRead St.meterFault 0 false [] s s) ∧
    (∀ id ref, Admits s r Op.mtrCompose none (lengthIn r [32]) →
      Answers (.mtrCompose r id ref) r Op.mtrCompose St.meterFault 0 false [] s s) ∧
    (∀ id n, Admits s r Op.mtrDecompose none (lengthIn r [48]) →
      Answers (.mtrDecompose r id n) r Op.mtrDecompose St.meterFault 0 false [] s s) ∧
    (∀ start n, Admits s r Op.mtrEvents none (lengthIn r [8]) → 1 ≤ n → n ≤ 120 →
      Answers (.mtrEvents r start n) r Op.mtrEvents St.meterFault 0 false [] s s))

/-- A second adds its energy unless below CREEP_W, emits one pulse per 360 J, and counts time unless CLOCK_FAULT is set. Clock, input and ADC events set their flags and are logged. A parameters frame is applied, held while a composition is open, or refused and logged with the failed check. SCL3V3 starts and stops Scaler, and an open composition goes on with SUPPLY_INTERRUPTED. The log never loses a kind 2 entry. The shares of a second add up to its change exactly. -/
def Obligations.ScalerCountsAndLogs : Prop :=
  (∀ (s : State) (uj : Nat), s.scaler.runs = true →
    let x := s.scaler
    let e := if uj < x.creep * 10000 then 0 else uj
    ∃ t, exec (.scalerSecond uj) s = .next t ∧ t = { s with scaler := t.scaler, issued := t.issued } ∧
      t.issued = s.issued ++ List.replicate ((x.pulseUj + e) / 360000000) Out.meterPulse ∧
      t.scaler.accUj = x.accUj + e ∧ t.scaler.pulseUj = (x.pulseUj + e) % 360000000 ∧ t.scaler.power = uj / 10000 ∧
      t.scaler.lastComp = x.lastComp ∧ t.scaler.eventCount = x.eventCount ∧
      (x.clockFault = false → t.scaler.time = x.time + 1 ∧
        t.scaler.openComp = x.openComp.map (fun c => { c with seconds := c.seconds + 1 })) ∧
      (x.clockFault = true → t.scaler.time = x.time ∧ t.scaler.openComp = x.openComp)) ∧
  (∀ s : State, s.scaler.runs = true → let x := s.scaler
    exec .scalerStoreTimer s = .next { s with scaler := { x with storedUj := x.accUj } } ∧
    exec .signBucketRefill s = .next { s with scaler := { x with bucket := min 96 (x.bucket + 1) } } ∧
    (x.clockFault = false → exec .clockFault s = .next { s with scaler := ({ x with
      clockFault := true, faultSeconds := 0
      openComp := x.openComp.map (fun c => { c with cflags := c.cflags ||| 1 }) } : Scaler).log 4 0 }) ∧
    (x.clockFault = true → exec .clockRestored s = .next { s with scaler := ({ x with clockFault := false } : Scaler).log 5 x.faultSeconds }) ∧
    (x.mainPower = true → exec .mainPowerLost s = .next { s with scaler := ({ x with mainPower := false, lostSeconds := 0 } : Scaler).log 6 0 }) ∧
    (x.mainPower = false → exec .mainPowerRestored s = .next { s with scaler := ({ x with mainPower := true } : Scaler).log 7 x.lostSeconds }) ∧
    (∀ n, exec (.adcFault n) s = .next { s with scaler := ({ x with adcFault := true } : Scaler).log 8 n })) ∧
  (∀ (x : Scaler) (kind detail : Nat), let y := x.log kind detail
    y = { x with eventCount := x.eventCount + 1, events := y.events } ∧
    y.events.getLast? = some { seq := x.eventCount + 1, kind := kind, startCount := x.startCount, time := x.time,
                               energy := x.accUj / 3600000, detail := detail } ∧
    (∀ e ∈ x.events, e.kind = 2 → e ∈ y.events) ∧ (x.events.length < 1024 → ∀ e ∈ x.events, e ∈ y.events) ∧
    (x.events.length ≤ 1024 → (∃ e ∈ x.events, e.kind ≠ 2) → y.events.length ≤ 1024)) ∧
  (∀ s : State,
    (s.scaler.on = false → exec (.scl3v3Rise false) s = .next { s with scaler := { s.scaler with on := true, firmwareOk := false } }) ∧
    (s.scaler.on = false → ∃ t, exec (.scl3v3Rise true) s = .next t ∧ t = { s with scaler := t.scaler } ∧ t.scaler.runs = true ∧
      t.scaler.startCount = s.scaler.startCount + 1 ∧ t.scaler.time = 0 ∧ t.scaler.rejected = 0 ∧ t.scaler.accUj = s.scaler.storedUj ∧
      t.scaler.leaf = s.scaler.leafEnd ∧ t.scaler.params = s.scaler.params ∧ t.scaler.lastComp = s.scaler.lastComp ∧
      t.scaler.openComp = s.scaler.openComp.map (fun c => { c with cflags := c.cflags ||| 2 }) ∧
      t.scaler.events.getLast?.map ScalerEvent.kind = some 1) ∧
    (s.scaler.runs = true → exec .scl3v3Fall s = .next { s with
      scaler := { s.scaler with on := false, storedUj := s.scaler.accUj, sideReply := none }
      power := { s.power with i3cScalerAddr := none } })) ∧
  (∀ (s : State) (f : ParamsFrame), firmwareRuns s = true → s.scaler.runs = true →
    let x := s.scaler
    let refused (k : Nat) : Prop := exec (.scalerParamsFrame f) s = .next { s with scaler := x.log 3 (f.auditSeq % 2 ^ 32 + k * 2 ^ 32) }
    (f.verifies = false → refused 1) ∧
    (f.verifies = true → (f.kind ≠ 1 ∨ f.item ≠ 1) → refused 2) ∧
    (f.verifies = true → f.kind = 1 → f.item = 1 →
      (f.newDigest ≠ sha256 f.block → refused 3) ∧
      (f.newDigest = sha256 f.block → f.auditSeq ≤ x.lastAudit → refused 4) ∧
      (f.newDigest = sha256 f.block → x.lastAudit < f.auditSeq → 32 ≤ x.paramChanges → refused 5) ∧
      (f.newDigest = sha256 f.block → x.lastAudit < f.auditSeq → x.paramChanges < 32 →
        (x.openComp = none → ∃ t, exec (.scalerParamsFrame f) s = .next t ∧ t = { s with scaler := t.scaler } ∧
          t.scaler.params = f.block ∧ t.scaler.lastAudit = f.auditSeq ∧ t.scaler.paramChanges = x.paramChanges + 1 ∧
          t.scaler.pendingParams = none ∧ t.scaler.accUj = x.accUj ∧ t.scaler.events.getLast?.map ScalerEvent.kind = some 2) ∧
        (x.openComp ≠ none →
          exec (.scalerParamsFrame f) s = .next { s with scaler := { x with pendingParams := some (f.auditSeq, f.block) } }))) ∧
    (∀ a, (s.hallmark.audit.filter (fun a => a.kind = 1 && a.item = 1)).getLast? = some a →
      ((a.seq ≤ x.lastAudit ∨ x.pendingParams.map (fun q => q.1) = some a.seq) → exec .paramsResend s = .next s) ∧
      (x.lastAudit < a.seq → x.pendingParams.map (fun q => q.1) ≠ some a.seq → x.paramChanges < 32 → x.openComp ≠ none →
        a.newDigest = sha256 (tallyItem s 1).value →
        exec .paramsResend s = .next { s with scaler := { x with pendingParams := some (a.seq, (tallyItem s 1).value) } }))) ∧
  (∀ (s : State) (ws : List Nat), firmwareRuns s = true → s.scaler.runs = true → s.parts.length = 12 →
    let now := s.scaler.accUj / 3600000
    (s.apportion.lastTotal = none →
      exec (.apportionEnergy ws) s = .next { s with apportion := { s.apportion with lastTotal := some now } }) ∧
    (∀ t0, s.apportion.lastTotal = some t0 → t0 ≤ now →
      ∃ t, exec (.apportionEnergy ws) s = .next t ∧ t = { s with parts := t.parts, apportion := t.apportion } ∧
        t.apportion.lastTotal = some now ∧
        t.apportion.deviceShare + (t.parts.map Part.share).sum = s.apportion.deviceShare + (s.parts.map Part.share).sum + (now - t0) ∧
        (∀ p, (part t p) = { part s p with share := (part t p).share }) ∧
        (∀ p, (part s p).state ≠ .active → (part t p).share = (part s p).share) ∧
        (∀ p, (part s p).share ≤ (part t p).share)))

/-- GETSTATUS of the main target returns its hardware status whenever AUX3V3 is there, and Scaler's returns 0. A private write carries a message of mailbox 13, of which the sideband source's commands only are executed, or a frame to Scaler, discarded and counted unless its type and length are defined, refused where SIDEBAND_COMMAND is clear, opening a composition with fresh shares where it is set, and answered with METER_FAULT by its ROM. A private read takes what is signalled. Addresses are assigned, and RSTACT 0x01 drops the main target's own. -/
def Obligations.SidebandTargetsAnswer : Prop :=
  ∀ s : State,
    (s.power.phase ≠ .auxOff → s.power.level ≤ 2 →
      ∃ v : BitVec 16, exec (.getstatus false) s = .next { s with issued := s.issued ++ [Out.i3cStatus v] } ∧
        v.toNat % 256 = 0 ∧ v.getLsbD 12 = s.power.needsReset ∧ v.getLsbD 13 = (s.power.p48v && !s.power.thermtrip) ∧ v.getLsbD 14 = s.power.thermtrip ∧
        v.getLsbD 15 = s.power.fwFault ∧
        (s.power.phase = .running → v.toNat / 256 % 4 = powerCode s.power.state ∧ v.toNat / 1024 % 4 = serviceLevel s) ∧
        (s.power.phase ≠ .running → v.toNat / 256 % 16 = 0)) ∧
    (s.power.phase = .auxOff → exec (.getstatus false) s = .next { s with issued := s.issued ++ [Out.i3cNack] }) ∧
    (s.scaler.on = true → exec (.getstatus true) s = .next { s with issued := s.issued ++ [Out.i3cStatus 0] }) ∧
    (s.power.phase ≠ .auxOff →
      exec .rstactTargetReset s = .next { s with power := { s.power with i3cAddr := none } } ∧
      ∀ a, exec (.i3cAddressAssign false a) s = .next { s with power := { s.power with i3cAddr := a } }) ∧
    (s.scaler.on = true → ∀ a, exec (.i3cAddressAssign true a) s = .next { s with power := { s.power with i3cScalerAddr := a } }) ∧
    (∀ b, s.scaler.on = true → s.scaler.sideReply = some b → exec (.i3cPrivateRead true) s =
      .next { s with scaler := { s.scaler with sideReply := none }, issued := s.issued ++ [Out.i3cRead b] }) ∧
    (s.scaler.sideReply = none → exec (.i3cPrivateRead true) s = .next { s with issued := s.issued ++ [Out.i3cNack] }) ∧
    (∀ x, s.power.phase ≠ .auxOff → s.i3cSignalled = some x →
      ∃ t, exec (.i3cPrivateRead false) s = .next t ∧ Shown s t ∧ Out.i3cRead x.2 ∈ t.issued ∧
        (∀ b rest, s.i3cResponses = b :: rest → t.i3cSignalled = some (false, b) ∧ t.i3cResponses = rest)) ∧
    (s.i3cSignalled = none → exec (.i3cPrivateRead false) s = .next { s with issued := s.issued ++ [Out.i3cNack] }) ∧
    (∀ bs, bs.length < 32 → exec (.i3cPrivateWrite false bs) s = .next s) ∧
    (∀ bs, 32 ≤ bs.length → let r := i3cRequest bs
      (field bs 0 2 = Op.devIdentify → Admits s r Op.devIdentify none (lengthIn r [0]) →
        Answers (.i3cPrivateWrite false bs) r Op.devIdentify St.ok 0 false (identifyBytes s) s s) ∧
      (executes s r = true → r.length ≤ 4096 → carried (field bs 0 2) = none →
        Answers (.i3cPrivateWrite false bs) r (field bs 0 2) St.invalidOpcode 0 false [] s s) ∧
      (∀ c, executes s r = true → r.length ≤ 4096 → carried (field bs 0 2) = some c → c.fromMailbox 13 = false →
        Answers (.i3cPrivateWrite false bs) r (field bs 0 2) St.notPermitted 0 false [] s s)) ∧
    (∀ bs, s.scaler.on = true → let x := s.scaler
      let replies (b : List Byte) : Prop :=
        exec (.i3cPrivateWrite true bs) s = .next { s with scaler := { x with sideReply := some b } }
      ((bs = [] ∨ frameLen (field bs 0 1) ≠ some (bs.length - 1)) →
        exec (.i3cPrivateWrite true bs) s = .next { s with scaler := { x with rejected := x.rejected + 1 } }) ∧
      (bs ≠ [] → frameLen (field bs 0 1) = some (bs.length - 1) →
        (x.firmwareOk = false → replies (le 2 St.meterFault)) ∧
        (x.firmwareOk = true →
          (field bs 0 1 = 1 → field bs 1 1 = 0 → replies (le 2 0 ++ readingBytes x false)) ∧
          (field bs 0 1 = 1 → (field bs 1 1).testBit 1 = true → replies (le 2 0 ++ scalerCertificate)) ∧
          ((field bs 0 1 = 2 ∨ field bs 0 1 = 3) → x.sidebandCommand = false → replies (le 2 St.notPermitted)) ∧
          (field bs 0 1 = 2 → x.sidebandCommand = true → field bs 1 8 = 0 → x.openComp = none →
            replies (le 2 St.compositionUsed)) ∧
          (field bs 0 1 = 2 → x.sidebandCommand = true → field bs 1 8 ≠ 0 → x.openComp = none →
            x.lastComp.map Composition.id ≠ some (field bs 1 8) →
            ∃ t, exec (.i3cPrivateWrite true bs) s = .next t ∧ t.scaler.openComp.map Composition.id = some (field bs 1 8) ∧
              t.scaler.sideReply.isSome = true ∧ t.apportion.deviceShare = 0 ∧ ∀ p, (part t p).share = 0) ∧
          (field bs 0 1 = 4 → 1 ≤ field bs 5 2 → field bs 5 2 ≤ 120 →
            replies (le 2 0 ++ scalerEventsReply x (field bs 1 4) (field bs 5 2)))))) ∧
    (s.scaler.on = false → ∀ bs, exec (.i3cPrivateWrite true bs) s = .next s)

/-- From every sound state each step, whatever command is at the front, answers a next state that is sound again: memory in canonical form, twelve partitions, sixteen mailboxes, six tally items, signing leaves inside what NEXT_LEAF covers, Scaler's store behind its accumulator. ENERGY_TOTAL, NEXT_LEAF and the tally write count never decrease and no remaining budget increases; and of all commands only the rise and the fall of SCL3V3 start or stop Scaler. -/
def Obligations.EveryStepKeepsSoundness : Prop :=
  ∀ s : State, Sound s → ∃ t, step s = .next t ∧ Sound t ∧ Onward s t ∧
    ((∀ c ∈ s.pending.head?, c ≠ .scl3v3Fall ∧ c ≠ .scl3v3Rise true ∧ c ≠ .scl3v3Rise false) → t.scaler.on = s.scaler.on)

/-- State.reset is sound and held in reset at SERVICE_LEVEL 0: no mailbox is READY, every partition is FREE, no link bit, status or interrupt enable is set, every operator and Cruise cap is 32, Loupe records every source, kind and partition once enabled, CHK_SAMPLE_CTRL stands at 100 with its flag set, the tally items carry the shipped budgets, and no command waits. Partitions FREE and shipped tally values are those of a device as shipped (log entries 7 and 8). -/
def Obligations.ResetIsSound : Prop :=
  let s := State.reset
  Sound s ∧ s.pending = [] ∧ s.power.phase = .held ∧ serviceLevel s = 0 ∧ (∀ b ∈ s.mbx, b.ready = false ∧ b.overrun = false) ∧
    (∀ t ∈ s.parts, t.state = .free ∧ t.sqs = [] ∧ t.cqs = [] ∧ t.eq = none) ∧
    s.landing.intStatus = 0 ∧ s.landing.intEnable = 0 ∧ s.pave.intStatus = 0 ∧ s.pave.intEnable = 0 ∧ s.choker.intStatus = 0 ∧
    s.choker.intEnable = 0 ∧ s.cruise.intEnable = 0 ∧ s.loupe.intEnable = 0 ∧
    (∀ k ∈ s.pave.allStacks, k.opShadow = 32 ∧ k.opActive = 32 ∧ k.cruiseActive = 32) ∧ s.choker.sampleShadow = 0x00010064 ∧
    s.loupe.ctrlShadow = 0x1FFF0000 ∧ s.loupe.filterShadow = 0x00FFFFFF ∧ s.loupe.running = false ∧
    (∀ c ∈ s.channels, c.busy = false ∧ c.done = false ∧ c.error = false) ∧
    s.hallmark.items.map TallyItem.budget = [32, 64, 16, 255, 64, 16] ∧ s.hallmark.items.map TallyItem.remaining = [32, 64, 16, 255, 64, 16] ∧
    (tallyItem s 3).value = [] ∧ (tallyItem s 4).value = [0] ∧ (tallyItem s 5).value = [0xFF] ∧ (tallyItem s 6).value = [0, 0] ∧
    s.issued = []
end

