-- ==== Sys2Proof/Laws/Memory.lean ====
section
/-! SUPPORT. Sys2Proof/Laws/Memory.lean: memory keeps its canonical form under every operation, and a read after a write. -/
namespace Sys2Proof.Laws
open Sys2Proof.Machine

/-! ## The canonical form -/

theorem wfFrom_le {lo hi : Nat} {m : List Host.Cell} (h : Memory.wfFrom hi m = true) (l : lo ≤ hi) : Memory.wfFrom lo m = true := by
  cases m with
  | nil => rfl
  | cons c r =>
    obtain ⟨x, b⟩ := c
    simp only [Memory.wfFrom, Bool.and_eq_true, decide_eq_true_eq] at h ⊢
    exact ⟨⟨Nat.le_trans l h.1.1, h.1.2⟩, h.2⟩

theorem wfFrom_write {lo : Nat} {m : List Host.Cell} (h : Memory.wfFrom lo m = true) (a : Nat) (v : Byte) (l : lo ≤ a) :
    Memory.wfFrom lo (cellsWrite m a v) = true := by
  induction m generalizing lo with
  | nil =>
    unfold cellsWrite; split
    · rfl
    · rename_i hv; simp [Memory.wfFrom, l]; exact hv
  | cons c r ih =>
    obtain ⟨x, b⟩ := c
    have h' := h
    simp only [Memory.wfFrom, Bool.and_eq_true, decide_eq_true_eq] at h'
    obtain ⟨⟨h1, h2⟩, h3⟩ := h'
    unfold cellsWrite
    split
    · split
      · exact h
      · rename_i hlt hv
        simp only [Memory.wfFrom, Bool.and_eq_true, decide_eq_true_eq]
        exact ⟨⟨l, hv⟩, ⟨⟨by omega, h2⟩, h3⟩⟩
    · split
      · split
        · exact wfFrom_le h3 (by omega)
        · rename_i he hv
          subst he
          simp only [Memory.wfFrom, Bool.and_eq_true, decide_eq_true_eq]
          exact ⟨⟨l, hv⟩, h3⟩
      · simp only [Memory.wfFrom, Bool.and_eq_true, decide_eq_true_eq]
        exact ⟨⟨h1, h2⟩, ih h3 (by omega)⟩

theorem wf_write {m : List Host.Cell} (h : Memory.wf m = true) (a : Nat) (v : Byte) : Memory.wf (cellsWrite m a v) = true :=
  wfFrom_write h a v (Nat.zero_le a)

theorem wf_writeBytes {m : List Host.Cell} (h : Memory.wf m = true) (a : Nat) (bs : List Byte) :
    Memory.wf (cellsWriteBytes m a bs) = true := by
  induction bs generalizing m a with
  | nil => exact h
  | cons b r ih => exact ih (wf_write h a b) (a + 1)

theorem wfFrom_filter {lo : Nat} {m : List Host.Cell} (h : Memory.wfFrom lo m = true) (p : Host.Cell → Bool) :
    Memory.wfFrom lo (m.filter p) = true := by
  induction m generalizing lo with
  | nil => rfl
  | cons c r ih =>
    obtain ⟨x, b⟩ := c
    simp only [Memory.wfFrom, Bool.and_eq_true, decide_eq_true_eq] at h
    rw [List.filter_cons]
    split
    · simp only [Memory.wfFrom, Bool.and_eq_true, decide_eq_true_eq]
      exact ⟨h.1, ih h.2⟩
    · exact wfFrom_le (ih h.2) (by omega)

theorem wf_filter {m : List Host.Cell} (h : Memory.wf m = true) (p : Host.Cell → Bool) : Memory.wf (m.filter p) = true :=
  wfFrom_filter h p

theorem wf_clear {m : List Host.Cell} (h : Memory.wf m = true) (a n : Nat) : Memory.wf (cellsClear m a n) = true :=
  wf_filter h _

theorem wf_place {m : List Host.Cell} (h : Memory.wf m = true) (a n : Nat) (cs : List Host.Cell) :
    Memory.wf (placeCells m a n cs) = true := by
  unfold placeCells
  have h := wf_clear h a n
  generalize cellsClear m a n = k at h
  induction cs generalizing k with
  | nil => exact h
  | cons c r ih => exact ih _ (wf_write h _ _)

theorem wf_writeMem {s : State} (h : Memory.wf s.mem = true) (a : Nat) (bs : List Byte) : Memory.wf (writeMem a bs s).mem = true :=
  wf_writeBytes h a bs

theorem wf_reset : Memory.wf State.reset.mem = true := rfl

/-! ## Reads -/

theorem read_below {lo a : Nat} {m : List Host.Cell} (h : Memory.wfFrom lo m = true) (l : a < lo) : cellsRead m a = 0 := by
  induction m generalizing lo with
  | nil => rfl
  | cons c r ih =>
    obtain ⟨x, b⟩ := c
    simp only [Memory.wfFrom, Bool.and_eq_true, decide_eq_true_eq] at h
    unfold cellsRead
    rw [if_neg (by omega)]
    exact ih h.2 (by omega)

theorem read_write_from {lo : Nat} {m : List Host.Cell} (h : Memory.wfFrom lo m = true) (a : Nat) (v : Byte) :
    cellsRead (cellsWrite m a v) a = v := by
  induction m generalizing lo with
  | nil => unfold cellsWrite; split <;> simp_all [cellsRead]
  | cons c r ih =>
    obtain ⟨x, b⟩ := c
    simp only [Memory.wfFrom, Bool.and_eq_true, decide_eq_true_eq] at h
    unfold cellsWrite
    split
    · split
      · rename_i hlt hv
        unfold cellsRead
        rw [if_neg (by omega), hv]
        exact read_below h.2 (by omega)
      · simp [cellsRead]
    · split
      · split
        · rename_i he hv
          rw [hv]
          exact read_below h.2 (by omega)
        · simp [cellsRead]
      · rename_i h1 h2
        unfold cellsRead
        rw [if_neg (by omega)]
        exact ih h.2

/-- A read after a write of the same byte. -/
theorem read_write_same {m : List Host.Cell} (h : Memory.wf m = true) (a : Nat) (v : Byte) : cellsRead (cellsWrite m a v) a = v :=
  read_write_from h a v

/-- A write leaves every other byte. -/
theorem read_write_other (m : List Host.Cell) (a b : Nat) (v : Byte) (h : b ≠ a) : cellsRead (cellsWrite m a v) b = cellsRead m b := by
  induction m with
  | nil => unfold cellsWrite; split <;> simp [cellsRead, h.symm]
  | cons c r ih =>
    obtain ⟨x, y⟩ := c
    unfold cellsWrite
    split
    · split
      · rfl
      · simp [cellsRead, h.symm]
    · split
      · rename_i he
        subst he
        split <;> simp [cellsRead, h.symm]
      · simp only [cellsRead, ih]

/-- Bytes outside the written range are as before. -/
theorem read_writeBytes_other (m : List Host.Cell) (a b : Nat) (bs : List Byte) (h : b < a ∨ a + bs.length ≤ b) :
    cellsRead (cellsWriteBytes m a bs) b = cellsRead m b := by
  induction bs generalizing m a with
  | nil => rfl
  | cons v r ih =>
    simp only [List.length_cons] at h
    unfold cellsWriteBytes
    rw [ih _ _ (by omega), read_write_other _ _ _ _ (by omega)]

/-- A read of the bytes just written. -/
theorem readBytes_writeBytes {m : List Host.Cell} (h : Memory.wf m = true) (a : Nat) (bs : List Byte) :
    cellsReadBytes (cellsWriteBytes m a bs) a bs.length = bs := by
  induction bs generalizing m a with
  | nil => rfl
  | cons v r ih =>
    rw [List.length_cons, cellsReadBytes, cellsWriteBytes, ih (wf_write h a v),
      read_writeBytes_other _ _ _ _ (.inl (Nat.lt_succ_self a)), read_write_same h]

/-- What a filter of the cells keeps reads as before; what it drops reads 0. -/
theorem read_filter (m : List Host.Cell) (p : Nat → Bool) (a : Nat) :
    cellsRead (m.filter (fun c => p c.1)) a = if p a then cellsRead m a else 0 := by
  induction m with
  | nil => simp [cellsRead]
  | cons c r ih =>
    obtain ⟨x, b⟩ := c
    rw [List.filter_cons]
    by_cases hx : p x
    · rw [if_pos hx]; simp only [cellsRead, ih]
      by_cases e : x = a
      · subst e; simp [hx]
      · simp [e]
    · rw [if_neg hx, ih]; simp only [cellsRead]
      by_cases e : x = a
      · subst e; simp [hx]
      · simp [e]

/-- A cleared range reads 0 and the rest as before. -/
theorem read_clear (m : List Host.Cell) (a n b : Nat) :
    cellsRead (cellsClear m a n) b = if b < a ∨ a + n ≤ b then cellsRead m b else 0 := by
  unfold cellsClear
  rw [read_filter m (fun x => decide (x < a ∨ a + n ≤ x)) b]
  simp

end Sys2Proof.Laws
end

