-- ==== Sys2Proof/Laws/Shown.lean ====
section
/-! SUPPORT. Sys2Proof/Laws/Shown.lean: what answers, events, interrupts and completions change, once for each operation. -/
namespace Sys2Proof.Laws
open Sys2Proof.Machine Sys2Proof.Safety

/-! ## Lists -/

theorem map_modify_same {α β : Type} (g : α → β) (f : α → α) (h : ∀ x, g (f x) = g x) (l : List α) (n : Nat) :
    (l.modify n f).map g = l.map g := by
  induction l generalizing n with
  | nil => cases n <;> rfl
  | cons a r ih =>
    cases n with
    | zero => simp [h]
    | succ n => simp [ih]

end Sys2Proof.Laws

namespace Sys2Proof.Safety
open Sys2Proof.Machine

/-! ## Shown is a preorder -/

theorem Shown.refl (s : State) : Shown s s := ⟨rfl, rfl⟩

theorem Shown.trans {s t u : State} (a : Shown s t) (b : Shown t u) : Shown s u := by
  refine ⟨?_, b.parts.trans a.parts⟩
  have h := b.rest
  rw [a.rest] at h
  exact h

theorem Settled.refl (s : State) : Settled s s := ⟨rfl, rfl⟩

theorem Settled.trans {s t u : State} (a : Settled s t) (b : Settled t u) : Settled s u := by
  refine ⟨?_, b.parts.trans a.parts⟩
  have h := b.rest
  rw [a.rest] at h
  exact h

theorem Shown.settled {s t : State} (h : Shown s t) : Settled s t := by
  refine ⟨h.rest, ?_⟩
  have e : barePart = barePart ∘ quietPart := rfl
  rw [e, ← List.map_map, ← List.map_map, h.parts]

theorem Shown.fold {α : Type} (f : State → α → State) (h : ∀ s x, Shown s (f s x)) (l : List α) (s : State) :
    Shown s (l.foldl f s) := by
  induction l generalizing s with
  | nil => exact .refl s
  | cons a r ih => exact (h s a).trans (ih _)

end Sys2Proof.Safety

namespace Sys2Proof.Laws
open Sys2Proof.Machine Sys2Proof.Safety

/-! ## One lemma for each operation -/

theorem emit_shown (o : Out) (s : State) : Shown s (emit o s) := ⟨rfl, rfl⟩

theorem issueHost_shown (fn : Nat) (o : Out) (s : State) : Shown s (issueHost fn o s) := by
  unfold issueHost; split
  · exact .refl s
  · split
    · exact ⟨rfl, rfl⟩
    · exact emit_shown o s

theorem hostWrite_shown (fn a : Nat) (bs : List Byte) (s : State) : Shown s (hostWrite fn a bs s) := by
  unfold hostWrite; split
  · exact .refl s
  · exact issueHost_shown _ _ s

theorem sendMsix_shown (fn v : Nat) (s : State) : Shown s (sendMsix fn v s) := by
  unfold sendMsix; split
  · exact .refl s
  · exact issueHost_shown _ _ s

theorem setLpeStatus_shown (b : Reg) (s : State) : Shown s (setLpeStatus b s) := by
  unfold setLpeStatus raising; dsimp only; split
  · exact Shown.trans (t := { s with loupe := { s.loupe with intStatus := s.loupe.intStatus ||| b } }) ⟨rfl, rfl⟩ (sendMsix_shown 0 1 _)
  · exact ⟨rfl, rfl⟩

theorem loupe_shown (l : Loupe) (s : State) : Shown s { s with loupe := l } := ⟨rfl, rfl⟩

theorem trace_shown (a b c d e : Nat) (s : State) : Shown s (trace a b c d e s) := by
  unfold trace; dsimp only; split
  · split
    · exact (loupe_shown _ s).trans (setLpeStatus_shown 1 _)
    · exact ⟨rfl, rfl⟩
  · exact .refl s

theorem onMailbox_shown (m : Nat) (f : Mailbox → Mailbox) (s : State) : Shown s (onMailbox m f s) := ⟨rfl, rfl⟩

theorem onDest_shown (d : Dest) (f : EventDest → EventDest) (s : State) : Shown s (onDest d f s) := by
  cases d <;> exact ⟨rfl, rfl⟩

theorem onPart_quiet_shown (p : Nat) (f : Part → Part) (h : ∀ t, quietPart (f t) = quietPart t) (s : State) :
    Shown s (onPart p f s) := ⟨rfl, map_modify_same _ _ h _ _⟩

theorem deliver_shown (d : Dest) (e : Event) (s : State) : Shown s (deliver d e s) := by
  unfold deliver
  cases d with
  | part p =>
    dsimp only
    split
    · rename_i q _
      exact (onDest_shown _ _ s).trans ((onPart_quiet_shown p (fun t => { t with eq := some q.advance }) (fun _ => rfl) _).trans
        ((issueHost_shown _ _ _).trans (sendMsix_shown _ _ _)))
    · exact onDest_shown _ _ s
  | operator => exact (onDest_shown _ _ s).trans (Shown.fold _ (fun s y => emit_shown _ s) _ _)
  | sideband => exact ⟨rfl, rfl⟩

theorem sendEvent_shown (d : Dest) (e : Event) (s : State) : Shown s (sendEvent d e s) := by
  unfold sendEvent; dsimp only; split
  · exact deliver_shown d e s
  · split <;> exact onDest_shown _ _ s

theorem drainHeld_shown (d : Dest) (n : Nat) (s : State) : Shown s (drainHeld d n s) := by
  induction n generalizing s with
  | zero => exact .refl s
  | succ n ih =>
    unfold drainHeld; split
    · split
      · exact (onDest_shown _ _ s).trans ((deliver_shown _ _ _).trans (ih _))
      · exact .refl s
    · exact .refl s

theorem notify_shown (d : Dest) (a b c e f : Nat) (s : State) : Shown s (notify d a b c e f s) := sendEvent_shown _ _ s

theorem foldParts_shown (f : Nat → State → State) (h : ∀ p s, Shown s (f p s)) (s : State) : Shown s (foldParts f s) :=
  Shown.fold _ (fun s p => h p s) _ s

theorem notifyLevel_shown (l : Nat) (s : State) : Shown s (notifyLevel l s) := by
  unfold notifyLevel
  refine ((notify_shown _ _ _ _ _ _ s).trans (notify_shown _ _ _ _ _ _ _)).trans (foldParts_shown _ (fun p s => ?_) _)
  split
  · exact notify_shown _ _ _ _ _ _ s
  · exact .refl s

theorem notifyPartState_shown (p : Nat) (s : State) : Shown s (notifyPartState p s) := by
  unfold notifyPartState; dsimp only; split
  · exact notify_shown _ _ _ _ _ _ s
  · exact (notify_shown _ _ _ _ _ _ s).trans (notify_shown _ _ _ _ _ _ _)

theorem notifyNeedsReset_shown (s : State) : Shown s (notifyNeedsReset s) := by
  unfold notifyNeedsReset
  refine ((notify_shown _ _ _ _ _ _ s).trans (notify_shown _ _ _ _ _ _ _)).trans (foldParts_shown _ (fun p s => ?_) _)
  exact notify_shown _ _ _ _ _ _ s

theorem discardHeld_shown (p : Nat) (s : State) : Shown s (discardHeld p s) := onDest_shown _ _ s

theorem commandDoneEvent_shown (d : Dest) (a b c e f : Nat) (s : State) : Shown s (commandDoneEvent d a b c e f s) :=
  notify_shown _ _ _ _ _ _ s

theorem signalI3c_shown (s : State) : Shown s (signalI3c s) := by
  unfold signalI3c; split
  · exact .refl s
  · split
    · exact ⟨rfl, rfl⟩
    · exact drainHeld_shown _ _ s

theorem deliverReply_shown (r : MbxReq) (rep : Reply) (s : State) : Shown s (deliverReply r rep s) := by
  unfold deliverReply; split
  · exact (onMailbox_shown _ _ s).trans (sendMsix_shown _ _ _)
  · dsimp only; split
    · exact (onMailbox_shown _ _ s).trans (sendMsix_shown _ _ _)
    · exact onMailbox_shown _ _ s
  · exact emit_shown _ s
  · exact Shown.trans (t := { s with i3cResponses := s.i3cResponses ++ [replyBytes rep] }) ⟨rfl, rfl⟩ (signalI3c_shown _)
  · exact emit_shown _ s

/-! ## Mailbox answers -/

theorem settleAnswer_shown (r : MbxReq) (op : Nat) (x : MRes) : Shown x.st (settleAnswer r op x) :=
  (onMailbox_shown _ _ x.st).trans (deliverReply_shown _ _ _)

/-- Operations that leave the mailboxes alone. -/
theorem issueHost_mbx (fn : Nat) (o : Out) (s : State) : (issueHost fn o s).mbx = s.mbx := by
  unfold issueHost emit; split
  · rfl
  · split <;> rfl

theorem sendMsix_mbx (fn v : Nat) (s : State) : (sendMsix fn v s).mbx = s.mbx := by
  unfold sendMsix; split
  · rfl
  · exact issueHost_mbx _ _ s

theorem setLpeStatus_mbx (b : Reg) (s : State) : (setLpeStatus b s).mbx = s.mbx := by
  unfold setLpeStatus raising; dsimp only; split
  · rw [sendMsix_mbx]
  · rfl

theorem trace_mbx (a b c d e : Nat) (s : State) : (trace a b c d e s).mbx = s.mbx := by
  unfold trace; dsimp only; split
  · split
    · rw [setLpeStatus_mbx]
    · rfl
  · rfl

theorem fold_mbx {α : Type} (f : State → α → State) (h : ∀ s x, (f s x).mbx = s.mbx) (l : List α) (s : State) :
    (l.foldl f s).mbx = s.mbx := by
  induction l generalizing s with
  | nil => rfl
  | cons a r ih => exact (ih _).trans (h s a)

theorem onDest_mbx (d : Dest) (f : EventDest → EventDest) (s : State) : (onDest d f s).mbx = s.mbx := by cases d <;> rfl

theorem deliver_mbx (d : Dest) (e : Event) (s : State) : (deliver d e s).mbx = s.mbx := by
  unfold deliver
  cases d with
  | part p =>
    dsimp only; split
    · rw [sendMsix_mbx, issueHost_mbx]; rfl
    · rfl
  | operator => exact fold_mbx (fun s (y : Session) => emit (.frame y.id _) s) (fun _ _ => rfl) _ _
  | sideband => rfl

theorem drainHeld_mbx (d : Dest) (n : Nat) (s : State) : (drainHeld d n s).mbx = s.mbx := by
  induction n generalizing s with
  | zero => rfl
  | succ n ih =>
    unfold drainHeld; split
    · split
      · rw [ih, deliver_mbx, onDest_mbx]
      · rfl
    · rfl

theorem signalI3c_mbx (s : State) : (signalI3c s).mbx = s.mbx := by
  unfold signalI3c; split
  · rfl
  · split
    · rfl
    · exact drainHeld_mbx _ _ s

theorem mailboxOf_onMailbox (m : Nat) (f : Mailbox → Mailbox) (s : State) (h : m < s.mbx.length) :
    mailboxOf (onMailbox m f s) m = f (mailboxOf s m) := by
  unfold mailboxOf onMailbox
  simp [List.getD_eq_getElem?_getD, h]

theorem mailbox_in_range {s : State} {r : MbxReq} (h : executes s r = true) : r.mbx < s.mbx.length := by
  refine Nat.lt_of_not_le fun hl => ?_
  have : mailboxOf s r.mbx = {} := by
    unfold mailboxOf
    rw [List.getD_eq_getElem?_getD, List.getElem?_eq_none hl]; rfl
  unfold executes at h
  simp [this, Mailbox.takes] at h

theorem settleAnswer_answered (r : MbxReq) (op : Nat) (x : MRes) (h : r.mbx < x.st.mbx.length) :
    Answered r op x.status x.detail x.async x.payload (settleAnswer r op x) := by
  have key : ∀ s : State, r.mbx < s.mbx.length → ∀ rep : Reply,
      (mailboxOf (deliverReply r rep s) r.mbx).stored = (mailboxOf s r.mbx).stored ∧
      (mailboxOf (deliverReply r rep s) r.mbx).lastSeq = (mailboxOf s r.mbx).lastSeq := by
    intro s hs rep
    unfold deliverReply; split
    · unfold mailboxOf; rw [sendMsix_mbx]
      have := mailboxOf_onMailbox r.mbx (fun b => { b with done := true }) s hs
      unfold mailboxOf at this; rw [this]; exact ⟨rfl, rfl⟩
    · have := mailboxOf_onMailbox r.mbx (fun b => { b with busy := false, done := true }) s hs
      dsimp only; split
      · unfold mailboxOf at this ⊢; rw [sendMsix_mbx, this]; exact ⟨rfl, rfl⟩
      · rw [this]; exact ⟨rfl, rfl⟩
    · exact ⟨rfl, rfl⟩
    · unfold mailboxOf; rw [signalI3c_mbx]; exact ⟨rfl, rfl⟩
    · exact ⟨rfl, rfl⟩
  unfold settleAnswer; dsimp only
  have hm := mailboxOf_onMailbox r.mbx (fun b => { b with lastSeq := r.seq, stored := some (mkReply r op x) }) x.st h
  have k := key (onMailbox r.mbx (fun b => { b with lastSeq := r.seq, stored := some (mkReply r op x) }) x.st)
    (by simpa [onMailbox] using h) (mkReply r op x)
  exact ⟨by rw [k.1, hm]; rfl, by rw [k.2, hm]⟩

/-- An admitted mailbox request: its answer and the state after it. -/
theorem mailboxFull_answers {s : State} {r : MbxReq} {op : Nat} {item : Option Nat} {step5 : Option (Nat × Nat)}
    {body : State → MRes} (h : Admits s r op item step5) (hm : (body (begun r op s)).st.mbx.length = s.mbx.length) :
    Answered r op (body (begun r op s)).status (body (begun r op s)).detail (body (begun r op s)).async
      (body (begun r op s)).payload (mailboxFull r op item step5 body s) ∧
    Shown (body (begun r op s)).st (mailboxFull r op item step5 body s) := by
  have e : mailboxFull r op item step5 body s = settleAnswer r op
      { body (begun r op s) with
        st := trace 0 r.partition 1 (mbxTrace r op (body (begun r op s)).status) 0 (body (begun r op s)).st } := by
    unfold mailboxFull answer
    rw [if_pos h.runs, h.header]
    simp only [h.states]
    rfl
  rw [e]
  generalize body (begun r op s) = x at hm ⊢
  have a := settleAnswer_answered r op { x with st := trace 0 r.partition 1 (mbxTrace r op x.status) 0 x.st }
    (by dsimp only; rw [trace_mbx, hm]; exact mailbox_in_range h.runs)
  have b := settleAnswer_shown r op { x with st := trace 0 r.partition 1 (mbxTrace r op x.status) 0 x.st }
  exact ⟨a, (trace_shown 0 r.partition 1 (mbxTrace r op x.status) 0 x.st).trans b⟩

theorem begun_shown (r : MbxReq) (op : Nat) (s : State) : Shown s (begun r op s) := trace_shown _ _ _ _ _ s

theorem begun_mbx (r : MbxReq) (op : Nat) (s : State) : (begun r op s).mbx = s.mbx := trace_mbx _ _ _ _ _ s

/-! ## Completions -/

theorem onPart_bare_settled (p : Nat) (f : Part → Part) (h : ∀ t, barePart (f t) = barePart t) (s : State) :
    Settled s (onPart p f s) := ⟨rfl, map_modify_same _ _ h _ _⟩

theorem onCq_settled (p id : Nat) (f : Cq → Cq) (s : State) : Settled s (onPart p (fun t => t.onCq id f) s) :=
  onPart_bare_settled p (fun t => t.onCq id f) (fun _ => rfl) s

theorem sendMsix_if_settled (b : Bool) (fn v : Nat) (s : State) : Settled s (if b then sendMsix fn v s else s) := by
  cases b
  · exact .refl s
  · exact (sendMsix_shown fn v s).settled

theorem writeCompletion_settled (p : Nat) (c : Cq) (ni : Bool) (e : CqEntry) (s : State) :
    Settled s (writeCompletion p c ni e s) := by
  unfold writeCompletion; dsimp only
  refine Settled.trans ?_ (sendMsix_if_settled _ _ _ _)
  exact (issueHost_shown _ _ s).settled.trans (onCq_settled _ _ _ _)

theorem complete_settled (p cq : Nat) (ni : Bool) (e : CqEntry) (s : State) : Settled s (complete p cq ni e s) := by
  unfold complete; split
  · exact .refl s
  · split
    · exact .refl s
    · split
      · exact onCq_settled p cq _ s
      · exact writeCompletion_settled _ _ _ _ s

theorem completeSq_settled (p sq tag ctx : Nat) (ni : Bool) (st c a b : Nat) (s : State) :
    Settled s (completeSq p sq tag ctx ni st c a b s) := by
  unfold completeSq; split
  · exact .refl s
  · exact complete_settled _ _ _ _ s

theorem takeEntry_settled (q : SqReq) (s : State) : Settled s (takeEntry q s) :=
  onPart_bare_settled q.part _ (fun t => by split; · unfold takeTurn; split <;> rfl
                                            · rfl) s

theorem entryBegun_settled (q : SqReq) (op : Nat) (s : State) : Settled s (entryBegun q op s) :=
  (takeEntry_settled q s).trans (trace_shown _ _ _ _ _ _).settled

/-- An entry that is taken and ends at once: the completion is that of the command's own answer. -/
theorem queueFull_completes {s : State} {q : SqReq} {op : Nat} {bl : Option Nat} {body : State → QRes}
    (h : Takes s q op bl) (hr : (body (entryBegun q op s)).run = none) :
    ∃ v, queueFull q op bl body s =
      completeSq q.part q.sq q.tag q.context q.noInt (body (entryBegun q op s)).status (body (entryBegun q op s)).cond
        (body (entryBegun q op s)).dA (body (entryBegun q op s)).dB v ∧
      Settled (body (entryBegun q op s)).st v := by
  refine ⟨trace 0 q.part 1 (entryTrace op q.tag q.sq (body (entryBegun q op s)).status) (body (entryBegun q op s)).cond
    (body (entryBegun q op s)).st, ?_, (trace_shown _ _ _ _ _ _).settled⟩
  have e : queueFull q op bl body s = settleEntry q op (if (body (entryBegun q op s)).run.isSome then body (entryBegun q op s)
      else { body (entryBegun q op s) with
        st := trace 0 q.part 1 (entryTrace op q.tag q.sq (body (entryBegun q op s)).status) (body (entryBegun q op s)).cond
          (body (entryBegun q op s)).st }) := by
    unfold queueFull answerEntry
    rw [if_pos h.begins, h.entry]
    rfl
  rw [e]
  generalize body (entryBegun q op s) = x at hr ⊢
  rw [hr]
  unfold settleEntry
  dsimp only [Option.isSome]
  rw [if_neg (by decide)]
  dsimp only
  rw [hr]

/-! ## What Loupe's record changes -/

/-- What a trace record may change: Loupe, what is issued and what Landing holds back. -/
theorem sendMsix_shape (fn v : Nat) (s : State) :
    ∃ i w, sendMsix fn v s = { s with issued := i, landing := { s.landing with waiting := w } } := by
  unfold sendMsix; split
  · exact ⟨s.issued, s.landing.waiting, rfl⟩
  · unfold issueHost; split
    · exact ⟨s.issued, s.landing.waiting, rfl⟩
    · split
      · exact ⟨s.issued, _, rfl⟩
      · exact ⟨_, s.landing.waiting, rfl⟩

theorem trace_shape (a b c d e : Nat) (s : State) :
    ∃ l i w, trace a b c d e s = { s with loupe := l, issued := i, landing := { s.landing with waiting := w } } := by
  unfold trace; dsimp only; split
  · split
    · unfold setLpeStatus raising; dsimp only; split
      · obtain ⟨i, w, h⟩ := sendMsix_shape 0 1
          { s with loupe := _ }
        exact ⟨_, i, w, h⟩
      · exact ⟨_, s.issued, s.landing.waiting, rfl⟩
    · exact ⟨_, s.issued, s.landing.waiting, rfl⟩
  · exact ⟨s.loupe, s.issued, s.landing.waiting, rfl⟩

/-- A mailbox command completes when its own rules, run on the state after CMD_BEGIN, give that answer. -/
theorem answers_of {c : Instr} {r : MbxReq} {op status detail : Nat} {async : Bool} {payload : List Byte} {item : Option Nat}
    {step5 : Option (Nat × Nat)} {body : State → MRes} {u s : State}
    (hex : exec c s = .next (mailboxFull r op item step5 body s)) (h : Admits s r op item step5)
    (hb : ∀ l i w, ∃ st, body { s with loupe := l, issued := i, landing := { s.landing with waiting := w } } =
      { st := st, status := status, detail := detail, async := async, payload := payload } ∧ Shown u st ∧
        st.mbx.length = s.mbx.length) :
    Answers c r op status detail async payload u s := by
  obtain ⟨l, i, w, he⟩ := trace_shape 0 r.partition 0 (mbxTrace r op 0) r.seq.toNat s
  obtain ⟨st, h1, h2, h3⟩ := hb l i w
  have hbb : body (begun r op s) = { st := st, status := status, detail := detail, async := async, payload := payload } := by
    rw [← h1]; unfold begun; rw [he]
  have k := mailboxFull_answers (body := body) h (by rw [hbb]; exact h3)
  rw [hbb] at k
  exact ⟨_, hex, k.1, h2.trans k.2⟩

/-- A queue-borne command completes when its own rules, run on the state after CMD_BEGIN, give that completion. -/
theorem completes_of {c : Instr} {q : SqReq} {op status cond dA dB : Nat} {bl : Option Nat} {body : State → QRes} {u s : State}
    (hex : exec c s = .next (queueFull q op bl body s)) (h : Takes s q op bl)
    (hb : ∀ l i w, ∃ st, body { takeEntry q s with loupe := l, issued := i, landing := { s.landing with waiting := w } } =
      { st := st, status := status, cond := cond, dA := dA, dB := dB } ∧ Settled u st) :
    Completes c q status cond dA dB u s := by
  obtain ⟨l, i, w, he⟩ := trace_shape 0 q.part 0 (entryTrace op q.tag q.sq 0) q.context (takeEntry q s)
  obtain ⟨st, h1, h2⟩ := hb l i w
  have hbb : body (entryBegun q op s) = { st := st, status := status, cond := cond, dA := dA, dB := dB } := by
    rw [← h1]; unfold entryBegun; rw [he]; rfl
  obtain ⟨v, hv, hs⟩ := queueFull_completes (body := body) h (by rw [hbb])
  rw [hbb] at hv hs
  exact ⟨v, by rw [hex, hv], h2.trans hs⟩

/-- `answers_of` where the effect is the same update whatever Loupe recorded. -/
theorem answers_plain {c : Instr} {r : MbxReq} {op status detail : Nat} {async : Bool} {payload : List Byte} {item : Option Nat}
    {step5 : Option (Nat × Nat)} {body : State → MRes} {u s : State}
    (hex : exec c s = .next (mailboxFull r op item step5 body s)) (h : Admits s r op item step5)
    (hm : u.mbx.length = s.mbx.length)
    (hb : ∀ l i w, body { s with loupe := l, issued := i, landing := { s.landing with waiting := w } } =
      { st := { u with loupe := l, issued := i, landing := { u.landing with waiting := w } }, status := status,
        detail := detail, async := async, payload := payload }) :
    Answers c r op status detail async payload u s :=
  answers_of hex h (fun l i w => ⟨_, hb l i w, ⟨rfl, rfl⟩, hm⟩)

/-- A request that fails a header check or a gate is answered so, and nothing else changes. -/
theorem mailboxFull_fails {r : MbxReq} {op : Nat} {item : Option Nat} {step5 : Option (Nat × Nat)} {body : State → MRes}
    {s : State} {e : Nat × Nat} (h : executes s r = true) (ha : answer r op item step5 body s = .fail s e) :
    Answered r op e.1 e.2 false [] (mailboxFull r op item step5 body s) ∧ Shown s (mailboxFull r op item step5 body s) := by
  unfold mailboxFull
  rw [if_pos h, ha]
  exact ⟨settleAnswer_answered r op (.fail s e) (mailbox_in_range h), settleAnswer_shown r op (.fail s e)⟩

end Sys2Proof.Laws
end

