-- ==== Sys2Proof/Laws/State.lean ====
section
/-! SUPPORT. Sys2Proof/Laws/State.lean: each field of the state after each named update, and each indexed part after an
update of its list, so that no proof unfolds a record update. -/
namespace Sys2Proof.Laws
open Sys2Proof.Machine

/-! ## onPart -/

@[simp] theorem onPart_pending (p : Nat) (f : Part → Part) (s : State) : (onPart p f s).pending = s.pending := rfl
@[simp] theorem onPart_time (p : Nat) (f : Part → Part) (s : State) : (onPart p f s).time = s.time := rfl
@[simp] theorem onPart_power (p : Nat) (f : Part → Part) (s : State) : (onPart p f s).power = s.power := rfl
@[simp] theorem onPart_mbx (p : Nat) (f : Part → Part) (s : State) : (onPart p f s).mbx = s.mbx := rfl
@[simp] theorem onPart_sessions (p : Nat) (f : Part → Part) (s : State) : (onPart p f s).sessions = s.sessions := rfl
@[simp] theorem onPart_nextSession (p : Nat) (f : Part → Part) (s : State) : (onPart p f s).nextSession = s.nextSession := rfl
@[simp] theorem onPart_partEvents (p : Nat) (f : Part → Part) (s : State) : (onPart p f s).partEvents = s.partEvents := rfl
@[simp] theorem onPart_operatorEvents (p : Nat) (f : Part → Part) (s : State) : (onPart p f s).operatorEvents = s.operatorEvents := rfl
@[simp] theorem onPart_sidebandEvents (p : Nat) (f : Part → Part) (s : State) : (onPart p f s).sidebandEvents = s.sidebandEvents := rfl
@[simp] theorem onPart_i3cSignalled (p : Nat) (f : Part → Part) (s : State) : (onPart p f s).i3cSignalled = s.i3cSignalled := rfl
@[simp] theorem onPart_i3cResponses (p : Nat) (f : Part → Part) (s : State) : (onPart p f s).i3cResponses = s.i3cResponses := rfl
@[simp] theorem onPart_log (p : Nat) (f : Part → Part) (s : State) : (onPart p f s).log = s.log := rfl
@[simp] theorem onPart_logSeq (p : Nat) (f : Part → Part) (s : State) : (onPart p f s).logSeq = s.logSeq := rfl
@[simp] theorem onPart_jobs (p : Nat) (f : Part → Part) (s : State) : (onPart p f s).jobs = s.jobs := rfl
@[simp] theorem onPart_parts (p : Nat) (f : Part → Part) (s : State) : (onPart p f s).parts = s.parts.modify p f := rfl
@[simp] theorem onPart_groves (p : Nat) (f : Part → Part) (s : State) : (onPart p f s).groves = s.groves := rfl
@[simp] theorem onPart_runs (p : Nat) (f : Part → Part) (s : State) : (onPart p f s).runs = s.runs := rfl
@[simp] theorem onPart_nextRun (p : Nat) (f : Part → Part) (s : State) : (onPart p f s).nextRun = s.nextRun := rfl
@[simp] theorem onPart_pave (p : Nat) (f : Part → Part) (s : State) : (onPart p f s).pave = s.pave := rfl
@[simp] theorem onPart_choker (p : Nat) (f : Part → Part) (s : State) : (onPart p f s).choker = s.choker := rfl
@[simp] theorem onPart_fabric (p : Nat) (f : Part → Part) (s : State) : (onPart p f s).fabric = s.fabric := rfl
@[simp] theorem onPart_landing (p : Nat) (f : Part → Part) (s : State) : (onPart p f s).landing = s.landing := rfl
@[simp] theorem onPart_channels (p : Nat) (f : Part → Part) (s : State) : (onPart p f s).channels = s.channels := rfl
@[simp] theorem onPart_loupe (p : Nat) (f : Part → Part) (s : State) : (onPart p f s).loupe = s.loupe := rfl
@[simp] theorem onPart_hallmark (p : Nat) (f : Part → Part) (s : State) : (onPart p f s).hallmark = s.hallmark := rfl
@[simp] theorem onPart_cruise (p : Nat) (f : Part → Part) (s : State) : (onPart p f s).cruise = s.cruise := rfl
@[simp] theorem onPart_deck (p : Nat) (f : Part → Part) (s : State) : (onPart p f s).deck = s.deck := rfl
@[simp] theorem onPart_skidder (p : Nat) (f : Part → Part) (s : State) : (onPart p f s).skidder = s.skidder := rfl
@[simp] theorem onPart_scaler (p : Nat) (f : Part → Part) (s : State) : (onPart p f s).scaler = s.scaler := rfl
@[simp] theorem onPart_apportion (p : Nat) (f : Part → Part) (s : State) : (onPart p f s).apportion = s.apportion := rfl
@[simp] theorem onPart_mem (p : Nat) (f : Part → Part) (s : State) : (onPart p f s).mem = s.mem := rfl
@[simp] theorem onPart_issued (p : Nat) (f : Part → Part) (s : State) : (onPart p f s).issued = s.issued := rfl
@[simp] theorem onPart_freeCount (p : Nat) (f : Part → Part) (s : State) : (onPart p f s).freeCount = s.freeCount := rfl

/-! ## onMailbox -/

@[simp] theorem onMailbox_pending (m : Nat) (f : Mailbox → Mailbox) (s : State) : (onMailbox m f s).pending = s.pending := rfl
@[simp] theorem onMailbox_time (m : Nat) (f : Mailbox → Mailbox) (s : State) : (onMailbox m f s).time = s.time := rfl
@[simp] theorem onMailbox_power (m : Nat) (f : Mailbox → Mailbox) (s : State) : (onMailbox m f s).power = s.power := rfl
@[simp] theorem onMailbox_mbx (m : Nat) (f : Mailbox → Mailbox) (s : State) : (onMailbox m f s).mbx = s.mbx.modify m f := rfl
@[simp] theorem onMailbox_sessions (m : Nat) (f : Mailbox → Mailbox) (s : State) : (onMailbox m f s).sessions = s.sessions := rfl
@[simp] theorem onMailbox_nextSession (m : Nat) (f : Mailbox → Mailbox) (s : State) : (onMailbox m f s).nextSession = s.nextSession := rfl
@[simp] theorem onMailbox_partEvents (m : Nat) (f : Mailbox → Mailbox) (s : State) : (onMailbox m f s).partEvents = s.partEvents := rfl
@[simp] theorem onMailbox_operatorEvents (m : Nat) (f : Mailbox → Mailbox) (s : State) : (onMailbox m f s).operatorEvents = s.operatorEvents := rfl
@[simp] theorem onMailbox_sidebandEvents (m : Nat) (f : Mailbox → Mailbox) (s : State) : (onMailbox m f s).sidebandEvents = s.sidebandEvents := rfl
@[simp] theorem onMailbox_i3cSignalled (m : Nat) (f : Mailbox → Mailbox) (s : State) : (onMailbox m f s).i3cSignalled = s.i3cSignalled := rfl
@[simp] theorem onMailbox_i3cResponses (m : Nat) (f : Mailbox → Mailbox) (s : State) : (onMailbox m f s).i3cResponses = s.i3cResponses := rfl
@[simp] theorem onMailbox_log (m : Nat) (f : Mailbox → Mailbox) (s : State) : (onMailbox m f s).log = s.log := rfl
@[simp] theorem onMailbox_logSeq (m : Nat) (f : Mailbox → Mailbox) (s : State) : (onMailbox m f s).logSeq = s.logSeq := rfl
@[simp] theorem onMailbox_jobs (m : Nat) (f : Mailbox → Mailbox) (s : State) : (onMailbox m f s).jobs = s.jobs := rfl
@[simp] theorem onMailbox_parts (m : Nat) (f : Mailbox → Mailbox) (s : State) : (onMailbox m f s).parts = s.parts := rfl
@[simp] theorem onMailbox_groves (m : Nat) (f : Mailbox → Mailbox) (s : State) : (onMailbox m f s).groves = s.groves := rfl
@[simp] theorem onMailbox_runs (m : Nat) (f : Mailbox → Mailbox) (s : State) : (onMailbox m f s).runs = s.runs := rfl
@[simp] theorem onMailbox_nextRun (m : Nat) (f : Mailbox → Mailbox) (s : State) : (onMailbox m f s).nextRun = s.nextRun := rfl
@[simp] theorem onMailbox_pave (m : Nat) (f : Mailbox → Mailbox) (s : State) : (onMailbox m f s).pave = s.pave := rfl
@[simp] theorem onMailbox_choker (m : Nat) (f : Mailbox → Mailbox) (s : State) : (onMailbox m f s).choker = s.choker := rfl
@[simp] theorem onMailbox_fabric (m : Nat) (f : Mailbox → Mailbox) (s : State) : (onMailbox m f s).fabric = s.fabric := rfl
@[simp] theorem onMailbox_landing (m : Nat) (f : Mailbox → Mailbox) (s : State) : (onMailbox m f s).landing = s.landing := rfl
@[simp] theorem onMailbox_channels (m : Nat) (f : Mailbox → Mailbox) (s : State) : (onMailbox m f s).channels = s.channels := rfl
@[simp] theorem onMailbox_loupe (m : Nat) (f : Mailbox → Mailbox) (s : State) : (onMailbox m f s).loupe = s.loupe := rfl
@[simp] theorem onMailbox_hallmark (m : Nat) (f : Mailbox → Mailbox) (s : State) : (onMailbox m f s).hallmark = s.hallmark := rfl
@[simp] theorem onMailbox_cruise (m : Nat) (f : Mailbox → Mailbox) (s : State) : (onMailbox m f s).cruise = s.cruise := rfl
@[simp] theorem onMailbox_deck (m : Nat) (f : Mailbox → Mailbox) (s : State) : (onMailbox m f s).deck = s.deck := rfl
@[simp] theorem onMailbox_skidder (m : Nat) (f : Mailbox → Mailbox) (s : State) : (onMailbox m f s).skidder = s.skidder := rfl
@[simp] theorem onMailbox_scaler (m : Nat) (f : Mailbox → Mailbox) (s : State) : (onMailbox m f s).scaler = s.scaler := rfl
@[simp] theorem onMailbox_apportion (m : Nat) (f : Mailbox → Mailbox) (s : State) : (onMailbox m f s).apportion = s.apportion := rfl
@[simp] theorem onMailbox_mem (m : Nat) (f : Mailbox → Mailbox) (s : State) : (onMailbox m f s).mem = s.mem := rfl
@[simp] theorem onMailbox_issued (m : Nat) (f : Mailbox → Mailbox) (s : State) : (onMailbox m f s).issued = s.issued := rfl
@[simp] theorem onMailbox_freeCount (m : Nat) (f : Mailbox → Mailbox) (s : State) : (onMailbox m f s).freeCount = s.freeCount := rfl

/-! ## onPort -/

@[simp] theorem onPort_pending (n : Nat) (f : Port → Port) (s : State) : (onPort n f s).pending = s.pending := rfl
@[simp] theorem onPort_time (n : Nat) (f : Port → Port) (s : State) : (onPort n f s).time = s.time := rfl
@[simp] theorem onPort_power (n : Nat) (f : Port → Port) (s : State) : (onPort n f s).power = s.power := rfl
@[simp] theorem onPort_mbx (n : Nat) (f : Port → Port) (s : State) : (onPort n f s).mbx = s.mbx := rfl
@[simp] theorem onPort_sessions (n : Nat) (f : Port → Port) (s : State) : (onPort n f s).sessions = s.sessions := rfl
@[simp] theorem onPort_nextSession (n : Nat) (f : Port → Port) (s : State) : (onPort n f s).nextSession = s.nextSession := rfl
@[simp] theorem onPort_partEvents (n : Nat) (f : Port → Port) (s : State) : (onPort n f s).partEvents = s.partEvents := rfl
@[simp] theorem onPort_operatorEvents (n : Nat) (f : Port → Port) (s : State) : (onPort n f s).operatorEvents = s.operatorEvents := rfl
@[simp] theorem onPort_sidebandEvents (n : Nat) (f : Port → Port) (s : State) : (onPort n f s).sidebandEvents = s.sidebandEvents := rfl
@[simp] theorem onPort_i3cSignalled (n : Nat) (f : Port → Port) (s : State) : (onPort n f s).i3cSignalled = s.i3cSignalled := rfl
@[simp] theorem onPort_i3cResponses (n : Nat) (f : Port → Port) (s : State) : (onPort n f s).i3cResponses = s.i3cResponses := rfl
@[simp] theorem onPort_log (n : Nat) (f : Port → Port) (s : State) : (onPort n f s).log = s.log := rfl
@[simp] theorem onPort_logSeq (n : Nat) (f : Port → Port) (s : State) : (onPort n f s).logSeq = s.logSeq := rfl
@[simp] theorem onPort_jobs (n : Nat) (f : Port → Port) (s : State) : (onPort n f s).jobs = s.jobs := rfl
@[simp] theorem onPort_parts (n : Nat) (f : Port → Port) (s : State) : (onPort n f s).parts = s.parts := rfl
@[simp] theorem onPort_groves (n : Nat) (f : Port → Port) (s : State) : (onPort n f s).groves = s.groves := rfl
@[simp] theorem onPort_runs (n : Nat) (f : Port → Port) (s : State) : (onPort n f s).runs = s.runs := rfl
@[simp] theorem onPort_nextRun (n : Nat) (f : Port → Port) (s : State) : (onPort n f s).nextRun = s.nextRun := rfl
@[simp] theorem onPort_pave (n : Nat) (f : Port → Port) (s : State) : (onPort n f s).pave = s.pave := rfl
@[simp] theorem onPort_choker (n : Nat) (f : Port → Port) (s : State) : (onPort n f s).choker = s.choker := rfl
@[simp] theorem onPort_fabric (n : Nat) (f : Port → Port) (s : State) : (onPort n f s).fabric = { s.fabric with ports := s.fabric.ports.modify n f } := rfl
@[simp] theorem onPort_landing (n : Nat) (f : Port → Port) (s : State) : (onPort n f s).landing = s.landing := rfl
@[simp] theorem onPort_channels (n : Nat) (f : Port → Port) (s : State) : (onPort n f s).channels = s.channels := rfl
@[simp] theorem onPort_loupe (n : Nat) (f : Port → Port) (s : State) : (onPort n f s).loupe = s.loupe := rfl
@[simp] theorem onPort_hallmark (n : Nat) (f : Port → Port) (s : State) : (onPort n f s).hallmark = s.hallmark := rfl
@[simp] theorem onPort_cruise (n : Nat) (f : Port → Port) (s : State) : (onPort n f s).cruise = s.cruise := rfl
@[simp] theorem onPort_deck (n : Nat) (f : Port → Port) (s : State) : (onPort n f s).deck = s.deck := rfl
@[simp] theorem onPort_skidder (n : Nat) (f : Port → Port) (s : State) : (onPort n f s).skidder = s.skidder := rfl
@[simp] theorem onPort_scaler (n : Nat) (f : Port → Port) (s : State) : (onPort n f s).scaler = s.scaler := rfl
@[simp] theorem onPort_apportion (n : Nat) (f : Port → Port) (s : State) : (onPort n f s).apportion = s.apportion := rfl
@[simp] theorem onPort_mem (n : Nat) (f : Port → Port) (s : State) : (onPort n f s).mem = s.mem := rfl
@[simp] theorem onPort_issued (n : Nat) (f : Port → Port) (s : State) : (onPort n f s).issued = s.issued := rfl
@[simp] theorem onPort_freeCount (n : Nat) (f : Port → Port) (s : State) : (onPort n f s).freeCount = s.freeCount := rfl

/-! ## onStack -/

@[simp] theorem onStack_pending (n : Nat) (f : Stack → Stack) (s : State) : (onStack n f s).pending = s.pending := rfl
@[simp] theorem onStack_time (n : Nat) (f : Stack → Stack) (s : State) : (onStack n f s).time = s.time := rfl
@[simp] theorem onStack_power (n : Nat) (f : Stack → Stack) (s : State) : (onStack n f s).power = s.power := rfl
@[simp] theorem onStack_mbx (n : Nat) (f : Stack → Stack) (s : State) : (onStack n f s).mbx = s.mbx := rfl
@[simp] theorem onStack_sessions (n : Nat) (f : Stack → Stack) (s : State) : (onStack n f s).sessions = s.sessions := rfl
@[simp] theorem onStack_nextSession (n : Nat) (f : Stack → Stack) (s : State) : (onStack n f s).nextSession = s.nextSession := rfl
@[simp] theorem onStack_partEvents (n : Nat) (f : Stack → Stack) (s : State) : (onStack n f s).partEvents = s.partEvents := rfl
@[simp] theorem onStack_operatorEvents (n : Nat) (f : Stack → Stack) (s : State) : (onStack n f s).operatorEvents = s.operatorEvents := rfl
@[simp] theorem onStack_sidebandEvents (n : Nat) (f : Stack → Stack) (s : State) : (onStack n f s).sidebandEvents = s.sidebandEvents := rfl
@[simp] theorem onStack_i3cSignalled (n : Nat) (f : Stack → Stack) (s : State) : (onStack n f s).i3cSignalled = s.i3cSignalled := rfl
@[simp] theorem onStack_i3cResponses (n : Nat) (f : Stack → Stack) (s : State) : (onStack n f s).i3cResponses = s.i3cResponses := rfl
@[simp] theorem onStack_log (n : Nat) (f : Stack → Stack) (s : State) : (onStack n f s).log = s.log := rfl
@[simp] theorem onStack_logSeq (n : Nat) (f : Stack → Stack) (s : State) : (onStack n f s).logSeq = s.logSeq := rfl
@[simp] theorem onStack_jobs (n : Nat) (f : Stack → Stack) (s : State) : (onStack n f s).jobs = s.jobs := rfl
@[simp] theorem onStack_parts (n : Nat) (f : Stack → Stack) (s : State) : (onStack n f s).parts = s.parts := rfl
@[simp] theorem onStack_groves (n : Nat) (f : Stack → Stack) (s : State) : (onStack n f s).groves = s.groves := rfl
@[simp] theorem onStack_runs (n : Nat) (f : Stack → Stack) (s : State) : (onStack n f s).runs = s.runs := rfl
@[simp] theorem onStack_nextRun (n : Nat) (f : Stack → Stack) (s : State) : (onStack n f s).nextRun = s.nextRun := rfl
@[simp] theorem onStack_pave (n : Nat) (f : Stack → Stack) (s : State) : (onStack n f s).pave = { s.pave with allStacks := s.pave.allStacks.modify n f } := rfl
@[simp] theorem onStack_choker (n : Nat) (f : Stack → Stack) (s : State) : (onStack n f s).choker = s.choker := rfl
@[simp] theorem onStack_fabric (n : Nat) (f : Stack → Stack) (s : State) : (onStack n f s).fabric = s.fabric := rfl
@[simp] theorem onStack_landing (n : Nat) (f : Stack → Stack) (s : State) : (onStack n f s).landing = s.landing := rfl
@[simp] theorem onStack_channels (n : Nat) (f : Stack → Stack) (s : State) : (onStack n f s).channels = s.channels := rfl
@[simp] theorem onStack_loupe (n : Nat) (f : Stack → Stack) (s : State) : (onStack n f s).loupe = s.loupe := rfl
@[simp] theorem onStack_hallmark (n : Nat) (f : Stack → Stack) (s : State) : (onStack n f s).hallmark = s.hallmark := rfl
@[simp] theorem onStack_cruise (n : Nat) (f : Stack → Stack) (s : State) : (onStack n f s).cruise = s.cruise := rfl
@[simp] theorem onStack_deck (n : Nat) (f : Stack → Stack) (s : State) : (onStack n f s).deck = s.deck := rfl
@[simp] theorem onStack_skidder (n : Nat) (f : Stack → Stack) (s : State) : (onStack n f s).skidder = s.skidder := rfl
@[simp] theorem onStack_scaler (n : Nat) (f : Stack → Stack) (s : State) : (onStack n f s).scaler = s.scaler := rfl
@[simp] theorem onStack_apportion (n : Nat) (f : Stack → Stack) (s : State) : (onStack n f s).apportion = s.apportion := rfl
@[simp] theorem onStack_mem (n : Nat) (f : Stack → Stack) (s : State) : (onStack n f s).mem = s.mem := rfl
@[simp] theorem onStack_issued (n : Nat) (f : Stack → Stack) (s : State) : (onStack n f s).issued = s.issued := rfl
@[simp] theorem onStack_freeCount (n : Nat) (f : Stack → Stack) (s : State) : (onStack n f s).freeCount = s.freeCount := rfl

/-! ## onGrove -/

@[simp] theorem onGrove_pending (n : Nat) (f : Grove → Grove) (s : State) : (onGrove n f s).pending = s.pending := rfl
@[simp] theorem onGrove_time (n : Nat) (f : Grove → Grove) (s : State) : (onGrove n f s).time = s.time := rfl
@[simp] theorem onGrove_power (n : Nat) (f : Grove → Grove) (s : State) : (onGrove n f s).power = s.power := rfl
@[simp] theorem onGrove_mbx (n : Nat) (f : Grove → Grove) (s : State) : (onGrove n f s).mbx = s.mbx := rfl
@[simp] theorem onGrove_sessions (n : Nat) (f : Grove → Grove) (s : State) : (onGrove n f s).sessions = s.sessions := rfl
@[simp] theorem onGrove_nextSession (n : Nat) (f : Grove → Grove) (s : State) : (onGrove n f s).nextSession = s.nextSession := rfl
@[simp] theorem onGrove_partEvents (n : Nat) (f : Grove → Grove) (s : State) : (onGrove n f s).partEvents = s.partEvents := rfl
@[simp] theorem onGrove_operatorEvents (n : Nat) (f : Grove → Grove) (s : State) : (onGrove n f s).operatorEvents = s.operatorEvents := rfl
@[simp] theorem onGrove_sidebandEvents (n : Nat) (f : Grove → Grove) (s : State) : (onGrove n f s).sidebandEvents = s.sidebandEvents := rfl
@[simp] theorem onGrove_i3cSignalled (n : Nat) (f : Grove → Grove) (s : State) : (onGrove n f s).i3cSignalled = s.i3cSignalled := rfl
@[simp] theorem onGrove_i3cResponses (n : Nat) (f : Grove → Grove) (s : State) : (onGrove n f s).i3cResponses = s.i3cResponses := rfl
@[simp] theorem onGrove_log (n : Nat) (f : Grove → Grove) (s : State) : (onGrove n f s).log = s.log := rfl
@[simp] theorem onGrove_logSeq (n : Nat) (f : Grove → Grove) (s : State) : (onGrove n f s).logSeq = s.logSeq := rfl
@[simp] theorem onGrove_jobs (n : Nat) (f : Grove → Grove) (s : State) : (onGrove n f s).jobs = s.jobs := rfl
@[simp] theorem onGrove_parts (n : Nat) (f : Grove → Grove) (s : State) : (onGrove n f s).parts = s.parts := rfl
@[simp] theorem onGrove_groves (n : Nat) (f : Grove → Grove) (s : State) : (onGrove n f s).groves = s.groves.modify n f := rfl
@[simp] theorem onGrove_runs (n : Nat) (f : Grove → Grove) (s : State) : (onGrove n f s).runs = s.runs := rfl
@[simp] theorem onGrove_nextRun (n : Nat) (f : Grove → Grove) (s : State) : (onGrove n f s).nextRun = s.nextRun := rfl
@[simp] theorem onGrove_pave (n : Nat) (f : Grove → Grove) (s : State) : (onGrove n f s).pave = s.pave := rfl
@[simp] theorem onGrove_choker (n : Nat) (f : Grove → Grove) (s : State) : (onGrove n f s).choker = s.choker := rfl
@[simp] theorem onGrove_fabric (n : Nat) (f : Grove → Grove) (s : State) : (onGrove n f s).fabric = s.fabric := rfl
@[simp] theorem onGrove_landing (n : Nat) (f : Grove → Grove) (s : State) : (onGrove n f s).landing = s.landing := rfl
@[simp] theorem onGrove_channels (n : Nat) (f : Grove → Grove) (s : State) : (onGrove n f s).channels = s.channels := rfl
@[simp] theorem onGrove_loupe (n : Nat) (f : Grove → Grove) (s : State) : (onGrove n f s).loupe = s.loupe := rfl
@[simp] theorem onGrove_hallmark (n : Nat) (f : Grove → Grove) (s : State) : (onGrove n f s).hallmark = s.hallmark := rfl
@[simp] theorem onGrove_cruise (n : Nat) (f : Grove → Grove) (s : State) : (onGrove n f s).cruise = s.cruise := rfl
@[simp] theorem onGrove_deck (n : Nat) (f : Grove → Grove) (s : State) : (onGrove n f s).deck = s.deck := rfl
@[simp] theorem onGrove_skidder (n : Nat) (f : Grove → Grove) (s : State) : (onGrove n f s).skidder = s.skidder := rfl
@[simp] theorem onGrove_scaler (n : Nat) (f : Grove → Grove) (s : State) : (onGrove n f s).scaler = s.scaler := rfl
@[simp] theorem onGrove_apportion (n : Nat) (f : Grove → Grove) (s : State) : (onGrove n f s).apportion = s.apportion := rfl
@[simp] theorem onGrove_mem (n : Nat) (f : Grove → Grove) (s : State) : (onGrove n f s).mem = s.mem := rfl
@[simp] theorem onGrove_issued (n : Nat) (f : Grove → Grove) (s : State) : (onGrove n f s).issued = s.issued := rfl
@[simp] theorem onGrove_freeCount (n : Nat) (f : Grove → Grove) (s : State) : (onGrove n f s).freeCount = s.freeCount := rfl

/-! ## onChannel -/

@[simp] theorem onChannel_pending (c : Nat) (f : Channel → Channel) (s : State) : (onChannel c f s).pending = s.pending := rfl
@[simp] theorem onChannel_time (c : Nat) (f : Channel → Channel) (s : State) : (onChannel c f s).time = s.time := rfl
@[simp] theorem onChannel_power (c : Nat) (f : Channel → Channel) (s : State) : (onChannel c f s).power = s.power := rfl
@[simp] theorem onChannel_mbx (c : Nat) (f : Channel → Channel) (s : State) : (onChannel c f s).mbx = s.mbx := rfl
@[simp] theorem onChannel_sessions (c : Nat) (f : Channel → Channel) (s : State) : (onChannel c f s).sessions = s.sessions := rfl
@[simp] theorem onChannel_nextSession (c : Nat) (f : Channel → Channel) (s : State) : (onChannel c f s).nextSession = s.nextSession := rfl
@[simp] theorem onChannel_partEvents (c : Nat) (f : Channel → Channel) (s : State) : (onChannel c f s).partEvents = s.partEvents := rfl
@[simp] theorem onChannel_operatorEvents (c : Nat) (f : Channel → Channel) (s : State) : (onChannel c f s).operatorEvents = s.operatorEvents := rfl
@[simp] theorem onChannel_sidebandEvents (c : Nat) (f : Channel → Channel) (s : State) : (onChannel c f s).sidebandEvents = s.sidebandEvents := rfl
@[simp] theorem onChannel_i3cSignalled (c : Nat) (f : Channel → Channel) (s : State) : (onChannel c f s).i3cSignalled = s.i3cSignalled := rfl
@[simp] theorem onChannel_i3cResponses (c : Nat) (f : Channel → Channel) (s : State) : (onChannel c f s).i3cResponses = s.i3cResponses := rfl
@[simp] theorem onChannel_log (c : Nat) (f : Channel → Channel) (s : State) : (onChannel c f s).log = s.log := rfl
@[simp] theorem onChannel_logSeq (c : Nat) (f : Channel → Channel) (s : State) : (onChannel c f s).logSeq = s.logSeq := rfl
@[simp] theorem onChannel_jobs (c : Nat) (f : Channel → Channel) (s : State) : (onChannel c f s).jobs = s.jobs := rfl
@[simp] theorem onChannel_parts (c : Nat) (f : Channel → Channel) (s : State) : (onChannel c f s).parts = s.parts := rfl
@[simp] theorem onChannel_groves (c : Nat) (f : Channel → Channel) (s : State) : (onChannel c f s).groves = s.groves := rfl
@[simp] theorem onChannel_runs (c : Nat) (f : Channel → Channel) (s : State) : (onChannel c f s).runs = s.runs := rfl
@[simp] theorem onChannel_nextRun (c : Nat) (f : Channel → Channel) (s : State) : (onChannel c f s).nextRun = s.nextRun := rfl
@[simp] theorem onChannel_pave (c : Nat) (f : Channel → Channel) (s : State) : (onChannel c f s).pave = s.pave := rfl
@[simp] theorem onChannel_choker (c : Nat) (f : Channel → Channel) (s : State) : (onChannel c f s).choker = s.choker := rfl
@[simp] theorem onChannel_fabric (c : Nat) (f : Channel → Channel) (s : State) : (onChannel c f s).fabric = s.fabric := rfl
@[simp] theorem onChannel_landing (c : Nat) (f : Channel → Channel) (s : State) : (onChannel c f s).landing = s.landing := rfl
@[simp] theorem onChannel_channels (c : Nat) (f : Channel → Channel) (s : State) : (onChannel c f s).channels = s.channels.modify c f := rfl
@[simp] theorem onChannel_loupe (c : Nat) (f : Channel → Channel) (s : State) : (onChannel c f s).loupe = s.loupe := rfl
@[simp] theorem onChannel_hallmark (c : Nat) (f : Channel → Channel) (s : State) : (onChannel c f s).hallmark = s.hallmark := rfl
@[simp] theorem onChannel_cruise (c : Nat) (f : Channel → Channel) (s : State) : (onChannel c f s).cruise = s.cruise := rfl
@[simp] theorem onChannel_deck (c : Nat) (f : Channel → Channel) (s : State) : (onChannel c f s).deck = s.deck := rfl
@[simp] theorem onChannel_skidder (c : Nat) (f : Channel → Channel) (s : State) : (onChannel c f s).skidder = s.skidder := rfl
@[simp] theorem onChannel_scaler (c : Nat) (f : Channel → Channel) (s : State) : (onChannel c f s).scaler = s.scaler := rfl
@[simp] theorem onChannel_apportion (c : Nat) (f : Channel → Channel) (s : State) : (onChannel c f s).apportion = s.apportion := rfl
@[simp] theorem onChannel_mem (c : Nat) (f : Channel → Channel) (s : State) : (onChannel c f s).mem = s.mem := rfl
@[simp] theorem onChannel_issued (c : Nat) (f : Channel → Channel) (s : State) : (onChannel c f s).issued = s.issued := rfl
@[simp] theorem onChannel_freeCount (c : Nat) (f : Channel → Channel) (s : State) : (onChannel c f s).freeCount = s.freeCount := rfl

/-! ## onDeck -/

@[simp] theorem onDeck_pending (f : Deck → Deck) (s : State) : (onDeck f s).pending = s.pending := rfl
@[simp] theorem onDeck_time (f : Deck → Deck) (s : State) : (onDeck f s).time = s.time := rfl
@[simp] theorem onDeck_power (f : Deck → Deck) (s : State) : (onDeck f s).power = s.power := rfl
@[simp] theorem onDeck_mbx (f : Deck → Deck) (s : State) : (onDeck f s).mbx = s.mbx := rfl
@[simp] theorem onDeck_sessions (f : Deck → Deck) (s : State) : (onDeck f s).sessions = s.sessions := rfl
@[simp] theorem onDeck_nextSession (f : Deck → Deck) (s : State) : (onDeck f s).nextSession = s.nextSession := rfl
@[simp] theorem onDeck_partEvents (f : Deck → Deck) (s : State) : (onDeck f s).partEvents = s.partEvents := rfl
@[simp] theorem onDeck_operatorEvents (f : Deck → Deck) (s : State) : (onDeck f s).operatorEvents = s.operatorEvents := rfl
@[simp] theorem onDeck_sidebandEvents (f : Deck → Deck) (s : State) : (onDeck f s).sidebandEvents = s.sidebandEvents := rfl
@[simp] theorem onDeck_i3cSignalled (f : Deck → Deck) (s : State) : (onDeck f s).i3cSignalled = s.i3cSignalled := rfl
@[simp] theorem onDeck_i3cResponses (f : Deck → Deck) (s : State) : (onDeck f s).i3cResponses = s.i3cResponses := rfl
@[simp] theorem onDeck_log (f : Deck → Deck) (s : State) : (onDeck f s).log = s.log := rfl
@[simp] theorem onDeck_logSeq (f : Deck → Deck) (s : State) : (onDeck f s).logSeq = s.logSeq := rfl
@[simp] theorem onDeck_jobs (f : Deck → Deck) (s : State) : (onDeck f s).jobs = s.jobs := rfl
@[simp] theorem onDeck_parts (f : Deck → Deck) (s : State) : (onDeck f s).parts = s.parts := rfl
@[simp] theorem onDeck_groves (f : Deck → Deck) (s : State) : (onDeck f s).groves = s.groves := rfl
@[simp] theorem onDeck_runs (f : Deck → Deck) (s : State) : (onDeck f s).runs = s.runs := rfl
@[simp] theorem onDeck_nextRun (f : Deck → Deck) (s : State) : (onDeck f s).nextRun = s.nextRun := rfl
@[simp] theorem onDeck_pave (f : Deck → Deck) (s : State) : (onDeck f s).pave = s.pave := rfl
@[simp] theorem onDeck_choker (f : Deck → Deck) (s : State) : (onDeck f s).choker = s.choker := rfl
@[simp] theorem onDeck_fabric (f : Deck → Deck) (s : State) : (onDeck f s).fabric = s.fabric := rfl
@[simp] theorem onDeck_landing (f : Deck → Deck) (s : State) : (onDeck f s).landing = s.landing := rfl
@[simp] theorem onDeck_channels (f : Deck → Deck) (s : State) : (onDeck f s).channels = s.channels := rfl
@[simp] theorem onDeck_loupe (f : Deck → Deck) (s : State) : (onDeck f s).loupe = s.loupe := rfl
@[simp] theorem onDeck_hallmark (f : Deck → Deck) (s : State) : (onDeck f s).hallmark = s.hallmark := rfl
@[simp] theorem onDeck_cruise (f : Deck → Deck) (s : State) : (onDeck f s).cruise = s.cruise := rfl
@[simp] theorem onDeck_deck (f : Deck → Deck) (s : State) : (onDeck f s).deck = f s.deck := rfl
@[simp] theorem onDeck_skidder (f : Deck → Deck) (s : State) : (onDeck f s).skidder = s.skidder := rfl
@[simp] theorem onDeck_scaler (f : Deck → Deck) (s : State) : (onDeck f s).scaler = s.scaler := rfl
@[simp] theorem onDeck_apportion (f : Deck → Deck) (s : State) : (onDeck f s).apportion = s.apportion := rfl
@[simp] theorem onDeck_mem (f : Deck → Deck) (s : State) : (onDeck f s).mem = s.mem := rfl
@[simp] theorem onDeck_issued (f : Deck → Deck) (s : State) : (onDeck f s).issued = s.issued := rfl
@[simp] theorem onDeck_freeCount (f : Deck → Deck) (s : State) : (onDeck f s).freeCount = s.freeCount := rfl

/-! ## onUnits -/

@[simp] theorem onUnits_pending (f : List Machine.PUnit → List Machine.PUnit) (s : State) : (onUnits f s).pending = s.pending := rfl
@[simp] theorem onUnits_time (f : List Machine.PUnit → List Machine.PUnit) (s : State) : (onUnits f s).time = s.time := rfl
@[simp] theorem onUnits_power (f : List Machine.PUnit → List Machine.PUnit) (s : State) : (onUnits f s).power = s.power := rfl
@[simp] theorem onUnits_mbx (f : List Machine.PUnit → List Machine.PUnit) (s : State) : (onUnits f s).mbx = s.mbx := rfl
@[simp] theorem onUnits_sessions (f : List Machine.PUnit → List Machine.PUnit) (s : State) : (onUnits f s).sessions = s.sessions := rfl
@[simp] theorem onUnits_nextSession (f : List Machine.PUnit → List Machine.PUnit) (s : State) : (onUnits f s).nextSession = s.nextSession := rfl
@[simp] theorem onUnits_partEvents (f : List Machine.PUnit → List Machine.PUnit) (s : State) : (onUnits f s).partEvents = s.partEvents := rfl
@[simp] theorem onUnits_operatorEvents (f : List Machine.PUnit → List Machine.PUnit) (s : State) : (onUnits f s).operatorEvents = s.operatorEvents := rfl
@[simp] theorem onUnits_sidebandEvents (f : List Machine.PUnit → List Machine.PUnit) (s : State) : (onUnits f s).sidebandEvents = s.sidebandEvents := rfl
@[simp] theorem onUnits_i3cSignalled (f : List Machine.PUnit → List Machine.PUnit) (s : State) : (onUnits f s).i3cSignalled = s.i3cSignalled := rfl
@[simp] theorem onUnits_i3cResponses (f : List Machine.PUnit → List Machine.PUnit) (s : State) : (onUnits f s).i3cResponses = s.i3cResponses := rfl
@[simp] theorem onUnits_log (f : List Machine.PUnit → List Machine.PUnit) (s : State) : (onUnits f s).log = s.log := rfl
@[simp] theorem onUnits_logSeq (f : List Machine.PUnit → List Machine.PUnit) (s : State) : (onUnits f s).logSeq = s.logSeq := rfl
@[simp] theorem onUnits_jobs (f : List Machine.PUnit → List Machine.PUnit) (s : State) : (onUnits f s).jobs = s.jobs := rfl
@[simp] theorem onUnits_parts (f : List Machine.PUnit → List Machine.PUnit) (s : State) : (onUnits f s).parts = s.parts := rfl
@[simp] theorem onUnits_groves (f : List Machine.PUnit → List Machine.PUnit) (s : State) : (onUnits f s).groves = s.groves := rfl
@[simp] theorem onUnits_runs (f : List Machine.PUnit → List Machine.PUnit) (s : State) : (onUnits f s).runs = s.runs := rfl
@[simp] theorem onUnits_nextRun (f : List Machine.PUnit → List Machine.PUnit) (s : State) : (onUnits f s).nextRun = s.nextRun := rfl
@[simp] theorem onUnits_pave (f : List Machine.PUnit → List Machine.PUnit) (s : State) : (onUnits f s).pave = s.pave := rfl
@[simp] theorem onUnits_choker (f : List Machine.PUnit → List Machine.PUnit) (s : State) : (onUnits f s).choker = s.choker := rfl
@[simp] theorem onUnits_fabric (f : List Machine.PUnit → List Machine.PUnit) (s : State) : (onUnits f s).fabric = s.fabric := rfl
@[simp] theorem onUnits_landing (f : List Machine.PUnit → List Machine.PUnit) (s : State) : (onUnits f s).landing = s.landing := rfl
@[simp] theorem onUnits_channels (f : List Machine.PUnit → List Machine.PUnit) (s : State) : (onUnits f s).channels = s.channels := rfl
@[simp] theorem onUnits_loupe (f : List Machine.PUnit → List Machine.PUnit) (s : State) : (onUnits f s).loupe = s.loupe := rfl
@[simp] theorem onUnits_hallmark (f : List Machine.PUnit → List Machine.PUnit) (s : State) : (onUnits f s).hallmark = s.hallmark := rfl
@[simp] theorem onUnits_cruise (f : List Machine.PUnit → List Machine.PUnit) (s : State) : (onUnits f s).cruise = s.cruise := rfl
@[simp] theorem onUnits_deck (f : List Machine.PUnit → List Machine.PUnit) (s : State) : (onUnits f s).deck = s.deck := rfl
@[simp] theorem onUnits_skidder (f : List Machine.PUnit → List Machine.PUnit) (s : State) : (onUnits f s).skidder = { s.skidder with units := f s.skidder.units } := rfl
@[simp] theorem onUnits_scaler (f : List Machine.PUnit → List Machine.PUnit) (s : State) : (onUnits f s).scaler = s.scaler := rfl
@[simp] theorem onUnits_apportion (f : List Machine.PUnit → List Machine.PUnit) (s : State) : (onUnits f s).apportion = s.apportion := rfl
@[simp] theorem onUnits_mem (f : List Machine.PUnit → List Machine.PUnit) (s : State) : (onUnits f s).mem = s.mem := rfl
@[simp] theorem onUnits_issued (f : List Machine.PUnit → List Machine.PUnit) (s : State) : (onUnits f s).issued = s.issued := rfl
@[simp] theorem onUnits_freeCount (f : List Machine.PUnit → List Machine.PUnit) (s : State) : (onUnits f s).freeCount = s.freeCount := rfl

/-! ## onPower -/

@[simp] theorem onPower_pending (f : Power → Power) (s : State) : (onPower f s).pending = s.pending := rfl
@[simp] theorem onPower_time (f : Power → Power) (s : State) : (onPower f s).time = s.time := rfl
@[simp] theorem onPower_power (f : Power → Power) (s : State) : (onPower f s).power = f s.power := rfl
@[simp] theorem onPower_mbx (f : Power → Power) (s : State) : (onPower f s).mbx = s.mbx := rfl
@[simp] theorem onPower_sessions (f : Power → Power) (s : State) : (onPower f s).sessions = s.sessions := rfl
@[simp] theorem onPower_nextSession (f : Power → Power) (s : State) : (onPower f s).nextSession = s.nextSession := rfl
@[simp] theorem onPower_partEvents (f : Power → Power) (s : State) : (onPower f s).partEvents = s.partEvents := rfl
@[simp] theorem onPower_operatorEvents (f : Power → Power) (s : State) : (onPower f s).operatorEvents = s.operatorEvents := rfl
@[simp] theorem onPower_sidebandEvents (f : Power → Power) (s : State) : (onPower f s).sidebandEvents = s.sidebandEvents := rfl
@[simp] theorem onPower_i3cSignalled (f : Power → Power) (s : State) : (onPower f s).i3cSignalled = s.i3cSignalled := rfl
@[simp] theorem onPower_i3cResponses (f : Power → Power) (s : State) : (onPower f s).i3cResponses = s.i3cResponses := rfl
@[simp] theorem onPower_log (f : Power → Power) (s : State) : (onPower f s).log = s.log := rfl
@[simp] theorem onPower_logSeq (f : Power → Power) (s : State) : (onPower f s).logSeq = s.logSeq := rfl
@[simp] theorem onPower_jobs (f : Power → Power) (s : State) : (onPower f s).jobs = s.jobs := rfl
@[simp] theorem onPower_parts (f : Power → Power) (s : State) : (onPower f s).parts = s.parts := rfl
@[simp] theorem onPower_groves (f : Power → Power) (s : State) : (onPower f s).groves = s.groves := rfl
@[simp] theorem onPower_runs (f : Power → Power) (s : State) : (onPower f s).runs = s.runs := rfl
@[simp] theorem onPower_nextRun (f : Power → Power) (s : State) : (onPower f s).nextRun = s.nextRun := rfl
@[simp] theorem onPower_pave (f : Power → Power) (s : State) : (onPower f s).pave = s.pave := rfl
@[simp] theorem onPower_choker (f : Power → Power) (s : State) : (onPower f s).choker = s.choker := rfl
@[simp] theorem onPower_fabric (f : Power → Power) (s : State) : (onPower f s).fabric = s.fabric := rfl
@[simp] theorem onPower_landing (f : Power → Power) (s : State) : (onPower f s).landing = s.landing := rfl
@[simp] theorem onPower_channels (f : Power → Power) (s : State) : (onPower f s).channels = s.channels := rfl
@[simp] theorem onPower_loupe (f : Power → Power) (s : State) : (onPower f s).loupe = s.loupe := rfl
@[simp] theorem onPower_hallmark (f : Power → Power) (s : State) : (onPower f s).hallmark = s.hallmark := rfl
@[simp] theorem onPower_cruise (f : Power → Power) (s : State) : (onPower f s).cruise = s.cruise := rfl
@[simp] theorem onPower_deck (f : Power → Power) (s : State) : (onPower f s).deck = s.deck := rfl
@[simp] theorem onPower_skidder (f : Power → Power) (s : State) : (onPower f s).skidder = s.skidder := rfl
@[simp] theorem onPower_scaler (f : Power → Power) (s : State) : (onPower f s).scaler = s.scaler := rfl
@[simp] theorem onPower_apportion (f : Power → Power) (s : State) : (onPower f s).apportion = s.apportion := rfl
@[simp] theorem onPower_mem (f : Power → Power) (s : State) : (onPower f s).mem = s.mem := rfl
@[simp] theorem onPower_issued (f : Power → Power) (s : State) : (onPower f s).issued = s.issued := rfl
@[simp] theorem onPower_freeCount (f : Power → Power) (s : State) : (onPower f s).freeCount = s.freeCount := rfl

/-! ## onHallmark -/

@[simp] theorem onHallmark_pending (f : Hallmark → Hallmark) (s : State) : (onHallmark f s).pending = s.pending := rfl
@[simp] theorem onHallmark_time (f : Hallmark → Hallmark) (s : State) : (onHallmark f s).time = s.time := rfl
@[simp] theorem onHallmark_power (f : Hallmark → Hallmark) (s : State) : (onHallmark f s).power = s.power := rfl
@[simp] theorem onHallmark_mbx (f : Hallmark → Hallmark) (s : State) : (onHallmark f s).mbx = s.mbx := rfl
@[simp] theorem onHallmark_sessions (f : Hallmark → Hallmark) (s : State) : (onHallmark f s).sessions = s.sessions := rfl
@[simp] theorem onHallmark_nextSession (f : Hallmark → Hallmark) (s : State) : (onHallmark f s).nextSession = s.nextSession := rfl
@[simp] theorem onHallmark_partEvents (f : Hallmark → Hallmark) (s : State) : (onHallmark f s).partEvents = s.partEvents := rfl
@[simp] theorem onHallmark_operatorEvents (f : Hallmark → Hallmark) (s : State) : (onHallmark f s).operatorEvents = s.operatorEvents := rfl
@[simp] theorem onHallmark_sidebandEvents (f : Hallmark → Hallmark) (s : State) : (onHallmark f s).sidebandEvents = s.sidebandEvents := rfl
@[simp] theorem onHallmark_i3cSignalled (f : Hallmark → Hallmark) (s : State) : (onHallmark f s).i3cSignalled = s.i3cSignalled := rfl
@[simp] theorem onHallmark_i3cResponses (f : Hallmark → Hallmark) (s : State) : (onHallmark f s).i3cResponses = s.i3cResponses := rfl
@[simp] theorem onHallmark_log (f : Hallmark → Hallmark) (s : State) : (onHallmark f s).log = s.log := rfl
@[simp] theorem onHallmark_logSeq (f : Hallmark → Hallmark) (s : State) : (onHallmark f s).logSeq = s.logSeq := rfl
@[simp] theorem onHallmark_jobs (f : Hallmark → Hallmark) (s : State) : (onHallmark f s).jobs = s.jobs := rfl
@[simp] theorem onHallmark_parts (f : Hallmark → Hallmark) (s : State) : (onHallmark f s).parts = s.parts := rfl
@[simp] theorem onHallmark_groves (f : Hallmark → Hallmark) (s : State) : (onHallmark f s).groves = s.groves := rfl
@[simp] theorem onHallmark_runs (f : Hallmark → Hallmark) (s : State) : (onHallmark f s).runs = s.runs := rfl
@[simp] theorem onHallmark_nextRun (f : Hallmark → Hallmark) (s : State) : (onHallmark f s).nextRun = s.nextRun := rfl
@[simp] theorem onHallmark_pave (f : Hallmark → Hallmark) (s : State) : (onHallmark f s).pave = s.pave := rfl
@[simp] theorem onHallmark_choker (f : Hallmark → Hallmark) (s : State) : (onHallmark f s).choker = s.choker := rfl
@[simp] theorem onHallmark_fabric (f : Hallmark → Hallmark) (s : State) : (onHallmark f s).fabric = s.fabric := rfl
@[simp] theorem onHallmark_landing (f : Hallmark → Hallmark) (s : State) : (onHallmark f s).landing = s.landing := rfl
@[simp] theorem onHallmark_channels (f : Hallmark → Hallmark) (s : State) : (onHallmark f s).channels = s.channels := rfl
@[simp] theorem onHallmark_loupe (f : Hallmark → Hallmark) (s : State) : (onHallmark f s).loupe = s.loupe := rfl
@[simp] theorem onHallmark_hallmark (f : Hallmark → Hallmark) (s : State) : (onHallmark f s).hallmark = f s.hallmark := rfl
@[simp] theorem onHallmark_cruise (f : Hallmark → Hallmark) (s : State) : (onHallmark f s).cruise = s.cruise := rfl
@[simp] theorem onHallmark_deck (f : Hallmark → Hallmark) (s : State) : (onHallmark f s).deck = s.deck := rfl
@[simp] theorem onHallmark_skidder (f : Hallmark → Hallmark) (s : State) : (onHallmark f s).skidder = s.skidder := rfl
@[simp] theorem onHallmark_scaler (f : Hallmark → Hallmark) (s : State) : (onHallmark f s).scaler = s.scaler := rfl
@[simp] theorem onHallmark_apportion (f : Hallmark → Hallmark) (s : State) : (onHallmark f s).apportion = s.apportion := rfl
@[simp] theorem onHallmark_mem (f : Hallmark → Hallmark) (s : State) : (onHallmark f s).mem = s.mem := rfl
@[simp] theorem onHallmark_issued (f : Hallmark → Hallmark) (s : State) : (onHallmark f s).issued = s.issued := rfl
@[simp] theorem onHallmark_freeCount (f : Hallmark → Hallmark) (s : State) : (onHallmark f s).freeCount = s.freeCount := rfl

/-! ## onScaler -/

@[simp] theorem onScaler_pending (f : Scaler → Scaler) (s : State) : (onScaler f s).pending = s.pending := rfl
@[simp] theorem onScaler_time (f : Scaler → Scaler) (s : State) : (onScaler f s).time = s.time := rfl
@[simp] theorem onScaler_power (f : Scaler → Scaler) (s : State) : (onScaler f s).power = s.power := rfl
@[simp] theorem onScaler_mbx (f : Scaler → Scaler) (s : State) : (onScaler f s).mbx = s.mbx := rfl
@[simp] theorem onScaler_sessions (f : Scaler → Scaler) (s : State) : (onScaler f s).sessions = s.sessions := rfl
@[simp] theorem onScaler_nextSession (f : Scaler → Scaler) (s : State) : (onScaler f s).nextSession = s.nextSession := rfl
@[simp] theorem onScaler_partEvents (f : Scaler → Scaler) (s : State) : (onScaler f s).partEvents = s.partEvents := rfl
@[simp] theorem onScaler_operatorEvents (f : Scaler → Scaler) (s : State) : (onScaler f s).operatorEvents = s.operatorEvents := rfl
@[simp] theorem onScaler_sidebandEvents (f : Scaler → Scaler) (s : State) : (onScaler f s).sidebandEvents = s.sidebandEvents := rfl
@[simp] theorem onScaler_i3cSignalled (f : Scaler → Scaler) (s : State) : (onScaler f s).i3cSignalled = s.i3cSignalled := rfl
@[simp] theorem onScaler_i3cResponses (f : Scaler → Scaler) (s : State) : (onScaler f s).i3cResponses = s.i3cResponses := rfl
@[simp] theorem onScaler_log (f : Scaler → Scaler) (s : State) : (onScaler f s).log = s.log := rfl
@[simp] theorem onScaler_logSeq (f : Scaler → Scaler) (s : State) : (onScaler f s).logSeq = s.logSeq := rfl
@[simp] theorem onScaler_jobs (f : Scaler → Scaler) (s : State) : (onScaler f s).jobs = s.jobs := rfl
@[simp] theorem onScaler_parts (f : Scaler → Scaler) (s : State) : (onScaler f s).parts = s.parts := rfl
@[simp] theorem onScaler_groves (f : Scaler → Scaler) (s : State) : (onScaler f s).groves = s.groves := rfl
@[simp] theorem onScaler_runs (f : Scaler → Scaler) (s : State) : (onScaler f s).runs = s.runs := rfl
@[simp] theorem onScaler_nextRun (f : Scaler → Scaler) (s : State) : (onScaler f s).nextRun = s.nextRun := rfl
@[simp] theorem onScaler_pave (f : Scaler → Scaler) (s : State) : (onScaler f s).pave = s.pave := rfl
@[simp] theorem onScaler_choker (f : Scaler → Scaler) (s : State) : (onScaler f s).choker = s.choker := rfl
@[simp] theorem onScaler_fabric (f : Scaler → Scaler) (s : State) : (onScaler f s).fabric = s.fabric := rfl
@[simp] theorem onScaler_landing (f : Scaler → Scaler) (s : State) : (onScaler f s).landing = s.landing := rfl
@[simp] theorem onScaler_channels (f : Scaler → Scaler) (s : State) : (onScaler f s).channels = s.channels := rfl
@[simp] theorem onScaler_loupe (f : Scaler → Scaler) (s : State) : (onScaler f s).loupe = s.loupe := rfl
@[simp] theorem onScaler_hallmark (f : Scaler → Scaler) (s : State) : (onScaler f s).hallmark = s.hallmark := rfl
@[simp] theorem onScaler_cruise (f : Scaler → Scaler) (s : State) : (onScaler f s).cruise = s.cruise := rfl
@[simp] theorem onScaler_deck (f : Scaler → Scaler) (s : State) : (onScaler f s).deck = s.deck := rfl
@[simp] theorem onScaler_skidder (f : Scaler → Scaler) (s : State) : (onScaler f s).skidder = s.skidder := rfl
@[simp] theorem onScaler_scaler (f : Scaler → Scaler) (s : State) : (onScaler f s).scaler = f s.scaler := rfl
@[simp] theorem onScaler_apportion (f : Scaler → Scaler) (s : State) : (onScaler f s).apportion = s.apportion := rfl
@[simp] theorem onScaler_mem (f : Scaler → Scaler) (s : State) : (onScaler f s).mem = s.mem := rfl
@[simp] theorem onScaler_issued (f : Scaler → Scaler) (s : State) : (onScaler f s).issued = s.issued := rfl
@[simp] theorem onScaler_freeCount (f : Scaler → Scaler) (s : State) : (onScaler f s).freeCount = s.freeCount := rfl

/-! ## onShaper -/

@[simp] theorem onShaper_pending (i : Nat) (f : Shaper → Shaper) (s : State) : (onShaper i f s).pending = s.pending := rfl
@[simp] theorem onShaper_time (i : Nat) (f : Shaper → Shaper) (s : State) : (onShaper i f s).time = s.time := rfl
@[simp] theorem onShaper_power (i : Nat) (f : Shaper → Shaper) (s : State) : (onShaper i f s).power = s.power := rfl
@[simp] theorem onShaper_mbx (i : Nat) (f : Shaper → Shaper) (s : State) : (onShaper i f s).mbx = s.mbx := rfl
@[simp] theorem onShaper_sessions (i : Nat) (f : Shaper → Shaper) (s : State) : (onShaper i f s).sessions = s.sessions := rfl
@[simp] theorem onShaper_nextSession (i : Nat) (f : Shaper → Shaper) (s : State) : (onShaper i f s).nextSession = s.nextSession := rfl
@[simp] theorem onShaper_partEvents (i : Nat) (f : Shaper → Shaper) (s : State) : (onShaper i f s).partEvents = s.partEvents := rfl
@[simp] theorem onShaper_operatorEvents (i : Nat) (f : Shaper → Shaper) (s : State) : (onShaper i f s).operatorEvents = s.operatorEvents := rfl
@[simp] theorem onShaper_sidebandEvents (i : Nat) (f : Shaper → Shaper) (s : State) : (onShaper i f s).sidebandEvents = s.sidebandEvents := rfl
@[simp] theorem onShaper_i3cSignalled (i : Nat) (f : Shaper → Shaper) (s : State) : (onShaper i f s).i3cSignalled = s.i3cSignalled := rfl
@[simp] theorem onShaper_i3cResponses (i : Nat) (f : Shaper → Shaper) (s : State) : (onShaper i f s).i3cResponses = s.i3cResponses := rfl
@[simp] theorem onShaper_log (i : Nat) (f : Shaper → Shaper) (s : State) : (onShaper i f s).log = s.log := rfl
@[simp] theorem onShaper_logSeq (i : Nat) (f : Shaper → Shaper) (s : State) : (onShaper i f s).logSeq = s.logSeq := rfl
@[simp] theorem onShaper_jobs (i : Nat) (f : Shaper → Shaper) (s : State) : (onShaper i f s).jobs = s.jobs := rfl
@[simp] theorem onShaper_parts (i : Nat) (f : Shaper → Shaper) (s : State) : (onShaper i f s).parts = s.parts := rfl
@[simp] theorem onShaper_groves (i : Nat) (f : Shaper → Shaper) (s : State) : (onShaper i f s).groves = s.groves := rfl
@[simp] theorem onShaper_runs (i : Nat) (f : Shaper → Shaper) (s : State) : (onShaper i f s).runs = s.runs := rfl
@[simp] theorem onShaper_nextRun (i : Nat) (f : Shaper → Shaper) (s : State) : (onShaper i f s).nextRun = s.nextRun := rfl
@[simp] theorem onShaper_pave (i : Nat) (f : Shaper → Shaper) (s : State) : (onShaper i f s).pave = s.pave := rfl
@[simp] theorem onShaper_choker (i : Nat) (f : Shaper → Shaper) (s : State) : (onShaper i f s).choker = { s.choker with shapers := s.choker.shapers.modify i f } := rfl
@[simp] theorem onShaper_fabric (i : Nat) (f : Shaper → Shaper) (s : State) : (onShaper i f s).fabric = s.fabric := rfl
@[simp] theorem onShaper_landing (i : Nat) (f : Shaper → Shaper) (s : State) : (onShaper i f s).landing = s.landing := rfl
@[simp] theorem onShaper_channels (i : Nat) (f : Shaper → Shaper) (s : State) : (onShaper i f s).channels = s.channels := rfl
@[simp] theorem onShaper_loupe (i : Nat) (f : Shaper → Shaper) (s : State) : (onShaper i f s).loupe = s.loupe := rfl
@[simp] theorem onShaper_hallmark (i : Nat) (f : Shaper → Shaper) (s : State) : (onShaper i f s).hallmark = s.hallmark := rfl
@[simp] theorem onShaper_cruise (i : Nat) (f : Shaper → Shaper) (s : State) : (onShaper i f s).cruise = s.cruise := rfl
@[simp] theorem onShaper_deck (i : Nat) (f : Shaper → Shaper) (s : State) : (onShaper i f s).deck = s.deck := rfl
@[simp] theorem onShaper_skidder (i : Nat) (f : Shaper → Shaper) (s : State) : (onShaper i f s).skidder = s.skidder := rfl
@[simp] theorem onShaper_scaler (i : Nat) (f : Shaper → Shaper) (s : State) : (onShaper i f s).scaler = s.scaler := rfl
@[simp] theorem onShaper_apportion (i : Nat) (f : Shaper → Shaper) (s : State) : (onShaper i f s).apportion = s.apportion := rfl
@[simp] theorem onShaper_mem (i : Nat) (f : Shaper → Shaper) (s : State) : (onShaper i f s).mem = s.mem := rfl
@[simp] theorem onShaper_issued (i : Nat) (f : Shaper → Shaper) (s : State) : (onShaper i f s).issued = s.issued := rfl
@[simp] theorem onShaper_freeCount (i : Nat) (f : Shaper → Shaper) (s : State) : (onShaper i f s).freeCount = s.freeCount := rfl

/-! ## onPolicer -/

@[simp] theorem onPolicer_pending (j : Nat) (f : Policer → Policer) (s : State) : (onPolicer j f s).pending = s.pending := rfl
@[simp] theorem onPolicer_time (j : Nat) (f : Policer → Policer) (s : State) : (onPolicer j f s).time = s.time := rfl
@[simp] theorem onPolicer_power (j : Nat) (f : Policer → Policer) (s : State) : (onPolicer j f s).power = s.power := rfl
@[simp] theorem onPolicer_mbx (j : Nat) (f : Policer → Policer) (s : State) : (onPolicer j f s).mbx = s.mbx := rfl
@[simp] theorem onPolicer_sessions (j : Nat) (f : Policer → Policer) (s : State) : (onPolicer j f s).sessions = s.sessions := rfl
@[simp] theorem onPolicer_nextSession (j : Nat) (f : Policer → Policer) (s : State) : (onPolicer j f s).nextSession = s.nextSession := rfl
@[simp] theorem onPolicer_partEvents (j : Nat) (f : Policer → Policer) (s : State) : (onPolicer j f s).partEvents = s.partEvents := rfl
@[simp] theorem onPolicer_operatorEvents (j : Nat) (f : Policer → Policer) (s : State) : (onPolicer j f s).operatorEvents = s.operatorEvents := rfl
@[simp] theorem onPolicer_sidebandEvents (j : Nat) (f : Policer → Policer) (s : State) : (onPolicer j f s).sidebandEvents = s.sidebandEvents := rfl
@[simp] theorem onPolicer_i3cSignalled (j : Nat) (f : Policer → Policer) (s : State) : (onPolicer j f s).i3cSignalled = s.i3cSignalled := rfl
@[simp] theorem onPolicer_i3cResponses (j : Nat) (f : Policer → Policer) (s : State) : (onPolicer j f s).i3cResponses = s.i3cResponses := rfl
@[simp] theorem onPolicer_log (j : Nat) (f : Policer → Policer) (s : State) : (onPolicer j f s).log = s.log := rfl
@[simp] theorem onPolicer_logSeq (j : Nat) (f : Policer → Policer) (s : State) : (onPolicer j f s).logSeq = s.logSeq := rfl
@[simp] theorem onPolicer_jobs (j : Nat) (f : Policer → Policer) (s : State) : (onPolicer j f s).jobs = s.jobs := rfl
@[simp] theorem onPolicer_parts (j : Nat) (f : Policer → Policer) (s : State) : (onPolicer j f s).parts = s.parts := rfl
@[simp] theorem onPolicer_groves (j : Nat) (f : Policer → Policer) (s : State) : (onPolicer j f s).groves = s.groves := rfl
@[simp] theorem onPolicer_runs (j : Nat) (f : Policer → Policer) (s : State) : (onPolicer j f s).runs = s.runs := rfl
@[simp] theorem onPolicer_nextRun (j : Nat) (f : Policer → Policer) (s : State) : (onPolicer j f s).nextRun = s.nextRun := rfl
@[simp] theorem onPolicer_pave (j : Nat) (f : Policer → Policer) (s : State) : (onPolicer j f s).pave = s.pave := rfl
@[simp] theorem onPolicer_choker (j : Nat) (f : Policer → Policer) (s : State) : (onPolicer j f s).choker = { s.choker with policers := s.choker.policers.modify j f } := rfl
@[simp] theorem onPolicer_fabric (j : Nat) (f : Policer → Policer) (s : State) : (onPolicer j f s).fabric = s.fabric := rfl
@[simp] theorem onPolicer_landing (j : Nat) (f : Policer → Policer) (s : State) : (onPolicer j f s).landing = s.landing := rfl
@[simp] theorem onPolicer_channels (j : Nat) (f : Policer → Policer) (s : State) : (onPolicer j f s).channels = s.channels := rfl
@[simp] theorem onPolicer_loupe (j : Nat) (f : Policer → Policer) (s : State) : (onPolicer j f s).loupe = s.loupe := rfl
@[simp] theorem onPolicer_hallmark (j : Nat) (f : Policer → Policer) (s : State) : (onPolicer j f s).hallmark = s.hallmark := rfl
@[simp] theorem onPolicer_cruise (j : Nat) (f : Policer → Policer) (s : State) : (onPolicer j f s).cruise = s.cruise := rfl
@[simp] theorem onPolicer_deck (j : Nat) (f : Policer → Policer) (s : State) : (onPolicer j f s).deck = s.deck := rfl
@[simp] theorem onPolicer_skidder (j : Nat) (f : Policer → Policer) (s : State) : (onPolicer j f s).skidder = s.skidder := rfl
@[simp] theorem onPolicer_scaler (j : Nat) (f : Policer → Policer) (s : State) : (onPolicer j f s).scaler = s.scaler := rfl
@[simp] theorem onPolicer_apportion (j : Nat) (f : Policer → Policer) (s : State) : (onPolicer j f s).apportion = s.apportion := rfl
@[simp] theorem onPolicer_mem (j : Nat) (f : Policer → Policer) (s : State) : (onPolicer j f s).mem = s.mem := rfl
@[simp] theorem onPolicer_issued (j : Nat) (f : Policer → Policer) (s : State) : (onPolicer j f s).issued = s.issued := rfl
@[simp] theorem onPolicer_freeCount (j : Nat) (f : Policer → Policer) (s : State) : (onPolicer j f s).freeCount = s.freeCount := rfl

/-! ## onRun -/

@[simp] theorem onRun_pending (i : Nat) (f : CanopyRun → CanopyRun) (s : State) : (onRun i f s).pending = s.pending := rfl
@[simp] theorem onRun_time (i : Nat) (f : CanopyRun → CanopyRun) (s : State) : (onRun i f s).time = s.time := rfl
@[simp] theorem onRun_power (i : Nat) (f : CanopyRun → CanopyRun) (s : State) : (onRun i f s).power = s.power := rfl
@[simp] theorem onRun_mbx (i : Nat) (f : CanopyRun → CanopyRun) (s : State) : (onRun i f s).mbx = s.mbx := rfl
@[simp] theorem onRun_sessions (i : Nat) (f : CanopyRun → CanopyRun) (s : State) : (onRun i f s).sessions = s.sessions := rfl
@[simp] theorem onRun_nextSession (i : Nat) (f : CanopyRun → CanopyRun) (s : State) : (onRun i f s).nextSession = s.nextSession := rfl
@[simp] theorem onRun_partEvents (i : Nat) (f : CanopyRun → CanopyRun) (s : State) : (onRun i f s).partEvents = s.partEvents := rfl
@[simp] theorem onRun_operatorEvents (i : Nat) (f : CanopyRun → CanopyRun) (s : State) : (onRun i f s).operatorEvents = s.operatorEvents := rfl
@[simp] theorem onRun_sidebandEvents (i : Nat) (f : CanopyRun → CanopyRun) (s : State) : (onRun i f s).sidebandEvents = s.sidebandEvents := rfl
@[simp] theorem onRun_i3cSignalled (i : Nat) (f : CanopyRun → CanopyRun) (s : State) : (onRun i f s).i3cSignalled = s.i3cSignalled := rfl
@[simp] theorem onRun_i3cResponses (i : Nat) (f : CanopyRun → CanopyRun) (s : State) : (onRun i f s).i3cResponses = s.i3cResponses := rfl
@[simp] theorem onRun_log (i : Nat) (f : CanopyRun → CanopyRun) (s : State) : (onRun i f s).log = s.log := rfl
@[simp] theorem onRun_logSeq (i : Nat) (f : CanopyRun → CanopyRun) (s : State) : (onRun i f s).logSeq = s.logSeq := rfl
@[simp] theorem onRun_jobs (i : Nat) (f : CanopyRun → CanopyRun) (s : State) : (onRun i f s).jobs = s.jobs := rfl
@[simp] theorem onRun_parts (i : Nat) (f : CanopyRun → CanopyRun) (s : State) : (onRun i f s).parts = s.parts := rfl
@[simp] theorem onRun_groves (i : Nat) (f : CanopyRun → CanopyRun) (s : State) : (onRun i f s).groves = s.groves := rfl
@[simp] theorem onRun_runs (i : Nat) (f : CanopyRun → CanopyRun) (s : State) : (onRun i f s).runs = mapWhere (fun r => decide (r.id = i)) f s.runs := rfl
@[simp] theorem onRun_nextRun (i : Nat) (f : CanopyRun → CanopyRun) (s : State) : (onRun i f s).nextRun = s.nextRun := rfl
@[simp] theorem onRun_pave (i : Nat) (f : CanopyRun → CanopyRun) (s : State) : (onRun i f s).pave = s.pave := rfl
@[simp] theorem onRun_choker (i : Nat) (f : CanopyRun → CanopyRun) (s : State) : (onRun i f s).choker = s.choker := rfl
@[simp] theorem onRun_fabric (i : Nat) (f : CanopyRun → CanopyRun) (s : State) : (onRun i f s).fabric = s.fabric := rfl
@[simp] theorem onRun_landing (i : Nat) (f : CanopyRun → CanopyRun) (s : State) : (onRun i f s).landing = s.landing := rfl
@[simp] theorem onRun_channels (i : Nat) (f : CanopyRun → CanopyRun) (s : State) : (onRun i f s).channels = s.channels := rfl
@[simp] theorem onRun_loupe (i : Nat) (f : CanopyRun → CanopyRun) (s : State) : (onRun i f s).loupe = s.loupe := rfl
@[simp] theorem onRun_hallmark (i : Nat) (f : CanopyRun → CanopyRun) (s : State) : (onRun i f s).hallmark = s.hallmark := rfl
@[simp] theorem onRun_cruise (i : Nat) (f : CanopyRun → CanopyRun) (s : State) : (onRun i f s).cruise = s.cruise := rfl
@[simp] theorem onRun_deck (i : Nat) (f : CanopyRun → CanopyRun) (s : State) : (onRun i f s).deck = s.deck := rfl
@[simp] theorem onRun_skidder (i : Nat) (f : CanopyRun → CanopyRun) (s : State) : (onRun i f s).skidder = s.skidder := rfl
@[simp] theorem onRun_scaler (i : Nat) (f : CanopyRun → CanopyRun) (s : State) : (onRun i f s).scaler = s.scaler := rfl
@[simp] theorem onRun_apportion (i : Nat) (f : CanopyRun → CanopyRun) (s : State) : (onRun i f s).apportion = s.apportion := rfl
@[simp] theorem onRun_mem (i : Nat) (f : CanopyRun → CanopyRun) (s : State) : (onRun i f s).mem = s.mem := rfl
@[simp] theorem onRun_issued (i : Nat) (f : CanopyRun → CanopyRun) (s : State) : (onRun i f s).issued = s.issued := rfl
@[simp] theorem onRun_freeCount (i : Nat) (f : CanopyRun → CanopyRun) (s : State) : (onRun i f s).freeCount = s.freeCount := rfl

/-! ## writeMem -/

@[simp] theorem writeMem_pending (a : Nat) (bs : List Byte) (s : State) : (writeMem a bs s).pending = s.pending := rfl
@[simp] theorem writeMem_time (a : Nat) (bs : List Byte) (s : State) : (writeMem a bs s).time = s.time := rfl
@[simp] theorem writeMem_power (a : Nat) (bs : List Byte) (s : State) : (writeMem a bs s).power = s.power := rfl
@[simp] theorem writeMem_mbx (a : Nat) (bs : List Byte) (s : State) : (writeMem a bs s).mbx = s.mbx := rfl
@[simp] theorem writeMem_sessions (a : Nat) (bs : List Byte) (s : State) : (writeMem a bs s).sessions = s.sessions := rfl
@[simp] theorem writeMem_nextSession (a : Nat) (bs : List Byte) (s : State) : (writeMem a bs s).nextSession = s.nextSession := rfl
@[simp] theorem writeMem_partEvents (a : Nat) (bs : List Byte) (s : State) : (writeMem a bs s).partEvents = s.partEvents := rfl
@[simp] theorem writeMem_operatorEvents (a : Nat) (bs : List Byte) (s : State) : (writeMem a bs s).operatorEvents = s.operatorEvents := rfl
@[simp] theorem writeMem_sidebandEvents (a : Nat) (bs : List Byte) (s : State) : (writeMem a bs s).sidebandEvents = s.sidebandEvents := rfl
@[simp] theorem writeMem_i3cSignalled (a : Nat) (bs : List Byte) (s : State) : (writeMem a bs s).i3cSignalled = s.i3cSignalled := rfl
@[simp] theorem writeMem_i3cResponses (a : Nat) (bs : List Byte) (s : State) : (writeMem a bs s).i3cResponses = s.i3cResponses := rfl
@[simp] theorem writeMem_log (a : Nat) (bs : List Byte) (s : State) : (writeMem a bs s).log = s.log := rfl
@[simp] theorem writeMem_logSeq (a : Nat) (bs : List Byte) (s : State) : (writeMem a bs s).logSeq = s.logSeq := rfl
@[simp] theorem writeMem_jobs (a : Nat) (bs : List Byte) (s : State) : (writeMem a bs s).jobs = s.jobs := rfl
@[simp] theorem writeMem_parts (a : Nat) (bs : List Byte) (s : State) : (writeMem a bs s).parts = s.parts := rfl
@[simp] theorem writeMem_groves (a : Nat) (bs : List Byte) (s : State) : (writeMem a bs s).groves = s.groves := rfl
@[simp] theorem writeMem_runs (a : Nat) (bs : List Byte) (s : State) : (writeMem a bs s).runs = s.runs := rfl
@[simp] theorem writeMem_nextRun (a : Nat) (bs : List Byte) (s : State) : (writeMem a bs s).nextRun = s.nextRun := rfl
@[simp] theorem writeMem_pave (a : Nat) (bs : List Byte) (s : State) : (writeMem a bs s).pave = s.pave := rfl
@[simp] theorem writeMem_choker (a : Nat) (bs : List Byte) (s : State) : (writeMem a bs s).choker = s.choker := rfl
@[simp] theorem writeMem_fabric (a : Nat) (bs : List Byte) (s : State) : (writeMem a bs s).fabric = s.fabric := rfl
@[simp] theorem writeMem_landing (a : Nat) (bs : List Byte) (s : State) : (writeMem a bs s).landing = s.landing := rfl
@[simp] theorem writeMem_channels (a : Nat) (bs : List Byte) (s : State) : (writeMem a bs s).channels = s.channels := rfl
@[simp] theorem writeMem_loupe (a : Nat) (bs : List Byte) (s : State) : (writeMem a bs s).loupe = s.loupe := rfl
@[simp] theorem writeMem_hallmark (a : Nat) (bs : List Byte) (s : State) : (writeMem a bs s).hallmark = s.hallmark := rfl
@[simp] theorem writeMem_cruise (a : Nat) (bs : List Byte) (s : State) : (writeMem a bs s).cruise = s.cruise := rfl
@[simp] theorem writeMem_deck (a : Nat) (bs : List Byte) (s : State) : (writeMem a bs s).deck = s.deck := rfl
@[simp] theorem writeMem_skidder (a : Nat) (bs : List Byte) (s : State) : (writeMem a bs s).skidder = s.skidder := rfl
@[simp] theorem writeMem_scaler (a : Nat) (bs : List Byte) (s : State) : (writeMem a bs s).scaler = s.scaler := rfl
@[simp] theorem writeMem_apportion (a : Nat) (bs : List Byte) (s : State) : (writeMem a bs s).apportion = s.apportion := rfl
@[simp] theorem writeMem_mem (a : Nat) (bs : List Byte) (s : State) : (writeMem a bs s).mem = cellsWriteBytes s.mem a bs := rfl
@[simp] theorem writeMem_issued (a : Nat) (bs : List Byte) (s : State) : (writeMem a bs s).issued = s.issued := rfl
@[simp] theorem writeMem_freeCount (a : Nat) (bs : List Byte) (s : State) : (writeMem a bs s).freeCount = s.freeCount := rfl

/-! ## emit -/

@[simp] theorem emit_pending (o : Out) (s : State) : (emit o s).pending = s.pending := rfl
@[simp] theorem emit_time (o : Out) (s : State) : (emit o s).time = s.time := rfl
@[simp] theorem emit_power (o : Out) (s : State) : (emit o s).power = s.power := rfl
@[simp] theorem emit_mbx (o : Out) (s : State) : (emit o s).mbx = s.mbx := rfl
@[simp] theorem emit_sessions (o : Out) (s : State) : (emit o s).sessions = s.sessions := rfl
@[simp] theorem emit_nextSession (o : Out) (s : State) : (emit o s).nextSession = s.nextSession := rfl
@[simp] theorem emit_partEvents (o : Out) (s : State) : (emit o s).partEvents = s.partEvents := rfl
@[simp] theorem emit_operatorEvents (o : Out) (s : State) : (emit o s).operatorEvents = s.operatorEvents := rfl
@[simp] theorem emit_sidebandEvents (o : Out) (s : State) : (emit o s).sidebandEvents = s.sidebandEvents := rfl
@[simp] theorem emit_i3cSignalled (o : Out) (s : State) : (emit o s).i3cSignalled = s.i3cSignalled := rfl
@[simp] theorem emit_i3cResponses (o : Out) (s : State) : (emit o s).i3cResponses = s.i3cResponses := rfl
@[simp] theorem emit_log (o : Out) (s : State) : (emit o s).log = s.log := rfl
@[simp] theorem emit_logSeq (o : Out) (s : State) : (emit o s).logSeq = s.logSeq := rfl
@[simp] theorem emit_jobs (o : Out) (s : State) : (emit o s).jobs = s.jobs := rfl
@[simp] theorem emit_parts (o : Out) (s : State) : (emit o s).parts = s.parts := rfl
@[simp] theorem emit_groves (o : Out) (s : State) : (emit o s).groves = s.groves := rfl
@[simp] theorem emit_runs (o : Out) (s : State) : (emit o s).runs = s.runs := rfl
@[simp] theorem emit_nextRun (o : Out) (s : State) : (emit o s).nextRun = s.nextRun := rfl
@[simp] theorem emit_pave (o : Out) (s : State) : (emit o s).pave = s.pave := rfl
@[simp] theorem emit_choker (o : Out) (s : State) : (emit o s).choker = s.choker := rfl
@[simp] theorem emit_fabric (o : Out) (s : State) : (emit o s).fabric = s.fabric := rfl
@[simp] theorem emit_landing (o : Out) (s : State) : (emit o s).landing = s.landing := rfl
@[simp] theorem emit_channels (o : Out) (s : State) : (emit o s).channels = s.channels := rfl
@[simp] theorem emit_loupe (o : Out) (s : State) : (emit o s).loupe = s.loupe := rfl
@[simp] theorem emit_hallmark (o : Out) (s : State) : (emit o s).hallmark = s.hallmark := rfl
@[simp] theorem emit_cruise (o : Out) (s : State) : (emit o s).cruise = s.cruise := rfl
@[simp] theorem emit_deck (o : Out) (s : State) : (emit o s).deck = s.deck := rfl
@[simp] theorem emit_skidder (o : Out) (s : State) : (emit o s).skidder = s.skidder := rfl
@[simp] theorem emit_scaler (o : Out) (s : State) : (emit o s).scaler = s.scaler := rfl
@[simp] theorem emit_apportion (o : Out) (s : State) : (emit o s).apportion = s.apportion := rfl
@[simp] theorem emit_mem (o : Out) (s : State) : (emit o s).mem = s.mem := rfl
@[simp] theorem emit_issued (o : Out) (s : State) : (emit o s).issued = s.issued ++ [o] := rfl
@[simp] theorem emit_freeCount (o : Out) (s : State) : (emit o s).freeCount = s.freeCount := rfl

/-! ## bumpFree -/

@[simp] theorem bumpFree_pending (s : State) : (bumpFree s).pending = s.pending := rfl
@[simp] theorem bumpFree_time (s : State) : (bumpFree s).time = s.time := rfl
@[simp] theorem bumpFree_power (s : State) : (bumpFree s).power = s.power := rfl
@[simp] theorem bumpFree_mbx (s : State) : (bumpFree s).mbx = s.mbx := rfl
@[simp] theorem bumpFree_sessions (s : State) : (bumpFree s).sessions = s.sessions := rfl
@[simp] theorem bumpFree_nextSession (s : State) : (bumpFree s).nextSession = s.nextSession := rfl
@[simp] theorem bumpFree_partEvents (s : State) : (bumpFree s).partEvents = s.partEvents := rfl
@[simp] theorem bumpFree_operatorEvents (s : State) : (bumpFree s).operatorEvents = s.operatorEvents := rfl
@[simp] theorem bumpFree_sidebandEvents (s : State) : (bumpFree s).sidebandEvents = s.sidebandEvents := rfl
@[simp] theorem bumpFree_i3cSignalled (s : State) : (bumpFree s).i3cSignalled = s.i3cSignalled := rfl
@[simp] theorem bumpFree_i3cResponses (s : State) : (bumpFree s).i3cResponses = s.i3cResponses := rfl
@[simp] theorem bumpFree_log (s : State) : (bumpFree s).log = s.log := rfl
@[simp] theorem bumpFree_logSeq (s : State) : (bumpFree s).logSeq = s.logSeq := rfl
@[simp] theorem bumpFree_jobs (s : State) : (bumpFree s).jobs = s.jobs := rfl
@[simp] theorem bumpFree_parts (s : State) : (bumpFree s).parts = s.parts := rfl
@[simp] theorem bumpFree_groves (s : State) : (bumpFree s).groves = s.groves := rfl
@[simp] theorem bumpFree_runs (s : State) : (bumpFree s).runs = s.runs := rfl
@[simp] theorem bumpFree_nextRun (s : State) : (bumpFree s).nextRun = s.nextRun := rfl
@[simp] theorem bumpFree_pave (s : State) : (bumpFree s).pave = s.pave := rfl
@[simp] theorem bumpFree_choker (s : State) : (bumpFree s).choker = s.choker := rfl
@[simp] theorem bumpFree_fabric (s : State) : (bumpFree s).fabric = s.fabric := rfl
@[simp] theorem bumpFree_landing (s : State) : (bumpFree s).landing = s.landing := rfl
@[simp] theorem bumpFree_channels (s : State) : (bumpFree s).channels = s.channels := rfl
@[simp] theorem bumpFree_loupe (s : State) : (bumpFree s).loupe = s.loupe := rfl
@[simp] theorem bumpFree_hallmark (s : State) : (bumpFree s).hallmark = s.hallmark := rfl
@[simp] theorem bumpFree_cruise (s : State) : (bumpFree s).cruise = s.cruise := rfl
@[simp] theorem bumpFree_deck (s : State) : (bumpFree s).deck = s.deck := rfl
@[simp] theorem bumpFree_skidder (s : State) : (bumpFree s).skidder = s.skidder := rfl
@[simp] theorem bumpFree_scaler (s : State) : (bumpFree s).scaler = s.scaler := rfl
@[simp] theorem bumpFree_apportion (s : State) : (bumpFree s).apportion = s.apportion := rfl
@[simp] theorem bumpFree_mem (s : State) : (bumpFree s).mem = s.mem := rfl
@[simp] theorem bumpFree_issued (s : State) : (bumpFree s).issued = s.issued := rfl
@[simp] theorem bumpFree_freeCount (s : State) : (bumpFree s).freeCount = s.freeCount + 1 := rfl

/-! ## bumpDraws -/

@[simp] theorem bumpDraws_pending (k : Nat) (s : State) : (bumpDraws k s).pending = s.pending := rfl
@[simp] theorem bumpDraws_time (k : Nat) (s : State) : (bumpDraws k s).time = s.time := rfl
@[simp] theorem bumpDraws_power (k : Nat) (s : State) : (bumpDraws k s).power = s.power := rfl
@[simp] theorem bumpDraws_mbx (k : Nat) (s : State) : (bumpDraws k s).mbx = s.mbx := rfl
@[simp] theorem bumpDraws_sessions (k : Nat) (s : State) : (bumpDraws k s).sessions = s.sessions := rfl
@[simp] theorem bumpDraws_nextSession (k : Nat) (s : State) : (bumpDraws k s).nextSession = s.nextSession := rfl
@[simp] theorem bumpDraws_partEvents (k : Nat) (s : State) : (bumpDraws k s).partEvents = s.partEvents := rfl
@[simp] theorem bumpDraws_operatorEvents (k : Nat) (s : State) : (bumpDraws k s).operatorEvents = s.operatorEvents := rfl
@[simp] theorem bumpDraws_sidebandEvents (k : Nat) (s : State) : (bumpDraws k s).sidebandEvents = s.sidebandEvents := rfl
@[simp] theorem bumpDraws_i3cSignalled (k : Nat) (s : State) : (bumpDraws k s).i3cSignalled = s.i3cSignalled := rfl
@[simp] theorem bumpDraws_i3cResponses (k : Nat) (s : State) : (bumpDraws k s).i3cResponses = s.i3cResponses := rfl
@[simp] theorem bumpDraws_log (k : Nat) (s : State) : (bumpDraws k s).log = s.log := rfl
@[simp] theorem bumpDraws_logSeq (k : Nat) (s : State) : (bumpDraws k s).logSeq = s.logSeq := rfl
@[simp] theorem bumpDraws_jobs (k : Nat) (s : State) : (bumpDraws k s).jobs = s.jobs := rfl
@[simp] theorem bumpDraws_parts (k : Nat) (s : State) : (bumpDraws k s).parts = s.parts := rfl
@[simp] theorem bumpDraws_groves (k : Nat) (s : State) : (bumpDraws k s).groves = s.groves := rfl
@[simp] theorem bumpDraws_runs (k : Nat) (s : State) : (bumpDraws k s).runs = s.runs := rfl
@[simp] theorem bumpDraws_nextRun (k : Nat) (s : State) : (bumpDraws k s).nextRun = s.nextRun := rfl
@[simp] theorem bumpDraws_pave (k : Nat) (s : State) : (bumpDraws k s).pave = s.pave := rfl
@[simp] theorem bumpDraws_choker (k : Nat) (s : State) : (bumpDraws k s).choker = s.choker := rfl
@[simp] theorem bumpDraws_fabric (k : Nat) (s : State) : (bumpDraws k s).fabric = s.fabric := rfl
@[simp] theorem bumpDraws_landing (k : Nat) (s : State) : (bumpDraws k s).landing = s.landing := rfl
@[simp] theorem bumpDraws_channels (k : Nat) (s : State) : (bumpDraws k s).channels = s.channels := rfl
@[simp] theorem bumpDraws_loupe (k : Nat) (s : State) : (bumpDraws k s).loupe = s.loupe := rfl
@[simp] theorem bumpDraws_hallmark (k : Nat) (s : State) : (bumpDraws k s).hallmark = { s.hallmark with draws := s.hallmark.draws + k } := rfl
@[simp] theorem bumpDraws_cruise (k : Nat) (s : State) : (bumpDraws k s).cruise = s.cruise := rfl
@[simp] theorem bumpDraws_deck (k : Nat) (s : State) : (bumpDraws k s).deck = s.deck := rfl
@[simp] theorem bumpDraws_skidder (k : Nat) (s : State) : (bumpDraws k s).skidder = s.skidder := rfl
@[simp] theorem bumpDraws_scaler (k : Nat) (s : State) : (bumpDraws k s).scaler = s.scaler := rfl
@[simp] theorem bumpDraws_apportion (k : Nat) (s : State) : (bumpDraws k s).apportion = s.apportion := rfl
@[simp] theorem bumpDraws_mem (k : Nat) (s : State) : (bumpDraws k s).mem = s.mem := rfl
@[simp] theorem bumpDraws_issued (k : Nat) (s : State) : (bumpDraws k s).issued = s.issued := rfl
@[simp] theorem bumpDraws_freeCount (k : Nat) (s : State) : (bumpDraws k s).freeCount = s.freeCount := rfl

/-! ## tallyWrite -/

@[simp] theorem tallyWrite_pending (s : State) : (tallyWrite s).pending = s.pending := rfl
@[simp] theorem tallyWrite_time (s : State) : (tallyWrite s).time = s.time := rfl
@[simp] theorem tallyWrite_power (s : State) : (tallyWrite s).power = s.power := rfl
@[simp] theorem tallyWrite_mbx (s : State) : (tallyWrite s).mbx = s.mbx := rfl
@[simp] theorem tallyWrite_sessions (s : State) : (tallyWrite s).sessions = s.sessions := rfl
@[simp] theorem tallyWrite_nextSession (s : State) : (tallyWrite s).nextSession = s.nextSession := rfl
@[simp] theorem tallyWrite_partEvents (s : State) : (tallyWrite s).partEvents = s.partEvents := rfl
@[simp] theorem tallyWrite_operatorEvents (s : State) : (tallyWrite s).operatorEvents = s.operatorEvents := rfl
@[simp] theorem tallyWrite_sidebandEvents (s : State) : (tallyWrite s).sidebandEvents = s.sidebandEvents := rfl
@[simp] theorem tallyWrite_i3cSignalled (s : State) : (tallyWrite s).i3cSignalled = s.i3cSignalled := rfl
@[simp] theorem tallyWrite_i3cResponses (s : State) : (tallyWrite s).i3cResponses = s.i3cResponses := rfl
@[simp] theorem tallyWrite_log (s : State) : (tallyWrite s).log = s.log := rfl
@[simp] theorem tallyWrite_logSeq (s : State) : (tallyWrite s).logSeq = s.logSeq := rfl
@[simp] theorem tallyWrite_jobs (s : State) : (tallyWrite s).jobs = s.jobs := rfl
@[simp] theorem tallyWrite_parts (s : State) : (tallyWrite s).parts = s.parts := rfl
@[simp] theorem tallyWrite_groves (s : State) : (tallyWrite s).groves = s.groves := rfl
@[simp] theorem tallyWrite_runs (s : State) : (tallyWrite s).runs = s.runs := rfl
@[simp] theorem tallyWrite_nextRun (s : State) : (tallyWrite s).nextRun = s.nextRun := rfl
@[simp] theorem tallyWrite_pave (s : State) : (tallyWrite s).pave = s.pave := rfl
@[simp] theorem tallyWrite_choker (s : State) : (tallyWrite s).choker = s.choker := rfl
@[simp] theorem tallyWrite_fabric (s : State) : (tallyWrite s).fabric = s.fabric := rfl
@[simp] theorem tallyWrite_landing (s : State) : (tallyWrite s).landing = s.landing := rfl
@[simp] theorem tallyWrite_channels (s : State) : (tallyWrite s).channels = s.channels := rfl
@[simp] theorem tallyWrite_loupe (s : State) : (tallyWrite s).loupe = s.loupe := rfl
@[simp] theorem tallyWrite_hallmark (s : State) : (tallyWrite s).hallmark = { s.hallmark with tallyWrites := s.hallmark.tallyWrites + 1 } := rfl
@[simp] theorem tallyWrite_cruise (s : State) : (tallyWrite s).cruise = s.cruise := rfl
@[simp] theorem tallyWrite_deck (s : State) : (tallyWrite s).deck = s.deck := rfl
@[simp] theorem tallyWrite_skidder (s : State) : (tallyWrite s).skidder = s.skidder := rfl
@[simp] theorem tallyWrite_scaler (s : State) : (tallyWrite s).scaler = s.scaler := rfl
@[simp] theorem tallyWrite_apportion (s : State) : (tallyWrite s).apportion = s.apportion := rfl
@[simp] theorem tallyWrite_mem (s : State) : (tallyWrite s).mem = s.mem := rfl
@[simp] theorem tallyWrite_issued (s : State) : (tallyWrite s).issued = s.issued := rfl
@[simp] theorem tallyWrite_freeCount (s : State) : (tallyWrite s).freeCount = s.freeCount := rfl

/-! ## Indexed parts -/

theorem part_onPart_same (n : Nat) (f : Part → Part) (s : State) (h : n < s.parts.length) :
    part (onPart n f s) n = f (part s n) := by
  unfold part onPart; simp [List.getD_eq_getElem?_getD, h]

theorem part_onPart_other (n m : Nat) (f : Part → Part) (s : State) (h : m ≠ n) :
    part (onPart n f s) m = part s m := by
  unfold part onPart; simp [List.getD_eq_getElem?_getD, h.symm]

theorem mailboxOf_onMailbox_same (n : Nat) (f : Mailbox → Mailbox) (s : State) (h : n < s.mbx.length) :
    mailboxOf (onMailbox n f s) n = f (mailboxOf s n) := by
  unfold mailboxOf onMailbox; simp [List.getD_eq_getElem?_getD, h]

theorem mailboxOf_onMailbox_other (n m : Nat) (f : Mailbox → Mailbox) (s : State) (h : m ≠ n) :
    mailboxOf (onMailbox n f s) m = mailboxOf s m := by
  unfold mailboxOf onMailbox; simp [List.getD_eq_getElem?_getD, h.symm]

theorem groveOf_onGrove_same (n : Nat) (f : Grove → Grove) (s : State) (h : n < s.groves.length) :
    groveOf (onGrove n f s) n = f (groveOf s n) := by
  unfold groveOf onGrove; simp [List.getD_eq_getElem?_getD, h]

theorem groveOf_onGrove_other (n m : Nat) (f : Grove → Grove) (s : State) (h : m ≠ n) :
    groveOf (onGrove n f s) m = groveOf s m := by
  unfold groveOf onGrove; simp [List.getD_eq_getElem?_getD, h.symm]

theorem channelOf_onChannel_same (n : Nat) (f : Channel → Channel) (s : State) (h : n < s.channels.length) :
    channelOf (onChannel n f s) n = f (channelOf s n) := by
  unfold channelOf onChannel; simp [List.getD_eq_getElem?_getD, h]

theorem channelOf_onChannel_other (n m : Nat) (f : Channel → Channel) (s : State) (h : m ≠ n) :
    channelOf (onChannel n f s) m = channelOf s m := by
  unfold channelOf onChannel; simp [List.getD_eq_getElem?_getD, h.symm]

theorem portOf_onPort_same (n : Nat) (f : Port → Port) (s : State) (h : n < s.fabric.ports.length) :
    portOf (onPort n f s) n = f (portOf s n) := by
  unfold portOf onPort; simp [List.getD_eq_getElem?_getD, h]

theorem portOf_onPort_other (n m : Nat) (f : Port → Port) (s : State) (h : m ≠ n) :
    portOf (onPort n f s) m = portOf s m := by
  unfold portOf onPort; simp [List.getD_eq_getElem?_getD, h.symm]

theorem stackOf_onStack_same (n : Nat) (f : Stack → Stack) (s : State) (h : n < s.pave.allStacks.length) :
    stackOf (onStack n f s) n = f (stackOf s n) := by
  unfold stackOf onStack; simp [List.getD_eq_getElem?_getD, h]

theorem stackOf_onStack_other (n m : Nat) (f : Stack → Stack) (s : State) (h : m ≠ n) :
    stackOf (onStack n f s) m = stackOf s m := by
  unfold stackOf onStack; simp [List.getD_eq_getElem?_getD, h.symm]

end Sys2Proof.Laws
end

