-- ==== Sys2Proof/WellFormed.lean ====
section
/-! DEFINITION. Sys2Proof/WellFormed.lean: operands that the layouts of spec/ can carry: each field within its width, each
list of read data as long as the command's own counts make it. A command outside this form cannot be spelled by a
sender; `exec` is total on it all the same. -/
namespace Sys2Proof

/-- Every value fits the bytes beside it. -/
def fit (l : List (Nat × Nat)) : Bool := l.all (fun x => decide (x.1 < 256 ^ x.2))

def isPart (p : Nat) : Bool := decide (p < 12)
def isPort (n : Nat) : Bool := decide (n < 8)

def MbxReq.wf (r : MbxReq) : Bool := decide (r.mbx < 16) && fit [(r.tag, 2), (r.partition, 1), (r.length, 4)]

/-- A queue that a partition can have: SQ or CQ 0–63, and a tag of 16 bits (R84, R91). -/
def SqReq.wf (q : SqReq) : Bool :=
  isPart q.part && decide (q.sq < 64) && fit [(q.tag, 2), (q.context, 8), (q.paramAddr, 8), (q.paramLen, 4)]

def Entry.wf (e : Entry) : Bool := fit [(e.opcode, 2), (e.tag, 2), (e.context, 8)]

def Carrier.wf : Carrier → Bool
  | .mailbox r => r.wf
  | .queue q => q.wf

def QueueCreateArgs.wf (a : QueueCreateArgs) : Bool :=
  fit [(a.typ, 1), (a.queueId, 1), (a.entries, 4), (a.base, 8), (a.cqId, 1), (a.weight, 1), (a.vector, 2),
       (a.coalesceCount, 2), (a.coalesceUs, 2)]

def KeyLoadArgs.wf (a : KeyLoadArgs) : Bool :=
  decide (a.tenantPub.length = 32) && decide (a.wrapNonce.length = 12) && decide (a.wrappedRoot.length = 32) &&
    decide (a.wrapTag.length = 16)

def CollCreateArgs.wf (a : CollCreateArgs) : Bool :=
  fit [(a.coll, 2), (a.kind, 1), (a.metric, 1), (a.dim, 2), (a.format, 1), (a.stands, 4), (a.shardOrdinal, 2),
       (a.replicas, 1), (a.seed, 8), (a.centroidAddr, 8), (a.tableRows, 8), (a.rowBase, 8), (a.entryCount, 1)] &&
    a.entries.all (fun e => fit [(e.device, 2), (e.firstRow, 8)])

def CollConfigArgs.wf (a : CollConfigArgs) : Bool :=
  fit [(a.coll, 2), (a.seasonEnable, 1), (a.headroom, 1), (a.greenLimit, 4), (a.greenAgeMs, 4), (a.compactDeadPct, 1),
       (a.tier, 1), (a.segmentTarget, 2)]

/-- Row data: COUNT rows, each with an id and an attribute word of 64 bits. -/
def RowWriteArgs.wf (a : RowWriteArgs) : Bool :=
  fit [(a.coll, 2), (a.inputType, 1), (a.count, 4), (a.idsAddr, 8), (a.vecAddr, 8), (a.tokAddr, 8), (a.attrAddr, 8)] &&
    decide (a.rows.length = a.count) && a.rows.all (fun r => fit [(r.id, 8), (r.attr, 8)] && fit (r.vec.map (fun x => (x, 4))))

def RowDeleteArgs.wf (a : RowDeleteArgs) : Bool :=
  fit [(a.coll, 2), (a.count, 4), (a.idsAddr, 8)] && decide (a.ids.length = a.count) && fit (a.ids.map (fun x => (x, 8)))

def RowReadArgs.wf (a : RowReadArgs) : Bool :=
  fit [(a.coll, 2), (a.outType, 1), (a.count, 4), (a.idsAddr, 8), (a.outAddr, 8), (a.foundAddr, 8), (a.attrOutAddr, 8)] &&
    decide (a.ids.length = a.count) && fit (a.ids.map (fun x => (x, 8)))

/-- Every entry arrives once, in some order (R152). -/
def RowAddArgs.wf (a : RowAddArgs) : Bool :=
  fit [(a.coll, 2), (a.count, 4), (a.idsAddr, 8), (a.gradAddr, 8)] && decide (a.grads.length = a.count) &&
    decide (a.order.length = a.count) && (List.range a.count).all (fun i => decide (i ∈ a.order)) &&
    fit (a.grads.map (fun g => (g.row, 8)))

def SearchParams.wf (a : SearchParams) : Bool :=
  fit [(a.coll, 2), (a.k, 2), (a.queryCount, 1), (a.inputType, 1), (a.nprobe, 2), (a.c1, 4), (a.c2, 4), (a.refill, 1),
       (a.filterJoin, 1), (a.queryAddr, 8), (a.outAddr, 8), (a.outLen, 4)] &&
    decide (a.filters.length < 256) && a.filters.all (fun t => fit [(t.op, 1), (t.mask, 8), (t.value, 8)]) &&
    decide (a.queries.length = a.queryCount)

def AuditArgs.wf (a : AuditArgs) : Bool :=
  fit [(a.coll, 2), (a.k, 2), (a.queryCount, 2), (a.queryAddr, 8), (a.paramAddr, 8), (a.outAddr, 8)] &&
    decide (a.queries.length = a.queryCount) && a.block.wf

def PackParams.wf (a : PackParams) : Bool :=
  fit [(a.vocab, 2), (a.tokenBudget, 4), (a.passageMax, 4), (a.templateLen, 4), (a.queryLen, 4), (a.passageCount, 2),
       (a.outTokAddr, 8), (a.outTextAddr, 8), (a.outTextLen, 4), (a.mapAddr, 8)] &&
    decide (a.template.length = a.templateLen) && decide (a.query.length = a.queryLen)

def RetrieveArgs.wf (a : RetrieveArgs) : Bool :=
  a.search.wf && a.packParams.wf &&
    fit [(a.embedModel, 2), (a.vocab, 2), (a.inputKind, 1), (a.finalK, 2), (a.xencK, 2), (a.xencModel, 2), (a.inputLen, 4),
         (a.inputAddr, 8), (a.passageObject, 8), (a.packAddr, 8)]

def RerankArgs.wf (a : RerankArgs) : Bool :=
  fit [(a.coll, 2), (a.count, 2), (a.finalK, 2), (a.inputType, 1), (a.qtokens, 2), (a.xencModel, 2), (a.vocab, 2),
       (a.xencK, 2), (a.idsAddr, 8), (a.qtokAddr, 8), (a.qtextAddr, 8), (a.qtextLen, 4), (a.outLen, 4), (a.outAddr, 8),
       (a.passageObject, 8)] &&
    decide (a.cands.length = a.count) && decide (a.qtoks.length = a.qtokens) && decide (a.qtext.length = a.qtextLen)

def AttendArgs.wf (a : AttendArgs) : Bool :=
  fit [(a.enc, 1), (a.dh, 2), (a.kvHeads, 1), (a.qHeads, 1), (a.inputType, 1), (a.count, 4), (a.inAddr, 8), (a.listAddr, 8),
       (a.outAddr, 8), (a.outLen, 4)] &&
    decide (a.entries.length = a.count) && decide (a.queries.length = a.qHeads) &&
    a.entries.all (fun e => fit [(e.key, 8), (e.device, 2), (e.firstToken, 2), (e.tokenCount, 2)])

def StoreArgs.wf (a : StoreArgs) : Bool :=
  fit [(a.enc, 1), (a.dh, 2), (a.kvHeads, 1), (a.inputType, 1), (a.count, 4), (a.key, 8), (a.inAddr, 8), (a.ttl, 4)] &&
    decide (a.keys.length = a.count) && decide (a.values.length = a.count)

def DropArgs.wf (a : DropArgs) : Bool :=
  fit [(a.count, 4), (a.inAddr, 8)] && decide (a.keys.length = a.count) && fit (a.keys.map (fun x => (x, 8)))

def MdlLoadArgs.wf (a : MdlLoadArgs) : Bool :=
  fit [(a.model, 2), (a.emaShift, 1), (a.instances, 1), (a.imageAddr, 8), (a.imageLen, 8)] &&
    decide (a.image.length = a.imageLen)

def MdlRunArgs.wf (a : MdlRunArgs) : Bool :=
  fit [(a.model, 2), (a.vocab, 2), (a.inputKind, 1), (a.batch, 2), (a.inAddr, 8), (a.inLen, 4), (a.outLen, 4), (a.outAddr, 8),
       (a.maxNew, 2), (a.grammar, 2)] &&
    decide (a.items.length = a.batch)

def CalibrateArgs.wf (a : CalibrateArgs) : Bool :=
  fit [(a.model, 2), (a.vocab, 2), (a.inputKind, 1), (a.count, 2), (a.inAddr, 8), (a.inLen, 8)] &&
    decide (a.items.length = a.count)

def TextLoadArgs.wf (a : TextLoadArgs) : Bool :=
  fit [(a.handle, 2), (a.vocab, 2), (a.imageAddr, 8), (a.imageLen, 8)] && decide (a.image.length = a.imageLen)

def TokenizeArgs.wf (a : TokenizeArgs) : Bool :=
  fit [(a.vocab, 2), (a.stream, 2), (a.inLen, 4), (a.outMax, 4), (a.outAddr, 8), (a.offsAddr, 8)] &&
    decide (a.text.length = a.inLen)

def DetokArgs.wf (a : DetokArgs) : Bool :=
  fit [(a.vocab, 2), (a.stream, 2), (a.count, 2), (a.stopCount, 1), (a.tokAddr, 8), (a.outAddr, 8), (a.outLen, 4),
       (a.stopAddr, 8)] &&
    decide (a.toks.length = a.count) && decide (a.stops.length = a.stopCount) && fit (a.toks.map (fun t => (t, 4)))

def GrmStepArgs.wf (a : GrmStepArgs) : Bool :=
  fit [(a.grammar, 2), (a.stream, 2), (a.token, 4), (a.maskAddr, 8), (a.maskLen, 4)]

def QpCreateArgs.wf (a : QpCreateArgs) : Bool :=
  fit [(a.qp, 2), (a.cls, 1), (a.remoteDevice, 2), (a.remoteQp, 2), (a.sqEntries, 4), (a.rqEntries, 4), (a.sqBase, 8),
       (a.rqBase, 8), (a.cqId, 1), (a.retryLimit, 1), (a.rnrRetry, 1), (a.retryTimeoutUs, 4), (a.rnrDelayUs, 4)]

def ShaperEntry.wf (e : ShaperEntry) : Bool :=
  fit [(e.priority, 1), (e.quantum, 2), (e.idleRate, 4), (e.hiCredit, 4), (e.loCredit, 4)]

def PolicerEntry.wf (e : PolicerEntry) : Bool := fit [(e.enable, 1), (e.rate, 4), (e.burst, 4)]

/-- A packet that Skyline can carry: 12-bit device ids, 32-bit PSN, at most 4,096 bytes (R421). -/
def Packet.wf (p : Packet) : Bool :=
  decide (p.cls < 8) && decide (p.vc < 2) && decide (p.partition < 16) && decide (p.dest < 4096) && decide (p.src < 4096) &&
    decide (p.payload.length ≤ 4096) && fit [(p.destQp, 2), (p.srcQp, 2), (p.psn, 4), (p.aux, 2), (p.addr, 8), (p.msgLen, 4)]

def PacketIn.wf (m : PacketIn) : Bool := isPort m.port && m.pkt.wf
def PacketIn.wfAs (m : PacketIn) (t : PktType) : Bool := m.wf && decide (m.pkt.typ = t)

/-- The fields of a work request, whatever its opcode. -/
def WorkReq.wf (w : WorkReq) : Bool :=
  fit [(w.opcode, 1), (w.length, 4), (w.context, 8), (w.localAddr, 8), (w.remoteAddr, 8), (w.waitQp, 2), (w.waitQueue, 1), (w.waitTarget, 8)]

/-- A partition's queue pair, as doorbells name it (0–127), or firmware's own toward a device. -/
def QpRef.wf (q : QpRef) : Bool :=
  (isPart q.part || (q.peer.isSome && decide (q.part = 14))) && decide (q.qp < 128) && q.peer.all (fun d => decide (d < 4096))

def SegWriteArgs.wf (a : SegWriteArgs) : Bool :=
  fit [(a.handle, 8), (a.offset, 8), (a.length, 4), (a.srcAddr, 8), (a.descAddr, 8), (a.desc.handle, 8), (a.desc.size, 8),
       (a.desc.tierClass, 1)] && decide (a.data.length = a.length)

def SegReadArgs.wf (a : SegReadArgs) : Bool :=
  fit [(a.extentCount, 2), (a.listAddr, 8), (a.dstAddr, 8), (a.dstLen, 4), (a.descAddr, 8), (a.descHandle, 8)] &&
    decide (a.list.length = a.extentCount) && a.list.all (fun e => fit [(e.handle, 8), (e.offset, 8), (e.length, 4)])

/-- A write of up to 64 bytes; a size or offset that no register takes is a decode error (R39), not an ill-formed write. -/
def RegWrite.wf (w : RegWrite) : Bool :=
  decide (w.fn < 13) && decide (w.offset < 0x4000000) && decide (1 ≤ w.size) && decide (w.size ≤ 64) && fit [(w.value, w.size)]

def Bar2Access.wf (a : Bar2Access) : Bool :=
  isPart a.part && decide (1 ≤ a.length) && decide (a.length ≤ 4096) && decide (a.data.length = a.length ∨ a.data = [])

def Pass.wf (x : Pass) : Bool :=
  decide (x.engine < 64) && decide (x.kernel ≤ 4) && decide (1 ≤ x.granules) && decide (x.granules ≤ 256) &&
    decide (1 ≤ x.queries) && decide (x.queries ≤ 16)

def EngineArgs.wf (a : EngineArgs) : Bool := decide (a.stack < 8) && decide (a.engine < 64)

def Machine.RowPlace.wf : Machine.RowPlace → Bool
  | .hbm k => decide (k < 8)
  | .flash => true

def CruiseSamples.wf (a : CruiseSamples) : Bool :=
  decide (a.cause < 3) && decide (a.groveSlack.length = 16) && decide (a.baseSlack.length = 8) &&
    decide (a.retentionMs.length = 8) && decide (a.portEye.length = 8) && decide (a.rber.length = 32) &&
    a.slowest.all (fun t => decide (t < 36)) && a.groveSlack.all (fun l => decide (l.length = 49))

/-- A one-byte mode field of the first of a group of rows: 0, or no mode of the group, whose others are 1 to `n`. -/
def otherMode (n m : Nat) : Bool := decide (m = 0) || (decide (n < m) && decide (m < 256))

/-- The operands lie within what the layouts of spec/ can carry. -/
def Instr.wellFormed : Instr → Bool
  | .devIdentify r | .devStatus r | .devFullReset r _ | .devFullResetFormatFlash r _ | .partCreate r | .partRelease r
  | .secAttestCertificate r | .secFwUpdateCommit r | .secFwUpdateAbort r => r.wf
  | .devSetPower r a => r.wf && fit [(a.target, 1), (a.idleDisable, 1), (a.idleAfterUs, 2)]
  | .devCruise r a | .devCruiseRun r a =>
    r.wf && otherMode 1 a.mode && fit [(a.targetSlackPs, 1), (a.excursionC, 1), (a.vCeil, 2), (a.spreadLimit, 4)]
  | .devLogRead r a b | .mtrEvents r a b | .dbgTrace r a b => r.wf && fit [(a, 4), (b, 2)]
  | .partitionReleaseScrub p | .flrVf p => isPart p
  | .partQueueCreate r a => r.wf && a.wf
  | .partQueueDelete r t q => r.wf && fit [(t, 1), (q, 1)]
  | .sqDeleteDone p q => isPart p && decide (q < 64)
  | .partKeyLoad r a => r.wf && a.wf
  | .collCreate r a => r.wf && a.wf
  | .collDrop r c | .collStats r c | .collSeasonCompact r c | .collSeasonRequantise r c | .mdlUnload r c | .fabQpDelete r c =>
    r.wf && fit [(c, 2)]
  | .collSeason r a => r.wf && fit [(a.coll, 2)] && otherMode 2 a.mode
  | .grmUnload r a | .vocabUnload r a => r.wf && fit [(a.handle, 2), (a.imageAddr, 8)]
  | .collConfig r a => r.wf && a.wf
  | .collAudit r a => r.wf && a.wf
  | .rowInsert q a | .rowUpsert q a => q.wf && a.wf
  | .rowDelete q a => q.wf && a.wf
  | .rowAdd q a | .rowAddMerged q a => q.wf && a.wf
  | .ingestCommit q c => q.wf && fit [(c, 2)]
  | .rowRead q a => q.wf && a.wf
  | .pooledRowRequest m => isPart m.part && fit [(m.src, 2), (m.coll, 2)]
  | .replicaIngest m => isPart m.part && fit [(m.src, 2), (m.coll, 2)]
  | .replicaSeason m => isPart m.part && fit [(m.src, 2), (m.coll, 2)]
  | .leaseExpiry a => isPart a.part && decide (a.stack < 8) && decide (a.engine < 64)
  | .qrySearch q a => q.wf && a.wf
  | .qryRetrieve q a => q.wf && a.wf
  | .qryRerank q a => q.wf && a.wf
  | .qryCancel q a b => q.wf && fit [(a, 1), (b, 2)]
  | .qryAttend q a => q.wf && a.wf && otherMode 2 a.mode
  | .qryAttendStore q a => q.wf && a.wf
  | .qryAttendDrop q a => q.wf && a.wf
  | .shardPart m => isPart m.part && m.params.wf
  | .shardMerge a => isPart a.part && fit [(a.sq, 1), (a.tag, 2)]
  | .lateInteractionPart m => isPart m.part && fit [(m.coll, 2)]
  | .attendPart m => isPart m.part && decide (m.index < 1024)
  | .shardReissue a => isPart a.part && fit [(a.sq, 1), (a.tag, 2), (a.shard, 2)]
  | .mdlLoad r a => r.wf && a.wf
  | .mdlRun q a | .mdlRunGenerate q a => q.wf && a.wf && otherMode 1 a.mode
  | .mdlCalibrate r a => r.wf && a.wf
  | .tileFault g t => decide (g < 16) && decide (t < 36)
  | .txtTokenize q a => q.wf && a.wf
  | .txtDetokStream q a => q.wf && a.wf
  | .grmLoad r a | .vocabLoad r a => r.wf && a.wf
  | .grmStep q a => q.wf && a.wf
  | .promptPack q a => q.wf && a.wf
  | .trieRebuild p v _ => isPart p && fit [(v, 2)]
  | .streamContextTimeout p n => isPart p && fit [(n, 2)]
  | .fabPortConfig r a => r.wf && fit [(a.deviceId, 2), (a.racks, 1), (a.ySize, 1), (a.zSize, 1)]
  | .fabQpCreate r a => r.wf && a.wf && otherMode 1 a.mode
  | .fabShaperSet r es => r.wf && decide (es.length = 64) && es.all ShaperEntry.wf
  | .fabPolicerSet r es => r.wf && decide (es.length = 24) && es.all PolicerEntry.wf
  | .fabStats r a b => r.wf && fit [(a, 2), (b, 2)]
  | .mtrRead r _ _ n => r.wf && decide (n.length = 32)
  | .mtrCompose r i c => r.wf && fit [(i, 8)] && decide (c.length = 16)
  | .mtrDecompose r i n => r.wf && fit [(i, 8)] && decide (n.length = 32)
  | .scalerParamsFrame f => decide (f.block.length = 512) && decide (f.newDigest.length = 32) && fit [(f.auditSeq, 4)]
  | .secAttest r a => r.wf && otherMode 1 a.kind && decide (a.nonce.length = 32)
  | .secFwUpdateBegin r a => r.wf && otherMode 3 a.phase && fit [(a.imageLen, 4)]
  | .secFwUpdateData r o d => r.wf && fit [(o, 4)] && decide (16 + d.length ≤ 4096)
  | .secTallyRead r i => r.wf && fit [(i, 1)]
  | .secTallyChange r a => r.wf && fit [(a.item, 1), (a.valueLen, 2)] && decide (a.value.length ≤ 4080)
  | .secAuditRead r n => r.wf && fit [(n, 4)]
  | .dbgCounters r g => r.wf && fit [(g, 1)]
  | .dbgLoupe r _ _ => r.wf
  | .segWrite q a | .segWriteDesc q a => q.wf && a.wf
  | .segRead q a => q.wf && a.wf
  | .segTrim q a => q.wf && fit [(a.handle, 8), (a.offset, 8), (a.length, 8)]
  | .segFlush q a => q.wf && fit [(a.reportAddr, 8), (a.reportMax, 2)]
  | .commandDone o t => fit [(o, 2), (t, 2)]
  | .sqTailDoorbell a => isPart a.part && decide (a.queue < 64) && fit [(a.value, 4)] && a.fetched.all Entry.wf
  | .cqHeadDoorbell a | .eqHeadDoorbell a =>
    isPart a.part && decide (a.queue < 64) && fit [(a.value, 4)] && a.fetched.all (fun x => x.2.all Entry.wf)
  | .cqCoalesceTimer p c => isPart p && decide (c < 64)
  | .qpSqTailDoorbell a | .qpRqTailDoorbell a => isPart a.part && decide (a.qp < 128) && fit [(a.value, 4)] && a.fetched.all WorkReq.wf
  | .wrSend q | .wrWrite q | .wrRead q | .wrFlush q | .wrWaitCount q | .wrRecv q | .retryTimeout q | .rnrDelayExpiry q
  | .ackDelayTimer q => q.wf
  | .pktSendRx m => m.wfAs .send
  | .pktWriteRx m => m.wfAs .write
  | .pktReadReqRx m => m.wfAs .readReq
  | .pktReadRespRx m => m.wfAs .readResp
  | .pktAckRx m => m.wfAs .ack
  | .pktNakRx m => m.wfAs .nak
  | .pktFlushReqRx m => m.wfAs .flushReq
  | .pktFlushAckRx m => m.wfAs .flushAck
  | .pktSystemRx m => m.wfAs .system
  | .packetForwarding m => m.wf
  | .pauseFrameRx n _ | .pauseRepeatTimer n | .heartbeatLoss n | .linkUp n | .trainingTimeout n | .egressArbitration n => isPort n
  | .heartbeatRx n d m _ => isPort n && decide (d < 4096) && isPort m
  | .pauseWatchdog n k => isPort n && decide (k < 16)
  | .laneFailure n l => isPort n && decide (l < 8)
  | .trainingNeighbourArrival n d m r y z => isPort n && decide (d < 4096) && isPort m && fit [(r, 1), (y, 1), (z, 1)]
  | .queueSampleTimer l => decide (l.length = 76)
  | .governorGrant a => decide (a.stack < 8) && a.arrivals.all Pass.wf
  | .pavePassEnd a => decide (a.stack < 8) && decide (a.engine < 64) && a.lines.all (fun l => l.wrong.all (fun b => decide (b < 576)))
  | .passOverrun a | .engineFault a => a.wf
  | .skippedRowRestore a => isPart a.part && fit [(a.coll, 2), (a.ordinal, 6)]
  | .fwdChannelDone r => decide (r.channel < 32)
  | .registerWrite w => w.wf
  | .bar2Read a | .bar2Write a => a.wf
  | .hostNonIdeTlp t => decide (t.fn < 13)
  | .ideKmKeyProgram a => decide (a.stream < 4) && decide (a.firstFn + a.fnCount ≤ 13)
  | .ideIntegrityFailure n => decide (n < 4)
  | .hostReadFailure a => decide (1 ≤ a.cause) && decide (a.cause ≤ 3)
  | .busMasterEnableChange fn _ => decide (fn < 13)
  | .idleGate b | .idleWake b | .wedgedBlock b => decide (b ≤ 12)
  | .tempAlert t | .tempLimit t | .tempLimitLift t | .thermtrip t => fit [(t, 2)]
  | .powerLimit w | .powerLimitLift w => fit [(w, 2)]
  | .i3cPrivateWrite _ bs => decide (bs ≠ [])
  | .i3cAddressAssign _ a => a.all (fun x => decide (x < 128))
  | .seasoning p c => isPart p && fit [(c, 2)]
  | .compaction p c st => isPart p && fit [(c, 2), (st, 4)]
  | .rowMigration a => isPart a.part && a.dest.wf && fit [(a.coll, 2), (a.row, 8)]
  | .poolUnitRecopy _ a b => decide (a < 4096) && decide (b < 4096)
  | .replicaRebuild p c n d _ => isPart p && fit [(c, 2), (n, 1)] && decide (d < 4096)
  | .cacheEntryExpiry p k => isPart p && fit [(k, 8)]
  | .extentProgram a => isPart a.part && fit [(a.handle, 8), (a.extent, 4)]
  | .programFailure a => isPart a.part && fit [(a.handle, 8), (a.extent, 4)]
  | .flashPieceRead a => decide (a.channel < 32) && decide (a.lun < 16) && decide (a.piece < 4)
  | .readSuspend c l => decide (c < 32) && decide (l < 16)
  | .cruiseRun a => a.wf
  | .hwVoltageRaise g m => decide (g < 16 ∧ m.tile < 36) && fit [(m.slack, 1)]
  | .apportionEnergy ws => decide (ws.length = 12)
  | .undefinedOpcode c o => c.wf && fit [(o, 2)]
  | .passageFetch h p _ ids => decide (h < 4096) && isPart p && fit (ids.map (fun i => (i, 8)))
  | .shardCancellation h p c => decide (h < 4096) && isPart p && fit [(c.sq, 1), (c.tag, 2)]
  | .poolHolderRequest o p op _ _ => decide (o < 4096) && isPart p && decide (op < 3)
  | .referenceClockLoss c _ => decide (c < 5)
  | .bar2Resize c => decide (c ≤ 4)
  | .canopyRunStart | .canopySegmentEnd _ | .canopyRunEnd _ | .paramsResend | .heartbeatTimer | .chkCommit _ | .pavCommit _ | .fwdCommit _ _
  | .fwdAbort _ | .lndIntRearm _ | .lpeCommit _ | .flrPf | .pcieLinkDown | .pcieLinkUp | .pfD3hotEntry | .pfD0Return
  | .coldPowerOn _ | .aux3v3Loss | .p48vFall _ | .p48vReturn | .fullrstNAssert _ _ | .perstAssert _ | .resetRelease _
  | .rangerWatchdogExpiry | .i3cPrivateRead _ | .getstatus _ | .rstactTargetReset | .rstactFullReset _ | .tlsHandshake _ _
  | .tlsLockoutEnd | .fabricKeySwitch | .heatDecay | .placementPlan | .unitMove _ | .copyUp _ | .journalFlush
  | .garbageCollection | .wearLevelling | .lmsTreeBuild _ | .scl3v3Rise _ | .scl3v3Fall | .scalerSecond _ | .scalerStoreTimer
  | .signBucketRefill | .clockFault | .clockRestored | .mainPowerLost | .mainPowerRestored | .managementSessionEnd _
  | .adcFault _ => true

end Sys2Proof
end

