-- ==== Sys2Proof/Tests/Slice0.lean ====
section
/-! SUPPORT. Sys2Proof/Tests/Slice0.lean: ill-formed operands that WellFormed refuses, single steps on small states with
results worked out from the spec, and for the statements of Certificates/Slice0 a state and operands that meet their
hypotheses. -/
namespace Sys2Proof.Tests
open Sys2Proof.Machine Sys2Proof.Safety

/-! ## Small states -/

/-- A running device at SERVICE_LEVEL 2 with its link up, its mailboxes READY, the credential root set, one operator session
and partition 0 ACTIVE with SQ 0, CQ 0 and an event queue. -/
def up : State := { State.reset with
  power := { State.reset.power with phase := .running, level := 2 }
  mbx := List.replicate 16 { ready := true }
  sessions := [{ id := 1, identity := .operator }]
  landing := { State.reset.landing with vfEnable := true, bme := List.replicate 13 true }
  hallmark := { State.reset.hallmark with items := State.reset.hallmark.items.modify 2 (fun x => { x with value := [1] }) }
  deck := { State.reset.deck with inService := true }
  parts := State.reset.parts.modify 0 (fun t => { t with
    state := .active
    sqs := [{ id := 0, entries := 64, base := 0, cqId := 0, weight := 1 }]
    cqs := [{ id := 0, entries := 64, base := 4096, vector := 1, coalesceCount := 1, coalesceUs := 0 }]
    eq := some { entries := 64, base := 8192, vector := 2 } }) }

/-- `up` with a change of partition 0. -/
def up0 (f : Part → Part) : State := onPart 0 f up

/-- A request of `n` bytes on mailbox `m`, over the path that serves it. -/
def rq (m n : Nat) : MbxReq :=
  { mbx := m, path := if m < 12 then .bar else if m = 13 then .i3c else if m = 15 then .jtag else .session 1
    tag := 7, partition := if m < 12 then m else 14, length := n, seq := 1 }

/-- The same for a partition: an operator's command about partition 0. -/
def rq0 (m n : Nat) : MbxReq := { rq m n with partition := 0 }

/-- A submission entry of SQ 0, indirect where it has a block of `bl` bytes. -/
def qe (bl : Nat) : SqReq :=
  { part := 0, sq := 0, tag := 9, context := 5, fence := false, noInt := false, indirect := decide (bl ≠ 0), paramAddr := 64, paramLen := bl }

def blockOf (bl : Nat) : Option Nat := if bl = 0 then none else some bl

/-- The entry stands at the head of SQ 0. -/
def queued (op bl : Nat) (s : State) : State :=
  onPart 0 (fun t => t.onSq 0 (fun x => { x with fetched := [entryOf (qe bl) op] })) s

/-- The hypotheses `Admits` and `Takes` as one decidable test. -/
def admits (s : State) (r : MbxReq) (op : Nat) (item : Option Nat) (step5 : Option (Nat × Nat)) : Bool :=
  executes s r && decide (headerCheck s r op item step5 = none) &&
    decide (gate s op (if r.mbx < 12 then some r.mbx else none) false = none)

theorem admits_iff {s : State} {r : MbxReq} {op : Nat} {item : Option Nat} {step5 : Option (Nat × Nat)}
    (h : admits s r op item step5 = true) : Admits s r op item step5 := by
  simp only [admits, Bool.and_eq_true, decide_eq_true_eq] at h
  exact ⟨h.1.1, h.1.2, h.2⟩

def takes (s : State) (q : SqReq) (op : Nat) (bl : Option Nat) : Bool :=
  mayBegin s q op && decide (entryCheck (takeEntry q s) q op bl = none)

theorem takes_iff {s : State} {q : SqReq} {op : Nat} {bl : Option Nat} (h : takes s q op bl = true) : Takes s q op bl := by
  simp only [takes, Bool.and_eq_true, decide_eq_true_eq] at h
  exact ⟨h.1, h.2⟩

/-! ## Hypotheses met: command interface and device -/

theorem meets_StepRunsFrontCommand : step { up with pending := [.clockFault] } = exec .clockFault up := rfl
theorem meets_EmptyQueueStepIsOneMicrosecond : up.pending = [] ∧ up.power.phase = .running ∧ State.reset.power.phase ≠ .running := by and_intros <;> decide

def aReply : Reply := { opcode := 0x101, tag := 7, partition := 14, async := false, seq := 1, status := 0, detail := 0, payload := [] }
def replayed : State := onMailbox 14 (fun b => { b with stored := some aReply, lastSeq := 1 }) up

theorem meets_ReplayAnswersAgain :
    firmwareRuns replayed = true ∧ pathServes replayed (rq 14 0) = true ∧ (mailboxOf replayed 14).ready = true ∧
    (mailboxOf replayed 14).busy = false ∧ (mailboxOf replayed 14).stored = some aReply ∧
    (mailboxOf replayed 14).lastSeq = (rq 14 0).seq ∧
    (mailboxOf (onMailbox 14 (fun b => { b with busy := true }) replayed) 14).busy = decide (({ rq 14 0 with path := .rung } : MbxReq).path = .rung) ∧
    pathServes (onMailbox 14 (fun b => { b with busy := true }) replayed) { rq 14 0 with path := .rung } = true := by and_intros <;> decide

theorem meets_UnservedDoorbellSetsOverrun :
    (rq 0 0).path = .bar ∧ pathServes (onMailbox 0 (fun b => { b with done := true }) up) (rq 0 0) = true ∧
    (mailboxOf (onMailbox 0 (fun b => { b with done := true }) up) 0).done = true ∧ messageOf (.devStatus (rq 12 0)) = some 12 ∧
    messageOf (.devStatus (rq 13 0)) = some 13 ∧ messageOf (.collDrop (rq 0 8) 1) ≠ some 12 ∧ messageOf (.collDrop (rq 0 8) 1) ≠ some 13 := by and_intros <;> decide

theorem meets_HeaderChecksAnswerInOrder :
    executes up (rq 14 4097) = true ∧ executes up (rq 14 4096) = true ∧ carried 0x9999 = none ∧
    (carried Op.qrySearch).any (fun c => c.queue) = true ∧ (carried Op.mtrRead).any (fun c => !c.queue && !c.fromMailbox 12) = true := by and_intros <;> decide

def wedged (s : State) : State := { s with power := { s.power with needsReset := true } }

theorem meets_NeedsFullResetStopsCommands :
    executes (wedged up) (rq 14 0) = true ∧ headerCheck (wedged up) (rq 12 8) Op.devSetPower none (lengthIn (rq 12 8) [8]) = none ∧
    mayBegin (wedged (queued Op.rowDelete 0 up)) (qe 0) Op.rowDelete = true ∧
    (carried Op.rowDelete).any (fun c => c.queue) = true := by and_intros <;> decide

/-- The CQ of partition 0 in error, full, and empty. -/
def cqWith (f : Cq → Cq) : State := up0 (fun t => t.onCq 0 f)

theorem meets_CompletionIsWrittenHeldOrDiscarded :
    (findSq (part up 0) 0).isSome = true ∧ ((findCq (part up 0) 0).any (fun c => !c.error && decide (c.used < c.entries) && c.held.isEmpty)) = true ∧
    landingBlocked up 1 = false ∧ ((findCq (part (cqWith (fun c => { c with used := 64 })) 0) 0).any (fun c => decide (c.entries ≤ c.used))) = true ∧
    ((findCq (part (cqWith (fun c => { c with error := true })) 0) 0).any Cq.error) = true := by and_intros <;> decide

theorem meets_DeviceQueriesAnswer :
    admits up (rq 12 0) Op.devIdentify none (lengthIn (rq 12 0) [0]) = true ∧
    admits up (rq 0 0) Op.devStatus none (lengthIn (rq 0 0) [0]) = true ∧
    admits up (rq 12 8) Op.devLogRead none (lengthIn (rq 12 8) [8]) = true := by and_intros <;> decide

def held (s : State) : State := { s with power := { s.power with state := .shardHold } }

def d3 : State := { up with power := { up.power with state := .d3hot } }

/-- Firmware runs and bring-up has not reached step 8. -/
def starting : State := { up with power := { up.power with level := 0 } }

theorem meets_DeviceSettingsTakeEffect :
    admits up (rq 12 8) Op.devSetPower none (lengthIn (rq 12 8) [8]) = true ∧ up.power.state ≠ .shardHold ∧
    admits (held up) (rq 12 8) Op.devSetPower none (lengthIn (rq 12 8) [8]) = true ∧ (held up).power.state = .shardHold ∧
    executes starting (rq 12 8) = true ∧ headerCheck starting (rq 12 8) Op.devSetPower none (lengthIn (rq 12 8) [8]) = none ∧ serviceLevel starting = 0 ∧
    admits d3 (rq 12 8) Op.devSetPower none (lengthIn (rq 12 8) [8]) = true ∧ d3.power.state = .d3hot ∧
    admits up (rq 12 32) Op.devCruise none (lengthIn (rq 12 32) [32]) = true := by and_intros <;> decide

theorem meets_FullResetCommandsAnswerFirst :
    admits up (rq 12 0) Op.devFullReset none (lengthIn (rq 12 0) [0, 8]) = true ∧
    admits (up0 (fun _ => {})) (rq 12 8) Op.devFullReset none (lengthIn (rq 12 8) [8]) = true ∧
    (∀ x ∈ (up0 (fun _ => {})).parts, x.state = .free) ∧ (∃ x ∈ up.parts, x.state ≠ .free) := by and_intros <;> decide

theorem meets_FullResetKeepsAndClears : up.power.phase = .running ∧ (part up 0).state = .active ∧ (part up 1).state = .free := by and_intros <;> decide
theorem meets_ResetTriggersAct : up.power.phase = .running ∧ up.power.p48v = true ∧ State.reset.power.phase = .held := by and_intros <;> decide

/-- LUN 0 of a channel: TLC, four planes, pages of 16,384 data bytes. -/
def oneLun (c : Nat) : LunPage :=
  { channel := c, lun := 0, cell := 3, planes := 4, pageBytes := 16384, spareBytes := 2048, pages := 1024, blocks := 2000
    options := true, factoryBad := 4, sensor := true }
def released : BringUp := { seedOk := true, slotAOk := true, slotBOk := true, luns := [oneLun 0, oneLun 1], metadataOk := true, unpoweredS := 0 }

theorem meets_BringUpReachesFullService :
    State.reset.power.phase = .held ∧ State.reset.power.p48v = true ∧ State.reset.power.thermtrip = false ∧
    State.reset.power.refclk.getD 0 false = true ∧ released.slotAOk = true ∧ State.reset.hallmark.preferB = false ∧
    fwFloor State.reset = 0 ∧ State.reset.mbx.length = 16 ∧ populationOk released.luns = true ∧
    State.reset.parts.length = 12 ∧ (released.seedOk = true) := by and_intros <;> decide

theorem meets_WatchdogAndWedgedBlocks : firmwareRuns up = true ∧ up.power.needsReset = false := by and_intros <;> decide
theorem meets_HeatAndPowerLimits : firmwareRuns up = true ∧ up.power.thermalStep = 0 ∧ up.power.powerLimit = false := by and_intros <;> decide
theorem meets_ClockGatedIdle :
    up.power.state = .active ∧ up.power.idleDisable = false ∧ up.power.gated = [] ∧ noWork up 5 = true ∧ noWork up 6 = true := by and_intros <;> decide

def keysWanted : State := up0 (fun t => { t with state := .keysPending, sqs := [], cqs := [], eq := none })
def leaving : State := up0 (fun t => { t with state := .releasing, sqs := [], cqs := [], eq := none })

theorem meets_PartitionLifeCycle :
    admits (up0 (fun _ => {})) (rq0 12 8) Op.partCreate none (lengthIn (rq0 12 8) [8]) = true ∧
    enabledIn (layoutValue up) 0 = true ∧ rootSet up = true ∧
    admits keysWanted (rq 0 96) Op.partKeyLoad none (lengthIn (rq 0 96) [96]) = true ∧ (part keysWanted 0).check = none ∧
    admits up (rq0 12 8) Op.partRelease none (lengthIn (rq0 12 8) [8]) = true ∧
    (part leaving 0).state = .releasing ∧ (part leaving 0).sqs = [] := by and_intros <;> decide

/-- Whether a root unwraps lies in opaque AES-GCM: one of the two cases of PART_KEY_LOAD holds of every request. -/
theorem meets_PartitionLifeCycle_keyLoad (a : KeyLoadArgs) :
    unwrapRoot 0 (part keysWanted 0) a = none ∨ ∃ k, unwrapRoot 0 (part keysWanted 0) a = some k ∧ (part keysWanted 0).check = none := by
  cases h : unwrapRoot 0 (part keysWanted 0) a with
  | none => exact .inl rfl
  | some k => exact .inr ⟨k, rfl, by decide⟩

def newSq : QueueCreateArgs :=
  { typ := 0, queueId := 63, entries := 64, base := 4096, cqId := 0, weight := 1, vector := 0, coalesceCount := 0, coalesceUs := 0 }
def twoCqs : State := up0 (fun t => { t with cqs := t.cqs ++ [{ id := 1, entries := 64, base := 0, vector := 1, coalesceCount := 1, coalesceUs := 5, unsignalled := 1 }] })
def sqLeaving : State := up0 (fun t => t.onSq 0 (fun q => { q with deleting := some 7 }))
def oneJob : AsyncJob := { dest := .operator, opcode := Op.devCruise, tag := 7, partition := 14, status := 0, detail := 0, action := .nothing }

theorem meets_QueuesAreCreatedAndDeleted :
    admits up (rq 0 32) Op.partQueueCreate none (lengthIn (rq 0 32) [32]) = true ∧
    firstFail (queueFieldChecks newSq ++ queueStateChecks (part up 0) newSq) = none ∧
    firstFail (queueFieldChecks { newSq with typ := 1, vector := 159 } ++ queueStateChecks (part up 0) { newSq with typ := 1, vector := 159 }) = none ∧
    admits twoCqs (rq 0 8) Op.partQueueDelete none (lengthIn (rq 0 8) [8]) = true ∧ (∀ q ∈ (part twoCqs 0).sqs, q.cqId ≠ 1) ∧
    ((findSq (part sqLeaving 0) 0).any (fun q => sqEnded (part sqLeaving 0) q && q.deleting.isSome)) = true ∧
    ({ up with jobs := [oneJob] } : State).jobs.find? (fun j => j.opcode = Op.devCruise && j.tag = 7) = some oneJob := by and_intros <;> decide

theorem meets_DoorbellsMoveTheQueues :
    hostReaches up 1 = true ∧ ((findSq (part up 0) 0).any (fun q => !q.error && decide (63 < q.entries) && decide (q.entries ≤ 64))) = true ∧
    ((findCq (part (cqWith (fun c => { c with used := 3 })) 0) 0).any (fun c => decide (consumed c.entries c.used c.head 3 ≤ c.used) &&
      decide (c.used < consumed c.entries c.used c.head 4))) = true ∧
    ((part up 0).eq.any (fun q => decide (consumed q.entries q.used q.head 0 ≤ q.used))) = true ∧ (destOf up (.part 0)).held = [] ∧
    ((findCq (part twoCqs 0) 1).any (fun c => decide (c.coalesceUs ≠ 0) && decide (c.unsignalled ≠ 0))) = true := by and_intros <;> decide

theorem meets_UndefinedOpcodesAreRefused :
    executes up (rq 12 0) = true ∧ carried 0x9999 = none ∧ mayBegin (queued 0x9999 0 up) (qe 0) 0x9999 = true ∧
    mayBegin (queued Op.devStatus 0 up) (qe 0) Op.devStatus = true := by and_intros <;> decide

/-! ## Hypotheses met: the vector store -/

def anIndex : Coll :=
  { num := 1, kind := 0, metric := 0, dim := 64, format := 2, tokens := false, noRotate := false, pooled := false, stands := 1
    shardOrdinal := 0, entries := [{ device := 5, firstRow := 0 }], replicas := 0, seed := 3, centroids := [], tableRows := 0, rowBase := 0 }
def aTable : Coll := { anIndex with num := 2, kind := 1, noRotate := true, entries := [], tableRows := 1000 }
def green (o : Nat) : GreenRow := { ordinal := o, epochs := (1, alive), sk1 := [], bf := [], tok := none }
def rec1 (o birth : Nat) : RowRec := { ordinal := o, extId := 40 + o, birth := birth, death := alive, stand := 0, attrs := 0 }
/-- An index with one committed green row. -/
def greenIndex : Coll := { anIndex with committed := 1, nextOrdinal := 1, recs := [rec1 0 1], ids := [{ id := 40, slots := [(0, 1)] }], green := [green 0] }
def aRow (i : Nat) : TableRow := { index := i, slot0 := .bf16 [], slot1 := .bf16 [], active1 := false, poisoned := false, place := .hbm 0 }
def stored (c : Coll) : State := { up0 (fun t => { t with colls := [c] }) with fabric := { up.fabric with deviceId := some 5 } }

def newIndex : CollCreateArgs :=
  { coll := 9, kind := 0, metric := 0, dim := 64, format := 2, tokens := false, noRotate := false, pooled := false, stands := 1
    shardOrdinal := 0, replicas := 2, seed := 1, centroidAddr := 0, tableRows := 0, rowBase := 0, entryCount := 1
    entries := [{ device := 5, firstRow := 0 }], centroids := [] }
def createChecks (s : State) (a : CollCreateArgs) : List (Bool × Nat × Nat) :=
  createFields a ++ [(decide (a.centroidAddr % 64 ≠ 0), St.invalidAddress, 56),
    ((findColl s 0 a.coll).isSome, St.collectionExists, 0),
    ((decide (a.kind = 0) || a.pooled) && s.fabric.deviceId.isNone, St.wrongState, 0)] ++
    createEntries (ownId s) a ++ [(decide (16384 ≤ collCount s), St.collectionLimit, 0)]
def cfg0 : CollConfigArgs :=
  { coll := 1, seasonEnable := 1, headroom := 4, greenLimit := 65536, greenAgeMs := 0, compactDeadPct := 90, tier := 4, segmentTarget := 16 }

theorem meets_CollectionsAreCreatedConfiguredAndDropped :
    admits (stored aTable) (rq 0 72) Op.collCreate none (createLength (rq 0 72) newIndex) = true ∧
    firstFail (createChecks (stored aTable) newIndex) = none ∧ firstBad (createCentroids newIndex 1) = none ∧
    firstFail (createChecks (stored aTable) { newIndex with coll := 2 }) = some (St.collectionExists, 0) ∧
    firstFail (createChecks (stored aTable) { newIndex with dim := 63 }) = some (St.invalidField, 36) ∧
    admits (stored anIndex) (rq 0 32) Op.collConfig none (lengthIn (rq 0 32) [32]) = true ∧
    firstFail (cfgChecks anIndex cfg0) = none ∧ findColl (stored anIndex) 0 1 = some anIndex ∧
    admits (stored anIndex) (rq 0 8) Op.collStats none (lengthIn (rq 0 8) [8]) = true ∧
    admits (stored anIndex) (rq 0 8) Op.collDrop none (lengthIn (rq 0 8) [8]) = true ∧ findColl (stored anIndex) 0 3 = none ∧
    findColl (stored { anIndex with role := 1 }) 0 1 = some { anIndex with role := 1 } := by and_intros <;> decide

def oneWrite : RowWriteArgs :=
  { coll := 1, inputType := 0, tokensPresent := false, attrPresent := false, idsAddr := 0, vecAddr := 64, tokAddr := 0, attrAddr := 0
    count := 1, rows := [{ id := 7, vec := List.replicate 64 0, attr := 0, toks := [] }] }

/-- An index with a replica on device 9, and an ingest command of SQ 0 that waits for it. -/
def mirrored : Coll := { anIndex with replicas := 2, replicaSet := [(1, 9)] }
def ingesting (s : State) : State :=
  onPart 0 (fun t => { t with running :=
    [{ sq := 0, tag := 8, opcode := Op.rowInsert, context := 0, noInt := false, kind := .ingest { coll := 1, waitFor := [(9, 0)] } }] }) s

theorem meets_IndexRowsAreIngestedAndCommitted :
    takes (queued Op.rowInsert 0 (stored anIndex)) (qe 0) Op.rowInsert none = true ∧
    takes (queued Op.rowUpsert 0 (stored anIndex)) (qe 0) Op.rowUpsert none = true ∧
    takes (queued Op.rowDelete 0 (stored anIndex)) (qe 0) Op.rowDelete none = true ∧
    takes (queued Op.ingestCommit 0 (stored anIndex)) (qe 0) Op.ingestCommit none = true ∧
    findColl (queued Op.rowInsert 0 (stored anIndex)) 0 1 = some anIndex ∧ firstFail (writeChecks oneWrite) = none ∧
    firstFail (writeChecks { oneWrite with count := 0 }) = some (St.invalidField, 20) ∧
    (∀ r ∈ writeRowsIn oneWrite, r.id ≠ sentinel) ∧ firstFail (versionChecks anIndex true [7]) = none ∧
    firstFail (versionChecks anIndex false [7]) = none ∧ firstFail (versionChecks greenIndex true [40]) ≠ none ∧
    anIndex.committed < epochLimit ∧ within 1 65536 1 = true ∧
    ingestHeld (queued Op.rowInsert 0 (stored anIndex)) 0 1 = false ∧ anIndex.replicaSet = [] ∧
    findColl (stored mirrored) 0 1 = some mirrored ∧ replicaWaits (stored mirrored) mirrored ≠ [] ∧
    ingestsOpen (stored anIndex) 0 1 = [] ∧ ingestsOpen (ingesting (queued Op.ingestCommit 0 (stored anIndex))) 0 1 ≠ [] ∧
    ingestHeld (ingesting (queued Op.ingestCommit 0 (stored anIndex))) 0 1 = false ∧
    takes (ingesting (queued Op.ingestCommit 0 (stored anIndex))) (qe 0) Op.ingestCommit none = true ∧
    (1 : Nat) < alive ∧ (∀ x ∈ greenIndex.recs, x.ordinal < greenIndex.nextOrdinal) ∧ (lookupId greenIndex 40 2).isSome = true := by and_intros <;> decide

set_option maxRecDepth 20000 in
/-- A row of zeros is admitted to an index of 64 components. -/
theorem meets_prepRow : ((writeRowsIn oneWrite).map (prepRow anIndex 0 false false)).all Option.isSome = true := by decide

/-- A green segment one version short of twice its limit. -/
def fullIndex : Coll := { anIndex with cfg := { anIndex.cfg with greenLimit := 1 }, green := [green 0, green 1], nextOrdinal := 2 }

theorem meets_FullGreenSegmentRefusesIngest :
    findColl (queued Op.rowInsert 0 (stored fullIndex)) 0 1 = some fullIndex ∧
    fullIndex.nextOrdinal + (writeRowsIn oneWrite).length ≤ epochLimit + 1 ∧
    2 * fullIndex.cfg.greenLimit < fullIndex.green.length + (writeRowsIn oneWrite).length ∧
    (∀ r ∈ writeRowsIn oneWrite, lookupId fullIndex r.id (fullIndex.committed + 1) = none) ∧
    takes (queued Op.rowInsert 0 (stored fullIndex)) (qe 0) Op.rowInsert none = true ∧
    takes (queued Op.rowUpsert 0 (stored fullIndex)) (qe 0) Op.rowUpsert none = true := by and_intros <;> decide

def tableWrite : RowWriteArgs := { oneWrite with coll := 2, rows := [{ id := 999, vec := List.replicate 64 0, attr := 0, toks := [] }] }
def tableAdd : RowAddArgs :=
  { coll := 2, count := 1, idsAddr := 0, gradAddr := 64, alpha := 0x3F800000, grads := [{ row := 999, grad := [0x3F800000] }], order := [0], stalled := [] }
/-- An add of SQ 0 on row 4 in its lease number `n`, on Canopy or on an engine, and the command that waits for it. -/
def leaseNo (n : Nat) (e : Option (Nat × Nat)) : Lease :=
  { row := 4, sq := 0, tag := 9, peer := none, weight := 1, attempt := n, stalls := true, engine := e, delta := [] }
def leasedTable (n : Nat) (e : Option (Nat × Nat)) : Coll := { aTable with rows := [aRow 4], leases := [leaseNo n e] }
def waitingAdd (n : Nat) (e : Option (Nat × Nat)) : State :=
  onPart 0 (fun t => { t with running :=
    [{ sq := 0, tag := 9, opcode := Op.rowAdd, context := 5, noInt := false, kind := .ingest { coll := 2 } }] }) (stored (leasedTable n e))
/-- Engine 7 of stack 0 runs the add under a grant. -/
def addGranted (s : State) : State :=
  onStack 0 (fun k => { k with granted := [{ engine := 7, kernel := 2, granules := 1, queries := 1, requester := some (0, 0, 9) }] }) s

theorem meets_TableRowsAreWrittenAddedAndRead :
    findColl (stored aTable) 0 2 = some aTable ∧ firstFail (writeChecks tableWrite) = none ∧
    (∀ r ∈ writeRowsIn tableWrite, ownRow aTable r.id = true) ∧ ownRow aTable 1000 = false ∧
    takes (queued Op.rowInsert 0 (stored aTable)) (qe 0) Op.rowInsert none = true ∧
    takes (queued Op.rowDelete 0 (stored aTable)) (qe 0) Op.rowDelete none = true ∧
    takes (queued Op.rowAdd 0 (stored aTable)) (qe 0) Op.rowAdd none = true ∧
    takes (queued Op.rowAddMerged 0 (stored aTable)) (qe 0) Op.rowAddMerged none = true ∧
    takes (queued Op.rowRead 0 (stored aTable)) (qe 0) Op.rowRead none = true ∧
    firstFail (addChecks aTable 5 tableAdd) = none ∧ isPoisonedRow aTable 999 = false ∧
    (prepVec 0 false 3 (fitRaw 0 64 (List.replicate 64 0))).isSome = true ∧
    rowLeases aTable 999 = [] ∧
    findColl (waitingAdd 1 none) 0 2 = some (leasedTable 1 none) ∧ (rowLeases (leasedTable 1 none) 4).head? = some (leaseNo 1 none) ∧
    leaseWaits (waitingAdd 2 none) (leaseNo 2 none) = false ∧ leaseOnEngine (waitingAdd 2 none) (leaseNo 2 none) = false ∧
    leaseWaits (addGranted (waitingAdd 2 (some (0, 7)))) (leaseNo 2 (some (0, 7))) = false ∧
    leaseOnEngine (addGranted (waitingAdd 2 (some (0, 7)))) (leaseNo 2 (some (0, 7))) = true ∧
    findColl (addGranted (waitingAdd 2 (some (0, 7)))) 0 2 = some (leasedTable 2 (some (0, 7))) ∧
    (∀ y ∈ (part (waitingAdd 3 none) 0).colls, y = leasedTable 3 none ∨ y.leases = []) ∧
    (ingestOf (waitingAdd 3 none) 0 0 9).any (fun x => x.2.before.isEmpty && x.2.waitFor.isEmpty && x.2.read.isNone) = true := by
  and_intros <;> decide

def seg (n : Nat) : Segment := { number := n, blocks := [{ stand := 0, sigma4 := 0, omega4 := 0, sigma8 := 0, omega8 := 0, rows := [] }] }
def codedTable : Coll := { aTable with format := 1, blocks := [{ block := 0, sigma := 0x3C00, omega := 0x3C00 }] }

theorem meets_ConversionsOfCollections :
    admits (stored greenIndex) (rq 0 8) Op.collSeason none (lengthIn (rq 0 8) [8]) = true ∧ greenDue greenIndex 1 = [green 0] ∧
    greenDue anIndex 0 = [] ∧ maySeason (stored { greenIndex with cfg := { greenIndex.cfg with greenLimit := 1 } }) 0 greenIndex = true ∧
    anIndex.segs = [] ∧ 2 ≤ ({ anIndex with segs := [seg 1, seg 2] } : Coll).segs.length ∧ coded aTable.format = false ∧
    coded codedTable.format = true ∧ codedTable.blocks ≠ [] ∧ firmwareRuns (stored anIndex) = true ∧ holding (stored anIndex) = false ∧
    findColl (stored { greenIndex with role := 1 }) 0 1 = some { greenIndex with role := 1 } ∧
    findShard (stored { greenIndex with role := 1 }) 0 1 0 = some { greenIndex with role := 1 } ∧
    ({ greenIndex with cfg := { greenIndex.cfg with greenLimit := 1 } } : Coll).cfg.greenLimit ≤ greenIndex.green.length ∧
    deadDue (stored anIndex) 0 anIndex = false := by and_intros <;> decide

theorem meets_PoolOwnersAndReplicasApply :
    firmwareRuns (held up) = true ∧ holding (held up) = true ∧ holding (stored aTable) = false ∧ (stored aTable).power.level = 2 ∧
    findColl (stored aTable) 0 2 = some aTable ∧ ownRow aTable 0 = true ∧
    findColl (stored { anIndex with role := 2 }) 0 1 = some { anIndex with role := 2 } ∧ skidderRuns (stored aTable) = true ∧
    9 ∉ (stored aTable).fabric.lost ∧ findColl up 0 2 = none ∧ findShard up 0 1 0 = none ∧
    findShard (stored { anIndex with role := 2 }) 0 1 0 = some { anIndex with role := 2 } ∧ findShard (stored anIndex) 0 1 0 = some anIndex ∧
    validPlace (stored aTable) (.hbm 7) = true ∧ validPlace (stored aTable) .flash = true ∧ movable aTable 999 = true ∧
    movable greenIndex 0 = true := by
  and_intros <;> decide

/-! ## Hypotheses met: queries, cache and placement -/

/-- A search for one query of zeros (BF16) with K = 1 in collection 1. -/
def aSearch : SearchParams :=
  { coll := 1, k := 1, queryCount := 1, inputType := 0, nprobe := 0, c1 := 0, c2 := 0, noInt4 := false, noFull := false, refill := 0
    filterJoin := 0, filters := [], queryAddr := 64, outAddr := 128, outLen := 96, queries := [List.replicate 64 0] }
def twoShards : Coll := { anIndex with entries := [{ device := 5, firstRow := 0 }, { device := 6, firstRow := 0 }] }
def ownAnswer : ShardAnswer := { shard := 0, device := 5, status := 0, epoch := 0, reissued := false, lists := [] }
def aQuery : QueryRun :=
  { coll := 1, params := aSearch, epoch := 0, snap := anIndex, cold := [], vecs := [], own := ownAnswer, asked := [(1, 6)], reissued := []
    phase := 1, ins := noInputs 0 0 4, reduced := false, embedReduced := false, retrieve := none, rerank := none, cross := none
    packVocab := none, qtoks := [], qscales := [] }
def queryAtHome (op : Nat) (c : Coll) : State :=
  onPart 0 (fun t => { t with running := [{ sq := 0, tag := 4, opcode := op, context := 5, noInt := false, kind := .query aQuery }] }) (stored c)
def anAudit : AuditArgs :=
  { coll := 1, k := 1, queryCount := 1, queryAddr := 64, paramAddr := 64, outAddr := 64, queries := [List.replicate 64 0], block := aSearch }
def aRerank : RerankArgs :=
  { coll := 1, count := 1, finalK := 1, late := true, cross := false, inputType := 1, qtokens := 1, xencModel := 0, vocab := 0, xencK := 0
    idsAddr := 64, qtokAddr := 64, qtextAddr := 64, qtextLen := 0, outLen := 96, outAddr := 64, passageObject := 0, cands := [(40, 0)]
    qtoks := [List.replicate 128 0], qtext := [] }
def tokenIndex : Coll := { greenIndex with tokens := true }
def rerankAsked (c : Coll) : List (Nat × Nat) := (otherShards c).filter (fun x => !(candsOf { aRerank with cands := [(41, 1)] } x.1).isEmpty)

theorem meets_QueriesRunAtTheirHome :
    takes (queued Op.qrySearch 192 (stored anIndex)) (qe 192) Op.qrySearch (some 192) = true ∧
    takes (queued Op.qryRetrieve 320 (stored anIndex)) (qe 320) Op.qryRetrieve (some 320) = true ∧
    takes (queued Op.qryRerank 64 (stored anIndex)) (qe 64) Op.qryRerank (some 64) = true ∧
    takes (queued Op.qryCancel 0 (queryAtHome Op.qrySearch anIndex)) (qe 0) Op.qryCancel none = true ∧
    admits (stored anIndex) (rq0 0 40) Op.collAudit none (lengthIn (rq0 0 40) [40]) = true ∧
    findColl (stored anIndex) 0 1 = some anIndex ∧ anIndex.role = 0 ∧ anIndex.kind = 0 ∧ findColl (stored aTable) 0 2 = some aTable ∧
    aTable.kind = 1 ∧ firstFail (searchChecks (searchDefaults aSearch) 1) = none ∧
    (firstFail (searchChecks (searchDefaults { aSearch with k := 1025 }) 1025)).isSome = true ∧
    otherShards anIndex = [] ∧ otherShards twoShards = [(1, 6)] ∧ 6 ∉ up.fabric.lost ∧ up.landing.linkActive = true ∧
    firstFail (rerankChecks (stored tokenIndex) 0 tokenIndex aRerank) = none ∧
    (firstFail (rerankChecks (stored tokenIndex) 0 tokenIndex { aRerank with count := 0 })).isSome = true ∧
    rerankAsked twoShards = [(1, 6)] ∧ rerankAsked anIndex = [] ∧ aRerank.cross = false ∧
    (part (queryAtHome Op.qrySearch anIndex) 0).running.any (fun x => decide (x.sq = 0) && decide (x.tag = 4) && isQry x.opcode) = true ∧
    (part (stored anIndex) 0).running = [] ∧
    firstFail (searchFields (searchDefaults { anAudit.block with k := anAudit.k, queryCount := anAudit.queryCount, inputType := 0 })) = none := by
  and_intros <;> decide

set_option maxRecDepth 20000 in
/-- The vectors of the query and of the audit are admitted. -/
theorem meets_prepQueries :
    (prepQueries anIndex (searchDefaults aSearch)).isOk = true ∧ (hostTokens tokenIndex aRerank).isOk = true ∧
    (prepQueries anIndex (searchDefaults { aSearch with queries := [List.replicate 64 0x7F800000] })).isOk = false := by and_intros <;> decide

/-- A loaded embedding model that fits no index: its pooled output has 8 components. -/
def aModel : Model :=
  { handle := 3, serial := 1, base := 0, loading := false, invalid := 0, width := 1, reducedWidth := 0, instances := 1, emaShift := 0
    segments := 1, inputBinding := 0, outputRoles := 1, seqMax := 512, queryMax := 64, tokenDim := 0, pooledDim := 8, inputBytes := 0
    cls := 0, sep := 0, pad := 0, eos := 0, vocabSize := 256, weightBytes := 0, digest := [], image := [], sums := [], redSums := []
    set := {}, calibrating := 0, unloaded := false }
def aVocab : Vocab :=
  { handle := 7, base := 0, loading := false, bpe := true, presplit := 0, nfc := false, spaceMark := false, addPrefix := false, byteLevel := false
    tokens := (List.range 256).map (fun i => [BitVec.ofNat 8 i]), byteBase := 0, merges := [], specials := [], bos := 0xFFFFFFFF, eos := 0xFFFFFFFF
    byteScore := 0, scores := [], trie := false, bytes := 1024 }
def aRetrieve : RetrieveArgs :=
  { search := { aSearch with queryAddr := 0 }, embedModel := 3, vocab := 7, inputKind := 0, cross := false, pack := false, noLate := false
    finalK := 0, xencK := 0, xencModel := 0, inputLen := 1, inputAddr := 64, passageObject := 0, packAddr := 0, input := [0x61]
    packParams := { vocab := 0, tokensOut := false, textOut := false, addBos := false, trimTail := false, tokenBudget := 0, passageMax := 0
                    template := [], query := [], passages := [], templateLen := 0, queryLen := 0, passageCount := 0, outTokAddr := 0
                    outTextAddr := 0, outTextLen := 0, mapAddr := 0 } }
def modelled (m : Model) (s : State) : State :=
  onPart 0 (fun t => { t with models := [m], vocabs := [aVocab] })
    { s with groves := s.groves.modify 0 (fun g => { g with inService := true }) }

theorem meets_RetrieveChecks :
    firstFail (searchChecks { searchDefaults aRetrieve.search with queryCount := 1, inputType := 0, queryAddr := 0 }
        (dfltFinal 1 aRetrieve.finalK) ++ retrieveFields aRetrieve (some aModel) ++
        retrieveHandles (modelled aModel (stored anIndex)) 0 aRetrieve) = none ∧
    packAdmission (modelled aModel (stored anIndex)) 0 aRetrieve = none ∧ aRetrieve.cross = false ∧
    packAdmission (modelled aModel (stored anIndex)) 0 { aRetrieve with pack := true } ≠ none ∧
    (findModel (part (modelled aModel (stored anIndex)) 0) 3).isSome = true ∧
    variantNow (modelled aModel (stored anIndex)) aModel = some false ∧ shapesFit anIndex aRetrieve false aModel none = false ∧
    shapesFit anIndex aRetrieve false { aModel with pooledDim := 64 } none = true := by and_intros <;> decide

def aRec (o v : Nat) : Rec := { extId := 40, score := 0, shard := 0, stand := 0, segment := 0, ordinal := o, version := v, stage := 1 }
def answerOf (rs : List Rec) : ShardAnswer := { ownAnswer with epoch := 1, lists := [{ emptyList with records := rs }] }

/-- Two versions of one id: one record is left, the larger version's. -/
theorem meets_MergedResultsAreOrderedAndDistinct :
    (mergeQuery 0 2 0 [answerOf [aRec 0 1, aRec 1 (2 ^ 48 - 1)]]).recs = [aRec 1 (2 ^ 48 - 1)] := by decide

def aPart (k : Nat) : PartMsg :=
  { home := 6, part := 0, sq := 0, tag := 4, shard := 0, asReplica := false, params := { aSearch with k := k }, rounds := true }
def lateAsked : LateMsg := { home := 6, part := 0, sq := 0, tag := 4, shard := 0, coll := 1, qcodes := [List.replicate 128 0], qscales := [0, 0, 0, 0], ordinals := [0] }
/-- The answer of shard 1 by device `d`, and the running query that has taken it. -/
def answerOne (d st : Nat) : ShardAnswer := { answerOf [] with shard := 1, device := d, status := st }
def mergeOf (d st : Nat) : MergeArgs := { noInputs 0 0 4 with answers := [answerOne d st] }
def home2 : State := queryAtHome Op.qrySearch { twoShards with otherSets := [{ shard := 1, primary := 6, replicas := [(1, 6), (2, 8)] }] }
def answered (d st : Nat) (s : State) : QueryRun := (mergeOf d st).answers.foldl (fun r y => takeAnswer s y r) aQuery
def lostSix (s : State) : State := { s with fabric := { s.fabric with lost := [6] } }
def reissueOf : ReissueArgs := { part := 0, sq := 0, tag := 4, shard := 1 }

theorem meets_ShardDevicesServeHomes :
    firmwareRuns (stored anIndex) = true ∧ peerGate (held up) 0 = some St.notReady ∧ peerGate (stored anIndex) 0 = none ∧
    (partColl (stored anIndex) (aPart 1)).isOk = true ∧ (aPart 1).cands = none ∧ (aPart 1).rounds = true ∧
    (partColl (stored anIndex) { aPart 1 with shard := 3 }).isOk = false ∧ findColl (stored anIndex) 0 1 = some anIndex ∧
    (roundBase (stored anIndex) 6 0 0 4 1 0).toOption = some (anIndex, false) ∧ (roundBase up 6 0 0 4 1 0).isOk = false ∧
    lateAsked.unreadable = [] ∧ anIndex.skipped = [] ∧ findGuest (stored anIndex) 6 0 0 4 = none ∧ holding (stored anIndex) = false ∧
    (runningQuery home2 0 0 4).any (fun x => decide (x.2 = aQuery)) = true ∧ aQuery.phase = 1 ∧ aQuery.hasRounds = false ∧
    (gathered (answered 6 0 home2)).length = (answered 6 0 home2).asked.length ∧ (answered 6 0 home2).blocked home2 = false ∧
    (gathered (answered 6 0 home2)).all (fun y => decide (y.status = St.ok)) = true ∧
    (gathered (answered 6 St.notReady home2)).any (fun y => decide (y.status ≠ St.ok)) = true ∧
    (gathered (answered 8 0 home2)).length < (answered 8 0 home2).asked.length ∧
    (runningQuery (lostSix home2) 0 0 4).any (fun x => decide (x.2 = aQuery)) = true ∧ (1, 6) ∈ aQuery.asked ∧ aQuery.owes 1 = true ∧
    shardDevice aQuery 1 ∈ (lostSix home2).fabric.lost ∧
    liveReplicas (lostSix home2) ((findColl (lostSix home2) 0 1).getD aQuery.snap) 1 = [8] ∧
    liveReplicas (lostSix (queryAtHome Op.qrySearch twoShards)) twoShards 1 = [] := by and_intros <;> decide

def aStore : StoreArgs :=
  { enc := 0, dh := 64, kvHeads := 1, inputType := 0, count := 1, key := 11, inAddr := 64, ttl := 0
    keys := [[List.replicate 64 0]], values := [[List.replicate 64 0]] }
def anAttend : AttendArgs :=
  { enc := 0, dh := 64, kvHeads := 1, qHeads := 1, inputType := 0, count := 1, scale := 0x3F800000, inAddr := 64, listAddr := 64, outAddr := 64
    outLen := 464, entries := [{ key := 11, device := 5, firstToken := 0, tokenCount := 1 }], queries := [List.replicate 64 0] }
def farAttend : AttendArgs := { anAttend with entries := [{ key := 11, device := 6, firstToken := 0, tokenCount := 1 }] }
def anEntry : KvEntry := { key := 11, enc := 0, dh := 64, kvHeads := 1, tokens := 1, heads := [[]], ttl := 1, named := 0 }
def cached (t : Nat) : State := { onPart 0 (fun p => { p with kv := [anEntry] }) (stored anIndex) with time := t }

set_option maxRecDepth 20000 in
theorem meets_CacheEntriesAreStoredAttendedAndDropped :
    takes (queued Op.qryAttend 64 (stored anIndex)) (qe 64) Op.qryAttend (some 64) = true ∧ firstFail (storeChecks aStore) = none ∧
    (firstFail (storeChecks { aStore with count := 0 })).isSome = true ∧ kvBadToken aStore = none ∧
    kvBadToken { aStore with keys := [[List.replicate 64 0x7F800000]] } = some 0 ∧
    firstFail (attendChecks anAttend) = none ∧
    otherHolders (stored anIndex) anAttend = [] ∧ otherHolders (stored anIndex) farAttend = [(0, 6)] ∧ firstFail (attendChecks farAttend) = none ∧
    (firstFail (attendChecks { anAttend with count := 0 })).isSome = true ∧
    (ownAnswers (cached 0) 0 { anAttend with dh := 128, queries := [List.replicate 128 0] }).any HolderAnswer.mismatch = true ∧
    (ownAnswers (stored anIndex) 0 anAttend).any HolderAnswer.mismatch = false ∧
    ([11] : List Nat).Nodup ∧ peerGate (stored anIndex) 0 = none ∧
    findKv (part (cached 0) 0) 11 = some anEntry ∧ (cached 999999).time < anEntry.named + anEntry.ttl * 1000000 ∧
    anEntry.named + anEntry.ttl * 1000000 ≤ (cached 1000000).time := by and_intros <;> decide

def unitOf (c : Nat) (l : UnitLoc) (h : List Nat) : Machine.PUnit :=
  { id := 0, part := 0, kind := .extent 9 0, cls := c, loc := l, size := 262144, heat := 256, copies := 0, addr := 0, s0 := 0, holders := h }
def placed (u : Machine.PUnit) : State := { stored anIndex with skidder := { up.skidder with units := [u] } }
def rebuildable : Coll := { anIndex with replicas := 1, rebuilding := [1], primary := 5 }

set_option maxRecDepth 20000 in
theorem meets_SkidderPlacesAndMovesUnits :
    up.power.phase = .running ∧ holding (held up) = true ∧ holding up = false ∧ skidderRuns (placed (unitOf 1 .flash [])) = true ∧
    ((placed (unitOf 1 .flash [])).skidder.units.map PUnit.id).Nodup ∧ unitById (placed (unitOf 1 .flash [])) 0 = some (unitOf 1 .flash []) ∧
    mayPromote (placed (unitOf 1 .flash [])) (unitOf 1 .flash []) = true ∧
    unitById (placed (unitOf 0 .hbm [])) 0 = some (unitOf 0 .hbm []) ∧
    isPoisoned (placed (unitOf 1 .flash [])) 0 9 0 = false ∧
    unitById (placed (unitOf 1 .pool [6, 8])) 0 = some (unitOf 1 .pool [6, 8]) ∧ [6, 8].filter (fun d => decide (d ≠ 6)) = [8] ∧
    [6].filter (fun d => decide (d ≠ 6)) = [] ∧ ownId (placed (unitOf 1 .pool [6])) = 5 ∧ heldFor up 6 0 1 = none ∧ mayHold up 4096 = true ∧
    findColl (stored rebuildable) 0 1 = some rebuildable ∧ 1 ∈ rebuildable.rebuilding ∧ (part up 0).state = .active ∧ findColl up 0 1 = none := by
  and_intros <;> decide

/-- Either capacity of HBM leaves 100 GB free when nothing is placed. -/
theorem free_hbm (s : State) (h : (reservedSizes s).sum ≤ 100000000000) (u : hbmUsed s ≤ 100000000000) : 100000000000 ≤ freeHbm s := by
  have h8 : 48000000000 ≤ stackBytes := by unfold stackBytes; split <;> omega
  unfold freeHbm placeableHbm; omega

set_option maxRecDepth 20000 in
theorem meets_hbmRoom :
    (kvRoom (dropKv 0 11 (stored anIndex)) 0 656).isSome = true ∧ (unitOf 1 .flash []).span ≤ freeHbm (placed (unitOf 1 .flash [])) := by
  constructor
  · have h := free_hbm (dropKv 0 11 (stored anIndex)) (by decide) (by decide)
    have c : ceilingIn (layoutValue (dropKv 0 11 (stored anIndex))) 0 = 0 := by decide
    have r : hbmRoom (dropKv 0 11 (stored anIndex)) 0 656 = true := by
      simp only [hbmRoom, c, decide_true, Bool.true_or, Bool.and_true, decide_eq_true_eq]; omega
    have k : kvCount (dropKv 0 11 (stored anIndex)) = 0 := by decide
    have z : ((kvUnits (dropKv 0 11 (stored anIndex))).map PUnit.hbm).sum = 0 := by decide
    simp [kvRoom, k, z, r]
  · have h := free_hbm (placed (unitOf 1 .flash [])) (by decide) (by decide)
    have z : (unitOf 1 .flash []).span = 262144 := by decide
    omega
/-! ## Hypotheses met: Pavé, Canopy and Cruise -/

/-- A pass of engine `e` over a granule of its own pseudo-channel of stack 0. -/
def aPass (e : Nat) : Pass := { engine := e, kernel := 1, granules := 1, queries := 1, first := hbmBase + e * 4096, requester := none }
/-- Stack 0 with passes waiting and granted. -/
def stacked (w g : List Pass) (f : BitVec 64) : State :=
  { stored anIndex with pave := { up.pave with allStacks := up.pave.allStacks.modify 0 (fun k => { k with waiting := w, granted := g, faulted := f }) } }

theorem meets_GovernorGrantsWithinTheCap :
    paveRuns (stacked [aPass 3] [aPass 63] 1) = true ∧ 7 < (stacked [] [] 0).pave.allStacks.length ∧
    effectiveCap up (stackOf up 0) = 32 ∧ effectiveCap up { stackOf up 0 with opActive := 0 } = 0 ∧
    ((stackOf (stacked [] [aPass 63] 0) 0).granted.map Pass.engine).Nodup := by and_intros <;> decide

/-- Engine 3 holds that granule, whichever the capacity. -/
theorem meets_validPass : validPass (stacked [] [] 0) 0 (aPass 3) = true := by
  have h : 48000000000 ≤ stackBytes := by unfold stackBytes; split <;> omega
  have e : (aPass 3).first - hbmBase = 12288 := by decide
  have b : hbmPopulated 12288 = true := by
    simp only [hbmPopulated, Bool.and_eq_true, decide_eq_true_eq]; omega
  simp only [validPass, e, b]
  decide

/-- Five bits of five symbols, two in each of two runs of 256, cannot be corrected; one bit alone is corrected inside its die. -/
def badLine : LineRead := { line := 64, wrong := [0, 1, 2, 3, 32, 300], rows := [{ part := 0, coll := 1, ordinal := 0, form := .green }] }
def skippedIndex : Coll := { greenIndex with skipped := [{ ordinal := 0, form := .epochs }] }
def restoreOf (w : List Nat) : RestoreArgs :=
  { part := 0, coll := 1, ordinal := 0, line := 64, lost := .epochs, rereads := [w], copy := false }

theorem meets_PassesEndAndFaultedEnginesStop :
    ((stackOf (stacked [] [aPass 63] 0) 0).granted.find? (fun y => y.engine = 63)) = some (aPass 63) ∧
    (stacked [] [] 0).pave.allStacks.length = 8 ∧ up.power.phase = .running ∧
    (stackOf (stacked [] [aPass 63] 0) 0).granted.any (fun x => x.engine = 63) = true ∧ (stackOf (stacked [] [] 0) 0).faulted.getLsbD 63 = false ∧
    hostReaches up 0 = true ∧ (1 : Reg).toNat.testBit 0 = true ∧ firmwareRuns (stored skippedIndex) = true ∧
    engineLeased (stacked [] [aPass 63] 0) 0 63 = false ∧ engineLeased (addGranted (waitingAdd 2 (some (0, 7)))) 0 7 = true ∧
    ((stackOf (stacked [] [aPass 63] 0) 0).granted.map Pass.engine).Nodup ∧ paveRuns (stacked [] [aPass 63] 0) = true ∧
    findColl (stored skippedIndex) 0 1 = some skippedIndex ∧ ({ ordinal := 0, form := .epochs } : Skip) ∈ skippedIndex.skipped ∧
    decodeLine [7] = .clean ∧ decodeLine [7, 8] = .corrected ∧ decodeLine badLine.wrong = .uncorrectable ∧
    (restoreOf []).rereads.any (fun w => decide (decodeLine w ≠ .uncorrectable)) = true ∧
    (restoreOf badLine.wrong).rereads.any (fun w => decide (decodeLine w ≠ .uncorrectable)) = false ∧
    (deriveForm skippedIndex 0 .epochs []).isSome = true ∧ (deriveForm skippedIndex 0 .green []).isNone = true := by
  and_intros <;> decide

def groveSamples (x : Nat) : CruiseSamples :=
  { cause := 1, hottest := 40, groveSlack := List.replicate 16 [x], slackAfter := [], slowest := [], baseSlack := List.replicate 8 80
    retentionMs := List.replicate 8 128, portEye := [], landingEye := 0, rber := [] }

def excursed : State := { up with cruise := { up.cruise with lastHottest := 10 } }

theorem meets_CruisePlansVoltagesAndCaps :
    lowestStep 80 800 [80] = some (560, 80) ∧ lowestStep 80 800 [79] = none ∧ lowestStep 80 560 [79, 80] = none ∧ up.power.level = 2 ∧
    up.power.needsReset = false ∧ holding up = false ∧ up.groves.length = 16 ∧ up.pave.allStacks.length = 8 ∧
    (groveOf up 15).degraded = false ∧ (groveOf up 15).sparesUsed = 0 ∧ (groveOf up 15).mv < up.cruise.vCeil ∧
    lowestStep up.cruise.targetSlackPs up.cruise.vCeil ((groveSamples 80).groveSlack.getD 15 []) = some (560, 80) ∧
    runDue (groveSamples 80) excursed = true ∧ runDue { groveSamples 80 with hottest := 20 } excursed = false ∧
    (∀ g, (groveSamples 80).slowest.getD g 0 < 36) ∧
    lowestStep up.cruise.targetSlackPs up.cruise.vCeil ((groveSamples 70).groveSlack.getD 15 []) = none ∧
    (groveOf up 0).mv < up.cruise.vCeil ∧ firmwareRuns excursed = true := by
  and_intros
  all_goals first | decide | (intro g; simp [groveSamples])

def imageBytes : List Byte := List.replicate 4096 0
def loadOf : MdlLoadArgs := { model := 65535, freeze := false, emaShift := 8, instances := 16, imageAddr := 4096, imageLen := 4096, image := imageBytes }
/-- A sequence model of one segment on one grove, which answers tokens. -/
def seqModel : Model := { aModel with inputBinding := 2, inputBytes := 8, pooledDim := 64 }
def items : List ItemIn := [{ lenA := 8, lenB := 0, a := List.replicate 8 0, b := [] }]
def calibrateOf : CalibrateArgs :=
  { model := 3, vocab := 0, freezeAfter := true, inputKind := 2, count := 1, inAddr := 64, inLen := 64, items := items }

theorem meets_ModelsLoadUnloadAndCalibrate :
    admits (stored anIndex) (rq0 0 32) Op.mdlLoad none (lengthIn (rq0 0 32) [32]) = true ∧
    findModel (part (stored anIndex) 0) 65535 = none ∧ overModelLimit (stored anIndex) 0 imageBytes = false ∧
    overModelLimit (stored anIndex) 0 (List.replicate 16 0xFF) = true ∧ Memory.wf up.mem = true ∧
    modelOf (part (modelled { seqModel with calibrating := 1 } up) 0) 1 = some { seqModel with calibrating := 1 } ∧
    admits (modelled seqModel (stored anIndex)) (rq0 0 8) Op.mdlUnload none (lengthIn (rq0 0 8) [8]) = true ∧
    findModel (part (modelled seqModel (stored anIndex)) 0) 3 = some seqModel ∧ seqModel.loading = false ∧
    admits (modelled seqModel (stored anIndex)) (rq0 0 32) Op.mdlCalibrate none (lengthIn (rq0 0 32) [32]) = true ∧
    kindSuits seqModel.inputBinding 2 = true ∧ itemsLen (fitItems 1 items) ≤ 64 ∧ (∀ x ∈ fitItems 1 items, itemBad seqModel 2 x = false) ∧
    (variantNow (modelled seqModel (stored anIndex)) seqModel).isSome = true ∧ (groveOf (modelled seqModel up) 0).inService = true ∧
    (groveOf (modelled seqModel up) 0).sparesUsed < 2 := by and_intros <;> decide

def aRun : MdlRunArgs :=
  { model := 3, vocab := 0, inputKind := 2, batch := 1, inAddr := 64, inLen := 64, outLen := 4096, outAddr := 4096, maxNew := 0, grammar := 0, items := items }
def runOf' (go : Bool) (seg : Nat) (dead : Bool) (use : RunFor) : CanopyRun :=
  { id := 1, part := 0, sq := 0, tag := 4, model := 1, use := use, generate := false
    inputs := [{ seq := [], front := 0, bytes := List.replicate 8 0, cut := false }], started := go, groves := if go then [0] else []
    segment := seg, cancelled := dead }
def waitingRun : CanopyRun := runOf' false 0 false (.items aRun)
def endingRun : CanopyRun := runOf' true 1 false (.items aRun)
def withRun (r : CanopyRun) : State :=
  { onPart 0 (fun t => { t with running := [{ sq := 0, tag := 4, opcode := Op.mdlRun, context := 5, noInt := false, kind := .model 1 }] })
      (modelled seqModel (stored anIndex)) with runs := [r] }

theorem meets_CanopyRunsWaitStartAndEnd :
    takes (queued Op.mdlRun 0 (modelled seqModel (stored anIndex))) (qe 0) Op.mdlRun none = true ∧
    firstFail (modelChecks (part (modelled seqModel up) 0) 3 16) = none ∧ (firstFail (modelChecks (part (modelled seqModel up) 0) 4 16)).isSome = true ∧
    firstFail (mdlRunChecks (modelled seqModel (stored anIndex)) (part (modelled seqModel up) 0) seqModel false aRun) = none ∧
    (firstFail (mdlRunChecks (modelled seqModel (stored anIndex)) (part (modelled seqModel up) 0) seqModel false { aRun with batch := 0 })).isSome = true ∧
    firstFail (mdlRunChecks (modelled seqModel (stored anIndex)) (part (modelled seqModel up) 0) { seqModel with outputRoles := 4 } true { aRun with maxNew := 1 }) = none ∧
    (withRun waitingRun).runs.find? (fun r => !r.started) = some waitingRun ∧ mayStart (withRun waitingRun) = true ∧
    modelOf (part (withRun waitingRun) 0) 1 = some seqModel ∧ variantAt (waitingRun.full (withRun waitingRun)) (withRun waitingRun) seqModel = some false ∧
    contextShort (withRun waitingRun) waitingRun = false ∧ 1 ≤ (freeGroves (withRun waitingRun)).length ∧
    ((runsOf (withRun waitingRun) 0 1).filter CanopyRun.started).length < seqModel.instances ∧
    firmwareRuns (withRun (runOf' true 0 true (.items aRun))) = true ∧
    (runOf' true 0 false (.items aRun)).segment < seqModel.segments ∧
    (withRun endingRun).runs.find? (fun x => decide (x.id = 1)) = some endingRun ∧ seqModel.segments ≤ endingRun.segment ∧
    (runningOf (withRun endingRun) endingRun).isSome = true ∧ endingRun.item + 1 = endingRun.inputs.length ∧ seqModel.unloaded = false := by
  and_intros <;> decide

/-- The end of a run's only item, of a calibration's, and of a GENERATE run that goes on: whatever the outputs are. -/
theorem meets_endItem :
    (∃ next out, endItem (withRun endingRun) seqModel endingRun = .ends next out ∧ next.inputs.length ≤ next.item) ∧
    (∃ next out, endItem (withRun endingRun) seqModel (runOf' true 1 false (.calibrate true)) = .ends next out ∧ next.inputs.length ≤ next.item) ∧
    (∃ next out, endItem (withRun endingRun) seqModel { endingRun with inputs := endingRun.inputs ++ endingRun.inputs } = .ends next out ∧
      next.item < next.inputs.length) ∧
    ∃ next, endItem (withRun endingRun) { seqModel with vocabSize := 1, eos := 0xFFFFFFFF }
      { endingRun with use := .items { aRun with maxNew := 2 }, generate := true } = .goes next :=
  ⟨⟨_, _, rfl, by decide⟩, ⟨_, _, rfl, by decide⟩, ⟨_, _, rfl, by decide⟩, ⟨_, rfl⟩⟩

theorem meets_RunOutputsFitAndFollowTheGrammar :
    (endingRun.inputs.getD endingRun.item { seq := [], front := 0, bytes := [], cut := false }).seq.length ≤ seqModel.seqMax ∧
    ({ seqModel with inputBinding := 1 } : Model).queryMax + 3 ≤ seqModel.seqMax ∧
    (seqInput { seqModel with inputBinding := 1 } [1, 2] [3]).cut = false ∧
    (optId aModel.cls ++ optId aModel.sep).length ≤ aModel.seqMax ∧ (seqInput aModel [1] []).cut = false ∧
    bestLogit [0x3F800000, 0x40000000, 0x40000000] (fun t => decide (t ≠ 0)) 3 = some 1 ∧ bestLogit [] (fun _ => false) 3 = none := by and_intros <;> decide
/-! ## Hypotheses met: rank keys and text -/

/-- The numbers that R239 names lie on both sides of its premises. -/
theorem meets_RankKeysOrderScores :
    rankKey true 0x7F800001 = 0xFFFFFFFF ∧ rankKey false 0xFFFFFFFF = 0xFFFFFFFF ∧ rankKey false 0xFF800000 = 0x007FFFFF ∧
    rankKey true 0xFF800000 = 0xFF800000 ∧ rankKey true 0x80000000 = rankKey true 0 := by and_intros <;> decide

def tokenizing (n : Nat) : TokenizeArgs :=
  { vocab := 7, stream := 0, useStream := false, open_ := false, end_ := false, addBos := false, addEos := false, inLen := 1, outMax := n
    outAddr := 64, offsAddr := 0, text := [0x61] }
def vocabState : State := modelled seqModel (stored anIndex)
def streamed (k : StreamKind) (t : Nat) : State := { onPart 0 (fun p => { p with streams := [{ num := 2, kind := k, lastUse := 0 }] }) vocabState with time := t }
def detokOf (end_ : Bool) (n : Nat) : DetokArgs :=
  { vocab := 7, stream := 2, open_ := false, end_ := end_, renderSpecial := false, eosEnds := false, count := n, stopCount := 0, tokAddr := 64
    outAddr := 64, outLen := 64, stopAddr := 0, toks := [0x61], stops := [] }
def haltedText : StreamKind := .detok 7 [] [] false false true
def goingText : StreamKind := .detok 7 [] [] false false false

set_option maxRecDepth 20000 in
theorem meets_TextIsTokenizedAndReleased :
    takes (queued Op.txtTokenize 0 vocabState) (qe 0) Op.txtTokenize none = true ∧ takes (queued Op.txtDetok 0 vocabState) (qe 0) Op.txtDetok none = true ∧
    firstFail (tokenizeChecks vocabState 0 (tokenizing 1)) = none ∧ (firstFail (tokenizeChecks vocabState 0 { tokenizing 1 with vocab := 8 })).isSome = true ∧
    findVocab (part vocabState 0) 7 = some aVocab ∧
    firstFail (detokChecks (streamed haltedText 0) 0 (detokOf false 1)) = none ∧ firstFail (detokChecks (streamed haltedText 0) 0 (detokOf true 1)) = none ∧
    firstFail (detokChecks vocabState 0 { detokOf false 1 with open_ := true }) = none ∧ (firstFail (detokChecks vocabState 0 (detokOf false 1))).isSome = true ∧
    findStream (part (streamed goingText 0) 0) 2 = some { num := 2, kind := goingText, lastUse := 0 } := by and_intros <;> decide

def textLoad (h : Nat) : TextLoadArgs := { handle := h, vocab := 0, imageAddr := 4096, imageLen := 64, image := [] }
def gramLoad (h : Nat) : TextLoadArgs := { textLoad h with vocab := 7 }
def aGrammar : Grammar :=
  { handle := 3, base := 0, loading := false, vocab := 7, start := 0
    states := [(true, [{ lo := 0x61, hi := 0x61, top := 255, action := 0, push := 0, next := 0 }])], pre := [], maskBytes := 32, bytes := 64 }
def grammarState : State := onPart 0 (fun t => { t with grammars := [aGrammar] }) vocabState
def gramStream (halted : Bool) : State :=
  onPart 0 (fun t => { t with streams := [{ num := 2, kind := .gram 3 { state := 0, stack := [] } halted, lastUse := 0 }] }) grammarState
def stepOf (tok : Option Nat) (close : Bool) : GrmStepArgs :=
  { grammar := 3, stream := 2, open_ := false, close := close, hasToken := tok.isSome, noMask := true, verify := false, token := tok.getD 0, maskAddr := 64, maskLen := 64 }

set_option maxRecDepth 20000 in
theorem meets_ImagesLoadAndGrammarsStep :
    admits vocabState (rq0 0 32) Op.vocabLoad none (lengthIn (rq0 0 32) [32]) = true ∧ admits vocabState (rq0 0 32) Op.grmLoad none (lengthIn (rq0 0 32) [32]) = true ∧
    (findVocab (part vocabState 0) 7).isSome = true ∧ aVocab.loading = false ∧ (∀ g ∈ (part vocabState 0).grammars, g.vocab ≠ 7) ∧
    streamsVocab (part vocabState 0) 7 = false ∧ streamsVocab (part (streamed goingText 0) 0) 7 = true ∧
    findGrammar (part grammarState 0) 3 = some aGrammar ∧ namesGrammar grammarState 0 3 = false ∧ firmwareRuns vocabState = true ∧
    (findStream (part (streamed goingText 0) 0) 2).any (fun x => decide (x.lastUse + 600000000 ≤ (streamed goingText 600000000).time)) = true ∧
    (streamed goingText 599999999).time < 0 + 600000000 ∧ takes (queued Op.grmStep 0 (gramStream false)) (qe 0) Op.grmStep none = true ∧
    firstFail (grmStepChecks (gramStream false) 0 (stepOf (some 0x61) false)) = none ∧ firstFail (grmStepChecks (gramStream false) 0 (stepOf none true)) = none ∧
    (firstFail (grmStepChecks grammarState 0 (stepOf (some 0x61) false))).isSome = true ∧
    gramAllows aGrammar aVocab { state := 0, stack := [] } 0x61 = true ∧ gramAllows aGrammar aVocab { state := 0, stack := [] } 0x62 = false ∧
    preOnly grammarState aVocab = true ∧ preOnly grammarState { aVocab with trie := true } = false ∧
    (serveMask false aGrammar aVocab false { state := 0, stack := [] }).isSome = true ∧
    serveMask true aGrammar aVocab false { state := 0, stack := [] } = none ∧
    aVocab.tokens.length = 256 ∧ gramBytes aGrammar { state := 0, stack := [] } (aVocab.text 0x61) = some { state := 0, stack := [] } := by
  and_intros <;> decide

set_option maxRecDepth 20000 in
theorem meets_OutputsHoldNoStopAndMasksAreExact :
    findStop [0x61] [[0x62]] = none ∧ (detokRun aVocab [[0x62]] false false false [0x61] [0x61]).stop = none ∧
    (detokRun aVocab [[0x62]] false false false [0x61] [0x62]).stop = some 0 ∧ (detokRun aVocab [[0x62]] false true false [] [0xFF]).ended = false ∧
    255 < aVocab.tokens.length ∧ 255 < 8 * aGrammar.maskBytes ∧
    gramBytes aGrammar { state := 0, stack := List.replicate 256 1 } [0x61] = some { state := 0, stack := List.replicate 256 1 } := by and_intros <;> decide

def aPack (budget : Nat) : PackParams :=
  { vocab := 7, tokensOut := true, textOut := false, addBos := false, trimTail := true, tokenBudget := budget, passageMax := 0
    template := [0x7B, 0x7B, 0x23, 0x50, 0x7D, 0x7D, 0x7B, 0x7B, 0x2F, 0x50, 0x7D, 0x7D], query := [], passages := [], templateLen := 12, queryLen := 0, passageCount := 0
    outTokAddr := 64, outTextAddr := 0, outTextLen := 0, mapAddr := 64 }

set_option maxRecDepth 20000 in
theorem meets_PackedPromptsStayInBudget :
    takes (queued Op.promptPack 128 vocabState) (qe 128) Op.promptPack (some 128) = true ∧
    (firstFail (packChecks (part vocabState 0) { aPack 16 with vocab := 9 } false inBlock)).isSome = true ∧
    firstFail (packChecks (part vocabState 0) (aPack 16) false inBlock) = none ∧ (packFixed aVocab (aPack 0) []).isOk = true := by and_intros <;> decide

set_option maxRecDepth 20000 in
/-- There is room for an image. -/
theorem meets_textLoad : firstFail (textLoadChecks vocabState 0 false 1 1 16 64 (textLoad 9)) = none := by
  have h := free_hbm vocabState (by decide) (by decide)
  have c : ceilingIn (layoutValue vocabState) 0 = 0 := by decide
  have r : hbmRoom vocabState 0 (textLoad 9).imageLen = true := by
    have z : (textLoad 9).imageLen = 64 := rfl
    simp only [hbmRoom, c, z, decide_true, Bool.true_or, Bool.and_true, decide_eq_true_eq]; omega
  have a : (allocObj vocabState 0 (textLoad 9).imageLen false).isNone = false := by decide
  simp only [textLoadChecks, r, a]
  decide
/-! ## Hypotheses met: host objects and Deck -/

/-- Object 9 of one extent and a half, at the front of the object range. -/
def anObj : Obj := { handle := 9, size := 98304, base := 0x400000000000, tier := 2 }
def objState : State := onPart 0 (fun t => { t with objs := [anObj] }) (stored anIndex)
def writeOf (off n : Nat) (fua : Bool) : SegWriteArgs :=
  { handle := 9, offset := off, length := n, atomic := false, fua := fua, srcAddr := 64, descAddr := 64, data := List.replicate n 0xAB
    desc := { handle := 9, size := 98304, tierClass := 2 } }
def readOf (n : Nat) : SegReadArgs :=
  { extentCount := 1, desc := false, listAddr := 64, dstAddr := 64, dstLen := 98304, descAddr := 0, descHandle := 0
    list := [{ handle := 9, offset := 0, length := n }], bad := [] }
def recorded : State := onPart 0 (fun t => { t with deferred := [{ handle := 9, extent := 0, reason := 1 }] }) objState

theorem meets_SegmentsAreWrittenReadTrimmedAndFlushed :
    takes (queued Op.segWrite 0 objState) (qe 0) Op.segWrite none = true ∧ takes (queued Op.segRead 0 objState) (qe 0) Op.segRead none = true ∧
    takes (queued Op.segTrim 0 objState) (qe 0) Op.segTrim none = true ∧ takes (queued Op.segFlush 0 recorded) (qe 0) Op.segFlush none = true ∧
    ({ objState with deck := State.reset.deck } : State).deck.inService = false ∧ objState.deck.inService = true ∧ objState.deck.readOnly = false ∧
    Memory.wf objState.mem = true ∧ findObj objState 0 9 = some anObj ∧ findObj up 0 9 = none ∧
    firstFail (segWriteChecks 0 false (writeOf 98303 1 true) objState) = none ∧
    firstFail (segWriteChecks 0 false (writeOf 98303 2 true) objState) = some (St.invalidField, 24) ∧
    firstFail (segWriteChecks 0 true (writeOf 0 1 false) up) = none ∧ (allocObj up 0 98304 true).isSome = true ∧
    flashUsed objState + 65536 * (extentsOf 98303 1).length ≤ objState.deck.capacity ∧ shareIn (layoutValue objState) 0 = 0 ∧
    pinNeed objState 0 9 2 98304 98303 1 = 0 ∧ firstFail (segListCheck objState 0 (readOf 98304).list) = none ∧
    (extentsOf 0 98304).any (fun e => badExtent objState [] 0 9 e) = false ∧ (extentsOf 0 98304).any (fun e => badExtent { objState with deck := { objState.deck with poisoned := [(0, 9, 1)] } } [] 0 9 e) = true ∧
    (part recorded 0).deferred ≠ [] ∧ (part objState 0).deferred = [] := by and_intros <;> decide

def bufOf (e : Nat) (g : Option Nat) : BufExtent := { part := 0, handle := 9, extent := e, dirty := true, group := g }
def imgOf (e b : Nat) : FlashImage :=
  { part := 0, handle := 9, extent := e, cells := [], rawLen := 65536, frameLen := 16384, groupPieces := 0
    pieces := [{ block := b, seq := 0, time := 0, temp := 25, delta := 0 }] }
def flashed : State :=
  { objState with deck := { objState.deck with
      buffer := [bufOf 0 (some 1), bufOf 1 (some 1)], images := [imgOf 0 2, imgOf 1 3], suspended := [(31, 15, 8)]
      blocks := [{ id := 2, pe := 0, written := true }, { id := 3, pe := 401, written := true }] } }
def pieceOf (ls : List (List Int)) (soft auth : Bool) : PieceReadArgs :=
  { part := 0, handle := 9, extent := 0, piece := 0, channel := 0, lun := 0, address := 64, writeTime := 0, writeTemp := 25, levels := ls
    softOk := soft, authOk := auth }

theorem meets_DeckKeepsDataOffBadBlocks :
    deckRuns flashed = true ∧ (dirtyList flashed).any (isBuf 0 9 1) = true ∧ (groupOf flashed 0 9 1).length = 2 ∧ 2 ∉ flashed.deck.bad ∧
    0 < flashed.deck.channels ∧ 2 ≠ noBlock ∧ (part flashed 0).deferred.length < 1024 ∧ suspendsOf flashed.deck 31 15 = 8 ∧
    suspendsOf flashed.deck 0 0 = 0 ∧ 31 < flashed.deck.channels ∧ 15 < flashed.deck.luns ∧
    victimBlock flashed.deck = some { id := 2, pe := 0, written := true } ∧ youngest flashed.deck = some { id := 2, pe := 0, written := true } ∧
    flashed.cruise.spreadLimit < peMax flashed.deck ∧ objState.deck.blocks.filter FlashBlock.written = [] ∧
    peMax objState.deck ≤ objState.cruise.spreadLimit := by and_intros <;> decide

/-- The smallest count is 0, whether or not some good block has not been used. -/
theorem meets_peMin : peMin flashed.deck = 0 := by
  unfold peMin
  split
  · rfl
  · decide

/-- Each end of the ladder, for the offsets whatever they are: the first read, the soft decode or the loss. -/
theorem meets_readEnd :
    readEnd flashed (pieceOf [offsetsOf (thresholdKey flashed (pieceOf [] true true))] true true) = .hard ∧
    readEnd flashed (pieceOf [] true true) = .soft ∧ readEnd flashed (pieceOf [] false true) = .lost ∧
    readEnd flashed (pieceOf [] true false) = .lost := by
  refine ⟨?_, by decide, by decide, by decide⟩
  have h : thresholdKey flashed (pieceOf [offsetsOf (thresholdKey flashed (pieceOf [] true true))] true true) =
    thresholdKey flashed (pieceOf [] true true) := rfl
  unfold readEnd
  rw [h]
  exact if_pos (List.mem_singleton.mpr rfl)
/-! ## Hypotheses met: Skyline and Choker -/

/-- Device 5 of a system of two racks, 4 by 4 devices each. -/
def fab (f : Fabric → Fabric) : State :=
  { stored anIndex with fabric := f { up.fabric with deviceId := some 5, racks := 2, ySize := 4, zSize := 4 } }
def portIs (n : Nat) (x : Port) : State := fab (fun f => { f with ports := f.ports.set n x })
def portOk : PortConfigArgs := { deviceId := 127, racks := 2, ySize := 4, zSize := 4 }
def noParts : State := { fab id with parts := List.replicate 12 {} }

theorem meets_PortsTrainAndLinksGoDown :
    admits noParts (rq 12 16) Op.fabPortConfig none (lengthIn (rq 12 16) [16]) = true ∧ noParts.fabric.ports.length = 8 ∧
    firstFail (portConfigChecks noParts portOk) = none ∧ firstFail (portConfigChecks noParts { portOk with deviceId := 128 }) ≠ none ∧
    firstFail (portConfigChecks (fab id) portOk) ≠ none ∧ portEnabled (fab id) 7 = true ∧ portRef (fab id) 7 = true ∧
    (portOf (portIs 7 { state := .training }) 7).isUp = false ∧ bothHalves (portOf (portIs 7 {}) 7).failed = false ∧
    wiredRight (fab id).fabric 5 0 (neighbourAt (fab id).fabric 5 0) 1 2 4 4 = true ∧ wiredRight (fab id).fabric 5 0 5 1 2 4 4 = false ∧
    (portOf (portIs 7 { state := .joining, beats := 5, neighbour := 6 }) 7).state = .joining ∧
    (portOf (portIs 0 { state := .up8, xoffRx := 0x8000, xoffTx := 1 }) 0).isUp = true ∧ (0x8000 : BitVec 16).getLsbD 15 = true := by and_intros <;> decide

def pkt (t : PktType) (dest n : Nat) : Packet :=
  { typ := t, cls := 0, vc := 0, partition := 0, dest := dest, src := 6, destQp := 3, srcQp := 2, psn := n }
def inOf (x : Packet) : PacketIn := { port := 0, pkt := x }
/-- Port 0 up, and partition 0's keys installed. -/
def upZero : State := onPart 0 (fun t => { t with root := some [7] }) (portIs 0 { state := .up8, neighbour := 6 })
/-- The packet sealed under the link key of partition 0, or under the fabric key. -/
def sealedIn (x : Packet) : PacketIn := { inOf x with key := linkKey 0 (part upZero 0) }
def fabricIn (x : Packet) : PacketIn := { inOf x with key := fabricKey (credentialRoot upZero) }
def flood (p : Nat) : Packet := { pkt .system 5 0 with partition := p, record := some { device := 6, seq := 1, ports := 0 } }

/-- A packet under its partition's link key is authentic, one under the fabric key where that one counts, none with a bad tag. -/
theorem meets_authentic :
    authentic upZero (sealedIn (pkt .send 5 0)) = true ∧ authentic upZero (fabricIn (flood 15)) = true ∧
    authentic upZero (fabricIn (flood 14)) = true ∧ authentic upZero { sealedIn (pkt .send 5 0) with tagOk := false } = false := by
  refine ⟨?_, ?_, ?_, rfl⟩
  · simp [authentic, sealedIn, inOf, pkt, keyAccepted, show (part upZero 0).root = some [7] from rfl]
  · simp [authentic, fabricIn, inOf, flood, pkt, keyAccepted]
  · simp [authentic, fabricIn, inOf, flood, pkt, keyAccepted]


theorem meets_RoutesReachAndPacketsAreForwarded :
    5 ∈ sysDevices upZero.fabric ∧ 6 ∈ sysDevices upZero.fabric ∧ ringCoord 0 5 ≠ ringCoord 0 6 ∧ (arrive (inOf (pkt .send 6 0)) upZero).1 = true ∧
    egressPort { pkt .send 6 0 with dirY := true } 5 ≠ none ∧
    (arrive (inOf (flood 15)) upZero).1 = true ∧ (arrive (inOf (flood 14)) upZero).1 = true ∧ (flood 15).record.isSome = true := by and_intros <;> decide

def qpArgs (n : Nat) : QpCreateArgs :=
  { qp := n, cls := 5, remoteDevice := 6, remoteQp := 2, sqEntries := 16, rqEntries := 4096, sqBase := 4096, rqBase := 8192, cqId := 0
    retryLimit := 0, rnrRetry := 7, retryTimeoutUs := 0, rnrDelayUs := 0 }
def wr (op : Nat) : WorkReq :=
  { opcode := op, signal := true, localObj := false, length := 4, context := 1, localAddr := 64, remoteAddr := 6 * 2 ^ 52, waitQp := 4, waitQueue := 1
    waitTarget := 0, data := [1, 2, 3, 4] }
def qpWith (f : Qp → Qp) : State := onPart 0 (fun t => { t with qps := [f (newQp (qpArgs 3)), newQp (qpArgs 4)] }) upZero
def tailOf (v : Nat) : QpTailArgs := { part := 0, qp := 3, value := v, fetched := [wr 1] }

theorem meets_QueuePairsTakeWorkRequests :
    admits upZero (rq0 0 64) Op.fabQpCreate none (lengthIn (rq0 0 64) [64]) = true ∧ firstFail (qpFields upZero 0 (qpArgs 127)) = none ∧
    firstFail (qpFields upZero 0 (qpArgs 128)) = some (St.invalidField, 32) ∧ (findQp (qpWith id) 0 3).isSome = true ∧ findQp upZero 0 3 = none ∧
    hostReaches (qpWith id) 1 = true ∧ qpFetches (qpWith id) 0 = true ∧ (newQp (qpArgs 3)).sqEntries = 16 ∧ (newQp (qpArgs 3)).rqEntries = 4096 ∧
    wrValid (qpWith id) 0 (newQp (qpArgs 3)) (wr 1) = true ∧ wrValid (qpWith id) 0 (newQp (qpArgs 3)) (wr 2) = true ∧
    wrValid (qpWith id) 0 (newQp (qpArgs 3)) (wr 3) = true ∧ wrValid (qpWith id) 0 (newQp (qpArgs 3)) (wr 4) = true ∧
    wrValid (qpWith id) 0 (newQp (qpArgs 3)) (wr 5) = true ∧
    wrValid (qpWith id) 0 (newQp (qpArgs 3)) { wr 1 with length := 16777217 } = false ∧ notHeld (newQp (qpArgs 3)) = true := by and_intros <;> decide

/-- A packet for firmware's own queue pair toward device 6. -/
def fwPkt (t : PktType) (n : Nat) : Packet := { pkt t 5 n with cls := 6, destQp := 1536, srcQp := 2047 }
def fwArrives (t : PktType) (n : Nat) (s : State) : Bool :=
  decide (s.fabric.deviceId = some (fwPkt t n).dest) && isFwWire (fwPkt t n).destQp && (arrive (inOf (fwPkt t n)) s).1 &&
    decide ((fwPkt t n).src ∉ s.fabric.lost) && wrapAgrees (fwQpOf s 6 0).expPsn (fwQpOf s 6 0).expWrap (fwPkt t n)
def fwKept (f : FwQp → FwQp) : State :=
  setFwQp (f { device := 6, part := 0, nextPsn := 1, unacked := [fwPkt .send 0] }) (onPart 0 (fun t => { t with objs := [anObj] }) upZero)

theorem meets_QueuePairsTakeWorkRequests_firmware :
    (∀ t ∈ [PktType.send, .write, .readReq, .readResp, .flushReq, .ack, .flushAck, .nak], fwArrives t 0 upZero = true) ∧
    (fwPkt .send 0).psn = (fwQpOf upZero 6 0).expPsn ∧ (fwPkt .send 1).psn ≠ (fwQpOf upZero 6 0).expPsn ∧
    (fwWrite 0 { fwPkt .write 0 with addr := 5 * 2 ^ 52 + anObj.base, payload := [1] } (fwKept id)).1 = 0 ∧
    (fwRead 6 0 { fwPkt .readReq 0 with addr := 5 * 2 ^ 52 + anObj.base, msgLen := 0 } (fwKept id)).1 = 0 ∧
    fwMayAccess (fwKept id) 0 (6 * 2 ^ 52 + anObj.base) 1 true = false ∧ fwMayAccess (fwKept id) 0 (5 * 2 ^ 52) 1 false = false ∧
    (fwQpOf (fwKept id) 6 0).rnrWait = false ∧ (fwQpOf (fwKept (fun q => { q with rnrWait := true })) 6 0).rnrWait = true ∧
    (fwQpOf (fwKept (fun q => { q with unackedRx := 3 })) 6 0).unackedRx ≠ 0 ∧ psnOlder (psnBefore 0) 0 = true := by
  and_intros <;> decide

def arrivesOn (t : PktType) (n : Nat) (s : State) : Bool :=
  decide (s.fabric.deviceId = some 5) && !isFwWire (pkt t 5 n).destQp && (arrive (inOf (pkt t 5 n)) s).1 &&
    decide ((pkt t 5 n).destQp / 128 = (pkt t 5 n).partition) &&
    (packetQp s (pkt t 5 n)).any (fun q => !q.error && wrapAgrees q.expPsn q.expWrap (pkt t 5 n))
def copied (n : Nat) (f : Qp → Qp) : State := qpWith (fun q => f { q with unacked := [pkt .send 6 n] })

theorem meets_PacketsArriveInOrderAndAreAcknowledged :
    (∀ t ∈ [PktType.send, .write, .readReq, .readResp, .flushReq, .ack, .flushAck, .nak], arrivesOn t 0 (qpWith id) = true) ∧
    (packetQp upZero (pkt .send 5 0)).isNone = true ∧ (pkt .send 5 0).first = true ∧
    (packetQp (qpWith (fun q => { q with expPsn := 9 })) (pkt .send 5 0)).any (fun q => decide (q.expPsn ≠ 0) && wrapAgrees q.expPsn q.expWrap (pkt .send 5 0)) = true ∧
    (fillRead { pkt .readResp 5 0 with payload := [1] } [{ wr := wr 3 }]).2 = some (wr 3, 0) ∧
    (findQp (copied 0 (fun q => { q with noQpRetries := 5 })) 0 3).any (fun q => decide (q.noQpRetries + 1 < q.retryLimit)) = true ∧
    (findQp (copied 0 (fun q => { q with noQpRetries := 6 })) 0 3).any (fun q => decide (q.retryLimit ≤ q.noQpRetries + 1)) = true ∧
    (findQp (copied 0 (fun q => { q with rnrWait := true, rnrRetry := 2, rnrRetries := 2 })) 0 3).any
      (fun q => q.rnrWait && decide (q.rnrRetry ≠ 7) && decide (q.rnrRetry ≤ q.rnrRetries)) = true ∧
    (findQp (copied 0 (fun q => { q with unackedRx := 1 })) 0 3).any (fun q => decide (q.unackedRx ≠ 0)) = true ∧
    (newQp (qpArgs 3)).recvQ = [] ∧ (newQp (qpArgs 3)).expPsn = 0 ∧
    (packetQp (qpWith (fun q => { q with recvQ := [wr 6] })) (pkt .send 5 0)).any (fun q => q.recvQ.head? = some (wr 6)) = true ∧
    remoteOk (onPart 0 (fun t => { t with objs := [anObj] }) (qpWith id)) 0 (5 * 2 ^ 52 + anObj.base) 4 false = true ∧
    remoteOk (qpWith id) 0 (5 * 2 ^ 52 + anObj.base) 4 true = false ∧ psnOlder (psnBefore 0) 0 = true ∧ psnOlder 0 (2 ^ 32 - 1) = false ∧
    (findQp (copied 0 (fun q => { q with retries := 5 })) 0 3).any (fun q => decide (q.retries + 1 < q.retryLimit)) = true ∧
    (findQp (copied 0 (fun q => { q with retries := 6 })) 0 3).any (fun q => decide (q.retryLimit ≤ q.retries + 1)) = true ∧
    (findQp (copied 0 (fun q => { q with rnrWait := true })) 0 3).any (fun q => q.rnrWait && decide (q.rnrRetry = 7)) = true := by
  and_intros <;> decide

def shapers : List ShaperEntry :=
  (List.range 64).map (fun i => if i % 8 = 7 then { priority := 0, quantum := 0, idleRate := 0, hiCredit := 0, loCredit := 0 }
    else { priority := 6, quantum := 1, idleRate := 2048000, hiCredit := 4144, loCredit := 16777216 })
def waitingPkt : State := portIs 0 { state := .up8, neighbour := 6, egress := [{ src := 8, vcIn := 0, pkt := pkt .send 6 0 }] }
def policed (l : Nat) : State :=
  { upZero with choker := { up.choker with policers := up.choker.policers.set 23 { entry := { enable := 1, rate := 1, burst := 4160 }, level := l } } }

theorem meets_ChokerShapesPolicesAndSamples :
    admits upZero (rq 12 1024) Op.fabShaperSet none (lengthIn (rq 12 1024) [1024]) = true ∧
    admits upZero (rq 12 384) Op.fabPolicerSet none (lengthIn (rq 12 384) [384]) = true ∧
    admits upZero (rq 12 8) Op.fabStats none (lengthIn (rq 12 8) [8]) = true ∧ admits upZero (rq0 0 8) Op.fabStats none (lengthIn (rq0 0 8) [8]) = true ∧
    firstFail ((List.range 64).flatMap (fun i => shaperChecks i (shaperEntry shapers i))) = none ∧
    firstFail ((List.range 64).flatMap (fun i => shaperChecks i (shaperEntry [] i))) ≠ none ∧
    firstFail ((List.range 24).flatMap (fun j => policerChecks j (policerEntry [] j))) = none ∧
    firstFail ((List.range 24).flatMap (fun j => policerChecks j (policerEntry [{ enable := 2, rate := 0, burst := 0 }] j))) ≠ none ∧
    (portOf waitingPkt 0).isUp = true ∧ waitingPkt.choker.shapers.length = 64 ∧ (∀ c, c < 7 → 1 ≤ (shaperOf waitingPkt (0 * 8 + c)).entry.quantum) ∧
    (∀ v ∈ waitingPkt.choker.lastVc, v ≤ 1) ∧ eligible waitingPkt 0 0 = true ∧ (∀ c, c < 8 → eligible upZero 0 c = false) ∧
    up.choker.sampleActive.toNat.testBit 16 = true ∧ hostReaches up 0 = true ∧ (police 23 1 1 (policed 0)).1 = false ∧ (police 23 1 1 (policed 1)).1 = true := by
  and_intros <;> decide
/-! ## Hypotheses met: registers, Forwarder and Landing -/

def regW (fn o n v : Nat) : RegWrite := { fn := fn, offset := o, size := n, value := v }

theorem meets_RegistersTakeWritesAsTheirTypesSay :
    hostReaches up 0 = true ∧ hostReaches up 12 = true ∧ regAccessOk 0x4 4 = true ∧ regAccessOk 0x4 2 = false ∧ regAccessOk 0x1000 4 = false ∧
    regRange 0x3000FC = some (.pav, 0xFC) ∧ exposed 1 .pav = false ∧ up.pave.allStacks.length = 8 ∧ up.channels.length = 32 ∧
    up.landing.linkActive = true ∧ up.landing.bme.getD 0 false = true ∧ insecureFn up 0 = false ∧ up.power.state ≠ .d3hot ∧ summary up = 0 ∧
    summary (setLndStatus 0x40 { up with landing := { up.landing with intEnable := 0x40 } }) ≠ 0 ∧
    summary { up with landing := { up.landing with intEnable := 0x40 } } = 0 ∧ (0xFFFFFFFE : Reg).toNat.testBit 0 = false := by and_intros <;> decide

/-- Channel `c` with a shadow set that writes host memory. -/
def fwdState : State := { stored anIndex with channels := List.replicate 32 { shadow := { ctrl := 0x00E00466, srcCount := 1, dstCount := 1 } } }
def fwdSet : FwdSet := { ctrl := 0x00E00B66, srcCount := 1, dstCount := 1 }
def fwdRun (n : Nat) : FwdRun :=
  { channel := 31, srcList := [{ addr := 64, length := 64 }], dstList := [{ addr := 5 * 2 ^ 52 + hbmBase, length := n }], listsRead := true, bytes := []
    failAt := none }
def busyChannel (e : Nat) (d : Bool) : State := { up with channels := up.channels.set 31 { busy := true, runBytes := 64, runError := e, runInt := true, due := d, captured := fwdSet } }

theorem meets_ForwarderChannelsMoveTheirBytes :
    hostReaches fwdState 0 = true ∧ fwdState.channels.length = 32 ∧ (∀ c, c < 32 → (channelOf fwdState c).shadow.dstHost = true) ∧
    fwdSet.srcListHost = true ∧ fwdSet.dstListHost = true ∧ fwdSet.srcHost = true ∧ fwdSet.dstHost = false ∧
    misaligned fwdSet.srcWidth (fwdRun 64).srcList = false ∧ misaligned fwdSet.dstWidth (fwdRun 64).dstList = false ∧
    misaligned fwdSet.dstWidth (fwdRun 65).dstList = true ∧ sgTotal (fwdRun 128).srcList ≠ sgTotal (fwdRun 128).dstList ∧
    poolDevice (5 * 2 ^ 52 + hbmBase) = 5 ∧ poolLocal (5 * 2 ^ 52 + hbmBase) = hbmBase ∧ fwdState.fabric.deviceId = some 5 ∧
    allRanges fwdState = [] ∧ Memory.wf fwdState.mem = true ∧
    (channelOf (busyChannel 3 false) 31).busy = true ∧ (channelOf (busyChannel 3 false) 31).runError ≠ 0 ∧ landingBlocked (busyChannel 3 false) 0 = false ∧
    (channelOf (busyChannel 3 false) 31).due = false ∧ remoteOpen (busyChannel 3 false) 31 = false ∧
    hostWaits (busyChannel 0 true) fwdSet = false ∧ fwdSet.dstListHost = true ∧
    hostWaits { busyChannel 0 true with landing := { up.landing with bme := [] } } fwdSet = true ∧
    remoteOpen { busyChannel 0 false with fabric := { up.fabric with fwQps := [{ device := 6, part := 0, unacked := [{ pkt .write 6 0 with channel := some 31 }] }] } } 31 = true := by
  and_intros <;> decide

/-- No object covers an address below the object range. -/
theorem meets_noObject (x : Nat) : objAt fwdState x = none := by
  have h : allRanges fwdState = [] := by decide
  simp [objAt, h]

def mapped : State := onPart 0 (fun t => { t with objs := [{ anObj with base := sliceBase 0 }] }) (stored anIndex)
def barAt (n : Nat) : Bar2Access := { part := 0, offset := 98303, length := n, data := [0xAB] }
def ided (x : IdeState) : State := { up with landing := { up.landing with ide := up.landing.ide.set 3 { firstFn := 1, fnCount := 1, state := x } } }
def withEntry : State := queued Op.rowDelete 0 up
def linkDown : State := { up with landing := { up.landing with linkActive := false } }

theorem meets_HostLinkKeepsItsRules :
    hostReaches mapped 1 = true ∧ 98303 + 2 ≤ bar2Size mapped ∧ bar2Range mapped 0 (sliceBase 0 + 98303) 2 = none ∧
    (bar2Range mapped 0 (sliceBase 0 + 98303) 1).any ObjRange.host = true ∧ (findObj mapped 0 9).isSome = true ∧
    (∀ e ∈ extentsOf 98303 1, isPoisoned mapped 0 9 e = false) ∧ (ided .secure).landing.ide.any (fun i => i.holds 1) = true ∧
    (ided .secure).landing.ide[3]? = some { firstFn := 1, fnCount := 1, state := .secure } ∧ (ided .off).landing.ide.length = 4 ∧
    firmwareRuns up = true ∧
    (findSq (part withEntry 0) 0).any (fun x => decide ((x.fetched.head?.map Entry.tag) = some 9)) = true ∧
    (channelOf (busyChannel 0 true) 31).busy = true ∧ (channelOf (busyChannel 0 true) 31).due = true ∧
    (channelOf (busyChannel 0 false) 31).due = false ∧ up.landing.bme.length = 13 ∧ up.parts.length = 12 ∧ linkDown.landing.linkActive = false ∧
    linkDown.power.refclk.getD 3 false = true ∧ up.power.state ≠ .shardHold ∧ (∀ b ∈ up.deck.buffer, (findObj up b.part b.handle).isSome = true) ∧
    ({ up.power with state := .d3hot } : Power).state = .d3hot := by and_intros <;> decide

/-- A stream is keyed under its partition's IDE PSK. -/
theorem meets_mayKey : mayKey (ided .insecure) { stream := 3, firstFn := 1, fnCount := 1, psk := idePsk 0 (part (ided .insecure) 0) } = true := by
  have h : (ided .insecure).landing.ide.zipIdx.all (fun x => decide (x.2 = 3) || (List.range 1).all (fun k => !x.1.holds (1 + k))) = true := by decide
  have a : (part (ided .insecure) 0).state = .active := by decide
  have e : mayKey (ided .insecure) { stream := 3, firstFn := 1, fnCount := 1, psk := idePsk 0 (part (ided .insecure) 0) } =
      ((ided .insecure).landing.ide.zipIdx.all (fun x => decide (x.2 = 3) || (List.range 1).all (fun k => !x.1.holds (1 + k))) &&
        decide ((part (ided .insecure) 0).state = .active)) := by simp [mayKey]
  rw [e, h, a]
  rfl
/-! ## Hypotheses met: security and metering -/

def hm (f : Hallmark → Hallmark) : State := { up with hallmark := f up.hallmark }
def change (item : Nat) (v : List Byte) : TallyChangeArgs := { item := item, valueLen := v.length, value := v }
def layout (b : Byte) : List Byte := (List.replicate 12 [(0 : Byte), 0, 0, b]).flatten ++ zeros 16
def spent : State := hm (fun h => { h with items := h.items.modify 1 (fun x => { x with remaining := 0 }) })
def signedOut : State := hm (fun h => { h with signTimes := List.replicate 32 0 })

set_option maxRecDepth 20000 in
theorem meets_SignaturesAndTallyChanges :
    admits up (rq 12 40) Op.secAttest none (lengthIn (rq 12 40) [40]) = true ∧ signBlocked up = none ∧ signBlocked signedOut = some 1 ∧
    signBlocked (hm (fun h => { h with nextLeaf := 2 ^ 35 })) = some 2 ∧ admits up (rq 12 8) Op.secTallyRead none (lengthIn (rq 12 8) [8]) = true ∧
    admits up (rq 12 80) Op.secTallyChange (some 2) (tallyLength (rq 12 80) (change 2 (layout 1))) = true ∧
    firstFail (valueChecks 2 (fitBytes (itemLen 2) (layout 0))) = none ∧ up.hallmark.items.length = 6 ∧
    cleanValue 2 (fitBytes (itemLen 2) (layout 1)) = presentValue up 2 ∧ cleanValue 2 (fitBytes (itemLen 2) (layout 0)) ≠ presentValue up 2 ∧
    tallyConflict up 2 (layout 0) = true ∧ tallyConflict noParts 2 (layout 0) = false ∧ (tallyItem spent 2).remaining < 1 ∧
    1 ≤ (tallyItem up 2).remaining ∧ admits up (rq 12 8) Op.secAuditRead none (lengthIn (rq 12 8) [8]) = true ∧ up.hallmark.audit = [] ∧
    treeLeft (hm (fun h => { h with nextLeaf := 2 ^ 19 + 1 })).hallmark < 2 ^ 19 ∧ up.hallmark.nextTree = 0 := by and_intros <;> decide

/-- The same device with a session of another identity. -/
def asWho (i : Identity) : State := { up with sessions := [{ id := 1, identity := i }] }

def updating : State := hm (fun h => { h with update := some { length := 4096, image := [] } })
def traceReq (m n : Nat) : MbxReq := rq m n

theorem meets_UpdatesSessionsAndDebugAct :
    admits up (rq 12 16) Op.secFwUpdate none (lengthIn (rq 12 16) [16]) = true ∧ admits up (rq 12 16) Op.secFwUpdate none none = true ∧
    admits up (rq 12 16) Op.secFwUpdate none (phaseStep (rq 12 16) 0) = true ∧ up.hallmark.update = none ∧ (updating.hallmark.update).isSome = true ∧
    admits updating (rq 12 80) Op.secFwUpdate none (dataLength (rq 12 80) 64) = true ∧ firmwareRuns up = true ∧ up.hallmark.lockout = false ∧
    identityAccepted up .operator = true ∧ identityAccepted up .setup = false ∧ up.sessions.length < 2 ∧
    (hm (fun h => { h with lockout := true })).hallmark.lockout = true ∧
    admits up (rq 15 8) Op.dbgTrace none (lengthIn (rq 15 8) [8]) = true ∧ admits up (rq 15 8) Op.dbgCounters none (lengthIn (rq 15 8) [8]) = true ∧
    (requestIdentity up (rq 15 8)).bind isTenantDebug = none ∧ admits up (rq 15 16) Op.dbgLoupe none (lengthIn (rq 15 16) [16]) = true := by
  and_intros <;> decide

def scaled (f : Scaler → Scaler) : State := { up with scaler := f up.scaler }
def composed (open_ : Bool) (x : Scaler → Scaler) : State :=
  let c : Composition := { id := 1, customer := [], startUj := 0, seconds := 0, cflags := 0, closedMwh := 0 }
  { up with scaler := x { up.scaler with openComp := if open_ then some c else none, lastComp := if open_ then none else some c } }

theorem meets_MeterRequestsAnswer :
    up.scaler.runs = true ∧ (composed true (fun x => { x with firmwareOk := false })).scaler.runs = false ∧
    admits (asWho .meter) (rq 14 40) Op.mtrRead none (lengthIn (rq 14 40) [40]) = true ∧ admits (asWho .meter) (rq 14 32) Op.mtrCompose none (lengthIn (rq 14 32) [32]) = true ∧
    admits (asWho .meter) (rq 14 48) Op.mtrDecompose none (lengthIn (rq 14 48) [48]) = true ∧ admits (asWho .meter) (rq 14 8) Op.mtrEvents none (lengthIn (rq 14 8) [8]) = true ∧
    up.scaler.maySign = true ∧ (scaled (fun x => { x with bucket := 0 })).scaler.maySign = false ∧ (composed true id).scaler.openComp.map Composition.id = some 1 ∧ (composed false id).scaler.openComp.map Composition.id ≠ some 1 ∧
    (composed false id).scaler.lastComp.map Composition.id = some 1 ∧ up.scaler.lastComp.map Composition.id ≠ some 1 ∧
    (composed false (fun x => { x with receipt := some ([0], [], [1]) })).scaler.receipt = some ([0], [], [1]) := by and_intros <;> decide

def fullLog : Scaler := { up.scaler with events := List.replicate 1024 { seq := 1, kind := 1, startCount := 1, time := 0, energy := 0, detail := 0 } }
def auditOf (n : Nat) : AuditRec :=
  { seq := n, kind := 1, item := 1, aflags := 0, time := 0, remaining := 0, cost := 1, oldDigest := [], newDigest := [], prevDigest := [], leaf := 0 }

set_option maxRecDepth 20000 in
theorem meets_ScalerCountsAndLogs :
    up.scaler.runs = true ∧ up.scaler.clockFault = false ∧ (scaled (fun x => { x with clockFault := true })).scaler.runs = true ∧ up.scaler.mainPower = true ∧
    fullLog.events.length = 1024 ∧ (∃ e ∈ fullLog.events, e.kind ≠ 2) ∧ (scaled (fun x => { x with on := false })).scaler.on = false ∧ firmwareRuns up = true ∧
    up.scaler.openComp = none ∧ (composed true id).scaler.openComp ≠ none ∧ up.scaler.paramChanges < 32 ∧ up.scaler.lastAudit < 1 ∧
    ((hm (fun h => { h with audit := [auditOf 1] })).hallmark.audit.filter (fun a => a.kind = 1 && a.item = 1)).getLast? = some (auditOf 1) ∧
    up.parts.length = 12 ∧ up.apportion.lastTotal = none ∧ (part up 0).state = .active := by and_intros <;> decide

/-- A sideband message that asks for the identity. -/
def sideMsg (op : Nat) : List Byte := le 2 op ++ le 2 7 ++ le 2 14 ++ zeros 26
def side (f : State → State) : State := f up

set_option maxRecDepth 20000 in
theorem meets_SidebandTargetsAnswer :
    up.power.phase ≠ .auxOff ∧ up.power.level ≤ 2 ∧ ({ up.power with phase := .auxOff } : Power).phase = .auxOff ∧ up.scaler.on = true ∧
    (scaled (fun x => { x with sideReply := some [0] })).scaler.sideReply = some [0] ∧ up.scaler.sideReply = none ∧ up.i3cSignalled = none ∧
    ({ up with i3cSignalled := some (true, [1]), i3cResponses := [[2]] } : State).i3cSignalled = some (true, [1]) ∧
    32 ≤ (sideMsg Op.devIdentify).length ∧ field (sideMsg Op.devIdentify) 0 2 = Op.devIdentify ∧
    frameLen (field [1, 0] 0 1) ≠ some 1 ∧ frameLen (field ([1] ++ zeros 40) 0 1) = some 40 ∧ (scaled (fun x => { x with firmwareOk := false })).scaler.on = true := by
  and_intros <;> decide
/-! ## Hypotheses met: the invariant -/

/-- The running device of these tests is sound. -/
theorem meets_EveryStepKeepsSoundness : Sound up :=
  { memory := by decide, partitions := by decide, mailboxes := by decide, items := by decide, leaves := by decide, energy := ⟨by decide, by decide⟩ }

theorem meets_ResetIsSound : State.reset.pending = [] := rfl
/-! ## WellFormed: an ill-formed term for each check -/

def refused (l : List Instr) : Bool := l.all (fun i => !i.wellFormed)
def q0 : SqReq := qe 0
def r0 : MbxReq := rq 12 0
def wide : Nat := 2 ^ 64
def textAsked : PassageQuery := { sq := 0, tag := 0, shard := 0, object := 0 }

theorem wf_accepts :
    [Instr.devIdentify r0, .commandDone 0x0302 7, .tileFault 15 35, .bar2Resize 4, .pauseFrameRx 7 0, .flrVf 11,
      .registerWrite { fn := 12, offset := 0x3FFFFFC, size := 4, value := 0xFFFFFFFF }, .qryCancel q0 63 65535,
      .idleGate 12, .passOverrun { stack := 7, engine := 63 }, .readSuspend 31 15, .referenceClockLoss 4 true, .secFwUpdateBegin r0 { phase := 4, imageLen := 0 }, .collSeason r0 { coll := 0, mode := 3 }].all Instr.wellFormed = true := by decide

set_option maxRecDepth 20000 in
theorem wf_refuses_headers :
    refused [.devIdentify { r0 with mbx := 16 }, .devStatus { r0 with tag := 65536 }, .partCreate { r0 with partition := 256 },
      .partRelease { r0 with length := 2 ^ 32 }, .ingestCommit { q0 with part := 12 } 0, .ingestCommit { q0 with sq := 64 } 0,
      .ingestCommit { q0 with tag := 65536 } 0, .ingestCommit { q0 with context := wide } 0, .ingestCommit { q0 with paramAddr := wide } 0,
      .ingestCommit { q0 with paramLen := 2 ^ 32 } 0, .ingestCommit q0 65536, .undefinedOpcode (.mailbox { r0 with mbx := 16 }) 0,
      .undefinedOpcode (.queue { q0 with sq := 64 }) 0, .undefinedOpcode (.queue q0) 65536,
      .sqTailDoorbell { part := 0, queue := 0, value := 0, fetched := [{ opcode := 65536, tag := 0 }] },
      .sqTailDoorbell { part := 0, queue := 64, value := 0, fetched := [] }, .cqHeadDoorbell { part := 12, queue := 0, value := 0 },
      .eqHeadDoorbell { part := 0, queue := 0, value := 2 ^ 32 }, .cqHeadDoorbell { part := 0, queue := 0, value := 0, fetched := [(0, [{ opcode := 0, tag := 65536 }])] },
      .qpSqTailDoorbell { part := 0, qp := 128, value := 0, fetched := [] }, .qpRqTailDoorbell { part := 12, qp := 0, value := 0, fetched := [] },
      .qpSqTailDoorbell { part := 0, qp := 0, value := 0, fetched := [{ wr 1 with length := 2 ^ 32 }] }, .wrSend { part := 0, qp := 128 },
      .cqCoalesceTimer 0 64] = true := by decide

set_option maxRecDepth 20000 in
theorem wf_refuses_device :
    refused [.devSetPower r0 { target := 256, idleDisable := 0, idleAfterUs := 0 }, .devCruise r0 { targetSlackPs := 0, excursionC := 0, vCeil := 65536, spreadLimit := 0 }, .devCruise r0 { mode := 1, targetSlackPs := 0, excursionC := 0, vCeil := 0, spreadLimit := 0 },
      .devCruiseRun r0 { targetSlackPs := 0, excursionC := 256, vCeil := 0, spreadLimit := 0 }, .devLogRead r0 (2 ^ 32) 1, .mtrEvents r0 0 65536, .dbgTrace r0 (2 ^ 32) 1,
      .partitionReleaseScrub 12, .flrVf 12, .partQueueCreate r0 { newSq with entries := 2 ^ 32 }, .partQueueDelete r0 256 0, .sqDeleteDone 0 64,
      .partKeyLoad r0 { tenantPub := zeros 31, wrapNonce := zeros 12, wrappedRoot := zeros 32, wrapTag := zeros 16 },
      .partKeyLoad r0 { tenantPub := zeros 32, wrapNonce := zeros 13, wrappedRoot := zeros 32, wrapTag := zeros 16 },
      .partKeyLoad r0 { tenantPub := zeros 32, wrapNonce := zeros 12, wrappedRoot := zeros 31, wrapTag := zeros 16 },
      .partKeyLoad r0 { tenantPub := zeros 32, wrapNonce := zeros 12, wrappedRoot := zeros 32, wrapTag := zeros 15 }, .commandDone 65536 0, .idleGate 13, .idleWake 13,
      .wedgedBlock 13, .tempAlert 65536, .powerLimit 65536, .i3cPrivateWrite false [], .i3cAddressAssign false (some 128), .referenceClockLoss 5 true,
      .bar2Resize 5, .fabStats r0 65536 0, .secTallyRead r0 256, .secTallyChange r0 { item := 1, valueLen := 65536, value := [] },
      .secTallyChange r0 { item := 1, valueLen := 0, value := List.replicate 4081 0 }, .secAuditRead r0 (2 ^ 32), .secAttest r0 { kind := 0, nonce := zeros 31 }, .secAttest r0 { kind := 1, nonce := zeros 32 }, .mtrRead r0 false false (zeros 33),
      .mtrCompose r0 wide (zeros 16), .mtrCompose r0 0 (zeros 15), .mtrDecompose r0 0 (zeros 31), .secFwUpdateBegin r0 { phase := 0, imageLen := 2 ^ 32 }, .secFwUpdateBegin r0 { phase := 3, imageLen := 0 }, .secFwUpdateData r0 (2 ^ 32) [],
      .secFwUpdateData r0 0 (List.replicate 4081 0), .dbgCounters r0 256, .apportionEnergy (List.replicate 11 0),
      .scalerParamsFrame { block := zeros 511, auditSeq := 0, kind := 0, item := 0, newDigest := zeros 32, verifies := true },
      .scalerParamsFrame { block := zeros 512, auditSeq := 0, kind := 0, item := 0, newDigest := zeros 31, verifies := true },
      .scalerParamsFrame { block := zeros 512, auditSeq := 2 ^ 32, kind := 0, item := 0, newDigest := zeros 32, verifies := true }] = true := by decide

set_option maxRecDepth 20000 in
theorem wf_refuses_store :
    refused [.collCreate r0 { newIndex with coll := 65536 }, .collCreate r0 { newIndex with entries := [{ device := 65536, firstRow := 0 }] }, .collDrop r0 65536,
      .collConfig r0 { cfg0 with tier := 256 }, .collAudit r0 { anAudit with k := 65536 }, .collAudit r0 { anAudit with queryCount := 2 },
      .collAudit r0 { anAudit with block := { aSearch with k := 65536 } }, .rowInsert q0 { oneWrite with count := 2 }, .rowUpsert q0 { oneWrite with inputType := 256 },
      .rowInsert q0 { oneWrite with rows := [{ id := wide, vec := [], attr := 0, toks := [] }] }, .rowInsert q0 { oneWrite with rows := [{ id := 0, vec := [2 ^ 32], attr := 0, toks := [] }] },
      .rowDelete q0 { coll := 0, count := 1, idsAddr := 0, ids := [] }, .rowDelete q0 { coll := 0, count := 1, idsAddr := 0, ids := [wide] },
      .rowDelete q0 { coll := 65536, count := 0, idsAddr := 0, ids := [] },
      .rowRead q0 { coll := 0, outType := 0, withAttr := false, count := 1, idsAddr := 0, outAddr := 0, foundAddr := 0, attrOutAddr := 0, ids := [] },
      .rowRead q0 { coll := 0, outType := 256, withAttr := false, count := 0, idsAddr := 0, outAddr := 0, foundAddr := 0, attrOutAddr := 0, ids := [] },
      .rowAdd q0 { tableAdd with order := [1] }, .rowAdd q0 { tableAdd with grads := [] }, .rowAddMerged q0 { tableAdd with order := [] },
      .rowAdd q0 { tableAdd with coll := 65536 }, .rowAdd q0 { tableAdd with grads := [{ row := wide, grad := [] }] },
      .pooledRowRequest { src := 0, part := 12, coll := 0, op := .read [] }, .replicaIngest { src := 65536, part := 0, coll := 0, op := .commit },
      .replicaSeason { src := 0, part := 12, coll := 0, compaction := false, segment := 0, ordinals := [], retired := [] },
      .leaseExpiry { part := 0, coll := 0, row := 0, switches := true, stack := 8, engine := 0 }, .leaseExpiry { part := 0, coll := 0, row := 0, switches := true, stack := 0, engine := 64 },
      .collSeason r0 { coll := 0, mode := 1 }, .seasoning 0 65536, .compaction 0 0 (2 ^ 32), .rowMigration { part := 0, coll := 0, row := 0, dest := .hbm 8, leaseExpires := false },
      .poolUnitRecopy 0 4096 0, .replicaRebuild 0 0 0 4096 none, .poolHolderRequest 0 0 3 0 [], .skippedRowRestore { restoreOf [] with ordinal := 2 ^ 48 }] = true := by decide

set_option maxRecDepth 20000 in
theorem wf_refuses_queries :
    refused [.qrySearch q0 { aSearch with queryCount := 256 }, .qrySearch q0 { aSearch with queries := [] }, .qrySearch q0 { aSearch with filters := [{ op := 256, mask := 0, value := 0 }] },
      .qrySearch q0 { aSearch with filters := List.replicate 256 { op := 0, mask := 0, value := 0 } }, .qryRetrieve q0 { aRetrieve with finalK := 65536 },
      .qryRetrieve q0 { aRetrieve with packParams := { aRetrieve.packParams with templateLen := 1 } }, .qryRetrieve q0 { aRetrieve with packParams := { aRetrieve.packParams with queryLen := 1 } },
      .qryRerank q0 { aRerank with cands := [] }, .qryRerank q0 { aRerank with qtokens := 2 }, .qryRerank q0 { aRerank with qtextLen := 1 }, .qryRerank q0 { aRerank with xencK := 65536 },
      .qryCancel q0 256 0, .qryAttend q0 { anAttend with count := 2 }, .qryAttend q0 { anAttend with qHeads := 2 }, .qryAttend q0 { anAttend with dh := 65536 },
      .qryAttend q0 { anAttend with entries := [{ key := wide, device := 0, firstToken := 0, tokenCount := 0 }] }, .qryAttendStore q0 { aStore with keys := [] },
      .qryAttendStore q0 { aStore with values := [] }, .qryAttendStore q0 { aStore with ttl := 2 ^ 32 }, .qryAttendDrop q0 { count := 1, inAddr := 0, keys := [] },
      .qryAttendDrop q0 { count := 1, inAddr := 0, keys := [wide] }, .qryAttendDrop q0 { count := 0, inAddr := wide, keys := [] }, .shardPart { aPart 1 with part := 12 },
      .shardPart (aPart 65536), .shardMerge { mergeOf 0 0 with sq := 256 }, .lateInteractionPart { lateAsked with coll := 65536 },
      .attendPart { home := 0, part := 0, sq := 0, tag := 0, index := 1024, dh := 64, kvHeads := 1, qHeads := 1, scale := 0, entry := { key := 0, device := 0, firstToken := 0, tokenCount := 0 }, queries := [], unreadable := [] },
      .shardReissue { reissueOf with shard := 65536 }, .passageFetch 4096 0 textAsked [], .passageFetch 0 0 textAsked [wide], .shardCancellation 0 12 { sq := 0, tag := 0 }, .shardCancellation 0 0 { sq := 0, tag := 65536 }, .cacheEntryExpiry 0 wide] = true := by decide

set_option maxRecDepth 20000 in
theorem wf_refuses_models_and_text :
    refused [.mdlLoad r0 { model := 0, freeze := false, emaShift := 0, instances := 0, imageAddr := 0, imageLen := 1, image := [] }, .mdlUnload r0 65536,
      .mdlLoad r0 { model := 65536, freeze := false, emaShift := 0, instances := 0, imageAddr := 0, imageLen := 0, image := [] },
      .mdlRun q0 { aRun with batch := 2 }, .mdlRunGenerate q0 { aRun with maxNew := 65536 }, .mdlCalibrate r0 { calibrateOf with count := 2 }, .mdlCalibrate r0 { calibrateOf with vocab := 65536 },
      .tileFault 16 0, .tileFault 0 36, .txtTokenize q0 { tokenizing 1 with inLen := 2 }, .txtTokenize q0 { tokenizing 1 with stream := 65536 }, .txtDetokStream q0 (detokOf false 2),
      .txtDetokStream q0 { detokOf false 1 with stopCount := 1 }, .txtDetokStream q0 { detokOf false 1 with toks := [2 ^ 32] }, .txtDetokStream q0 { detokOf false 1 with vocab := 65536 },
      .grmLoad r0 (textLoad 1), .vocabLoad r0 { textLoad 65536 with imageLen := 0 }, .grmUnload r0 { handle := 65536, imageAddr := 0 }, .vocabUnload r0 { handle := 0, imageAddr := wide }, .mdlRun q0 { aRun with mode := 1 }, .grmStep q0 { stepOf none true with maskLen := 2 ^ 32 },
      .promptPack q0 { aPack 16 with templateLen := 13 }, .promptPack q0 { aPack 16 with queryLen := 1 }, .promptPack q0 { aPack 16 with mapAddr := wide },
      .trieRebuild 0 65536 true, .streamContextTimeout 12 0] = true := by decide

set_option maxRecDepth 20000 in
theorem wf_refuses_fabric_and_host :
    refused [.fabPortConfig r0 { portOk with racks := 256 }, .fabQpCreate r0 { qpArgs 0 with cls := 256 }, .fabQpDelete r0 65536, .fabShaperSet r0 [],
      .fabShaperSet r0 (List.replicate 64 { priority := 256, quantum := 0, idleRate := 0, hiCredit := 0, loCredit := 0 }), .fabPolicerSet r0 [],
      .fabPolicerSet r0 (List.replicate 24 { enable := 256, rate := 0, burst := 0 }), .pktSendRx (inOf (pkt .write 5 0)), .pktWriteRx (inOf (pkt .send 5 0)), .pktReadReqRx (inOf (pkt .send 5 0)),
      .pktReadRespRx (inOf (pkt .send 5 0)), .pktAckRx (inOf (pkt .send 5 0)), .pktNakRx (inOf (pkt .send 5 0)), .pktFlushReqRx (inOf (pkt .send 5 0)), .pktFlushAckRx (inOf (pkt .send 5 0)),
      .pktSystemRx (inOf (pkt .send 5 0)), .packetForwarding { inOf (pkt .send 5 0) with port := 8 }, .packetForwarding (inOf (pkt .send 4096 0)), .packetForwarding (inOf { pkt .send 5 0 with cls := 8 }),
      .packetForwarding (inOf { pkt .send 5 0 with vc := 2 }), .packetForwarding (inOf { pkt .send 5 0 with partition := 16 }), .packetForwarding (inOf { pkt .send 5 0 with src := 4096 }),
      .packetForwarding (inOf (pkt .send 5 (2 ^ 32))), .packetForwarding (inOf { pkt .send 5 0 with payload := List.replicate 4097 0 }), .linkUp 8, .heartbeatRx 0 4096 0 false, .heartbeatRx 0 0 8 false,
      .pauseWatchdog 0 16, .laneFailure 0 8, .trainingNeighbourArrival 0 0 0 256 1 1, .queueSampleTimer [], .governorGrant { stack := 8, arrivals := [] },
      .governorGrant { stack := 0, arrivals := [{ aPass 64 with kernel := 5 }] }, .pavePassEnd { stack := 0, engine := 64, lines := [] }, .pavePassEnd { stack := 0, engine := 0, lines := [{ line := 0, wrong := [576], rows := [] }] }, .engineFault { stack := 8, engine := 0 },
      .fwdChannelDone { fwdRun 64 with channel := 32 }, .registerWrite (regW 13 0 4 0), .registerWrite (regW 0 0x4000000 4 0), .registerWrite (regW 0 0 0 0),
      .registerWrite (regW 0 0 65 0), .registerWrite (regW 0 0 4 (2 ^ 32)), .bar2Read { barAt 1 with part := 12 }, .bar2Read { barAt 0 with data := [] }, .bar2Write (barAt 2),
      .bar2Read (barAt 4097), .hostNonIdeTlp { fn := 13, isWrite := false }, .ideKmKeyProgram { stream := 4, firstFn := 0, fnCount := 1, psk := [] },
      .ideKmKeyProgram { stream := 0, firstFn := 1, fnCount := 13, psk := [] }, .ideIntegrityFailure 4, .hostReadFailure { what := .channel 0, cause := 0 },
      .hostReadFailure { what := .channel 0, cause := 4 }, .busMasterEnableChange 13 true] = true := by decide

set_option maxRecDepth 20000 in
theorem wf_refuses_objects_and_deck :
    refused [.segWrite q0 { writeOf 0 1 false with length := 2 }, .segWriteDesc q0 { writeOf 0 1 false with handle := wide }, .segRead q0 { readOf 1 with extentCount := 2 }, .segRead q0 (readOf (2 ^ 32)),
      .segRead q0 { readOf 1 with dstAddr := wide }, .segTrim q0 { handle := 0, offset := 0, length := wide }, .segFlush q0 { reportAddr := 0, reportMax := 65536 },
      .extentProgram { part := 12, handle := 0, extent := 0 }, .programFailure { block := 0, isErase := false, part := 0, handle := 0, extent := 2 ^ 32, again := false },
      .flashPieceRead { pieceOf [] true true with channel := 32 }, .flashPieceRead { pieceOf [] true true with lun := 16 }, .flashPieceRead { pieceOf [] true true with piece := 4 },
      .readSuspend 32 0, .readSuspend 0 16, .cruiseRun { groveSamples 0 with cause := 3 }, .cruiseRun { groveSamples 0 with groveSlack := [] }, .cruiseRun { groveSamples 0 with baseSlack := [] },
      .cruiseRun { groveSamples 0 with retentionMs := [] }, .cruiseRun (groveSamples 0), .hwVoltageRaise 16 { slack := 0, tile := 0 }, .hwVoltageRaise 0 { slack := 256, tile := 0 }, .hwVoltageRaise 0 { slack := 0, tile := 36 }] = true := by decide

/-! ## Single steps, with the values that the rules give -/

/-- The next state of a command. -/
def after (c : Instr) (s : State) : State :=
  match exec c s with
  | .next t => t
  | .fault _ => s
  | .refused _ => s

/-- R602: in reset with 48 V good, only bit 13. -/
theorem test_getstatus_in_reset : (after (.getstatus false) State.reset).issued = [.i3cStatus 0x2000] := by decide
/-- R602: SERVICE_LEVEL 2 in [11:10], P48V_GOOD. -/
theorem test_getstatus_running : (after (.getstatus false) up).issued = [.i3cStatus 0x2800] := by decide
/-- R602: Scaler's target returns 0. -/
theorem test_getstatus_scaler : (after (.getstatus true) up).issued = [.i3cStatus 0] := by decide

/-- R334: heat halves; below 256 a unit holds no copy. -/
theorem test_heat_decay :
    (after .heatDecay (placed { unitOf 1 .hbm [] with heat := 511, copies := 2 })).skidder.units.map (fun u => (u.heat, u.copies)) = [(255, 0)] ∧
    (after .heatDecay (placed { unitOf 1 .hbm [] with heat := 512, copies := 2 })).skidder.units.map (fun u => (u.heat, u.copies)) = [(256, 2)] := by and_intros <;> decide

/-- R225: an operator cap above 32 acts as 32, and takes effect at PAV_COMMIT with bit 0. -/
theorem test_operator_cap :
    (stackOf (after (.registerWrite (regW 0 0x300104 4 40)) up) 1).opShadow = 32 ∧ (stackOf (after (.registerWrite (regW 0 0x300104 4 4)) up) 1).opShadow = 4 ∧
    (stackOf (after (.registerWrite (regW 0 0x300104 4 4)) up) 1).opActive = 32 ∧
    (stackOf (after (.pavCommit 1) (after (.registerWrite (regW 0 0x300104 4 4)) up)) 1).opActive = 4 ∧
    (stackOf (after (.pavCommit 2) (after (.registerWrite (regW 0 0x300104 4 4)) up)) 1).opActive = 32 := by and_intros <;> decide

/-- R20: status bits clear where 1 is written; R459: a VF's write to a PF range is ignored. -/
theorem test_status_write :
    (after (.registerWrite (regW 0 0x300400 4 0x00000102)) { up with pave := { up.pave with intStatus := 0x303 } }).pave.intStatus = 0x201 ∧
    (after (.registerWrite (regW 1 0x300400 4 0xFFFFFFFF)) { up with pave := { up.pave with intStatus := 0x303 } }).pave.intStatus = 0x303 := by and_intros <;> decide

/-- R90: a TAIL of ENTRIES or more puts the queue in error; a TAIL inside it does not. -/
theorem test_sq_tail :
    (findSq (part (after (.sqTailDoorbell { part := 0, queue := 0, value := 64, fetched := [] }) up) 0) 0).map Sq.error = some true ∧
    (findSq (part (after (.sqTailDoorbell { part := 0, queue := 0, value := 63, fetched := [] }) up) 0) 0).map (fun x => (x.error, x.tail)) = some (false, 63) := by
  and_intros <;> decide

/-- R410: a neighbour at the wrong place leaves the port down with reason 4; R409, the right one goes on to heartbeats. -/
theorem test_training :
    ((portOf (after (.trainingNeighbourArrival 0 9 1 2 4 4) (fab id)) 0).state, (portOf (after (.trainingNeighbourArrival 0 9 1 2 4 4) (fab id)) 0).reason) = (.down, 4) ∧
    (portOf (after (.trainingNeighbourArrival 0 6 1 2 4 4) (fab id)) 0).state = .joining := by and_intros <;> decide

/-- R55, R56: device 5 is at x = 1, y = 1; its X ports reach 6 and 4, its Y ports 9 and 1. -/
theorem test_neighbours : (List.range 4).map (neighbourAt (fab id).fabric 5) = [6, 4, 9, 1] := by decide

set_option maxRecDepth 20000 in
/-- R407, R442: a failed lane takes an up link down with reason 5; R409 brings it back at width 4. -/
theorem test_lane_failure :
    let s := { upZero with fabric := { upZero.fabric with deviceId := none } }
    (portOf (after (.laneFailure 0 0) s) 0).isUp = false ∧ (portOf (after (.laneFailure 0 0) s) 0).reason = 5 := by and_intros <;> decide

set_option maxRecDepth 20000 in
/-- R539: one pulse for each 360 J; the rest is kept. -/
theorem test_pulses :
    (after (.scalerSecond 720000001) up).issued = [.meterPulse, .meterPulse] ∧ (after (.scalerSecond 720000001) up).scaler.pulseUj = 1 := by and_intros <;> decide
set_option maxRecDepth 20000 in
/-- R538: below CREEP_W, 2 W as shipped, nothing is counted. -/
theorem test_creep : (after (.scalerSecond 1999999) up).scaler.accUj = 0 ∧ (after (.scalerSecond 2000000) up).scaler.accUj = 2000000 := by and_intros <;> decide

/-- R102: an FLR of a VF drops its queues and keeps its collections. -/
theorem test_flr_vf :
    (part (after (.flrVf 0) (stored anIndex)) 0).sqs = [] ∧ (part (after (.flrVf 0) (stored anIndex)) 0).colls = [anIndex] := by and_intros <;> decide

/-- R307: a context unnamed for 600 s closes, one named later stays. -/
theorem test_stream_timeout :
    (part (after (.streamContextTimeout 0 2) (streamed goingText 600000000)) 0).streams = [] ∧
    (part (after (.streamContextTimeout 0 2) (streamed goingText 599999999)) 0).streams.length = 1 := by and_intros <;> decide

/-- R381, R400: a write that ends beyond the object fails with INVALID_FIELD and the offset of OFFSET. -/
theorem test_seg_write_past_end : firstFail (segWriteChecks 0 false (writeOf 98304 1 false) objState) = some (0x0102, 24) := by decide

/-- R71: an unknown opcode answers INVALID_OPCODE before its length is looked at. -/
theorem test_unknown_opcode : headerCheck up (rq 12 4) 0x9999 none (some (St.invalidLength, 8)) = some (0x0101, 0) := by decide

/-- R239: the order of −∞, −1, ±0, 1, +∞ and NaN where higher scores are better. -/
theorem test_rank_order :
    ([0x7FC00000, 0x7F800000, 0x3F800000, 0x80000000, 0xBF800000, 0xFF800000].map (rankKey true)) =
      [0xFFFFFFFF, 0x007FFFFF, 0x407FFFFF, 0x7FFFFFFF, 0xBF800000, 0xFF800000] := by decide

/-- R128: to nearest, ties to even; what rounds beyond the largest finite value is stored as that value. -/
theorem test_bf16_ties : [0x3F808000, 0x3F818000, 0x3F808001, 0xFF7FFFFF].map bfOf32 = [0x3F80, 0x3F82, 0x3F81, 0xFF7F] := by decide

set_option maxRecDepth 20000 in
/-- FIPS 180-4: the digest of the three bytes "abc". -/
theorem test_sha256 : (sha256 [0x61, 0x62, 0x63]).take 8 = [0xBA, 0x78, 0x16, 0xBF, 0x8F, 0x01, 0xCF, 0xEA] := by decide +kernel

/-- R324: a template whose block holds a query marker is refused at that marker. -/
theorem test_template :
    packFixed aVocab { aPack 16 with template := [0x7B, 0x7B, 0x23, 0x50, 0x7D, 0x7D, 0x7B, 0x7B, 0x51, 0x55, 0x45, 0x52, 0x59, 0x7D, 0x7D], templateLen := 15 } [] =
      .error (0x0132, 6) := by rfl

/-- An empty queue: one microsecond passes (log entry 1). -/
theorem test_empty_queue_idles : (step up) = .next { up with time := up.time + 1 } := by rfl

/-- R76: a message of mailbox 12 is taken ahead of a partition's, and behind an earlier one of mailbox 12. -/
theorem test_post_order :
    (([Instr.devStatus (rq 12 0), .collDrop (rq 0 8) 1, .devIdentify (rq 13 0)]).foldl (fun s c => s.post c) up).pending =
      [.devStatus (rq 12 0), .devIdentify (rq 13 0), .collDrop (rq 0 8) 1] := by decide

/-- Unicode 15.1: A with ring composes, Hangul composes by rule, U+0958 is excluded from composition, marks are reordered. -/
theorem test_nfc :
    [[0x41, 0x30A], [0x1100, 0x1161], [0x958], [0x61, 0x315, 0x323]].map Machine.nfc = [[0xC5], [0xAC00], [0x915, 0x93C], [0x1EA1, 0x315]] := by decide +kernel

/-- R230: one wrong bit of a die is corrected in it; four symbols are corrected, five are not. -/
theorem test_line_decoder :
    [[7], [0, 1], [0, 1, 2, 3], [0, 1, 2, 3, 32, 33]].map decodeLine = [.clean, .corrected, .corrected, .uncorrectable] := by decide

/-- R271: 1 × 1 / 2 is M = 2^30, SH = 31; FIPS 180-4: SHA-384 of "abc". -/
theorem test_rescale : rescaleEntry 0x3F800000 0x3F800000 0x40000000 = (2 ^ 30, 31) := by decide
set_option maxRecDepth 20000 in
theorem test_sha384 : (sha384 [0x61, 0x62, 0x63]).take 8 = [0xCB, 0x00, 0x75, 0x3F, 0x45, 0xA3, 0x5E, 0x8B] := by decide +kernel
end Sys2Proof.Tests
end

