-- ==== Sys2Proof/Proofs/Reset.lean ====
section
/-! Sys2Proof/Proofs/Reset.lean: the machine right after a full-reset entry (R560), subsystem by subsystem. -/
namespace Sys2Proof.Proofs
open Sys2Proof.Machine Sys2Proof.Safety

/-! ## Every element of a reset list stands at its reset value -/

theorem eq_default_of_mem_reset_mbx {b : Mailbox} (h : b ∈ State.reset.mbx) : b = {} := List.eq_of_mem_replicate h

theorem eq_default_of_mem_reset_parts {t : Part} (h : t ∈ State.reset.parts) : t = {} := List.eq_of_mem_replicate h

theorem eq_default_of_mem_reset_channels {c : Channel} (h : c ∈ State.reset.channels) : c = {} := List.eq_of_mem_replicate h

theorem eq_default_of_mem_reset_allStacks {k : Stack} (h : k ∈ State.reset.pave.allStacks) : k = {} := List.eq_of_mem_replicate h

/-! ## Soundness and what the device shows -/

/-- Signing has used no leaf and reserved none, and Scaler has counted no energy and stored none. -/
theorem sound_reset : Sound State.reset where
  memory := Laws.wf_reset
  partitions := List.length_replicate
  mailboxes := List.length_replicate
  items := rfl
  leaves := ⟨Nat.le_refl 0, Nat.le_refl 0⟩
  energy := ⟨Nat.le_refl 0, fun _ => rfl⟩

/-- R103 does not hold at reset, so SERVICE_LEVEL is the level itself. -/
theorem serviceLevel_reset : serviceLevel State.reset = 0 := rfl

theorem mailbox_reset_not_ready {b : Mailbox} (h : b ∈ State.reset.mbx) : b.ready = false ∧ b.overrun = false := by
  rw [eq_default_of_mem_reset_mbx h]
  exact ⟨rfl, rfl⟩

theorem part_reset_free {t : Part} (h : t ∈ State.reset.parts) : t.state = .free ∧ t.sqs = [] ∧ t.cqs = [] ∧ t.eq = none := by
  rw [eq_default_of_mem_reset_parts h]
  exact ⟨rfl, rfl, rfl, rfl⟩

theorem stack_reset_caps {k : Stack} (h : k ∈ State.reset.pave.allStacks) :
    k.opShadow = 32 ∧ k.opActive = 32 ∧ k.cruiseActive = 32 := by
  rw [eq_default_of_mem_reset_allStacks h]
  exact ⟨rfl, rfl, rfl⟩

theorem channel_reset_idle {c : Channel} (h : c ∈ State.reset.channels) : c.busy = false ∧ c.done = false ∧ c.error = false := by
  rw [eq_default_of_mem_reset_channels h]
  exact ⟨rfl, rfl, rfl⟩

/-! ## The tally store as shipped (R524) -/

theorem reset_items : State.reset.hallmark.items = shippedItems := rfl

theorem shippedItems_budget : shippedItems.map TallyItem.budget = [32, 64, 16, 255, 64, 16] := rfl

/-- No change has been paid for: every item has its whole budget left. -/
theorem shippedItems_remaining : shippedItems.map TallyItem.remaining = shippedItems.map TallyItem.budget := rfl

/-- Item 3, the credential root, is unset (log entry 8). -/
theorem tallyItem_reset_values :
    (tallyItem State.reset 3).value = [] ∧ (tallyItem State.reset 4).value = [0] ∧
      (tallyItem State.reset 5).value = [0xFF] ∧ (tallyItem State.reset 6).value = [0, 0] :=
  ⟨rfl, rfl, rfl, rfl⟩

/-- Settles O60, from the reset values of each subsystem: first the device and its mailboxes and partitions, then the
interrupt registers, Pave's caps, Choker and Loupe, the channels of the forwarder, and the tally store. -/
theorem resetIsSound : Obligations.ResetIsSound := by
  unfold Obligations.ResetIsSound
  obtain ⟨root, item4, item5, item6⟩ := tallyItem_reset_values
  have budgets : State.reset.hallmark.items.map TallyItem.budget = [32, 64, 16, 255, 64, 16] := by
    rw [reset_items, shippedItems_budget]
  have remaining : State.reset.hallmark.items.map TallyItem.remaining = [32, 64, 16, 255, 64, 16] := by
    rw [reset_items, shippedItems_remaining, shippedItems_budget]
  exact ⟨sound_reset, rfl, rfl, serviceLevel_reset, fun _ => mailbox_reset_not_ready, fun _ => part_reset_free,
    rfl, rfl, rfl, rfl, rfl, rfl, rfl, rfl,
    fun _ => stack_reset_caps, rfl, rfl, rfl, rfl, fun _ => channel_reset_idle,
    budgets, remaining, root, item4, item5, item6, rfl⟩

end Sys2Proof.Proofs
end

