-- ==== Sys2Proof/Proofs/Mailbox.lean ====
section
/-! Sys2Proof/Proofs/Mailbox.lean: a mailbox's rules of R67, R71, R72, R76 and R103, once for each operation, and the
statements that rest on them: replay, OVERRUN, refused opcodes, NEEDS_FULL_RESET and DEV_FULL_RESET. -/
namespace Sys2Proof.Proofs
open Sys2Proof.Machine Sys2Proof.Safety

/-! ## What a mailbox holds after a response -/

/-- A mailbox that shows a response to the source of its request: DONE on the BAR path, and no longer busy where its doorbell
was rung (R67, R69). -/
def shownOn (path : Path) (b : Mailbox) : Mailbox :=
  match path with
  | .bar => { b with done := true }
  | .rung => { b with busy := false, done := true }
  | _ => b

theorem shownOn_stored (path : Path) (b : Mailbox) : (shownOn path b).stored = b.stored := by cases path <;> rfl
theorem shownOn_lastSeq (path : Path) (b : Mailbox) : (shownOn path b).lastSeq = b.lastSeq := by cases path <;> rfl

theorem mailboxOf_sendMsix (fn v m : Nat) (s : State) : mailboxOf (sendMsix fn v s) m = mailboxOf s m := by
  unfold mailboxOf
  rw [Laws.sendMsix_mbx]

/-- Delivering a reply changes, of the request's mailbox, what `shownOn` says. -/
theorem mailboxOf_deliverReply (r : MbxReq) (rep : Reply) (s : State) (h : r.mbx < s.mbx.length) :
    mailboxOf (deliverReply r rep s) r.mbx = shownOn r.path (mailboxOf s r.mbx) := by
  unfold deliverReply
  split
  case h_1 e => rw [mailboxOf_sendMsix, Laws.mailboxOf_onMailbox_same _ _ _ h, e]; rfl
  case h_2 e =>
    dsimp only
    rw [e]
    split
    · rw [mailboxOf_sendMsix, Laws.mailboxOf_onMailbox_same _ _ _ h]; rfl
    · rw [Laws.mailboxOf_onMailbox_same _ _ _ h]; rfl
  case h_3 e => rw [e]; rfl
  case h_4 e =>
    rw [e]
    unfold mailboxOf
    rw [Laws.signalI3c_mbx]
    rfl
  case h_5 e => rw [e]; rfl

/-- A mailbox that is READY is one of those there are. -/
theorem mbx_lt_of_ready {s : State} {m : Nat} (h : (mailboxOf s m).ready = true) : m < s.mbx.length := by
  refine Nat.lt_of_not_le fun le => ?_
  rw [show mailboxOf s m = {} by
    unfold mailboxOf
    rw [List.getD_eq_getElem?_getD, List.getElem?_eq_none le]
    rfl] at h
  exact absurd h (by decide)

theorem firmwareRuns_iff (s : State) : firmwareRuns s = true ↔ s.power.phase = .running ∧ s.power.fwFault = false := by
  simp [firmwareRuns]

/-! ## Requests that are not executed -/

theorem mailboxFull_of_not_executes {r : MbxReq} {op : Nat} {item : Option Nat} {step5 : Option (Nat × Nat)}
    {body : State → MRes} {s : State} (h : executes s r = false) :
    mailboxFull r op item step5 body s = notExecuted r op s := by
  unfold mailboxFull
  rw [h]
  rfl

/-- R72: a SEQUENCE equal to LAST_SEQ is not executed while the response to it is stored. -/
theorem executes_replay {s : State} {r : MbxReq} {rep : Reply} (hst : (mailboxOf s r.mbx).stored = some rep)
    (hseq : (mailboxOf s r.mbx).lastSeq = r.seq) : executes s r = false := by
  simp [executes, hst, hseq]

/-- R67: a mailbox that is not READY, is busy or shows a response takes no BAR request. -/
theorem executes_bar_refused {s : State} {r : MbxReq} (hp : r.path = .bar)
    (h : (mailboxOf s r.mbx).ready = false ∨ (mailboxOf s r.mbx).busy = true ∨ (mailboxOf s r.mbx).done = true) :
    executes s r = false := by
  rcases h with h | h | h <;> simp [executes, Mailbox.takes, hp, h]

/-- A replay that the mailbox could take is answered with the stored response (R72). -/
theorem notExecuted_replay {s : State} {r : MbxReq} {rep : Reply} (op : Nat) (hfw : firmwareRuns s = true)
    (hpath : pathServes s r = true) (hready : (mailboxOf s r.mbx).ready = true)
    (hbusy : (mailboxOf s r.mbx).busy = decide (r.path = .rung))
    (hdone : ¬(r.path = .bar ∧ (mailboxOf s r.mbx).done = true)) (hst : (mailboxOf s r.mbx).stored = some rep) :
    notExecuted r op s = deliverReply r rep s := by
  obtain ⟨hrun, hfault⟩ := (firmwareRuns_iff s).mp hfw
  have hserves : ¬((!pathServes s r || decide (s.power.phase ≠ .running) ||
      (decide (r.path = .rung) && !(mailboxOf s r.mbx).busy)) = true) := by
    simp [hpath, hrun, hbusy]
  have htaken : ¬((decide (r.path = .bar) && (!(mailboxOf s r.mbx).ready || s.power.fwFault || (mailboxOf s r.mbx).busy ||
      (mailboxOf s r.mbx).done)) = true) := by
    simp only [hready, hfault, hbusy, Bool.not_true, Bool.false_or, Bool.and_eq_true, Bool.or_eq_true, decide_eq_true_eq]
    rintro ⟨hb, hr | hd⟩
    · rw [hb] at hr; cases hr
    · exact hdone ⟨hb, hd⟩
  have hidle : ¬(((mailboxOf s r.mbx).busy && decide (r.path ≠ .rung)) = true) := by simp [hbusy]
  unfold notExecuted
  dsimp only
  rw [if_neg hserves, if_neg htaken, if_neg (by simp [hfault, hready]), if_neg hidle, hst]

/-- A BAR request to a mailbox that takes none sets OVERRUN and nothing else (R67). -/
theorem notExecuted_overrun {s : State} {r : MbxReq} (op : Nat) (hp : r.path = .bar) (hpath : pathServes s r = true)
    (hrun : s.power.phase = .running)
    (h : (mailboxOf s r.mbx).ready = false ∨ (mailboxOf s r.mbx).busy = true ∨ (mailboxOf s r.mbx).done = true) :
    notExecuted r op s = onMailbox r.mbx (fun b => { b with overrun := true }) s := by
  unfold notExecuted
  dsimp only
  rw [if_neg (by simp [hpath, hrun, hp]), if_pos]
  rcases h with h | h | h <;> simp [hp, h]

/-- Settles O3: the request is not executed, and the stored response goes out again. -/
theorem replayAnswersAgain : Obligations.ReplayAnswersAgain := by
  unfold Obligations.ReplayAnswersAgain
  intro r op item step5 body s rep hfw hpath hready hbusy hdone hst hseq
  have hout : mailboxFull r op item step5 body s = deliverReply r rep s := by
    rw [mailboxFull_of_not_executes (executes_replay hst hseq),
      notExecuted_replay op hfw hpath hready hbusy hdone hst]
  have hbox := mailboxOf_deliverReply r rep s (mbx_lt_of_ready hready)
  refine ⟨deliverReply r rep s, hout, Laws.deliverReply_shown r rep s, ?_, ?_, ?_, ?_⟩
  · rw [hbox, shownOn_stored, hst]
  · rw [hbox, shownOn_lastSeq, hseq]
  · rw [hbox]
    rintro (hp | hp) <;> rw [hp] <;> rfl
  · rw [hbox]
    cases hp : r.path <;> simp [shownOn, hbusy, hp]

/-! ## The order of waiting messages (R76) -/

/-- The command is a message of a partition's mailbox. -/
def tenantMessage (x : Instr) : Bool := match messageOf x with | some k => decide (k < 12) | none => false

theorem tenantMessage_iff (x : Instr) : tenantMessage x = true ↔ ∃ k, messageOf x = some k ∧ k < 12 := by
  unfold tenantMessage
  cases messageOf x <;> simp

/-- What `post` leaves before a command of mailbox 12 or 13, and behind it. -/
theorem post_ahead {c : Instr} (s : State) (h : messageOf c = some 12 ∨ messageOf c = some 13) :
    s.post c = { s with pending :=
      s.pending.takeWhile (fun x => !tenantMessage x) ++ c :: s.pending.dropWhile (fun x => !tenantMessage x) } := by
  unfold State.post enqueueMessage
  rw [if_pos h]
  rfl

theorem post_behind {c : Instr} (s : State) (h : ¬(messageOf c = some 12 ∨ messageOf c = some 13)) :
    s.post c = { s with pending := s.pending ++ [c] } := by
  unfold State.post enqueueMessage
  rw [if_neg h]

/-- Settles O4: a refused doorbell sets OVERRUN; the place of an arriving command is that of `post_ahead` or
`post_behind`. -/
theorem unservedDoorbellSetsOverrun : Obligations.UnservedDoorbellSetsOverrun := by
  unfold Obligations.UnservedDoorbellSetsOverrun
  refine ⟨fun r op item step5 body s hp hpath hrun h => ?_, fun c s => ?_⟩
  · rw [mailboxFull_of_not_executes (executes_bar_refused hp h), notExecuted_overrun op hp hpath hrun h]
  · by_cases h : messageOf c = some 12 ∨ messageOf c = some 13
    · refine ⟨_, _, (List.takeWhile_append_dropWhile (p := fun x => !tenantMessage x)).symm, post_ahead s h,
        fun _ => ⟨fun x hx k hk => ?_, fun x hx => ?_⟩, fun h12 h13 => absurd h (not_or.mpr ⟨h12, h13⟩)⟩
      · have hnot := List.all_eq_true.mp List.all_takeWhile x hx
        refine Nat.le_of_not_lt fun hlt => ?_
        rw [(tenantMessage_iff x).mpr ⟨k, hk, hlt⟩] at hnot
        exact absurd hnot (by decide)
      · have hfirst := List.head?_dropWhile_not (fun x => !tenantMessage x) s.pending
        rw [Option.mem_def.mp hx] at hfirst
        exact (tenantMessage_iff x).mp (by simpa using hfirst)
    · exact ⟨s.pending, [], (List.append_nil _).symm, post_behind s h, fun h' => absurd h' h, fun _ _ => rfl⟩

/-! ## Requests that are executed and refused -/

theorem mailboxFull_header_fails {r : MbxReq} {op : Nat} {item : Option Nat} {step5 : Option (Nat × Nat)} {s : State}
    {e : Nat × Nat} (body : State → MRes) (hex : executes s r = true) (h : headerCheck s r op item step5 = some e) :
    Answered r op e.1 e.2 false [] (mailboxFull r op item step5 body s) ∧ Shown s (mailboxFull r op item step5 body s) :=
  Laws.mailboxFull_fails hex (by unfold answer; rw [h])

theorem mailboxFull_gate_fails {r : MbxReq} {op : Nat} {item : Option Nat} {step5 : Option (Nat × Nat)} {s : State}
    {st : Nat} (body : State → MRes) (hex : executes s r = true) (h : headerCheck s r op item step5 = none)
    (hg : gate s op (if r.mbx < 12 then some r.mbx else none) false = some st) :
    Answered r op st 0 false [] (mailboxFull r op item step5 body s) ∧ Shown s (mailboxFull r op item step5 body s) :=
  Laws.mailboxFull_fails (e := (st, 0)) hex (by unfold answer; rw [h]; dsimp only; rw [hg])

/-- An entry that begins and fails a check completes with it, and has no effect but to leave its queue. -/
theorem queueFull_fails {q : SqReq} {op : Nat} {bl : Option Nat} {s : State} {e : Nat × Nat} (body : State → QRes)
    (hb : mayBegin s q op = true) (h : entryCheck (takeEntry q s) q op bl = some e) :
    queueFull q op bl body s = completeSq q.part q.sq q.tag q.context q.noInt e.1 0 e.2 0 (takeEntry q s) := by
  unfold queueFull answerEntry
  rw [if_pos hb, h]
  rfl

/-! ## The checks of R71 and R106 -/

theorem headerCheck_undefined {s : State} {r : MbxReq} {op : Nat} (item : Option Nat) (step5 : Option (Nat × Nat))
    (hlen : r.length ≤ 4096) (hc : carried op = none) :
    headerCheck s r op item step5 = some (St.invalidOpcode, 0) := by
  unfold headerCheck
  rw [if_neg (Nat.not_lt.mpr hlen), if_pos (by rw [hc]; rfl)]

theorem headerCheck_not_carried {s : State} {r : MbxReq} {op : Nat} {c : Carried} (item : Option Nat)
    (step5 : Option (Nat × Nat)) (hlen : r.length ≤ 4096) (hc : carried op = some c)
    (h : c.queue = true ∨ c.fromMailbox r.mbx = false) :
    headerCheck s r op item step5 = some (St.notPermitted, 0) := by
  have hn : notPermittedAt s r op item = some 0 := by
    unfold notPermittedAt
    rw [hc]
    rcases h with h | h <;> simp [h]
  unfold headerCheck
  rw [if_neg (Nat.not_lt.mpr hlen), if_neg (by simp [hc]), hn]

theorem entryCheck_undefined {s : State} {q : SqReq} {op : Nat} (hq : q.indirect = false) (hc : carried op = none) :
    entryCheck s q op none = some (St.invalidOpcode, 0) := by
  simp [entryCheck, hq, hc]

theorem entryCheck_mailbox_opcode {s : State} {q : SqReq} {op : Nat} {c : Carried} (hq : q.indirect = false)
    (hc : carried op = some c) (hn : c.queue = false) : entryCheck s q op none = some (St.notPermitted, 0) := by
  simp [entryCheck, hq, hc, hn]

/-! ## The state of R103 -/

theorem gate_needsReset {s : State} {op : Nat} (p : Option Nat) (byQueue : Bool) (h : s.power.needsReset = true)
    (hop : runsAtNeedsReset op = false) : gate s op p byQueue = some St.needsFullReset := by
  simp [gate, h, hop]

theorem entryCheck_gate {s : State} {q : SqReq} {op st : Nat} {bl : Option Nat} (hq : q.indirect = bl.isSome)
    (hblock : q.indirect = true → q.paramAddr % 64 = 0 ∧ 1 ≤ q.paramLen ∧ q.paramLen ≤ 4096 ∧ some q.paramLen = bl)
    (hc : ∀ c, carried op = some c → c.queue = true) (hdef : carried op ≠ none)
    (hg : gate s op (some q.part) true = some st) : entryCheck s q op bl = some (st, 0) := by
  obtain ⟨c, hcar⟩ := Option.ne_none_iff_exists'.mp hdef
  have haddr : ¬(q.indirect = true ∧ q.paramAddr % 64 ≠ 0) := fun h => h.2 (hblock h.1).1
  have hlen : ¬(q.indirect = true ∧ (q.paramLen < 1 ∨ 4096 < q.paramLen ∨ some q.paramLen ≠ bl)) := by
    rintro ⟨hi, h⟩
    obtain ⟨-, h1, h2, h3⟩ := hblock hi
    rcases h with h | h | h
    · omega
    · omega
    · exact h h3
  unfold entryCheck
  rw [if_neg haddr, if_neg hlen, hcar]
  dsimp only
  rw [hc c hcar, ← hq, hg]
  cases q.indirect <;> rfl

theorem takeEntry_gate (q : SqReq) (op : Nat) (s : State) (h : s.power.needsReset = true)
    (hop : runsAtNeedsReset op = false) : gate (takeEntry q s) op (some q.part) true = some St.needsFullReset :=
  gate_needsReset _ _ (by unfold takeEntry; exact h) hop

/-- Settles O6: the first of the gates answers, on either carrier. -/
theorem needsFullResetStopsCommands : Obligations.NeedsFullResetStopsCommands := by
  unfold Obligations.NeedsFullResetStopsCommands
  intro s op hs h1 h2 h3 h4 h5
  have hop : runsAtNeedsReset op = false := by
    simp [runsAtNeedsReset, Op.devIdentify, Op.devStatus, Op.devLogRead, Op.devFullReset, h1, h2, h3, h4, h5]
  exact ⟨fun r item step5 body hex hh => mailboxFull_gate_fails body hex hh (gate_needsReset _ _ hs hop),
    fun q bl body hb hq hblock hc hdef => queueFull_fails (e := (St.needsFullReset, 0)) body hb
      (entryCheck_gate hq hblock hc hdef (takeEntry_gate q op s hs hop))⟩

/-! ## Opcodes that the carrier does not take -/

theorem exec_undefinedOpcode_mailbox {r : MbxReq} {op : Nat} (s : State) (h : ∀ c, carried op = some c → c.queue = true) :
    exec (.undefinedOpcode (.mailbox r) op) s = .next (mailbox r op [] (fun s => { st := s }) s) := by
  have hno : ((carried op).map (fun x => !x.queue)).getD false = false := by
    cases hc : carried op with
    | none => rfl
    | some c => simp [h c hc]
  show Sys2Proof.Machine.execUndefinedOpcode (.mailbox r) op s = _
  unfold execUndefinedOpcode
  dsimp only
  rw [hno]
  rfl

theorem exec_undefinedOpcode_queue {q : SqReq} {op : Nat} (s : State) (h : ∀ c, carried op = some c → c.queue = false) :
    exec (.undefinedOpcode (.queue q) op) s = .next (queue q op (fun s => { st := s }) s) := by
  have hno : ((carried op).map (fun x => x.queue)).getD false = false := by
    cases hc : carried op with
    | none => rfl
    | some c => simp [h c hc]
  show Sys2Proof.Machine.execUndefinedOpcode (.queue q) op s = _
  unfold execUndefinedOpcode
  dsimp only
  rw [hno]
  rfl

/-- A request under an opcode that its mailbox does not carry, and that fails with `e`, is answered so. -/
theorem undefinedOpcode_answers {s : State} {r : MbxReq} {op : Nat} {e : Nat × Nat} (hex : executes s r = true)
    (hq : ∀ c, carried op = some c → c.queue = true) (h : headerCheck s r op none (lengthIn r []) = some e) :
    Answers (.undefinedOpcode (.mailbox r) op) r op e.1 e.2 false [] s s :=
  ⟨_, exec_undefinedOpcode_mailbox s hq, mailboxFull_header_fails _ hex h⟩

theorem undefinedOpcode_completes {s : State} {q : SqReq} {op : Nat} {e : Nat × Nat} (hb : mayBegin s q op = true)
    (hq : ∀ c, carried op = some c → c.queue = false) (h : entryCheck (takeEntry q s) q op none = some e) :
    Completes (.undefinedOpcode (.queue q) op) q e.1 0 e.2 0 s s :=
  ⟨takeEntry q s, by rw [exec_undefinedOpcode_queue s hq, queue, queueFull_fails _ hb h], Laws.takeEntry_settled q s⟩

/-- Settles O20: on each carrier, first the opcode that no row of R106 defines, then the one of the other carrier. -/
theorem undefinedOpcodesAreRefused : Obligations.UndefinedOpcodesAreRefused := by
  unfold Obligations.UndefinedOpcodesAreRefused
  intro s op
  refine ⟨fun r hex hlen => ⟨fun hc => ?_, fun c hc hq => ?_⟩, fun q hb hi => ⟨fun hc => ?_, fun c hc hq => ?_⟩⟩
  · exact undefinedOpcode_answers (e := (St.invalidOpcode, 0)) hex (by simp [hc]) (headerCheck_undefined _ _ hlen hc)
  · exact undefinedOpcode_answers (e := (St.notPermitted, 0)) hex (by simp [hc, hq])
      (headerCheck_not_carried _ _ hlen hc (.inl hq))
  · exact undefinedOpcode_completes (e := (St.invalidOpcode, 0)) hb (by simp [hc]) (entryCheck_undefined hi hc)
  · exact undefinedOpcode_completes (e := (St.notPermitted, 0)) hb (by simp [hc, hq]) (entryCheck_mailbox_opcode hi hc hq)

/-! ## DEV_FULL_RESET -/

theorem shown_power {s t : State} (h : Shown s t) : t.power = s.power := by rw [h.rest]; rfl

theorem executes_running {s : State} {r : MbxReq} (h : executes s r = true) : s.power.phase = .running := by
  simp only [executes, Bool.and_eq_true] at h
  exact ((firmwareRuns_iff s).mp h.1.1.1).1

theorem fullResetEntry_held {t : State} (dump : Bool) (h : t.power.phase = .running) :
    (fullResetEntry dump t).power.phase = .held := by
  unfold fullResetEntry
  rw [if_neg (by simp [h])]

theorem executedAnswer_of_admits {s : State} {r : MbxReq} {op : Nat} {item : Option Nat} {step5 : Option (Nat × Nat)}
    (body : State → MRes) (h : Admits s r op item step5) :
    ∃ x, executedAnswer r op item step5 body s = some x ∧ x.status = (body (begun r op s)).status := by
  unfold executedAnswer answer
  rw [if_pos h.runs, h.header]
  dsimp only
  rw [h.states]
  exact ⟨_, rfl, rfl⟩

/-- The payload lengths of DEV_FULL_RESET: with FORMAT_FLASH there is a payload. -/
def resetLengths (format : Bool) : List Nat := if format then [8] else [0, 8]

/-- What DEV_FULL_RESET does once its response is written (R77, R563). -/
def resetInto (format dump : Bool) (t : State) : State :=
  if format then { fullResetEntry dump t with power := { (fullResetEntry dump t).power with formatFlash := true } }
  else fullResetEntry dump t

/-- FORMAT_FLASH is refused while a partition is not FREE. -/
def resetRefused (format : Bool) (s : State) : Bool := format && !decide (∀ t ∈ s.parts, t.state = .free)

/-- The command's own rules: the partitions are those that stood when the request was taken. -/
def resetBody (format : Bool) (s : State) (u : State) : MRes :=
  checked u [(resetRefused format s, St.wrongState, 0)] { st := u }

theorem resetBody_eq (format : Bool) (s u : State) :
    resetBody format s u = { st := u, status := if resetRefused format s then St.wrongState else St.ok } := by
  unfold resetBody checked
  cases resetRefused format s <;> rfl

/-- The reset follows an answer of OK, and no other. -/
theorem resetAfter_eq {s : State} {r : MbxReq} {format : Bool} (dump : Bool)
    (h : Admits s r Op.devFullReset none (lengthIn r (resetLengths format))) :
    let t := mailbox r Op.devFullReset (resetLengths format) (resetBody format s) s
    resetAfter r format dump s = if resetRefused format s then t else resetInto format dump t := by
  obtain ⟨x, hx, hst⟩ := executedAnswer_of_admits (resetBody format s) h
  rw [resetBody_eq] at hst
  dsimp only at hst ⊢
  have hstep : resetAfter r format dump s =
      if x.status = St.ok then resetInto format dump (mailbox r Op.devFullReset (resetLengths format) (resetBody format s) s)
      else mailbox r Op.devFullReset (resetLengths format) (resetBody format s) s := by
    unfold resetAfter
    dsimp only
    erw [hx]
    rfl
  rw [hstep, hst]
  cases resetRefused format s
  · exact if_pos rfl
  · exact if_neg (show ¬St.wrongState = St.ok by decide)

/-- The answer of an admitted DEV_FULL_RESET. -/
theorem resetBody_answers {s : State} {r : MbxReq} {format : Bool}
    (h : Admits s r Op.devFullReset none (lengthIn r (resetLengths format))) :
    let t := mailbox r Op.devFullReset (resetLengths format) (resetBody format s) s
    Answered r Op.devFullReset (if resetRefused format s then St.wrongState else St.ok) 0 false [] t ∧ Shown s t := by
  have k := Laws.mailboxFull_answers (body := resetBody format s) h (by rw [resetBody_eq, Laws.begun_mbx])
  rw [resetBody_eq] at k
  exact ⟨k.1, (Laws.begun_shown r _ s).trans k.2⟩

/-- An accepted DEV_FULL_RESET is answered first; the reset follows. -/
theorem resetAfter_answers_first {s : State} {r : MbxReq} {format : Bool} (dump : Bool)
    (h : Admits s r Op.devFullReset none (lengthIn r (resetLengths format))) (hf : resetRefused format s = false) :
    ∃ t, Answered r Op.devFullReset St.ok 0 false [] t ∧ Shown s t ∧ resetAfter r format dump s = resetInto format dump t := by
  obtain ⟨hans, hshown⟩ := resetBody_answers h
  have hreset := resetAfter_eq dump h
  rw [hf] at hans hreset
  exact ⟨_, hans, hshown, hreset⟩

/-- Settles O10, by whether FORMAT_FLASH is set and finds a partition that is not FREE. -/
theorem fullResetCommandsAnswerFirst : Obligations.FullResetCommandsAnswerFirst := by
  unfold Obligations.FullResetCommandsAnswerFirst
  intro s r dump
  refine ⟨fun h => ?_, fun h hfree => ?_, fun h hused => ?_⟩
  · obtain ⟨t, hans, hshown, hreset⟩ := resetAfter_answers_first (format := false) dump h rfl
    have hrun : t.power.phase = .running := by rw [shown_power hshown]; exact executes_running h.runs
    exact ⟨t, hans, hshown, congrArg Host.Outcome.next hreset, fullResetEntry_held dump hrun⟩
  · have hf : resetRefused true s = false := by simpa [resetRefused] using hfree
    obtain ⟨t, hans, hshown, hreset⟩ := resetAfter_answers_first (format := true) dump h hf
    exact ⟨t, hans, hshown, congrArg Host.Outcome.next hreset⟩
  · have hf : resetRefused true s = true := by simpa [resetRefused] using hused
    obtain ⟨hans, hshown⟩ := resetBody_answers (format := true) h
    have hreset := resetAfter_eq (format := true) dump h
    rw [hf] at hans hreset
    exact ⟨_, congrArg Host.Outcome.next hreset, hans, hshown⟩

end Sys2Proof.Proofs
end

