-- ==== Sys2Proof/Proofs/Queues.lean ====
section
/-! Sys2Proof/Proofs/Queues.lean: what leaves submission queues alone, and how queues are created and deleted (R84, R87, R88)
and a COMMAND_DONE ends its job (R73). -/
namespace Sys2Proof.Proofs
open Sys2Proof.Machine Sys2Proof.Safety

/-! ## A partition after answers and events -/

/-- An element of a mapped list, or the image of the default. -/
theorem getD_map_default {α β : Type} (f : α → β) (l : List α) (n : Nat) (d : α) :
    (l.map f).getD n (f d) = f (l.getD n d) := by
  rw [List.getD_eq_getElem?_getD, List.getD_eq_getElem?_getD, List.getElem?_map]
  cases l[n]? <;> rfl

theorem shown_part {s t : State} (h : Shown s t) (p : Nat) : quietPart (part t p) = quietPart (part s p) := by
  have k : (t.parts.map quietPart).getD p (quietPart {}) = (s.parts.map quietPart).getD p (quietPart {}) := by rw [h.parts]
  unfold part
  rwa [getD_map_default, getD_map_default] at k

theorem shown_sqs {s t : State} (h : Shown s t) (p : Nat) : (part t p).sqs = (part s p).sqs :=
  (congrArg Part.sqs (shown_part h p) : (quietPart (part t p)).sqs = (quietPart (part s p)).sqs)

theorem shown_cqs {s t : State} (h : Shown s t) (p : Nat) : (part t p).cqs = (part s p).cqs :=
  (congrArg Part.cqs (shown_part h p) : (quietPart (part t p)).cqs = (quietPart (part s p)).cqs)

theorem shown_state {s t : State} (h : Shown s t) (p : Nat) : (part t p).state = (part s p).state :=
  (congrArg Part.state (shown_part h p) : (quietPart (part t p)).state = (quietPart (part s p)).state)

theorem part_begun (r : MbxReq) (op p : Nat) (s : State) : part (begun r op s) p = part s p := by
  obtain ⟨l, i, w, h⟩ := Laws.trace_shape 0 r.partition 0 (mbxTrace r op 0) r.seq.toNat s
  unfold begun
  rw [h]
  rfl

/-! ## Queues by their ids -/

theorem findSq_id {t : Part} {id : Nat} {q : Sq} (h : findSq t id = some q) : q.id = id := by
  simpa using List.find?_some h

/-- A change of one SQ that keeps its id changes what is found under that id. -/
theorem findSq_onSq {t : Part} {id : Nat} {q : Sq} (f : Sq → Sq) (hf : ∀ x, (f x).id = x.id) (h : findSq t id = some q) :
    findSq (t.onSq id f) id = some (f q) := by
  have keeps : ((fun x : Sq => decide (x.id = id)) ∘ fun x => if decide (x.id = id) = true then f x else x) =
      fun x => decide (x.id = id) := by
    funext x
    by_cases hx : x.id = id <;> simp [hx, hf]
  have hid : q.id = id := findSq_id h
  unfold findSq Part.onSq mapWhere at *
  rw [List.find?_map, keeps, h]
  simp [hid]

theorem findSq_of_sqs {t u : Part} (id : Nat) (h : t.sqs = u.sqs) : findSq t id = findSq u id := by
  unfold findSq
  rw [h]

/-! ## What leaves submission queues and mailboxes alone -/

/-- Mailboxes and every partition's submission queues are as they were. -/
structure KeepsSqs (s t : State) : Prop where
  mbx : t.mbx = s.mbx
  sqs : t.parts.map Part.sqs = s.parts.map Part.sqs

theorem KeepsSqs.refl (s : State) : KeepsSqs s s := ⟨rfl, rfl⟩

theorem KeepsSqs.trans {s t u : State} (a : KeepsSqs s t) (b : KeepsSqs t u) : KeepsSqs s u :=
  ⟨b.mbx.trans a.mbx, b.sqs.trans a.sqs⟩

theorem KeepsSqs.fold {α : Type} (f : State → α → State) (h : ∀ s x, KeepsSqs s (f s x)) (l : List α) (s : State) :
    KeepsSqs s (l.foldl f s) := by
  induction l generalizing s with
  | nil => exact .refl s
  | cons a r ih => exact (h s a).trans (ih _)

theorem KeepsSqs.part {s t : State} (h : KeepsSqs s t) (p : Nat) : (part t p).sqs = (part s p).sqs := by
  have k : (t.parts.map Part.sqs).getD p (Part.sqs {}) = (s.parts.map Part.sqs).getD p (Part.sqs {}) := by rw [h.sqs]
  unfold Machine.part
  rwa [getD_map_default, getD_map_default] at k

theorem onPart_keepsSqs (p : Nat) (f : Part → Part) (h : ∀ t, (f t).sqs = t.sqs) (s : State) :
    KeepsSqs s (onPart p f s) := ⟨rfl, Laws.map_modify_same _ _ h _ _⟩

theorem onCq_keepsSqs (p id : Nat) (f : Cq → Cq) (s : State) : KeepsSqs s (onPart p (fun t => t.onCq id f) s) :=
  onPart_keepsSqs p (fun t => t.onCq id f) (fun _ => rfl) s

theorem issueHost_keepsSqs (fn : Nat) (o : Out) (s : State) : KeepsSqs s (issueHost fn o s) := by
  unfold issueHost
  split
  · exact .refl s
  · split <;> exact ⟨rfl, rfl⟩

theorem sendMsix_keepsSqs (fn v : Nat) (s : State) : KeepsSqs s (sendMsix fn v s) := by
  obtain ⟨i, w, h⟩ := Laws.sendMsix_shape fn v s
  rw [h]
  exact ⟨rfl, rfl⟩

theorem sendMsix_if_keepsSqs (b : Bool) (fn v : Nat) (s : State) : KeepsSqs s (if b then sendMsix fn v s else s) := by
  cases b
  · exact .refl s
  · exact sendMsix_keepsSqs fn v s

theorem trace_keepsSqs (a b c d e : Nat) (s : State) : KeepsSqs s (trace a b c d e s) := by
  obtain ⟨l, i, w, h⟩ := Laws.trace_shape a b c d e s
  rw [h]
  exact ⟨rfl, rfl⟩

theorem writeCompletion_keepsSqs (p : Nat) (c : Cq) (ni : Bool) (e : CqEntry) (s : State) :
    KeepsSqs s (writeCompletion p c ni e s) := by
  unfold writeCompletion
  dsimp only
  refine KeepsSqs.trans ?_ (sendMsix_if_keepsSqs _ _ _ _)
  exact (issueHost_keepsSqs _ _ s).trans (onCq_keepsSqs _ _ _ _)

theorem complete_keepsSqs (p cq : Nat) (ni : Bool) (e : CqEntry) (s : State) : KeepsSqs s (complete p cq ni e s) := by
  unfold complete
  split
  · exact .refl s
  · split
    · exact .refl s
    · split
      · exact onCq_keepsSqs _ _ _ s
      · exact writeCompletion_keepsSqs _ _ _ _ s

theorem completeSq_keepsSqs (p sq tag ctx : Nat) (ni : Bool) (st c a b : Nat) (s : State) :
    KeepsSqs s (completeSq p sq tag ctx ni st c a b s) := by
  unfold completeSq
  split
  · exact .refl s
  · exact complete_keepsSqs _ _ _ _ s

/-! ## Messages to other devices change the fabric alone -/

/-- `t` is `s` but for its fabric. -/
def FabricOnly (s t : State) : Prop := ∃ f, t = { s with fabric := f }

theorem FabricOnly.refl (s : State) : FabricOnly s s := ⟨s.fabric, rfl⟩

theorem FabricOnly.trans {s t u : State} (a : FabricOnly s t) (b : FabricOnly t u) : FabricOnly s u := by
  obtain ⟨f, rfl⟩ := a
  obtain ⟨g, rfl⟩ := b
  exact ⟨g, rfl⟩

theorem FabricOnly.fold {α : Type} (f : State → α → State) (h : ∀ s x, FabricOnly s (f s x)) (l : List α) (s : State) :
    FabricOnly s (l.foldl f s) := by
  induction l generalizing s with
  | nil => exact .refl s
  | cons a r ih => exact (h s a).trans (ih _)

theorem inject_fabricOnly (x : Packet) (s : State) : FabricOnly s (inject x s) := by
  unfold inject
  dsimp only
  split
  · unfold enqueueAt
    split <;> exact ⟨_, rfl⟩
  · exact .refl s

theorem pumpFw_fabricOnly (d p n : Nat) (s : State) : FabricOnly s (pumpFw d p n s) := by
  induction n generalizing s with
  | zero => exact .refl s
  | succ n ih =>
    unfold pumpFw
    dsimp only
    split
    · exact .refl s
    · split
      · exact .refl s
      · exact FabricOnly.trans (t := setFwQp _ s) ⟨_, rfl⟩ ((inject_fabricOnly _ _).trans (ih _))

theorem sendFw_fabricOnly (d p : Nat) (m : FwMsg) (s : State) : FabricOnly s (sendFw d p m s) := by
  unfold sendFw sendPeer
  split
  · exact .refl s
  · exact FabricOnly.trans (t := setFwQp _ s) ⟨_, rfl⟩ (pumpFw_fabricOnly _ _ _ _)

theorem tellEnd_fabricOnly (p : Nat) (r : Running) (s : State) : FabricOnly s (tellEnd p r s) :=
  FabricOnly.fold _ (fun s d => sendFw_fabricOnly d p _ s) _ s

theorem FabricOnly.keepsSqs {s t : State} (h : FabricOnly s t) : KeepsSqs s t := by
  obtain ⟨f, rfl⟩ := h
  exact ⟨rfl, rfl⟩

/-! ## Commands that are cancelled -/

theorem sweepModels_keepsSqs (p : Nat) (s : State) : KeepsSqs s (sweepModels p s) :=
  onPart_keepsSqs p (fun t => { t with models := t.models.filter (fun m => !m.unloaded || modelUsed s p m.serial) })
    (fun _ => rfl) s

theorem dropRunning_keepsSqs (p : Nat) (sel : Running → Bool) (s : State) :
    KeepsSqs s (onPart p (fun t => { t with running := t.running.filter sel }) s) :=
  onPart_keepsSqs p (fun t => { t with running := t.running.filter sel }) (fun _ => rfl) s

theorem endRunning_keepsSqs (p : Nat) (r : Running) (st c a b : Nat) (s : State) :
    KeepsSqs s (endRunning p r st c a b s) := by
  have gone := ((trace_keepsSqs 0 p 1 (entryTrace r.opcode r.tag r.sq st) c s).trans (dropRunning_keepsSqs p
    (fun x => !(x.sq = r.sq && x.tag = r.tag)) _)).trans (sweepModels_keepsSqs p _)
  unfold endRunning
  dsimp only
  split
  · exact gone
  · exact gone.trans (completeSq_keepsSqs _ _ _ _ _ _ _ _ _ _)

theorem cancelRunning_keepsSqs (p : Nat) (sel : Running → Bool) (s : State) : KeepsSqs s (cancelRunning p sel s) := by
  refine KeepsSqs.fold _ (fun s r => ?_) _ s
  refine KeepsSqs.trans ?_ (endRunning_keepsSqs _ _ _ _ _ _ _)
  refine KeepsSqs.trans ?_ (tellEnd_fabricOnly p r _).keepsSqs
  exact ⟨rfl, rfl⟩

/-- Ending an SQ takes its fetched entries and leaves all else of the submission queues (R87). -/
theorem stopSq_keepsSqs (p : Nat) (q : Sq) (s : State) :
    KeepsSqs (onPart p (fun t => t.onSq q.id (fun x => { x with fetched := [], arrived := [] })) s) (stopSq p q s) :=
  (KeepsSqs.fold _ (fun s _ => completeSq_keepsSqs p q.id _ _ _ _ _ _ _ s) q.fetched _).trans (cancelRunning_keepsSqs _ _ _)

/-! ## PART_QUEUE_CREATE (R84) -/

theorem queueCreateBody_passes {p : Nat} {a : QueueCreateArgs} {s : State}
    (h : firstFail (queueFieldChecks a ++ queueStateChecks (part s p) a) = none) :
    queueCreateBody p a s = { st := drainHeld (.part p) 256 (onPart p (fun t => t.addQueue a) s) } := by
  unfold queueCreateBody checked
  rw [h]

/-- A queue whose checks all pass stands in the partition. -/
theorem queueCreate_answers {s : State} {r : MbxReq} {a : QueueCreateArgs}
    (h : Admits s r Op.partQueueCreate none (lengthIn r [32]))
    (hc : firstFail (queueFieldChecks a ++ queueStateChecks (part s r.partition) a) = none) :
    Answers (.partQueueCreate r a) r Op.partQueueCreate St.ok 0 false []
      (onPart r.partition (fun t => t.addQueue a) s) s := by
  refine Laws.answers_of (body := queueCreateBody r.partition a) rfl h (fun l i w => ⟨_, queueCreateBody_passes hc, ?_, ?_⟩)
  · refine Shown.trans ?_ (Laws.drainHeld_shown _ _ _)
    exact ⟨rfl, rfl⟩
  · rw [Laws.drainHeld_mbx]
    rfl

theorem addQueue_sqs (t : Part) {a : QueueCreateArgs} (h : a.typ = 0) :
    (t.addQueue a).sqs = t.sqs ++
      [{ id := a.queueId, entries := a.entries, base := a.base, cqId := a.cqId, weight := a.weight }] := by
  simp [Part.addQueue, h]

theorem addQueue_cqs (t : Part) {a : QueueCreateArgs} (h : a.typ = 1) :
    (t.addQueue a).cqs = t.cqs ++
      [{ id := a.queueId, entries := a.entries, base := a.base, vector := a.vector
         coalesceCount := if a.coalesceCount = 0 then 1 else a.coalesceCount, coalesceUs := a.coalesceUs }] := by
  simp [Part.addQueue, h, dflt]

/-! ## PART_QUEUE_DELETE (R87, R88) -/

theorem queueDeleteBody_cq {r : MbxReq} {id : Nat} {c : Cq} {s : State} (hid : id ≤ 63)
    (h : findCq (part s r.partition) id = some c) (hn : ∀ q ∈ (part s r.partition).sqs, q.cqId ≠ id) :
    queueDeleteBody r 1 id s =
      { st := onPart r.partition (fun t => { t with cqs := t.cqs.filter (fun c => c.id ≠ id) }) s } := by
  have unbound : (part s r.partition).sqs.any (fun q => decide (q.cqId = id)) = false := by simpa using hn
  have small : ¬63 < id := Nat.not_lt.mpr hid
  simp [queueDeleteBody, checked, firstFail, queueExists, h, unbound, small]

theorem queueDeleteBody_sq {r : MbxReq} {id : Nat} {q : Sq} {s : State} (hid : id ≤ 63)
    (h : findSq (part s r.partition) id = some q) (hd : q.deleting = none) :
    queueDeleteBody r 0 id s =
      { st := stopSq r.partition q (onPart r.partition (fun t => t.onSq id (fun x => { x with deleting := some r.tag })) s)
        async := true } := by
  have small : ¬63 < id := Nat.not_lt.mpr hid
  simp [queueDeleteBody, checked, firstFail, queueExists, h, hd, small]

/-- The SQ whose deletion is accepted. -/
def sqLeaving (tag : Nat) (q : Sq) : Sq := { q with deleting := some tag, fetched := [], arrived := [] }

/-- An accepted deletion of an SQ leaves the SQ under its id, its deletion noted and nothing fetched. -/
theorem stopSq_findSq {s : State} {p id tag : Nat} {q : Sq} (hp : p < s.parts.length) (h : findSq (part s p) id = some q) :
    findSq (part (stopSq p q (onPart p (fun t => t.onSq id (fun x => { x with deleting := some tag })) s)) p) id =
      some (sqLeaving tag q) := by
  have hid := findSq_id h
  rw [findSq_of_sqs id ((stopSq_keepsSqs p q _).part p), Laws.part_onPart_same _ _ _ (by simpa using hp),
    Laws.part_onPart_same _ _ _ hp, hid]
  exact findSq_onSq (fun x => { x with fetched := [], arrived := [] }) (fun _ => rfl)
    (findSq_onSq (fun x => { x with deleting := some tag }) (fun _ => rfl) h)

theorem queueDelete_sq_answers {s : State} {r : MbxReq} {id : Nat} {q : Sq} (hp : r.partition < s.parts.length)
    (h : Admits s r Op.partQueueDelete none (lengthIn r [8])) (hid : id ≤ 63)
    (hq : findSq (part s r.partition) id = some q) (hd : q.deleting = none) :
    ∃ t, exec (.partQueueDelete r 0 id) s = .next t ∧ Answered r Op.partQueueDelete St.ok 0 true [] t ∧
      findSq (part t r.partition) id = some (sqLeaving r.tag q) := by
  have hbegun : (begun r Op.partQueueDelete s).parts = s.parts := by
    obtain ⟨l, i, w, e⟩ := Laws.trace_shape 0 r.partition 0 (mbxTrace r Op.partQueueDelete 0) r.seq.toNat s
    unfold begun
    rw [e]
  have hq' : findSq (part (begun r Op.partQueueDelete s) r.partition) id = some q := by rw [part_begun, hq]
  have hbody := queueDeleteBody_sq (r := r) hid hq' hd
  have k := Laws.mailboxFull_answers (body := queueDeleteBody r 0 id) h (by
    rw [hbody]
    exact congrArg List.length ((stopSq_keepsSqs r.partition q _).mbx.trans (Laws.begun_mbx r _ s)))
  rw [hbody] at k
  obtain ⟨hans, hshown⟩ := k
  have hleft := stopSq_findSq (tag := r.tag) (by rw [hbegun]; exact hp) hq'
  exact ⟨_, rfl, hans, (findSq_of_sqs id (shown_sqs hshown r.partition)).trans hleft⟩

/-! ## SQ_DELETE_DONE and COMMAND_DONE -/

theorem releaseQueues_of_active {p : Nat} {s : State} (h : (part s p).state = .active) : releaseQueues p s = s := by
  unfold releaseQueues
  rw [if_neg (by rw [h]; simp)]

theorem findSq_filter (t : Part) (id : Nat) :
    findSq { t with sqs := t.sqs.filter (fun y => decide (y.id ≠ id)) } id = none := by
  simp [findSq]

/-- An SQ whose commands have all ended goes, and the COMMAND_DONE of its deletion is sent (R87). -/
theorem exec_sqDeleteDone {s : State} {p id tag : Nat} {q : Sq} (hfw : firmwareRuns s = true) (hp : p < s.parts.length)
    (hq : findSq (part s p) id = some q) (hd : q.deleting = some tag) (ha : (part s p).state = .active)
    (he : sqEnded (part s p) q = true) :
    exec (.sqDeleteDone p id) s = .next (commandDoneEvent (.part p) Op.partQueueDelete tag p St.ok 0
      (onPart p (fun t => { t with sqs := t.sqs.filter (fun y => y.id ≠ id) }) s)) := by
  have hstate : (part (commandDoneEvent (.part p) Op.partQueueDelete tag p St.ok 0
      (onPart p (fun t => { t with sqs := t.sqs.filter (fun y => y.id ≠ id) }) s)) p).state = .active := by
    rw [shown_state (Laws.commandDoneEvent_shown _ _ _ _ _ _ _), Laws.part_onPart_same _ _ _ hp]
    exact ha
  show execSqDeleteDone p id s = _
  unfold execSqDeleteDone
  rw [hq]
  dsimp only
  rw [if_pos (by simp [hfw, hd, he]), hd]
  exact congrArg Host.Outcome.next (releaseQueues_of_active hstate)

/-- A job without work of its own is ready, for only a calibration's runs could hold it up. -/
theorem jobReady_of_nothing {s : State} {j : AsyncJob} (h : j.action = .nothing) : jobReady s j = true := by
  simp [jobReady, calibrationRuns, calibrationOf, h]

theorem exec_commandDone {s : State} {op tag : Nat} {j : AsyncJob} (hfw : firmwareRuns s = true)
    (hj : s.jobs.find? (fun j => j.opcode = op && j.tag = tag) = some j) (ha : j.action = .nothing) :
    exec (.commandDone op tag) s =
      .next (commandDoneEvent j.dest j.opcode j.tag j.partition j.status j.detail { s with jobs := s.jobs.erase j }) := by
  show execCommandDone op tag s = _
  unfold execCommandDone
  rw [hj]
  dsimp only
  rw [if_pos (by simp [hfw, jobReady_of_nothing ha]), ha]
  unfold lateWork
  rw [ha]
  rfl

/-- Settles O18, command by command: the creation, the deletion of a CQ and of an SQ, the end of the SQ, and COMMAND_DONE. -/
theorem queuesAreCreatedAndDeleted : Obligations.QueuesAreCreatedAndDeleted := by
  unfold Obligations.QueuesAreCreatedAndDeleted
  intro s r hp
  refine ⟨fun a h hc _ => ?_, fun id c h hid hcq hn => ?_, fun id q h hid hq hd => ?_, fun id q tag hfw hq hd ha he => ?_,
    fun op tag j hfw hj ha => ?_⟩
  · obtain ⟨t, hex, hans, hshown⟩ := queueCreate_answers h hc
    refine ⟨t, hex, hans, fun h0 => ?_, fun h1 => ?_⟩
    · rw [shown_sqs hshown, Laws.part_onPart_same _ _ _ hp, addQueue_sqs _ h0]
    · rw [shown_cqs hshown, Laws.part_onPart_same _ _ _ hp, addQueue_cqs _ h1]
  · exact Laws.answers_plain (body := queueDeleteBody r 1 id) rfl h rfl (fun l i w =>
      queueDeleteBody_cq (s := { s with loupe := l, issued := i, landing := { s.landing with waiting := w } }) hid hcq hn)
  · obtain ⟨t, hex, hans, hleft⟩ := queueDelete_sq_answers hp h hid hq hd
    exact ⟨t, _, hex, hans, hleft, rfl, rfl⟩
  · refine ⟨_, exec_sqDeleteDone hfw hp hq hd ha he, ?_, Laws.commandDoneEvent_shown _ _ _ _ _ _ _⟩
    rw [findSq_of_sqs id (shown_sqs (Laws.commandDoneEvent_shown _ _ _ _ _ _ _) _), Laws.part_onPart_same _ _ _ hp]
    exact findSq_filter _ id
  · exact ⟨_, exec_commandDone hfw hj ha, Laws.commandDoneEvent_shown _ _ _ _ _ _ _⟩

end Sys2Proof.Proofs
end

