-- ==== Sys2Proof/Proofs/Sideband.lean ====
section
/-! Sys2Proof/Proofs/Sideband.lean: writes to Scaler's target (R533, R534). -/
namespace Sys2Proof.Proofs
open Sys2Proof.Machine Sys2Proof.Safety

/-- Scaler's ROM answers METER_FAULT to whatever is written, and counts nothing (R533). -/
theorem scalerWrite_rom {x : Scaler} (bs : List Byte) (hon : x.on = true) (hrom : x.firmwareOk = false) :
    scalerWrite bs x = { x with sideReply := some (sideAnswer St.meterFault []) } := by
  unfold scalerWrite
  rw [if_neg (by simp [hon]), if_pos (by simp [hrom])]

/-- A write that leaves the open composition as it stands restarts no shares: only Scaler changes. -/
theorem exec_i3cPrivateWrite_scaler {s : State} (bs : List Byte)
    (h : (scalerWrite bs s.scaler).openComp = s.scaler.openComp) :
    exec (.i3cPrivateWrite true bs) s = .next { s with scaler := scalerWrite bs s.scaler } := by
  show execI3cPrivateWrite true bs s = _
  unfold execI3cPrivateWrite
  simp only [if_true, onScaler, h]
  rw [if_neg (by cases s.scaler.openComp <;> simp)]

theorem exec_i3cPrivateWrite_rom {s : State} (bs : List Byte) (hon : s.scaler.on = true)
    (hrom : s.scaler.firmwareOk = false) :
    exec (.i3cPrivateWrite true bs) s =
      .next { s with scaler := { s.scaler with sideReply := some (sideAnswer St.meterFault []) } } := by
  rw [exec_i3cPrivateWrite_scaler bs (by rw [scalerWrite_rom bs hon hrom]), scalerWrite_rom bs hon hrom]

/-- The machine as shipped, but that the Scaler firmware does not verify and the ROM answers for it (R533). -/
def romScaler : State := { State.reset with scaler := { State.reset.scaler with firmwareOk := false } }

/-- Refutes O58: the clause that an undefined frame is discarded and counted has no premise that the Scaler firmware runs. On
`romScaler` the empty frame is answered METER_FAULT by the ROM, which counts nothing. -/
theorem not_sidebandTargetsAnswer : ¬ Obligations.SidebandTargetsAnswer := by
  unfold Obligations.SidebandTargetsAnswer
  intro h
  obtain ⟨-, -, -, -, -, -, -, -, -, -, -, frames, -⟩ := h romScaler
  have counted := (frames [] rfl).1 (.inl rfl)
  rw [exec_i3cPrivateWrite_rom [] rfl rfl] at counted
  have rejected : romScaler.scaler.rejected = romScaler.scaler.rejected + 1 :=
    congrArg (fun s => s.scaler.rejected) (Host.Outcome.next.inj counted)
  exact absurd rejected (Nat.ne_of_lt (Nat.lt_succ_self _))

end Sys2Proof.Proofs
end

