-- ==== Sys2Proof/Proofs/HostLink.lean ====
section
/-! Sys2Proof/Proofs/HostLink.lean: a write through BAR2 that makes Skidder grant a region (R340, R462). -/
namespace Sys2Proof.Proofs
open Sys2Proof.Machine Sys2Proof.Safety

/-! ## A die with a free region

R625 gives five reserved ranges and no addresses for them. A range meets the first region of at most one die, so of eight dies
three or more have a free first region wherever the ranges lie. -/

theorem reservedRanges_length (s : State) : (reservedRanges s).length = 5 := by
  simp [reservedRanges, reservedSizes]

theorem reservedRanges_size {s : State} {n : Nat} (h : ∀ x ∈ reservedSizes s, x ≤ n) {r : Nat × Nat}
    (hr : r ∈ reservedRanges s) : r.2 ≤ n := by
  obtain ⟨x, hx, rfl⟩ := List.mem_map.mp hr
  exact h x.1 (List.fst_mem_of_mem_zipIdx hx)

/-- The range meets the first region of the die. -/
def meetsFirst (d : Nat) (r : Nat × Nat) : Prop := r.1 < regionAddr d 0 + 2097152 ∧ regionAddr d 0 < r.1 + r.2

theorem meetsFirst_unique {d d' : Nat} {r : Nat × Nat} (hs : r.2 ≤ 0x10000000000) (h : meetsFirst d r)
    (h' : meetsFirst d' r) : d = d' := by
  unfold meetsFirst regionAddr hbmBase at *
  omega

/-- Of more dies than ranges, one is met by none: each range rules out one die. -/
theorem exists_die_unmet (l : List (Nat × Nat)) (hs : ∀ r ∈ l, r.2 ≤ 0x10000000000) (ds : List Nat) (hnd : ds.Nodup)
    (hlen : l.length < ds.length) : ∃ d ∈ ds, ∀ r ∈ l, ¬meetsFirst d r := by
  induction l generalizing ds with
  | nil =>
    obtain ⟨d, hd⟩ := List.exists_mem_of_length_pos hlen
    exact ⟨d, hd, fun r hr => nomatch hr⟩
  | cons r l ih =>
    have hsl : ∀ x ∈ l, x.2 ≤ 0x10000000000 := fun x hx => hs x (List.mem_cons_of_mem _ hx)
    rw [List.length_cons] at hlen
    by_cases hmet : ∃ d ∈ ds, meetsFirst d r
    · obtain ⟨d, hd, hm⟩ := hmet
      have hshort : l.length < (ds.erase d).length := by
        rw [List.length_erase_of_mem hd]
        omega
      obtain ⟨d', hd', hfree⟩ := ih hsl (ds.erase d) (hnd.erase d) hshort
      obtain ⟨hne, hin⟩ := (List.Nodup.mem_erase_iff hnd).mp hd'
      have hfirst : ¬meetsFirst d' r := fun h => hne (meetsFirst_unique (hs r List.mem_cons_self) h hm)
      exact ⟨d', hin, List.forall_mem_cons.mpr ⟨hfirst, hfree⟩⟩
    · obtain ⟨d, hd, hfree⟩ := ih hsl ds hnd (Nat.lt_of_succ_lt hlen)
      exact ⟨d, hd, List.forall_mem_cons.mpr ⟨fun h => hmet ⟨d, hd, h⟩, hfree⟩⟩

theorem exists_die_unreserved {s : State} (h : ∀ x ∈ reservedSizes s, x ≤ 0x10000000000) :
    ∃ d < 8, ∀ r ∈ reservedRanges s, ¬meetsFirst d r := by
  obtain ⟨d, hd, hfree⟩ := exists_die_unmet (reservedRanges s) (fun r hr => reservedRanges_size h hr) (List.range 8)
    List.nodup_range (by rw [reservedRanges_length, List.length_range]; decide)
  exact ⟨d, List.mem_range.mp hd, hfree⟩

/-! ## What Skidder grants -/

theorem regionCount_bounds : 0 < regionCount ∧ regionCount ≤ 2 ^ 16 := by
  unfold regionCount stackBytes
  split <;> decide

/-- Some rotation of the dies' regions reaches region 0. -/
theorem exists_rotation_zero {n : Nat} (k : Nat) (h : 0 < n) : ∃ i < n, (k + i) % n = 0 := by
  refine ⟨(n - k % n) % n, Nat.mod_lt _ h, ?_⟩
  have hk := Nat.mod_lt k h
  rw [Nat.add_mod, Nat.mod_mod, ← Nat.add_mod, Nat.add_mod, Nat.add_mod_mod, Nat.add_sub_cancel' (Nat.le_of_lt hk), Nat.mod_self]

theorem nextRegion_isSome {s : State} {d : Nat} (h : regionFree s d 0 = true) : (nextRegion s d).isSome = true := by
  obtain ⟨i, hi, hz⟩ := exists_rotation_zero (Config.regionPick s.skidder.regionDraws) regionCount_bounds.1
  unfold nextRegion
  rw [List.find?_isSome]
  exact ⟨0, List.mem_map.mpr ⟨i, List.mem_range.mpr hi, hz⟩, h⟩

theorem nextRegion_lt {s : State} {d i : Nat} (h : nextRegion s d = some i) : i < regionCount := by
  have hfree := List.find?_some h
  simp only [regionFree, Bool.and_eq_true, decide_eq_true_eq] at hfree
  exact hfree.1.1

/-- Which region Skidder takes next depends on the owner tables, its draws and the reserved ranges alone. -/
theorem nextRegion_congr {s t : State} (d : Nat) (hr : t.skidder.regions = s.skidder.regions)
    (hd : t.skidder.regionDraws = s.skidder.regionDraws) (hw : t.deck.rawBytes = s.deck.rawBytes) :
    nextRegion t d = nextRegion s d := by
  unfold nextRegion regionFree reservedRanges reservedSizes
  rw [hr, hd, hw]

/-! ## Settling a partition's regions clears what it grants, and writes nothing -/

theorem grantRegion_read_zero {p die a : Nat} {s : State} (h : cellsRead s.mem a = 0) :
    cellsRead (grantRegion p die s).mem a = 0 := by
  unfold grantRegion
  split
  · dsimp only
    rw [Laws.read_clear, h]
    exact ite_self 0
  · exact h

theorem grantRegion_clears {p die i : Nat} {s : State} (h : nextRegion s die = some i) :
    cellsRead (grantRegion p die s).mem (regionAddr die i) = 0 := by
  unfold grantRegion
  rw [h]
  dsimp only
  rw [Laws.read_clear, if_neg (by omega)]

theorem grantRegions_read_zero {p die a : Nat} (l : List Nat) {s : State} (h : cellsRead s.mem a = 0) :
    cellsRead (l.foldl (fun s _ => grantRegion p die s) s).mem a = 0 := by
  induction l generalizing s with
  | nil => exact h
  | cons x r ih => exact ih (grantRegion_read_zero h)

theorem settleDie_read_zero {p a : Nat} {s : State} (die : Nat) (h : cellsRead s.mem a = 0) :
    cellsRead (settleDie p s die).mem a = 0 := by
  unfold settleDie
  dsimp only
  split
  · exact grantRegions_read_zero _ h
  · exact h

/-- A die where the partition owns as many regions as its granules fill. -/
theorem settleDie_settled {p die : Nat} {s : State}
    (h : (regionsOf s p die).length = ceilDiv (granulesOn s p die) 512) : settleDie p s die = s := by
  unfold settleDie
  dsimp only
  rw [if_pos (Nat.le_of_eq h), h, Nat.sub_self]
  rfl

/-- A die where the partition owns no region yet and needs its first. -/
theorem settleDie_first {p die : Nat} {s : State} (h : regionsOf s p die = [])
    (hn : ceilDiv (granulesOn s p die) 512 = 1) : settleDie p s die = grantRegion p die s := by
  unfold settleDie
  dsimp only
  rw [h, hn]
  rfl

/-- Settled die by die, a byte reads 0 in the end if it does once die `d` is settled and no other die needs anything. -/
theorem settleDies_read_zero {p d a : Nat} {s : State} (hd : cellsRead (settleDie p s d).mem a = 0) (l : List Nat)
    (hl : d ∈ l) (hs : ∀ k ∈ l, k ≠ d → settleDie p s k = s) : cellsRead (l.foldl (settleDie p) s).mem a = 0 := by
  have keeps (l : List Nat) (t : State) (ht : cellsRead t.mem a = 0) : cellsRead (l.foldl (settleDie p) t).mem a = 0 := by
    induction l generalizing t with
    | nil => exact ht
    | cons k r ih => exact ih _ (settleDie_read_zero k ht)
  induction l with
  | nil => cases hl
  | cons k r ih =>
    by_cases hk : k = d
    · subst hk
      exact keeps r _ hd
    · rw [List.foldl_cons, hs k List.mem_cons_self hk]
      exact ih ((List.mem_cons.mp hl).resolve_left (Ne.symm hk)) (fun k hk => hs k (List.mem_cons_of_mem _ hk))

/-! ## A write through BAR2 to an extent that no unit holds yet -/

/-- The state with a new unit in HBM, before its partition's regions are settled. -/
def withUnit (p : Nat) (k : UnitKind) (cls addr : Nat) (s : State) : State :=
  { s with skidder := { s.skidder with
      units := s.skidder.units ++ [{ id := s.skidder.nextUnit, part := p, kind := k, cls := cls, loc := .hbm, size := 65536
                                     heat := 0, copies := 0, addr := addr, s0 := fullestStack s, holders := [] }]
      nextUnit := s.skidder.nextUnit + 1 } }

theorem addUnit_hbm (p : Nat) (k : UnitKind) (cls addr : Nat) (s : State) :
    addUnit p k cls .hbm 65536 addr s = settlePart p (withUnit p k cls addr s) := rfl

theorem heatUnit_mem (p : Nat) (k : UnitKind) (s : State) : (heatUnit p k s).mem = s.mem := rfl

/-- The unit is placed in HBM before the bytes are written (R337, R345). -/
theorem objStore_mem_of_new {r : ObjRange} {o : Obj} {x e : Nat} {data : List Byte} {s : State}
    (ho : findObj s r.part r.handle = some o) (he : extentsOf (x - o.base) data.length = [e])
    (hp : isPoisoned s r.part o.handle e = false) (hu : findUnit s r.part (.extent o.handle e) = none) :
    (objStore r x data s).mem = cellsWriteBytes
      (settlePart r.part (withUnit r.part (.extent o.handle e) o.tier (o.base + e * 65536) s)).mem x data := by
  unfold objStore
  rw [ho]
  dsimp only
  rw [he, if_neg (by simp [hp])]
  simp only [List.foldl_cons, List.foldl_nil, hu, Option.isSome_none, Bool.false_eq_true, if_false, writeMem, heatUnit_mem,
    Laws.onDeck_mem, addUnit_hbm]

/-- An extent in HBM takes two granules of every stack. -/
theorem granulesOn_one_extent {s : State} {p h e : Nat} {u : Machine.PUnit} (k : Nat) (hc : (part s p).colls = [])
    (hm : (part s p).models = []) (hv : (part s p).vocabs = []) (hg : (part s p).grammars = [])
    (hu : s.skidder.units = [u]) (hp : u.part = p) (hk : u.kind = .extent h e) (hl : u.loc = .hbm) (hsz : u.size = 65536)
    (hcopies : u.copies = 0) : granulesOn s p k = 2 := by
  simp [granulesOn, hc, hm, hv, hg, hu, hp, unitOn, hl, groupGranules, hk, hsz, hcopies, stripeOn, ceilDiv]

/-! ## A machine on which the write clears a byte elsewhere -/

/-- One region of every die but `d`, all owned by partition 0. -/
def otherRegions (d : Nat) : List Region :=
  ((List.range 8).filter (fun k => decide (k ≠ d))).map (fun k => { die := k, index := 0, owner := 0 })

/-- A host object of one extent at the beginning of partition 0's slice. -/
def firstObj : Obj := { handle := 1, size := 65536, base := sliceBase 0, tier := 0 }

/-- A running device whose partition 0 has `firstObj`, with no unit yet, and owns no region of die `d`. -/
def oneObject (d : Nat) : State :=
  { State.reset with
    power := { State.reset.power with phase := .running }
    landing := { State.reset.landing with vfEnable := true }
    parts := [{ objs := [firstObj] }]
    skidder := { State.reset.skidder with regions := otherRegions d } }

/-- The region of die `d` that Skidder takes next. -/
def nextIndex (d : Nat) : Nat := (nextRegion (oneObject d) d).getD 0

/-- The first byte of that region. -/
def markedByte (d : Nat) : Nat := regionAddr d (nextIndex d)

/-- That machine with the byte set. -/
def marked (d : Nat) : State := { oneObject d with mem := [(markedByte d, 1)] }

/-- The write: one byte at the beginning of the object. -/
def firstByte : Bar2Access := { part := 0, offset := 0, length := 1, data := [1] }

/-- The object's range. -/
def firstRange : ObjRange := { part := 0, handle := 1, base := sliceBase 0, size := 65536, host := true }

/-- The machine while the write places the object's unit. -/
def placing (d : Nat) : State := withUnit 0 (.extent firstObj.handle 0) firstObj.tier (firstObj.base + 0 * 65536) (marked d)

theorem otherRegions_on_die : ∀ d < 8, ∀ k < 8, ((otherRegions d).filter
    (fun r => decide (r.die = k ∧ r.owner = 0))).length = if k = d then 0 else 1 := by decide

theorem placing_regions {d k : Nat} (hd : d < 8) (hk : k < 8) :
    (regionsOf (placing d) 0 k).length = if k = d then 0 else 1 := otherRegions_on_die d hd k hk

theorem placing_needs_one (d k : Nat) : ceilDiv (granulesOn (placing d) 0 k) 512 = 1 := by
  rw [granulesOn_one_extent (p := 0) k rfl rfl rfl rfl rfl rfl rfl rfl rfl rfl]
  rfl

/-- Some die's first region is free, so that Skidder has one to grant. -/
theorem exists_grant : ∃ d < 8, nextRegion (oneObject d) d = some (nextIndex d) := by
  obtain ⟨d, hd, hfree⟩ := exists_die_unreserved (s := State.reset) (by decide)
  have unowned : ∀ d < 8, (otherRegions d).any (fun r => decide (r.die = d ∧ r.index = 0)) = false := by decide
  have free : regionFree (oneObject d) d 0 = true := by
    simp only [regionFree, Bool.and_eq_true, decide_eq_true_eq, Bool.not_eq_true', List.all_eq_true, Bool.or_eq_true]
    refine ⟨⟨regionCount_bounds.1, unowned d hd⟩, fun r hr => ?_⟩
    have hmiss := hfree r hr
    unfold meetsFirst at hmiss
    omega
  obtain ⟨i, hi⟩ := Option.isSome_iff_exists.mp (nextRegion_isSome free)
  exact ⟨d, hd, by rw [nextIndex, hi]; rfl⟩

/-- The grant overwrites the marked byte (R340). -/
theorem placing_clears {d : Nat} (hd : d < 8) (hg : nextRegion (oneObject d) d = some (nextIndex d)) :
    cellsRead (settlePart 0 (placing d)).mem (markedByte d) = 0 := by
  have none : regionsOf (placing d) 0 d = [] :=
    List.eq_nil_of_length_eq_zero (by rw [placing_regions hd hd, if_pos rfl])
  have cleared : cellsRead (settleDie 0 (placing d) d).mem (markedByte d) = 0 := by
    rw [settleDie_first none (placing_needs_one d d)]
    exact grantRegion_clears ((nextRegion_congr d rfl rfl rfl).trans hg)
  refine settleDies_read_zero cleared _ (List.mem_range.mpr hd) (fun k hk hne => settleDie_settled ?_)
  rw [placing_regions hd (List.mem_range.mp hk), if_neg hne, placing_needs_one]

theorem markedByte_lt {d : Nat} (hd : d < 8) (hg : nextRegion (oneObject d) d = some (nextIndex d)) :
    markedByte d < sliceBase 0 := by
  have hi := nextRegion_lt hg
  have hc := regionCount_bounds.2
  unfold markedByte regionAddr sliceBase hbmBase objRegion
  omega

/-- A write inside a host object goes to the object (R462). -/
theorem exec_bar2Write_host {s : State} {a : Bar2Access} {r : ObjRange} (hr : hostReaches s (1 + a.part) = true)
    (hs : a.offset + a.length ≤ bar2Size s) (hb : bar2Range s a.part (sliceBase a.part + a.offset) a.length = some r)
    (hh : r.host = true) :
    exec (.bar2Write a) s = .next (objStore r (sliceBase a.part + a.offset) (a.data.take a.length) s) := by
  show execBar2Write a s = _
  unfold execBar2Write
  rw [if_neg (by simp [hr, hs])]
  dsimp only
  rw [hb]
  exact congrArg Host.Outcome.next (if_pos hh)

theorem marked_reached (d : Nat) : hostReaches (marked d) (1 + firstByte.part) = true := rfl

theorem firstByte_in_bar2 (d : Nat) : firstByte.offset + firstByte.length ≤ bar2Size (marked d) :=
  show 0 + 1 ≤ 64 * 2 ^ 30 * 2 ^ 0 by decide

theorem firstByte_range (d : Nat) :
    bar2Range (marked d) firstByte.part (sliceBase firstByte.part + firstByte.offset) firstByte.length = some firstRange := by
  simp [bar2Range, rangesOf, part, marked, oneObject, firstObj, firstRange, firstByte]

theorem exec_firstByte (d : Nat) :
    exec (.bar2Write firstByte) (marked d) = .next (objStore firstRange (sliceBase 0) [1] (marked d)) :=
  exec_bar2Write_host (marked_reached d) (firstByte_in_bar2 d) (firstByte_range d) rfl

theorem firstByte_mem (d : Nat) : (objStore firstRange (sliceBase 0) [1] (marked d)).mem =
    cellsWriteBytes (settlePart 0 (placing d)).mem (sliceBase 0) [1] := by
  have extent : extentsOf (sliceBase 0 - firstObj.base) [(1 : Byte)].length = [0] := by decide
  rw [objStore_mem_of_new (o := firstObj) rfl extent rfl rfl]
  rfl

/-- Refutes O53: a write of a host object that places a new unit in HBM may have Skidder grant a region, which is overwritten with
zeros (R340), so memory is not the old one but for the bytes written. On `marked` it is `markedByte` that loses its value. -/
theorem not_hostLinkKeepsItsRules : ¬ Obligations.HostLinkKeepsItsRules := by
  unfold Obligations.HostLinkKeepsItsRules
  intro h
  obtain ⟨bar2, -⟩ := h
  obtain ⟨d, hd, hg⟩ := exists_grant
  obtain ⟨-, inside⟩ := bar2 (marked d) firstByte firstRange (marked_reached d) (firstByte_in_bar2 d)
  obtain ⟨-, -, host⟩ := inside (firstByte_range d)
  obtain ⟨t, hex, hmem, -⟩ := host firstObj rfl rfl (fun _ _ => rfl)
  rw [exec_firstByte] at hex
  obtain rfl := Host.Outcome.next.inj hex
  rw [firstByte_mem] at hmem
  have hbelow : markedByte d < sliceBase 0 := markedByte_lt hd hg
  have zero_eq_one : (0 : Byte) = 1 := calc
    0 = cellsRead (settlePart 0 (placing d)).mem (markedByte d) := (placing_clears hd hg).symm
    _ = cellsRead (cellsWriteBytes (settlePart 0 (placing d)).mem (sliceBase 0) [1]) (markedByte d) :=
      (Laws.read_writeBytes_other _ _ _ _ (.inl hbelow)).symm
    _ = cellsRead (cellsWriteBytes (marked d).mem (sliceBase 0) [1]) (markedByte d) := by rw [hmem]; rfl
    _ = cellsRead (marked d).mem (markedByte d) := Laws.read_writeBytes_other _ _ _ _ (.inl hbelow)
    _ = 1 := by simp [marked, cellsRead]
  exact absurd zero_eq_one (by decide)

end Sys2Proof.Proofs
end

