-- ==== Sys2Proof/Proofs/RunOutputs.lean ====
section
/-! Sys2Proof/Proofs/RunOutputs.lean: the bytes of output items, the lengths of input sequences, the ranges of codes and the
choice of a generated token (R255, R268, R270, R277, R284, R285). -/
namespace Sys2Proof.Proofs
open Sys2Proof.Machine Sys2Proof.Safety

/-! ## Lengths of bytes -/

@[simp] theorem le_length (k n : Nat) : (le k n).length = k := by
  induction k generalizing n with
  | zero => rfl
  | succ k ih => exact congrArg Nat.succ (ih _)

@[simp] theorem zeros_length (k : Nat) : (zeros k).length = k := List.length_replicate

theorem length_flatMap_const {α β : Type} {k : Nat} {f : α → List β} (h : ∀ x, (f x).length = k) (l : List α) :
    (l.flatMap f).length = k * l.length := by
  induction l with
  | nil => rfl
  | cons x l ih => rw [List.flatMap_cons, List.length_append, h, ih, List.length_cons, Nat.mul_succ, Nat.add_comm]

theorem bytesOfFloats_length (v : List F32) : (bytesOfFloats v).length = 4 * v.length :=
  length_flatMap_const (fun _ => le_length 4 _) v

theorem floatsOf_length (n : Nat) (bs : List Byte) : (floatsOf n bs).length = n := by
  rw [floatsOf, List.length_map, List.length_range]

theorem itemHeader_length (pooled toks clamps : Nat) (cut eos dead reduced : Bool) :
    (itemHeader pooled toks cut eos dead reduced clamps).length = 64 := by
  simp only [itemHeader, List.length_append, le_length, zeros_length]

theorem le_ceil64 (n : Nat) : n ≤ ceil64 n := by
  unfold ceil64 ceilDiv
  omega

/-! ## The output of an ENCODE item (R284) -/

theorem encodeOf_pooled_length (m : Model) (red : Bool) (seq : List Nat) (bufs : List (Nat × List Byte)) (clamps : Nat) :
    (encodeOf m red seq bufs clamps).pooled.length = m.pooledDim := floatsOf_length _ _

/-- One row for each token of the sequence. -/
theorem encodeOf_rows_bytes {m : Model} (red : Bool) (seq : List Nat) (bufs : List (Nat × List Byte)) (clamps : Nat)
    (hm : m.inputBinding ≤ 1) :
    ((encodeOf m red seq bufs clamps).rows.flatMap bytesOfFloats).length = 4 * m.tokenDim * seq.length := by
  unfold encodeOf
  dsimp only
  rw [if_pos hm]
  split
  next h => rw [h, Nat.mul_zero, Nat.zero_mul, List.flatMap_nil, List.length_nil]
  next =>
    rw [List.flatMap_map, length_flatMap_const (k := 4 * m.tokenDim), List.length_range]
    exact fun i => by rw [bytesOfFloats_length, floatsOf_length]

/-- Token rows go out for token inputs only, so the rows of the longest sequence leave room for any. -/
theorem encItem_length_le {m : Model} {seq : List Nat} (red reduced cut : Bool) (bufs : List (Nat × List Byte)) (clamps : Nat)
    (h : seq.length ≤ m.seqMax) : (encItem m reduced cut (encodeOf m red seq bufs clamps)).length ≤ encStride m := by
  have hpool := le_ceil64 (4 * m.pooledDim)
  have hrows : ((if m.inputBinding ≤ 1 then (encodeOf m red seq bufs clamps).rows else []).flatMap bytesOfFloats).length ≤
      ceil64 (4 * m.tokenDim * m.seqMax) := by
    split
    next hm =>
      calc _ = 4 * m.tokenDim * seq.length := encodeOf_rows_bytes red seq bufs clamps hm
        _ ≤ 4 * m.tokenDim * m.seqMax := Nat.mul_le_mul_left _ h
        _ ≤ ceil64 (4 * m.tokenDim * m.seqMax) := le_ceil64 _
    next => exact Nat.zero_le _
  simp only [encItem, encStride, List.length_append, itemHeader_length, bytesOfFloats_length, encodeOf_pooled_length, zeros_length]
  omega

/-! ## The output of a GENERATE item (R285) -/

/-- A step adds one token at most. -/
theorem genStep_toks_length {m : Model} {only : Bool} {maxNew : Nat} {r : CanopyRun} {logits : List F32} {g : GenOut}
    (h : genStep m only maxNew r logits = some g) : g.toks.length ≤ r.toks.length + 1 := by
  obtain ⟨ok, -, rfl⟩ := Option.map_eq_some_iff.mp h
  split
  · exact Nat.le_succ _
  · dsimp only
    split <;> exact Nat.le_of_eq (List.length_append ..)

/-- An MDL_RUN item that is over: what its output is. -/
theorem endItem_ends {s : State} {m : Model} {r next : CanopyRun} {a : MdlRunArgs} {out : List Byte} (hu : r.use = .items a)
    (h : endItem s m r = .ends next out) :
    (∃ only logits g cut clamps, r.generate = true ∧ genStep m only a.maxNew r logits = some g ∧
      out = itemHeader 0 g.toks.length cut g.eos g.dead r.everReduced clamps ++ g.toks.flatMap (le 4)) ∨
    (∃ cut, r.generate = false ∧ out = encItem m r.reduced cut (encodeOf m r.reduced
      (r.inputs.getD r.item { seq := [], front := 0, bytes := [], cut := false }).seq r.bufs r.clamps)) := by
  unfold endItem at h
  simp only [hu] at h
  cases hg : r.generate with
  | false =>
    rw [hg] at h
    exact .inr ⟨_, rfl, (ItemEnd.ends.inj h).2.symm⟩
  | true =>
    rw [hg, if_pos rfl] at h
    split at h
    · cases h
    next g hstep =>
      split at h
      · exact .inl ⟨_, _, g, _, _, rfl, hstep, (ItemEnd.ends.inj h).2.symm⟩
      · cases h

/-- The stride between items holds an item's output. -/
theorem endItem_out_fits {s : State} {m : Model} {r next : CanopyRun} {a : MdlRunArgs} {out : List Byte}
    (hu : r.use = .items a) (h : endItem s m r = .ends next out)
    (hseq : (r.inputs.getD r.item { seq := [], front := 0, bytes := [], cut := false }).seq.length ≤ m.seqMax)
    (htoks : r.generate = true → r.toks.length < a.maxNew) : out.length ≤ runStride m r.generate a := by
  obtain ⟨only, logits, g, cut, clamps, hg, hstep, rfl⟩ | ⟨cut, hg, rfl⟩ := endItem_ends hu h
  · have hone := genStep_toks_length hstep
    have hroom := htoks hg
    have hceil := le_ceil64 (4 * a.maxNew)
    rw [runStride, if_pos hg, List.length_append, itemHeader_length, length_flatMap_const (fun _ => le_length 4 _)]
    omega
  · rw [runStride, hg]
    exact encItem_length_le _ _ _ _ _ hseq

/-! ## Input sequences (R277) -/

theorem optId_length (n : Nat) : (optId n).length ≤ 1 := by
  unfold optId
  split
  · exact Nat.zero_le 1
  · exact Nat.le_refl 1

/-- A pair of segments: the special tokens are three at most, and segment B takes what A leaves. -/
theorem seqInput_pair_length {m : Model} (a b : List Nat) (hm : m.inputBinding = 1) (h : m.queryMax + 3 ≤ m.seqMax) :
    (seqInput m a b).seq.length ≤ m.seqMax := by
  have hcls := optId_length m.cls
  have hsep := optId_length m.sep
  simp only [seqInput, if_pos hm, List.length_append, List.length_take]
  omega

theorem seqInput_pair_sublist {m : Model} {a b : List Nat} (hm : m.inputBinding = 1) (h : (seqInput m a b).cut = false) :
    a.Sublist (seqInput m a b).seq ∧ b.Sublist (seqInput m a b).seq := by
  simp only [seqInput, if_pos hm, decide_eq_false_iff_not, not_or, Nat.not_lt] at h ⊢
  obtain ⟨ha, hb⟩ := h
  rw [(List.take_sublist _ b).eq_of_length_le hb, (List.take_sublist _ a).eq_of_length_le ha]
  have hfront : a.Sublist (optId m.cls ++ a ++ optId m.sep) :=
    (List.sublist_append_right _ _).trans (List.sublist_append_left _ _)
  constructor
  · exact (hfront.trans (List.sublist_append_left _ _)).trans (List.sublist_append_left _ _)
  · exact (List.sublist_append_right _ _).trans (List.sublist_append_left _ _)

theorem seqInput_single_length {m : Model} (a b : List Nat) (hm : m.inputBinding = 0)
    (h : (optId m.cls ++ optId m.sep).length ≤ m.seqMax) : (seqInput m a b).seq.length ≤ m.seqMax := by
  have hne : ¬m.inputBinding = 1 := by omega
  rw [List.length_append] at h
  simp only [seqInput, if_neg hne, List.length_append, List.length_take]
  omega

theorem seqInput_single_uncut {m : Model} {a b : List Nat} (hm : m.inputBinding = 0) (h : (seqInput m a b).cut = false) :
    (seqInput m a b).seq = optId m.cls ++ a ++ optId m.sep := by
  have hne : ¬m.inputBinding = 1 := by omega
  simp only [seqInput, if_neg hne, decide_eq_false_iff_not, Nat.not_lt] at h ⊢
  rw [(List.take_sublist _ a).eq_of_length_le h]

/-! ## Codes (R255, R268, R270) -/

/-- A value clamped to the bounds of a format. -/
theorem clamped_in_codeRange (four : Bool) (x : Int) :
    (codeRange four).1 ≤ max (codeRange four).1 (min x (codeRange four).2) ∧
      max (codeRange four).1 (min x (codeRange four).2) ≤ (codeRange four).2 := by
  have horder : (codeRange four).1 ≤ (codeRange four).2 := by cases four <;> decide
  omega

/-- What has no integer takes the bound on its side. -/
theorem clampOpt_none_in_codeRange (four : Bool) (x : F32) :
    (codeRange four).1 ≤ F.clampOpt none x (codeRange four).1 (codeRange four).2 ∧
      F.clampOpt none x (codeRange four).1 (codeRange four).2 ≤ (codeRange four).2 := by
  have horder : (codeRange four).1 ≤ (codeRange four).2 := by cases four <;> decide
  unfold F.clampOpt
  dsimp only
  split
  · exact ⟨horder, Int.le_refl _⟩
  · exact ⟨Int.le_refl _, horder⟩

theorem actCode_in_codeRange (t : Tensor) (x : F32) :
    (codeRange t.int4).1 ≤ (actCode t x).1 ∧ (actCode t x).1 ≤ (codeRange t.int4).2 := by
  unfold actCode
  dsimp only
  split
  · exact clamped_in_codeRange _ _
  · exact clampOpt_none_in_codeRange _ _

theorem quantise_in_codeRange (t : Tensor) (x : List F32) {q : Int} (h : q ∈ (quantise t x).1) :
    (codeRange t.int4).1 ≤ q ∧ q ≤ (codeRange t.int4).2 := by
  simp only [quantise, List.map_map, List.mem_map, Function.comp_apply] at h
  obtain ⟨y, -, rfl⟩ := h
  exact actCode_in_codeRange t y

theorem layerCodes_length (t : Tensor) (table : List (Nat × Nat)) (accs : List Int) :
    (layerCodes t table accs).1.length = accs.length := by
  simp only [layerCodes, List.length_map, List.length_zipIdx]

theorem layerCodes_in_codeRange (t : Tensor) (table : List (Nat × Nat)) (accs : List Int) {q : Int}
    (h : q ∈ (layerCodes t table accs).1) : (codeRange t.int4).1 ≤ q ∧ q ≤ (codeRange t.int4).2 := by
  simp only [layerCodes, List.map_map, List.mem_map, Function.comp_apply] at h
  obtain ⟨x, -, rfl⟩ := h
  exact clamped_in_codeRange _ _

/-! ## The best allowed token (R285) -/

/-- The better of the best token so far and a later one. -/
def betterToken (logits : List F32) (best : Option Nat) (t : Nat) : Option Nat :=
  match best with
  | none => some t
  | some b => if rankKey true (logits.getD t 0) < rankKey true (logits.getD b 0) then some t else some b

theorem bestLogit_eq_foldl (logits : List F32) (allowed : Nat → Bool) (n : Nat) :
    bestLogit logits allowed n = ((List.range n).filter allowed).foldl (betterToken logits) none := rfl

/-- `t` stands no later than `u`: its logit ranks ahead, or they are equal and its id is no higher. -/
def NoLater (logits : List F32) (t u : Nat) : Prop :=
  rankKey true (logits.getD t 0) < rankKey true (logits.getD u 0) ∨
    rankKey true (logits.getD t 0) = rankKey true (logits.getD u 0) ∧ t ≤ u

theorem NoLater.refl (logits : List F32) (t : Nat) : NoLater logits t t := .inr ⟨rfl, Nat.le_refl t⟩

theorem NoLater.trans {logits : List F32} {t u v : Nat} (a : NoLater logits t u) (b : NoLater logits u v) :
    NoLater logits t v := by
  unfold NoLater at *
  omega

/-- Over ascending tokens the fold finds one that no other stands before. -/
theorem foldl_betterToken (logits : List F32) (l : List Nat) (b : Nat) (hs : (b :: l).Pairwise (· < ·)) :
    ∃ t ∈ b :: l, l.foldl (betterToken logits) (some b) = some t ∧ ∀ u ∈ b :: l, NoLater logits t u := by
  induction l generalizing b with
  | nil => exact ⟨b, List.mem_cons_self, rfl, fun u hu => List.mem_singleton.mp hu ▸ NoLater.refl logits b⟩
  | cons c l ih =>
    obtain ⟨hb, hs⟩ := List.pairwise_cons.mp hs
    have hbc : b < c := hb c List.mem_cons_self
    by_cases hlt : rankKey true (logits.getD c 0) < rankKey true (logits.getD b 0)
    · obtain ⟨t, ht, hfold, hall⟩ := ih c hs
      have hcb : NoLater logits c b := .inl hlt
      refine ⟨t, List.mem_cons_of_mem _ ht, ?_, List.forall_mem_cons.mpr ⟨(hall c List.mem_cons_self).trans hcb, hall⟩⟩
      rw [List.foldl_cons, betterToken, if_pos hlt, hfold]
    · have hbs : (b :: l).Pairwise (· < ·) :=
        List.pairwise_cons.mpr ⟨fun x hx => hb x (List.mem_cons_of_mem _ hx), hs.of_cons⟩
      obtain ⟨t, ht, hfold, hall⟩ := ih b hbs
      obtain ⟨htb, htl⟩ := List.forall_mem_cons.mp hall
      have hcb : NoLater logits b c := by
        unfold NoLater
        omega
      refine ⟨t, ?_, ?_, List.forall_mem_cons.mpr ⟨htb, List.forall_mem_cons.mpr ⟨htb.trans hcb, htl⟩⟩⟩
      · exact List.cons_subset_cons b (List.subset_cons_self c l) ht
      · rw [List.foldl_cons, betterToken, if_neg hlt, hfold]

theorem bestLogit_cases (logits : List F32) (allowed : Nat → Bool) (n : Nat) :
    ((List.range n).filter allowed = [] ∧ bestLogit logits allowed n = none) ∨
    ∃ t ∈ (List.range n).filter allowed, bestLogit logits allowed n = some t ∧
      ∀ u ∈ (List.range n).filter allowed, NoLater logits t u := by
  have hs : ((List.range n).filter allowed).Pairwise (· < ·) := List.pairwise_lt_range.filter _
  rw [bestLogit_eq_foldl]
  cases hl : (List.range n).filter allowed with
  | nil => exact .inl ⟨rfl, rfl⟩
  | cons b l => exact .inr (foldl_betterToken logits l b (hl ▸ hs))

theorem mem_allowed {allowed : Nat → Bool} {n u : Nat} :
    u ∈ (List.range n).filter allowed ↔ u < n ∧ allowed u = true := by
  rw [List.mem_filter, List.mem_range]

theorem bestLogit_some {logits : List F32} {allowed : Nat → Bool} {n t : Nat} (h : bestLogit logits allowed n = some t) :
    t < n ∧ allowed t = true ∧ ∀ u, u < n → allowed u = true → NoLater logits t u := by
  obtain ⟨-, hnone⟩ | ⟨t', hmem, hsome, hall⟩ := bestLogit_cases logits allowed n
  · cases hnone.symm.trans h
  · obtain rfl : t' = t := Option.some.inj (hsome.symm.trans h)
    obtain ⟨hlt, hok⟩ := mem_allowed.mp hmem
    exact ⟨hlt, hok, fun u hu hau => hall u (mem_allowed.mpr ⟨hu, hau⟩)⟩

theorem bestLogit_none_iff (logits : List F32) (allowed : Nat → Bool) (n : Nat) :
    bestLogit logits allowed n = none ↔ ∀ u, u < n → allowed u = false := by
  obtain ⟨hempty, hnone⟩ | ⟨t, hmem, hsome, -⟩ := bestLogit_cases logits allowed n
  · refine iff_of_true hnone (fun u hu => Bool.eq_false_iff.mpr ?_)
    exact List.filter_eq_nil_iff.mp hempty u (List.mem_range.mpr hu)
  · obtain ⟨hlt, hok⟩ := mem_allowed.mp hmem
    refine iff_of_false (by rw [hsome]; exact Option.some_ne_none t) (fun h => ?_)
    exact Bool.false_ne_true ((h t hlt).symm.trans hok)

/-- Settles O38, part by part: output items, input sequences, the codes of quantisers and of integer layers, and the generated
token. -/
theorem runOutputsFitAndFollowTheGrammar : Obligations.RunOutputsFitAndFollowTheGrammar := by
  unfold Obligations.RunOutputsFitAndFollowTheGrammar
  refine ⟨fun s m r next a out => endItem_out_fits, fun m a b => ⟨fun hm h => ?_, fun hm h => ?_⟩,
    fun t x q => quantise_in_codeRange t x,
    fun t table accs => ⟨layerCodes_length t table accs, fun q => layerCodes_in_codeRange t table accs⟩,
    fun logits allowed n t h => ?_, bestLogit_none_iff⟩
  · exact ⟨seqInput_pair_length a b hm h, seqInput_pair_sublist hm⟩
  · exact ⟨seqInput_single_length a b hm h, seqInput_single_uncut hm⟩
  · obtain ⟨hlt, hok, hbest⟩ := bestLogit_some h
    refine ⟨hlt, hok, fun u hu hau => ?_⟩
    have hno := hbest u hu hau
    unfold NoLater at hno
    omega

end Sys2Proof.Proofs
end

