-- ==== Sys2Proof/Proofs/CanopyRuns.lean ====
section
/-! Sys2Proof/Proofs/CanopyRuns.lean: a run that ends while Loupe has room for one more record (R260, R465, R519). -/
namespace Sys2Proof.Proofs
open Sys2Proof.Machine Sys2Proof.Safety

/-! ## The record that fills Loupe's ring sends PF vector 1 -/

/-- Loupe runs, and both its filters admit such a record. -/
def recordsAt (l : Loupe) (source partition kind : Nat) : Bool :=
  l.running && l.ctrl.toNat.testBit (16 + source) && l.filter.toNat.testBit partition && l.filter.toNat.testBit (16 + kind)

/-- The next record fills the ring, under STOP_ON_FULL with the interrupt enabled, while LND_INT_SUMMARY is zero and the PF may
send. -/
structure NextRecordSignals (s : State) : Prop where
  oneShort : ringSize ≤ s.loupe.ring.length + 1
  stopOnFull : s.loupe.ctrl.toNat.testBit 1 = true
  enabled : (s.loupe.intStatus ||| 1) &&& s.loupe.intEnable ≠ 0
  quiet : summary s = 0
  link : s.landing.linkActive = true
  secure : insecureFn s 0 = false
  unblocked : landingBlocked s 0 = false

theorem keepLast_length {α : Type} (n : Nat) (l : List α) : (keepLast n l).length = min n l.length := by
  simp only [keepLast, List.length_drop]
  omega

theorem sendMsix_issued {fn v : Nat} {s : State} (hl : s.landing.linkActive = true) (hi : insecureFn s fn = false)
    (hb : landingBlocked s fn = false) : (sendMsix fn v s).issued = s.issued ++ [.msix fn v] := by
  simp only [sendMsix, issueHost, emit, hl, hi, hb, Bool.not_true, Bool.false_eq_true, if_false]

theorem summary_loupe_ne_zero {s : State} (h : s.loupe.intStatus &&& s.loupe.intEnable ≠ 0) : summary s ≠ 0 := by
  unfold summary
  rw [if_neg h]
  omega

/-- LND_INT_SUMMARY rises from zero (R465). -/
theorem setLpeStatus_issued {b : Reg} {s : State} (hq : summary s = 0)
    (he : (s.loupe.intStatus ||| b) &&& s.loupe.intEnable ≠ 0) (hl : s.landing.linkActive = true)
    (hi : insecureFn s 0 = false) (hb : landingBlocked s 0 = false) :
    (setLpeStatus b s).issued = s.issued ++ [.msix 0 1] := by
  unfold setLpeStatus raising
  dsimp only
  rw [if_pos ⟨hq, summary_loupe_ne_zero he⟩]
  exact sendMsix_issued hl hi hb

/-- Loupe stops at the full ring and signals it (R519). -/
theorem trace_issued_of_fills {s : State} {source partition kind : Nat} (d0 d1 : Nat)
    (hr : recordsAt s.loupe source partition kind = true) (h : NextRecordSignals s) :
    (trace source partition kind d0 d1 s).issued = s.issued ++ [.msix 0 1] := by
  have hfull (x : TraceRec) : ringSize ≤ (keepLast ringSize (s.loupe.ring ++ [x])).length := by
    rw [keepLast_length, List.length_append]
    exact Nat.le_min.mpr ⟨Nat.le_refl _, h.oneShort⟩
  unfold recordsAt at hr
  unfold trace
  dsimp only
  rw [if_pos hr, if_pos ⟨hfull _, h.stopOnFull⟩]
  exact setLpeStatus_issued h.quiet h.enabled h.link h.secure h.unblocked

/-! ## The end of a cancelled run -/

theorem traceRunEnd_issued_of_fills {r : CanopyRun} {s : State} (hs : r.started = true)
    (hr : recordsAt s.loupe 5 r.part 5 = true) (h : NextRecordSignals s) :
    (traceRunEnd r s).issued = s.issued ++ [.msix 0 1] := by
  unfold traceRunEnd
  rw [if_pos hs]
  exact trace_issued_of_fills _ _ hr h

theorem endRun_issued (r : CanopyRun) (s : State) : (endRun r s).issued = s.issued := rfl

theorem exec_canopySegmentEnd_cancelled {s : State} {r : CanopyRun} (hf : s.runs.find? (fun x => decide (x.id = r.id)) = some r)
    (hfw : firmwareRuns s = true) (hc : r.cancelled = true) :
    exec (.canopySegmentEnd r.id) s = .next (endRun r (traceRunEnd r s)) := by
  show execCanopySegmentEnd r.id s = _
  unfold execCanopySegmentEnd
  rw [hf]
  dsimp only
  rw [hfw, if_neg (by decide), if_pos hc]

/-! ## A machine whose ring is one record short -/

/-- A started run of partition 0 that is cancelled. -/
def cancelledRun : CanopyRun :=
  { id := 0, part := 0, sq := 0, tag := 0, model := 0, use := .calibrate false, generate := false, inputs := []
    started := true, groves := [0], cancelled := true }

/-- Loupe, running with its filters at reset, STOP_ON_FULL and its interrupt enabled, and one record short of a full ring. -/
def nearlyFull : Loupe :=
  { ctrl := 0x1FFF0002, running := true, count := ringSize - 1, intEnable := 1
    ring := List.replicate (ringSize - 1) { time := 0, seq := 0, source := 0, partition := 0, kind := 0, data0 := 0, data1 := 0 } }

/-- A running device with that run and that Loupe. -/
def traced : State :=
  { State.reset with
    power := { State.reset.power with phase := .running }
    landing := { State.reset.landing with bme := List.replicate 13 true }
    loupe := nearlyFull
    runs := [cancelledRun] }

theorem nearlyFull_ring_length : nearlyFull.ring.length = ringSize - 1 := List.length_replicate

theorem traced_loupe : traced.loupe = nearlyFull := rfl

theorem traced_signals : NextRecordSignals traced where
  oneShort := by
    rw [traced_loupe, nearlyFull_ring_length]
    decide
  stopOnFull := by decide
  enabled := by decide
  quiet := rfl
  link := rfl
  secure := rfl
  unblocked := rfl

theorem traced_records : recordsAt traced.loupe 5 cancelledRun.part 5 = true := by decide

/-- Refutes O37: the record of the end of a cancelled run may fill Loupe's ring, and Landing then sends PF vector 1 (R465,
R519), so CANOPY_SEGMENT_END does not leave what is issued as it was. On `traced` it issues one MSI-X. The record of a run that
starts, and that of a GENERATE run that goes on, meet the same. -/
theorem not_canopyRunsWaitStartAndEnd : ¬ Obligations.CanopyRunsWaitStartAndEnd := by
  unfold Obligations.CanopyRunsWaitStartAndEnd
  intro h
  obtain ⟨-, -, segmentEnd, -⟩ := h
  have found : traced.runs.find? (fun x => decide (x.id = cancelledRun.id)) = some cancelledRun := rfl
  have runs : firmwareRuns traced = true := rfl
  obtain ⟨cancelled, -⟩ := segmentEnd traced cancelledRun found runs
  obtain ⟨t, hex, -, hissued⟩ := cancelled rfl
  rw [exec_canopySegmentEnd_cancelled found runs rfl] at hex
  obtain rfl := Host.Outcome.next.inj hex
  rw [endRun_issued, traceRunEnd_issued_of_fills rfl traced_records traced_signals] at hissued
  exact absurd (congrArg List.length hissued) (by decide)

end Sys2Proof.Proofs
end

