-- ==== Sys2Proof/Proofs/TextOutputs.lean ====
section
/-! Sys2Proof/Proofs/TextOutputs.lean: stop strings in released and held output (R319–R321), the bits of a walked mask and the
stack of the automaton (R309–R311). -/
namespace Sys2Proof.Proofs
open Sys2Proof.Machine Sys2Proof.Safety

/-! ## Where stop strings begin (R320) -/

theorem beginsAt_iff {out x : List Byte} {i : Nat} : beginsAt out i x = true ↔ x ≠ [] ∧ x <+: out.drop i := by
  rw [beginsAt, Bool.and_eq_true, Bool.not_eq_true', List.isEmpty_eq_false_iff, decide_eq_true_eq, List.prefix_iff_eq_take,
    eq_comm (a := x)]

theorem beginsAt_mono {out more x : List Byte} {i : Nat} (hp : out <+: more) (h : beginsAt out i x = true) :
    beginsAt more i x = true := by
  obtain ⟨rest, rfl⟩ := hp
  rw [beginsAt_iff] at h ⊢
  obtain ⟨hne, hpre⟩ := h
  rw [List.drop_append]
  exact ⟨hne, List.IsPrefix.trans hpre (List.prefix_append _ _)⟩

theorem beginsAt_drop (out x : List Byte) (n i : Nat) : beginsAt (out.drop n) i x = beginsAt out (n + i) x := by
  rw [beginsAt, beginsAt, List.drop_drop]

/-- What lies wholly in the front of an output begins there in the front too. -/
theorem beginsAt_of_append {out more x : List Byte} {i : Nat} (hfit : i + x.length ≤ out.length)
    (h : beginsAt (out ++ more) i x = true) : beginsAt out i x = true := by
  rw [beginsAt_iff] at h ⊢
  obtain ⟨hne, hpre⟩ := h
  rw [List.drop_append_of_le_length (by omega)] at hpre
  exact ⟨hne, List.prefix_of_prefix_length_le hpre (List.prefix_append _ _) (by rw [List.length_drop]; omega)⟩

/-- No stop string begins before position `n`. -/
def NoStopBefore (out : List Byte) (stops : List (List Byte)) (n : Nat) : Prop :=
  ∀ i < n, ∀ x ∈ stops, beginsAt out i x = false

theorem stopAt_eq_none_iff {out : List Byte} {stops : List (List Byte)} {i : Nat} :
    (stops.findIdx? (beginsAt out i)).map (fun n => (i, n)) = none ↔ ∀ x ∈ stops, beginsAt out i x = false := by
  rw [Option.map_eq_none_iff, List.findIdx?_eq_none_iff]

theorem findStop_eq_none_iff {out : List Byte} {stops : List (List Byte)} :
    findStop out stops = none ↔ NoStopBefore out stops out.length := by
  simp only [findStop, List.findSome?_eq_none_iff, List.mem_range, stopAt_eq_none_iff, NoStopBefore]

/-- The position found is that of a stop string, and the earliest. -/
theorem findStop_eq_some {out : List Byte} {stops : List (List Byte)} {i n : Nat} (h : findStop out stops = some (i, n)) :
    i < out.length ∧ (∃ x ∈ stops, beginsAt out i x = true) ∧ NoStopBefore out stops i := by
  obtain ⟨before, k, behind, hrange, hk, hbefore⟩ := List.findSome?_eq_some_iff.mp h
  obtain ⟨m, hm, hpair⟩ := Option.map_eq_some_iff.mp hk
  obtain rfl : k = i := congrArg Prod.fst hpair
  have hlt : k < out.length := List.mem_range.mp (hrange ▸ List.mem_append_right _ List.mem_cons_self)
  obtain ⟨hm, hbegins, -⟩ := List.findIdx?_eq_some_iff_getElem.mp hm
  refine ⟨hlt, ⟨_, List.getElem_mem hm, hbegins⟩, fun j hj => stopAt_eq_none_iff.mp (hbefore j ?_)⟩
  have hsorted : (before ++ k :: behind).Pairwise (· < ·) := hrange ▸ List.pairwise_lt_range
  have hbehind : ∀ y ∈ behind, k < y := (List.pairwise_cons.mp (List.pairwise_append.mp hsorted).2.1).1
  have hmem : j ∈ before ++ k :: behind := hrange ▸ List.mem_range.mpr (Nat.lt_trans hj hlt)
  rcases List.mem_append.mp hmem with hin | hin
  · exact hin
  · rcases List.mem_cons.mp hin with rfl | hin
    · exact absurd hj (Nat.lt_irrefl _)
    · exact absurd (hbehind j hin) (Nat.lt_asymm hj)

theorem findStop_take {out : List Byte} {stops : List (List Byte)} {n : Nat} (h : NoStopBefore out stops n) :
    findStop (out.take n) stops = none := by
  refine findStop_eq_none_iff.mpr fun i hi x hx => Bool.eq_false_iff.mpr fun hb => ?_
  have hin : i < n := Nat.lt_of_lt_of_le hi (List.length_take_le n out)
  exact Bool.eq_false_iff.mp (h i hin x hx) (beginsAt_mono (List.take_prefix n out) hb)

theorem noStopBefore_of_none {out : List Byte} {stops : List (List Byte)} (h : findStop out stops = none) (n : Nat) :
    NoStopBefore out stops n := by
  intro i _ x hx
  by_cases hlt : i < out.length
  · exact findStop_eq_none_iff.mp h i hlt x hx
  · refine Bool.eq_false_iff.mpr fun hb => ?_
    obtain ⟨hne, hpre⟩ := beginsAt_iff.mp hb
    rw [List.drop_eq_nil_of_le (Nat.not_lt.mp hlt)] at hpre
    exact hne (List.prefix_nil.mp hpre)

theorem findStop_drop {out : List Byte} {stops : List (List Byte)} (h : findStop out stops = none) (n : Nat) :
    findStop (out.drop n) stops = none := by
  refine findStop_eq_none_iff.mpr fun i hi x hx => ?_
  rw [beginsAt_drop]
  exact noStopBefore_of_none h (n + i + 1) (n + i) (Nat.lt_succ_self _) x hx

/-! ## The tokens of a command, one after another (R319, R321) -/

/-- The bytes that a token adds to the output. -/
def shownText (v : Vocab) (render : Bool) (t : Nat) : List Byte :=
  if v.special t then (if render then v.str t else []) else v.text t

/-- The detokenisation has found a stop string or its end. -/
def DetokOver (r : DetokRun) : Prop := r.stop.isSome = true ∨ r.ended = true

theorem detokOver_iff (r : DetokRun) : DetokOver r ↔ ¬(r.stop = none ∧ r.ended = false) := by
  unfold DetokOver
  cases r.stop <;> cases r.ended <;> simp

/-- What holds of a detokenisation that has met the tokens `toks`: nothing is released before it is over. -/
structure DetokSound (v : Vocab) (stops : List (List Byte)) (render : Bool) (held : List Byte) (toks : List Nat)
    (r : DetokRun) : Prop where
  released : findStop r.released stops = none
  out : findStop r.out stops = none
  consumed : r.consumed ≤ toks.length
  closed : DetokOver r → r.out = []
  going : ¬DetokOver r → r.released = [] ∧ r.consumed = toks.length ∧ r.out = held ++ toks.flatMap (shownText v render)

theorem DetokSound.start (v : Vocab) {stops : List (List Byte)} (render : Bool) {held : List Byte}
    (h : findStop held stops = none) :
    DetokSound v stops render held [] { out := held, released := [], consumed := 0, stop := none, ended := false } where
  released := rfl
  out := h
  consumed := Nat.le_refl 0
  closed h := by simp [DetokOver] at h
  going _ := ⟨rfl, rfl, (List.append_nil held).symm⟩

theorem DetokSound.next {v : Vocab} {stops : List (List Byte)} {render : Bool} {held : List Byte} {toks : List Nat}
    {r : DetokRun} (eosEnds : Bool) (t : Nat) (h : DetokSound v stops render held toks r) :
    DetokSound v stops render held (toks ++ [t]) (detokOne v stops render eosEnds r t) := by
  have hlen : (toks ++ [t]).length = toks.length + 1 := List.length_append
  unfold detokOne
  split
  case isTrue hover =>
    exact ⟨h.released, h.out, by rw [hlen]; exact Nat.le_succ_of_le h.consumed, h.closed, fun hgo => absurd hover hgo⟩
  case isFalse hgo =>
    obtain ⟨hrel, hcon, hout⟩ := h.going hgo
    have hnext : r.consumed + 1 = (toks ++ [t]).length := by rw [hcon, hlen]
    split
    · refine ⟨?_, rfl, Nat.le_of_eq hnext, fun _ => rfl, fun hgo => absurd (.inr rfl) hgo⟩
      rw [hrel]
      exact h.out
    · dsimp only
      split
      case h_1 i n hstop =>
        refine ⟨?_, rfl, Nat.le_of_eq hnext, fun _ => rfl, fun hgo => absurd (.inl rfl) hgo⟩
        rw [hrel]
        exact findStop_take (findStop_eq_some hstop).2.2
      case h_2 hstop =>
        refine ⟨h.released, hstop, Nat.le_of_eq hnext, fun hover => absurd hover hgo, fun _ => ⟨hrel, hnext, ?_⟩⟩
        rw [hout, List.flatMap_append, List.flatMap_singleton, List.append_assoc]
        rfl

theorem DetokSound.foldl {v : Vocab} {stops : List (List Byte)} {render : Bool} {held : List Byte} {met : List Nat}
    {r : DetokRun} (eosEnds : Bool) (toks : List Nat) (h : DetokSound v stops render held met r) :
    DetokSound v stops render held (met ++ toks) (toks.foldl (detokOne v stops render eosEnds) r) := by
  induction toks generalizing met r with
  | nil => rwa [List.append_nil]
  | cons t toks ih =>
    rw [List.append_cons]
    exact ih (h.next eosEnds t)

/-! ## The release point (R320, R321) -/

/-- L: the length of the longest stop string, 1 without any. -/
def longestStop (stops : List (List Byte)) : Nat := max 1 ((stops.map List.length).foldl max 0)

theorem le_foldl_max (l : List Nat) (a : Nat) : a ≤ l.foldl max a ∧ ∀ x ∈ l, x ≤ l.foldl max a := by
  induction l generalizing a with
  | nil => exact ⟨Nat.le_refl a, fun x hx => nomatch hx⟩
  | cons b l ih =>
    obtain ⟨hacc, hall⟩ := ih (max a b)
    have hb : b ≤ l.foldl max (max a b) := Nat.le_trans (Nat.le_max_right a b) hacc
    exact ⟨Nat.le_trans (Nat.le_max_left a b) hacc, List.forall_mem_cons.mpr ⟨hb, hall⟩⟩

theorem length_le_longestStop {stops : List (List Byte)} {x : List Byte} (h : x ∈ stops) : x.length ≤ longestStop stops :=
  Nat.le_trans ((le_foldl_max _ 0).2 _ (List.mem_map_of_mem h)) (Nat.le_max_right 1 _)

theorem releasePoint_le (out : List Byte) (l : Nat) : releasePoint out l ≤ out.length - (l - 1) := by
  unfold releasePoint
  dsimp only
  split
  · exact Nat.sub_le _ _
  · exact Nat.le_refl _

/-- A stop string that later bytes complete begins at the release point or behind it. -/
theorem releasePoint_le_of_findStop {out more : List Byte} {stops : List (List Byte)} {i n : Nat}
    (h : findStop out stops = none) (hs : findStop (out ++ more) stops = some (i, n)) :
    releasePoint out (longestStop stops) ≤ i := by
  obtain ⟨-, ⟨x, hx, hbegins⟩, -⟩ := findStop_eq_some hs
  have hlen := length_le_longestStop hx
  have hone : 1 ≤ longestStop stops := Nat.le_max_left _ _
  have hpoint := releasePoint_le out (longestStop stops)
  refine Nat.le_of_not_lt fun hlt => ?_
  have hin := beginsAt_of_append (by omega) hbegins
  exact Bool.eq_false_iff.mp (noStopBefore_of_none h (i + 1) i (Nat.lt_succ_self i) x hx) hin

/-! ## The whole command -/

/-- How many bytes of the output go out when the command ends with its stream going on, or with END. -/
def releaseLen (stops : List (List Byte)) (last : Bool) (out : List Byte) : Nat :=
  if last then out.length else releasePoint out (longestStop stops)

/-- A command ends over, as its tokens left it, or releases a front of the output. -/
theorem detokRun_cases (v : Vocab) {stops : List (List Byte)} (render eosEnds last : Bool) {held : List Byte} (toks : List Nat)
    (h : findStop held stops = none) :
    (DetokOver (detokRun v stops render eosEnds last held toks) ∧
      DetokSound v stops render held toks (detokRun v stops render eosEnds last held toks)) ∨
    ∃ r, DetokSound v stops render held toks r ∧ ¬DetokOver r ∧
      detokRun v stops render eosEnds last held toks =
        { r with out := r.out.drop (releaseLen stops last r.out), released := r.out.take (releaseLen stops last r.out) } := by
  have hsound := (DetokSound.start v render h).foldl eosEnds toks
  rw [List.nil_append] at hsound
  unfold detokRun
  dsimp only
  split
  case isTrue hover => exact .inl ⟨hover, hsound⟩
  case isFalse hgo => exact .inr ⟨_, hsound, hgo, rfl⟩

/-- R319–R321: what a command releases and what it still holds. -/
theorem detokRun_releases_no_stop (v : Vocab) (stops : List (List Byte)) (render eos last : Bool) (held : List Byte)
    (toks : List Nat) (h : findStop held stops = none) :
    let r := detokRun v stops render eos last held toks
    findStop r.released stops = none ∧ findStop r.out stops = none ∧ r.consumed ≤ toks.length ∧
    (r.stop.isSome = true ∨ r.ended = true → r.out = []) ∧
    (r.stop = none → r.ended = false → r.consumed = toks.length ∧
      r.released ++ r.out = held ++ toks.flatMap (shownText v render) ∧ (last = true → r.out = []) ∧
      (last = false → ∀ more i n, findStop (r.released ++ r.out ++ more) stops = some (i, n) → r.released.length ≤ i)) := by
  dsimp only
  obtain ⟨hover, hsound⟩ | ⟨r, hsound, hgo, hr⟩ := detokRun_cases v render eos last toks h
  · exact ⟨hsound.released, hsound.out, hsound.consumed, hsound.closed,
      fun hs he => absurd ⟨hs, he⟩ ((detokOver_iff _).mp hover)⟩
  · obtain ⟨-, hcon, hout⟩ := hsound.going hgo
    rw [hr]
    refine ⟨findStop_take (noStopBefore_of_none hsound.out _), findStop_drop hsound.out _, hsound.consumed,
      fun hover => absurd hover hgo, fun _ _ => ⟨hcon, ?_, fun hlast => ?_, fun hlast more i n hs => ?_⟩⟩
    · dsimp only
      rw [List.take_append_drop, hout]
    · subst hlast
      exact List.drop_length
    · subst hlast
      dsimp only at hs ⊢
      rw [List.take_append_drop] at hs
      exact Nat.le_trans (List.length_take_le _ _) (releasePoint_le_of_findStop hsound.out hs)

/-! ## The bits of a mask (R310) -/

/-- The number whose binary digits are the bits, the first of them lowest. -/
def bitsValue (bits : List Bool) : Nat := bits.foldr (fun b n => 2 * n + b.toNat) 0

theorem bitsValue_cons (b : Bool) (bits : List Bool) : bitsValue (b :: bits) = 2 * bitsValue bits + b.toNat := rfl

theorem testBit_bitsValue (bits : List Bool) (i : Nat) : (bitsValue bits).testBit i = bits.getD i false := by
  induction bits generalizing i with
  | nil => simp [bitsValue]
  | cons b bits ih =>
    have hb := Bool.toNat_lt b
    rw [bitsValue_cons]
    cases i with
    | zero =>
      rw [Nat.testBit_zero, Nat.mul_add_mod_self_left]
      cases b <;> rfl
    | succ i =>
      rw [Nat.testBit_succ, show (2 * bitsValue bits + b.toNat) / 2 = bitsValue bits by omega, ih]
      rfl

theorem foldl_bits (bits : List Bool) (k a : Nat) :
    (bits.zipIdx k).foldl (fun a b => a + if b.1 then 2 ^ b.2 else 0) a = a + 2 ^ k * bitsValue bits := by
  induction bits generalizing k a with
  | nil => rfl
  | cons b bits ih =>
    have hb : (if b then 2 ^ k else 0) = 2 ^ k * b.toNat := by
      cases b
      · rfl
      · exact (Nat.mul_one _).symm
    rw [List.zipIdx_cons, List.foldl_cons, ih, bitsValue_cons, Nat.pow_succ, hb, Nat.mul_add, Nat.mul_assoc]
    omega

/-- The byte `k` of a mask holds the bits from `8 * k` on. -/
theorem maskOf_getD {n k : Nat} (bits : List Bool) (h : k < n) :
    (maskOf n bits).getD k 0 = BitVec.ofNat 8 (bitsValue ((bits.drop (8 * k)).take 8)) := by
  rw [maskOf, List.getD_eq_getElem?_getD, List.getElem?_map, List.getElem?_range h]
  simp only [Option.map_some, Option.getD_some, foldl_bits, Nat.pow_zero, Nat.one_mul, Nat.zero_add]

theorem maskBit_maskOf {n t : Nat} (bits : List Bool) (h : t < 8 * n) : maskBit (maskOf n bits) t = bits.getD t false := by
  have hlow : t % 8 < 8 := Nat.mod_lt _ (by decide)
  rw [maskBit, maskOf_getD bits (by omega), BitVec.toNat_ofNat, Nat.testBit_mod_two_pow, testBit_bitsValue,
    List.getD_eq_getElem?_getD, List.getD_eq_getElem?_getD, List.getElem?_take_of_lt hlow, List.getElem?_drop,
    Nat.div_add_mod, decide_eq_true hlow, Bool.true_and]

/-- A walked mask marks the allowed tokens and no others (R310). -/
theorem maskBit_walkMask {g : Grammar} {v : Vocab} {t : Nat} (c : Conf) (ht : t < v.tokens.length) (hm : t < 8 * g.maskBytes) :
    maskBit (walkMask g v c) t = gramAllows g v c t := by
  rw [walkMask, maskBit_maskOf _ hm, List.getD_eq_getElem?_getD, List.getElem?_map, List.getElem?_range ht]
  rfl

/-! ## The automaton (R309) -/

/-- The actions of R309: only a push lengthens the stack, and not past 256. -/
theorem gramByte_stack_le {g : Grammar} {c d : Conf} {b : Byte} (h : gramByte g c b = some d) (hc : c.stack.length ≤ 256) :
    d.stack.length ≤ 256 := by
  unfold gramByte at h
  split at h
  · cases h
  split at h
  case isTrue =>
    obtain rfl := Option.some.inj h
    exact hc
  split at h
  case isTrue =>
    split at h
    · cases h
    next hroom =>
      obtain rfl := Option.some.inj h
      exact Nat.lt_of_not_le hroom
  split at h
  · cases h
  next top rest hstack =>
    obtain rfl := Option.some.inj h
    rw [hstack, List.length_cons] at hc
    dsimp only
    split
    · exact hc
    · exact Nat.le_of_succ_le hc

theorem gramBytes_stack_le {g : Grammar} {c d : Conf} {bs : List Byte} (h : gramBytes g c bs = some d)
    (hc : c.stack.length ≤ 256) : d.stack.length ≤ 256 := by
  induction bs generalizing c with
  | nil => exact Option.some.inj h ▸ hc
  | cons b bs ih =>
    rw [gramBytes] at h
    split at h
    next e hb => exact ih h (gramByte_stack_le hb hc)
    next => cases h

theorem gramBytes_append (g : Grammar) (c : Conf) (xs ys : List Byte) :
    gramBytes g c (xs ++ ys) = (gramBytes g c xs).bind (fun d => gramBytes g d ys) := by
  induction xs generalizing c with
  | nil => rfl
  | cons b xs ih =>
    rw [List.cons_append, gramBytes, gramBytes]
    cases gramByte g c b with
    | none => rfl
    | some d => exact ih d

/-- Settles O42: the release of a detokenisation, the walked mask, and the automaton's stack and composition. -/
theorem outputsHoldNoStopAndMasksAreExact : Obligations.OutputsHoldNoStopAndMasksAreExact := by
  unfold Obligations.OutputsHoldNoStopAndMasksAreExact
  exact ⟨detokRun_releases_no_stop, fun g v c t => maskBit_walkMask c, fun g c d bs => gramBytes_stack_le, gramBytes_append⟩

end Sys2Proof.Proofs
end

