-- ==== Sys2Proof/Proofs/Streams.lean ====
section
/-! Sys2Proof/Proofs/Streams.lean: what an entry of the text engine finds of its partition once it has left its queue, how
stream contexts are named and set (R305, R307), what the host is sent, and a token outside the vocabulary (R319). -/
namespace Sys2Proof.Proofs
open Sys2Proof.Machine Sys2Proof.Safety

/-! ## Checks -/

theorem checked_of_fail {s : State} {l : List (Bool × Nat × Nat)} {e : Nat × Nat} (k : MRes) (h : firstFail l = some e) :
    checked s l k = .fail s e := by rw [checked, h]

theorem checked_of_pass {s : State} {l : List (Bool × Nat × Nat)} (k : MRes) (h : firstFail l = none) :
    checked s l k = k := by rw [checked, h]

theorem qchecked_of_fail {s : State} {l : List (Bool × Nat × Nat)} {e : Nat × Nat} (k : QRes) (h : firstFail l = some e) :
    qchecked s l k = .fail s e := by rw [qchecked, h]

theorem qchecked_of_pass {s : State} {l : List (Bool × Nat × Nat)} (k : QRes) (h : firstFail l = none) :
    qchecked s l k = k := by rw [qchecked, h]

/-! ## What queues, completions and answers leave alone -/

theorem settled_time {s t : State} (h : Settled s t) : t.time = s.time := by rw [h.rest]; rfl

theorem settled_preOnly {s t : State} (h : Settled s t) (v : Vocab) : preOnly t v = preOnly s v := by rw [h.rest]; rfl

theorem settled_reducedService {s t : State} (h : Settled s t) : reducedService t = reducedService s := by rw [h.rest]; rfl

theorem settled_linkActive {s t : State} (h : Settled s t) : t.landing.linkActive = s.landing.linkActive := by
  rw [h.rest]; rfl

theorem settled_landingBlocked {s t : State} (h : Settled s t) (fn : Nat) : landingBlocked t fn = landingBlocked s fn := by
  rw [h.rest]; rfl

theorem settled_part {s t : State} (h : Settled s t) (p : Nat) : barePart (part t p) = barePart (part s p) := by
  have k : (t.parts.map barePart).getD p (barePart {}) = (s.parts.map barePart).getD p (barePart {}) := by rw [h.parts]
  unfold part
  rwa [getD_map_default, getD_map_default] at k

theorem settled_findVocab {s t : State} (h : Settled s t) (p n : Nat) :
    findVocab (part t p) n = findVocab (part s p) n :=
  (congrArg (fun x => findVocab x n) (settled_part h p) : findVocab (barePart (part t p)) n = findVocab (barePart (part s p)) n)

theorem settled_findGrammar {s t : State} (h : Settled s t) (p n : Nat) :
    findGrammar (part t p) n = findGrammar (part s p) n :=
  (congrArg (fun x => findGrammar x n) (settled_part h p) :
    findGrammar (barePart (part t p)) n = findGrammar (barePart (part s p)) n)

theorem settled_streams {s t : State} (h : Settled s t) (p : Nat) : (part t p).streams = (part s p).streams :=
  (congrArg Part.streams (settled_part h p) : (barePart (part t p)).streams = (barePart (part s p)).streams)

theorem settled_findStream {s t : State} (h : Settled s t) (p n : Nat) :
    findStream (part t p) n = findStream (part s p) n := by
  rw [findStream, findStream, settled_streams h]

theorem settled_streamCount {s t : State} (h : Settled s t) : streamCount t = streamCount s := by
  have hparts := congrArg (List.map (fun x : Part => x.streams.length)) h.parts
  simp only [List.map_map] at hparts
  have hlens : t.parts.map (fun x => x.streams.length) = s.parts.map (fun x => x.streams.length) := hparts
  have hruns : t.runs = s.runs := by rw [h.rest]; rfl
  rw [streamCount, streamCount, hlens, hruns]

theorem settled_streamChecks {s t : State} (h : Settled s t) (p n : Nat) (opens : Bool) (fits : StreamKind → Bool) :
    streamChecks t p n opens fits = streamChecks s p n opens fits := by
  simp only [streamChecks, settled_findStream h, settled_streams h, settled_streamCount h]

/-! ## Updates of a partition keep `Settled` -/

theorem map_modify_comm {α β : Type} (g : α → β) {f : α → α} {f' : β → β} (h : ∀ x, g (f x) = f' (g x)) (l : List α)
    (n : Nat) : (l.modify n f).map g = (l.map g).modify n f' := by
  induction l generalizing n with
  | nil => cases n <;> rfl
  | cons a r ih =>
    cases n with
    | zero => simp [h]
    | succ n => simp [ih]

theorem settled_onPart {s t : State} (h : Settled s t) (p : Nat) {f : Part → Part}
    (hf : ∀ x, barePart (f x) = f (barePart x)) : Settled (onPart p f s) (onPart p f t) := by
  refine ⟨?_, ?_⟩
  · conv =>
      lhs
      rw [h.rest]
    rfl
  · rw [Laws.onPart_parts, Laws.onPart_parts, map_modify_comm barePart hf, map_modify_comm barePart hf, h.parts]

theorem setStream_settled {s t : State} (h : Settled s t) (p n : Nat) (k : Option StreamKind) :
    Settled (setStream p n k s) (setStream p n k t) := by
  unfold setStream
  rw [settled_time h]
  exact settled_onPart h p (fun _ => rfl)

theorem touchStream_settled {s t : State} (h : Settled s t) (p n : Nat) :
    Settled (touchStream p n s) (touchStream p n t) := by
  unfold touchStream
  rw [settled_time h]
  exact settled_onPart h p (fun _ => rfl)

/-! ## A command names its stream (R307) -/

/-- The state in which a command meets its checks: an open stream that it names is used now. -/
def naming (opens : Bool) (p n : Nat) (s : State) : State := if opens then s else touchStream p n s

theorem naming_settled {s t : State} (h : Settled s t) (opens : Bool) (p n : Nat) :
    Settled (naming opens p n s) (naming opens p n t) := by
  cases opens
  · exact touchStream_settled h p n
  · exact h

theorem part_touchStream {s : State} {p : Nat} (h : p < s.parts.length) (n : Nat) :
    part (touchStream p n s) p = { part s p with
      streams := mapWhere (fun x => x.num = n) (fun x => { x with lastUse := s.time }) (part s p).streams } :=
  Laws.part_onPart_same p _ s h

theorem findVocab_naming {s : State} {p : Nat} (h : p < s.parts.length) (opens : Bool) (n x : Nat) :
    findVocab (part (naming opens p n s) p) x = findVocab (part s p) x := by
  cases opens
  · show findVocab (part (touchStream p n s) p) x = _
    rw [part_touchStream h]
    rfl
  · rfl

theorem findGrammar_naming {s : State} {p : Nat} (h : p < s.parts.length) (opens : Bool) (n x : Nat) :
    findGrammar (part (naming opens p n s) p) x = findGrammar (part s p) x := by
  cases opens
  · show findGrammar (part (touchStream p n s) p) x = _
    rw [part_touchStream h]
    rfl
  · rfl

theorem preOnly_naming (opens : Bool) (p n : Nat) (s : State) (v : Vocab) : preOnly (naming opens p n s) v = preOnly s v := by
  cases opens <;> rfl

theorem reducedService_naming (opens : Bool) (p n : Nat) (s : State) :
    reducedService (naming opens p n s) = reducedService s := by cases opens <;> rfl

theorem linkActive_naming (opens : Bool) (p n : Nat) (s : State) :
    (naming opens p n s).landing.linkActive = s.landing.linkActive := by cases opens <;> rfl

theorem landingBlocked_naming (opens : Bool) (p n fn : Nat) (s : State) :
    landingBlocked (naming opens p n s) fn = landingBlocked s fn := by cases opens <;> rfl

/-- Naming a stream leaves its kind, and says that it was used now. -/
theorem findStream_touchStream {s : State} {p n : Nat} (h : p < s.parts.length) :
    findStream (part (touchStream p n s) p) n = (findStream (part s p) n).map (fun x => { x with lastUse := s.time }) := by
  have keeps : ((fun x : Stream => decide (x.num = n)) ∘
      fun x => if decide (x.num = n) = true then { x with lastUse := s.time } else x) = fun x => decide (x.num = n) := by
    funext x
    by_cases hx : x.num = n <;> simp [hx]
  rw [part_touchStream h, findStream, findStream, mapWhere, List.find?_map, keeps]
  cases hf : (part s p).streams.find? (fun x => decide (x.num = n)) with
  | none => rfl
  | some x => exact congrArg some (if_pos (List.find?_some hf))

/-! ## Entries that end at once -/

/-- An entry completes when its own rules give that completion whatever its leaving its queue changed. -/
theorem completes_of_settled {c : Instr} {q : SqReq} {op status cond dA dB : Nat} {body : State → QRes} {u s : State}
    (hex : exec c s = .next (queue q op body s)) (h : Takes s q op none)
    (hb : ∀ b, Settled s b → ∃ st,
      body b = { st := st, status := status, cond := cond, dA := dA, dB := dB } ∧ Settled u st) :
    Completes c q status cond dA dB u s :=
  Laws.completes_of hex h (fun _ _ _ => hb _ ((Laws.takeEntry_settled q s).trans ⟨rfl, rfl⟩))

/-- Two completions of one command leave the same, but for queues. -/
theorem completes_parts_unique {c : Instr} {q : SqReq} {st st' co co' a a' b b' : Nat} {u u' s : State}
    (h : Completes c q st co a b u s) (h' : Completes c q st' co' a' b' u' s) :
    u.parts.map barePart = u'.parts.map barePart := by
  obtain ⟨v, hex, hv⟩ := h
  obtain ⟨v', hex', hv'⟩ := h'
  have hsame := Host.Outcome.next.inj (hex.symm.trans hex')
  have ht := hv.trans (Laws.completeSq_settled q.part q.sq q.tag q.context q.noInt st co a b v)
  have ht' := hv'.trans (Laws.completeSq_settled q.part q.sq q.tag q.context q.noInt st' co' a' b' v')
  rw [← hsame] at ht'
  exact ht.parts.symm.trans ht'.parts

/-! ## Tokens outside the vocabulary (R319) -/

theorem detokChecks_settled {s t : State} (h : Settled s t) (p : Nat) (a : DetokArgs) : detokChecks t p a = detokChecks s p a := by
  simp only [detokChecks, vocabChecks, settled_findVocab h, settled_streamChecks h]

/-- The token ids of the command as Landing reads them. -/
def detokTokens (a : DetokArgs) : List Nat := a.toks.take a.count ++ List.replicate (a.count - a.toks.length) 0

theorem detokFinish_of_bad {p i : Nat} {a : DetokArgs} {v : Vocab} (held : List Byte) (stops : List (List Byte))
    (render eosEnds : Bool) (s : State) (h : (detokTokens a).findIdx? (fun t => decide (v.tokens.length ≤ t)) = some i) :
    detokFinish p a v held stops render eosEnds s = .fail s (St.invalidToken, i) := by
  unfold detokTokens at h
  unfold detokFinish
  dsimp only
  rw [h]
  rfl

/-- A command that opens its stream and names a token id outside the vocabulary completes with INVALID_TOKEN and opens none. -/
theorem detok_completes_invalidToken {s : State} {q : SqReq} {a : DetokArgs} {v : Vocab} {i : Nat}
    (h : Takes s q Op.txtDetok none) (ho : a.open_ = true) (hc : firstFail (detokChecks s q.part a) = none)
    (hv : findVocab (part s q.part) a.vocab = some v)
    (hi : (detokTokens a).findIdx? (fun t => decide (v.tokens.length ≤ t)) = some i) :
    Completes (.txtDetokStream q a) q St.invalidToken 0 i 0 s s := by
  refine completes_of_settled (body := detokBody q.part a) rfl h (fun b hb => ⟨b, ?_, hb⟩)
  unfold detokBody
  simp only [ho, if_true]
  rw [qchecked_of_pass _ (by rw [detokChecks_settled hb, hc]), settled_findVocab hb, hv]
  exact detokFinish_of_bad [] _ _ _ b hi

/-! ## A command that names such a token -/

/-- A vocabulary of one token. -/
def singleToken : Vocab :=
  { handle := 1, base := 0, loading := false, bpe := true, presplit := 0, nfc := false, spaceMark := false, addPrefix := false
    byteLevel := false, tokens := [[0x61]], byteBase := 16, merges := [], specials := [], bos := noId, eos := noId
    byteScore := 0, scores := [], trie := false, bytes := 128 }

/-- It opens stream 0 and detokenises token 1 of that vocabulary. -/
def openDetok : DetokArgs :=
  { vocab := 1, stream := 0, open_ := true, end_ := false, renderSpecial := false, eosEnds := false, count := 1, stopCount := 0
    tokAddr := 64, outAddr := 64, outLen := 64, stopAddr := 0, toks := [1], stops := [] }

def detokEntry : SqReq :=
  { part := 0, sq := 0, tag := 0, context := 0, fence := false, noInt := false, indirect := false, paramAddr := 0, paramLen := 0 }

/-- A device in full service whose partition 0 is ACTIVE with that vocabulary, and has the entry at the head of SQ 0. -/
def detokenising : State :=
  { State.reset with
    power := { State.reset.power with phase := .running, level := 2 }
    landing := { State.reset.landing with bme := List.replicate 13 true }
    parts := [{ state := .active, vocabs := [singleToken]
                sqs := [{ id := 0, entries := 64, base := 0, cqId := 0, weight := 1
                          fetched := [entryOf detokEntry Op.txtDetok] }] }] }

theorem detokenising_takes : Takes detokenising detokEntry Op.txtDetok none := ⟨by decide, by decide⟩

theorem detokenising_completes :
    Completes (.txtDetokStream detokEntry openDetok) detokEntry St.invalidToken 0 0 0 detokenising detokenising :=
  detok_completes_invalidToken detokenising_takes rfl (by decide) rfl (by decide)

/-- Refutes O40: no premise keeps the token ids of TXT_DETOK_STREAM below TOKEN_COUNT, and an id at or above it completes with
INVALID_TOKEN (R319). On `detokenising` the command does so and opens no stream, where the statement has stream 0 open. -/
theorem not_textIsTokenizedAndReleased : ¬ Obligations.TextIsTokenizedAndReleased := by
  unfold Obligations.TextIsTokenizedAndReleased
  intro h
  obtain ⟨-, detok⟩ := h
  obtain ⟨-, passes⟩ := detok detokenising detokEntry openDetok (by decide) detokenising_takes
  obtain ⟨opened, -⟩ := passes singleToken (by decide) rfl
  obtain ⟨-, fits⟩ := opened rfl
  obtain ⟨released, -⟩ := fits (by decide)
  have same := completes_parts_unique released detokenising_completes
  have streams : [1] = [0] := congrArg (List.map (fun t : Part => t.streams.length)) same
  exact absurd streams (by decide)

end Sys2Proof.Proofs
end

