-- ==== Sys2Proof/Proofs/TextImages.lean ====
section
/-! Sys2Proof/Proofs/TextImages.lean: vocabularies and grammars loaded and unloaded (R291–R293, R308), tries and the time-out of
stream contexts (R307, R314). -/
namespace Sys2Proof.Proofs
open Sys2Proof.Machine Sys2Proof.Safety

/-! ## Loupe's record of a command reaches no region

What CMD_BEGIN may change stands aside of all that `settlePart` reads and writes. -/

/-- The state with another Loupe, other issued messages and other waiting requests. -/
def reshown (l : Loupe) (i w : List Out) (s : State) : State :=
  { s with loupe := l, issued := i, landing := { s.landing with waiting := w } }

theorem grantRegion_reshown (p die : Nat) (l : Loupe) (i w : List Out) (s : State) :
    grantRegion p die (reshown l i w s) = reshown l i w (grantRegion p die s) := by
  unfold grantRegion
  rw [nextRegion_congr (s := s) (t := reshown l i w s) die rfl rfl rfl]
  cases nextRegion s die <;> rfl

theorem settleDie_reshown (p die : Nat) (l : Loupe) (i w : List Out) (s : State) :
    settleDie p (reshown l i w s) die = reshown l i w (settleDie p s die) := by
  have hneed : granulesOn (reshown l i w s) p die = granulesOn s p die := rfl
  have hmine : regionsOf (reshown l i w s) p die = regionsOf s p die := rfl
  unfold settleDie
  dsimp only
  rw [hneed, hmine]
  split
  · exact List.foldl_hom (reshown l i w) (fun t _ => grantRegion_reshown p die l i w t)
  · rfl

theorem settlePart_reshown (p : Nat) (l : Loupe) (i w : List Out) (s : State) :
    settlePart p (reshown l i w s) = reshown l i w (settlePart p s) :=
  List.foldl_hom (reshown l i w) (fun t die => settleDie_reshown p die l i w t)

theorem foldl_keeps {α β γ : Type} (g : β → γ) {f : β → α → β} (h : ∀ b x, g (f b x) = g b) (l : List α) (b : β) :
    g (l.foldl f b) = g b := by
  induction l generalizing b with
  | nil => rfl
  | cons x l ih => exact (ih _).trans (h b x)

theorem grantRegion_mbx (p die : Nat) (s : State) : (grantRegion p die s).mbx = s.mbx := by
  unfold grantRegion
  split <;> rfl

theorem settleDie_mbx (p die : Nat) (s : State) : (settleDie p s die).mbx = s.mbx := by
  unfold settleDie
  dsimp only
  split
  · exact foldl_keeps State.mbx (fun t _ => grantRegion_mbx p die t) _ s
  · rfl

theorem settlePart_mbx (p : Nat) (s : State) : (settlePart p s).mbx = s.mbx :=
  foldl_keeps State.mbx (fun t die => settleDie_mbx p die t) _ s

/-! ## Mailbox commands that fail or are accepted -/

/-- A mailbox command completes when its own rules give that answer on the state after CMD_BEGIN. -/
theorem answers_of_reshown {c : Instr} {r : MbxReq} {op status detail : Nat} {async : Bool} {payload : List Byte}
    {lens : List Nat} {body : State → MRes} {u s : State} (hex : exec c s = .next (mailbox r op lens body s))
    (h : Admits s r op none (lengthIn r lens)) (hm : u.mbx = s.mbx)
    (hb : ∀ l i w, body (reshown l i w s) =
      { st := reshown l i w u, status := status, detail := detail, async := async, payload := payload }) :
    Answers c r op status detail async payload u s :=
  Laws.answers_plain hex h (congrArg List.length hm) hb

/-! ## Loads (R291–R293, R308) -/

/-- The checks of VOCAB_LOAD with an image. -/
def vocabLoadChecks (s : State) (p : Nat) (a : TextLoadArgs) : List (Bool × Nat × Nat) :=
  (!within 1 65535 a.handle, St.invalidField, 32) :: (decide (268435456 < a.imageLen), St.invalidField, 48) ::
    textLoadChecks s p (findVocab (part s p) a.handle).isSome (part s p).vocabs.length
      (s.parts.map (fun t => t.vocabs.length)).sum 16 64 a

/-- The checks of GRM_LOAD with an image. -/
def gramLoadChecks (s : State) (p : Nat) (a : TextLoadArgs) : List (Bool × Nat × Nat) :=
  (!within 1 65535 a.handle, St.invalidField, 32) :: vocabChecks (part s p) a.vocab 34 ++
    textLoadChecks s p (findGrammar (part s p) a.handle).isSome (part s p).grammars.length
      (s.parts.map (fun t => t.grammars.length)).sum 256 1024 a

theorem firstFail_append_none {l k : List (Bool × Nat × Nat)} (h : firstFail (l ++ k) = none) : firstFail k = none := by
  induction l with
  | nil => exact h
  | cons x l ih =>
    obtain ⟨bad, st, d⟩ := x
    cases bad with
    | true => cases h
    | false => exact ih h

theorem firstFail_mem_false {l : List (Bool × Nat × Nat)} (h : firstFail l = none) {x : Bool × Nat × Nat} (hx : x ∈ l) :
    x.1 = false := by
  obtain ⟨before, behind, rfl⟩ := List.append_of_mem hx
  have hfront := firstFail_append_none h
  obtain ⟨bad, st, d⟩ := x
  cases bad with
  | true => cases hfront
  | false => rfl

/-- A load whose checks pass has a range in the partition's slice (R339). -/
theorem allocObj_of_textLoadChecks {s : State} {p mine all mineMax allMax : Nat} {inUse : Bool} {a : TextLoadArgs}
    (h : firstFail (textLoadChecks s p inUse mine all mineMax allMax a) = none) :
    ∃ base, allocObj s p a.imageLen false = some base := by
  have hroom := firstFail_mem_false h (x := (!hbmRoom s p a.imageLen || (allocObj s p a.imageLen false).isNone, St.noMemory, 0))
    (by simp [textLoadChecks])
  simp only [Bool.or_eq_false_iff] at hroom
  exact Option.isSome_iff_exists.mp (by simpa using hroom.2)

/-- The state after a vocabulary with an image came to a partition. -/
def withVocab (p base : Nat) (a : TextLoadArgs) (s : State) : State :=
  settlePart p (onPart p (fun t => { t with vocabs := t.vocabs ++
    [parseVocab a.handle base a.imageLen (fitBytes a.imageLen a.image)] }) s)

/-- The state after a grammar came to a partition. -/
def withGrammar (p base : Nat) (a : TextLoadArgs) (s : State) : State :=
  settlePart p (onPart p (fun t => { t with grammars := t.grammars ++
    [parseGrammar a.handle a.vocab base a.imageLen (fitBytes a.imageLen a.image)] }) s)

theorem withVocab_reshown (p base : Nat) (a : TextLoadArgs) (l : Loupe) (i w : List Out) (s : State) :
    withVocab p base a (reshown l i w s) = reshown l i w (withVocab p base a s) :=
  settlePart_reshown p l i w (onPart p _ s)

theorem withGrammar_reshown (p base : Nat) (a : TextLoadArgs) (l : Loupe) (i w : List Out) (s : State) :
    withGrammar p base a (reshown l i w s) = reshown l i w (withGrammar p base a s) :=
  settlePart_reshown p l i w (onPart p _ s)

theorem withVocab_mbx (p base : Nat) (a : TextLoadArgs) (s : State) : (withVocab p base a s).mbx = s.mbx :=
  settlePart_mbx p (onPart p _ s)

theorem withGrammar_mbx (p base : Nat) (a : TextLoadArgs) (s : State) : (withGrammar p base a s).mbx = s.mbx :=
  settlePart_mbx p (onPart p _ s)

/-- What an accepted load ends with: the first image check that fails, or none. -/
def loadJob (r : MbxReq) (op n : Nat) (ready gone : AsyncAction) (s : State) : State :=
  addJob (doneDest r) op r.tag r.partition (if n = 0 then St.ok else St.textImageInvalid) n (if n = 0 then ready else gone) s

theorem loadJob_mbx (r : MbxReq) (op n : Nat) (ready gone : AsyncAction) (s : State) :
    (loadJob r op n ready gone s).mbx = s.mbx := rfl

theorem loadJob_reshown (r : MbxReq) (op n : Nat) (ready gone : AsyncAction) (l : Loupe) (i w : List Out) (s : State) :
    loadJob r op n ready gone (reshown l i w s) = reshown l i w (loadJob r op n ready gone s) := rfl

/-- The answer to an accepted load. -/
def loadAccepted (r : MbxReq) (op n : Nat) (ready gone : AsyncAction) (s : State) : MRes :=
  if n = 0 then accept r op St.ok 0 ready s else accept r op St.textImageInvalid n gone s

theorem loadAccepted_eq (r : MbxReq) (op n : Nat) (ready gone : AsyncAction) (s : State) :
    loadAccepted r op n ready gone s = { st := loadJob r op n ready gone s, status := St.ok, async := true } := by
  unfold loadAccepted loadJob accept
  split
  next h =>
    rw [h]
    rfl
  next => rfl

theorem vocabLoadImage_of_fail {r : MbxReq} {a : TextLoadArgs} {s : State} {e : Nat × Nat}
    (h : firstFail (vocabLoadChecks s r.partition a) = some e) : vocabLoadImage r a s = .fail s e :=
  checked_of_fail _ h

theorem vocabLoadImage_of_pass {r : MbxReq} {a : TextLoadArgs} {s : State} {base : Nat}
    (h : firstFail (vocabLoadChecks s r.partition a) = none) (hb : allocObj s r.partition a.imageLen false = some base) :
    vocabLoadImage r a s = loadAccepted r Op.vocabLoad (vocabReason (fitBytes a.imageLen a.image)) (.vocabReady a.handle)
      (.vocabDrop a.handle) (withVocab r.partition base a s) := by
  refine (checked_of_pass _ h).trans ?_
  dsimp only
  rw [hb]
  rfl

theorem grmLoadImage_of_fail {r : MbxReq} {a : TextLoadArgs} {s : State} {e : Nat × Nat}
    (h : firstFail (gramLoadChecks s r.partition a) = some e) : grmLoadImage r a s = .fail s e :=
  checked_of_fail _ h

theorem grmLoadImage_of_pass {r : MbxReq} {a : TextLoadArgs} {s : State} {base : Nat} {v : Vocab}
    (h : firstFail (gramLoadChecks s r.partition a) = none) (hv : findVocab (part s r.partition) a.vocab = some v)
    (hb : allocObj s r.partition a.imageLen false = some base) :
    grmLoadImage r a s = loadAccepted r Op.grmLoad (gramReason v (fitBytes a.imageLen a.image)) (.grammarReady a.handle)
      (.grammarDrop a.handle) (withGrammar r.partition base a s) := by
  refine (checked_of_pass _ h).trans ?_
  dsimp only
  rw [hv, hb]
  rfl

/-- VOCAB_LOAD with IMAGE_LEN 0 is an unload (R291). -/
theorem exec_vocabLoad_zero {r : MbxReq} {a : TextLoadArgs} (s : State) (h : a.imageLen = 0) :
    exec (.vocabLoad r a) s = exec (.vocabUnload r { handle := a.handle, imageAddr := a.imageAddr }) s := by
  have hbody : vocabLoadBody r a = vocabUnloadBody r a.handle a.imageAddr := funext fun _ => if_pos h
  show Host.Outcome.next (mailbox r Op.vocabLoad [32] (vocabLoadBody r a) s) = _
  rw [hbody]
  rfl

theorem exec_vocabLoad_image {r : MbxReq} {a : TextLoadArgs} (s : State) (h : a.imageLen ≠ 0) :
    exec (.vocabLoad r a) s = .next (mailbox r Op.vocabLoad [32] (vocabLoadImage r a) s) := by
  have hbody : vocabLoadBody r a = vocabLoadImage r a := funext fun _ => if_neg h
  show Host.Outcome.next (mailbox r Op.vocabLoad [32] (vocabLoadBody r a) s) = _
  rw [hbody]

/-- GRM_LOAD with IMAGE_LEN 0 is an unload (R308). -/
theorem exec_grmLoad_zero {r : MbxReq} {a : TextLoadArgs} (s : State) (h : a.imageLen = 0) :
    exec (.grmLoad r a) s = exec (.grmUnload r { handle := a.handle, imageAddr := a.imageAddr }) s := by
  have hbody : grmLoadBody r a = grmUnloadBody r a.handle a.imageAddr := funext fun _ => if_pos h
  show Host.Outcome.next (mailbox r Op.grmLoad [32] (grmLoadBody r a) s) = _
  rw [hbody]
  rfl

theorem exec_grmLoad_image {r : MbxReq} {a : TextLoadArgs} (s : State) (h : a.imageLen ≠ 0) :
    exec (.grmLoad r a) s = .next (mailbox r Op.grmLoad [32] (grmLoadImage r a) s) := by
  have hbody : grmLoadBody r a = grmLoadImage r a := funext fun _ => if_neg h
  show Host.Outcome.next (mailbox r Op.grmLoad [32] (grmLoadBody r a) s) = _
  rw [hbody]

theorem vocabLoad_fails {s : State} {r : MbxReq} {a : TextLoadArgs} {e : Nat × Nat}
    (h : Admits s r Op.vocabLoad none (lengthIn r [32])) (hi : a.imageLen ≠ 0)
    (hc : firstFail (vocabLoadChecks s r.partition a) = some e) :
    Answers (.vocabLoad r a) r Op.vocabLoad e.1 e.2 false [] s s :=
  answers_of_reshown (exec_vocabLoad_image s hi) h rfl (fun _ _ _ => vocabLoadImage_of_fail hc)

theorem vocabLoad_accepted {s : State} {r : MbxReq} {a : TextLoadArgs} {base : Nat}
    (h : Admits s r Op.vocabLoad none (lengthIn r [32])) (hi : a.imageLen ≠ 0)
    (hc : firstFail (vocabLoadChecks s r.partition a) = none) (hb : allocObj s r.partition a.imageLen false = some base) :
    Answers (.vocabLoad r a) r Op.vocabLoad St.ok 0 true []
      (loadJob r Op.vocabLoad (vocabReason (fitBytes a.imageLen a.image)) (.vocabReady a.handle) (.vocabDrop a.handle)
        (withVocab r.partition base a s)) s := by
  refine answers_of_reshown (exec_vocabLoad_image s hi) h (by rw [loadJob_mbx, withVocab_mbx]) (fun l i w => ?_)
  rw [vocabLoadImage_of_pass (s := reshown l i w s) hc hb, withVocab_reshown, loadAccepted_eq, loadJob_reshown]

theorem grmLoad_fails {s : State} {r : MbxReq} {a : TextLoadArgs} {e : Nat × Nat}
    (h : Admits s r Op.grmLoad none (lengthIn r [32])) (hi : a.imageLen ≠ 0)
    (hc : firstFail (gramLoadChecks s r.partition a) = some e) :
    Answers (.grmLoad r a) r Op.grmLoad e.1 e.2 false [] s s :=
  answers_of_reshown (exec_grmLoad_image s hi) h rfl (fun _ _ _ => grmLoadImage_of_fail hc)

theorem grmLoad_accepted {s : State} {r : MbxReq} {a : TextLoadArgs} {base : Nat} {v : Vocab}
    (h : Admits s r Op.grmLoad none (lengthIn r [32])) (hi : a.imageLen ≠ 0)
    (hc : firstFail (gramLoadChecks s r.partition a) = none) (hv : findVocab (part s r.partition) a.vocab = some v)
    (hb : allocObj s r.partition a.imageLen false = some base) :
    Answers (.grmLoad r a) r Op.grmLoad St.ok 0 true []
      (loadJob r Op.grmLoad (gramReason v (fitBytes a.imageLen a.image)) (.grammarReady a.handle) (.grammarDrop a.handle)
        (withGrammar r.partition base a s)) s := by
  refine answers_of_reshown (exec_grmLoad_image s hi) h (by rw [loadJob_mbx, withGrammar_mbx]) (fun l i w => ?_)
  rw [grmLoadImage_of_pass (s := reshown l i w s) hc hv hb, withGrammar_reshown, loadAccepted_eq, loadJob_reshown]

/-! ## Unloads (R293) -/

theorem within_handle {h : Nat} (hlo : 1 ≤ h) (hhi : h ≤ 65535) : within 1 65535 h = true := by
  rw [within, decide_eq_true hlo, decide_eq_true hhi, Bool.and_self]

/-- A loaded vocabulary that no grammar and no stream names is unloaded. -/
theorem vocabUnload_accepted {s : State} {r : MbxReq} {h : Nat} {v : Vocab} (hlo : 1 ≤ h) (hhi : h ≤ 65535)
    (ha : Admits s r Op.vocabLoad none (lengthIn r [32])) (hv : findVocab (part s r.partition) h = some v)
    (hl : v.loading = false) (hg : ∀ g ∈ (part s r.partition).grammars, g.vocab ≠ h)
    (hs : streamsVocab (part s r.partition) h = false) :
    Answers (.vocabUnload r { handle := h, imageAddr := 0 }) r Op.vocabLoad St.ok 0 true []
      (addJob (doneDest r) Op.vocabLoad r.tag r.partition St.ok 0 .nothing
        (onPart r.partition (fun t => { t with vocabs := t.vocabs.filter (fun x => x.handle ≠ h) }) s)) s := by
  have hgrammars : (part s r.partition).grammars.any (fun g => decide (g.vocab = h)) = false := by simpa using hg
  refine answers_of_reshown (body := vocabUnloadBody r h 0) rfl ha rfl (fun l i w => ?_)
  refine (checked_of_pass (s := reshown l i w s) _ ?_).trans rfl
  rw [show part (reshown l i w s) r.partition = part s r.partition from rfl]
  simp [firstFail, within_handle hlo hhi, hv, hl, hgrammars, hs]

/-- A loaded grammar that no stream names is unloaded. -/
theorem grmUnload_accepted {s : State} {r : MbxReq} {h addr : Nat} {g : Grammar} (hlo : 1 ≤ h) (hhi : h ≤ 65535)
    (haddr : addr % 4096 = 0) (ha : Admits s r Op.grmLoad none (lengthIn r [32]))
    (hg : findGrammar (part s r.partition) h = some g) (hl : g.loading = false) (hn : namesGrammar s r.partition h = false) :
    Answers (.grmUnload r { handle := h, imageAddr := addr }) r Op.grmLoad St.ok 0 true []
      (addJob (doneDest r) Op.grmLoad r.tag r.partition St.ok 0 .nothing
        (onPart r.partition (fun t => { t with grammars := t.grammars.filter (fun x => x.handle ≠ h) }) s)) s := by
  refine answers_of_reshown (body := grmUnloadBody r h addr) rfl ha rfl (fun l i w => ?_)
  refine (checked_of_pass (s := reshown l i w s) _ ?_).trans rfl
  rw [show part (reshown l i w s) r.partition = part s r.partition from rfl,
    show namesGrammar (reshown l i w s) r.partition h = namesGrammar s r.partition h from rfl]
  simp [firstFail, within_handle hlo hhi, haddr, hg, hl, hn]

/-! ## Tries and time-outs -/

/-- An update that leaves the partition at its reset value is seen at any number. -/
theorem part_onPart_of_default {p : Nat} {f : Part → Part} (s : State) (hf : f {} = {}) :
    part (onPart p f s) p = f (part s p) := by
  by_cases h : p < s.parts.length
  · exact Laws.part_onPart_same p f s h
  · have hnone : s.parts[p]? = none := List.getElem?_eq_none (Nat.not_lt.mp h)
    have hpart : part s p = {} := by rw [part, List.getD_eq_getElem?_getD, hnone]; rfl
    have hsame : part (onPart p f s) p = {} := by
      rw [part, Laws.onPart_parts, List.getD_eq_getElem?_getD, List.getElem?_modify_eq, hnone]; rfl
    rw [hsame, hpart, hf]

/-- TRIE_REBUILD changes nothing but the mark of the vocabulary's trie (R314). -/
theorem trieRebuild_marks {s : State} {p v : Nat} {done : Bool} (hfw : firmwareRuns s = true)
    (hl : done = true → s.power.level = 2) :
    ∃ t, exec (.trieRebuild p v done) s = .next t ∧ t = { s with parts := t.parts } ∧
      (part t p).vocabs.length = (part s p).vocabs.length ∧ ∀ x ∈ (part t p).vocabs, x.handle = v → x.trie = done := by
  have hruns : firmwareRuns s = true ∧ (¬done = true ∨ s.power.level = 2) := ⟨hfw, Decidable.not_or_of_imp hl⟩
  refine ⟨_, congrArg Host.Outcome.next (if_pos hruns), rfl, ?_, ?_⟩
  · rw [part_onPart_of_default s rfl]
    exact List.length_map _
  · rw [part_onPart_of_default s rfl]
    intro x hx hv
    obtain ⟨y, -, rfl⟩ := List.mem_map.mp hx
    by_cases hy : y.handle = v
    · rw [if_pos (decide_eq_true hy)]
    · rw [if_neg (by simpa using hy)] at hv
      exact absurd hv hy

theorem exec_streamContextTimeout {s : State} {p n : Nat} {x : Stream} (h : findStream (part s p) n = some x) :
    exec (.streamContextTimeout p n) s = .next (if x.lastUse + 600000000 ≤ s.time then setStream p n none s else s) := by
  show execStreamContextTimeout p n s = _
  unfold execStreamContextTimeout
  rw [h]

/-- A closed stream is found no more. -/
theorem findStream_closed (s : State) (p n : Nat) : findStream (part (setStream p n none s) p) n = none := by
  rw [setStream, part_onPart_of_default s rfl]
  simp [findStream]

/-- Closing a stream leaves the others of its partition. -/
theorem findStream_closed_other (s : State) (p : Nat) {n k : Nat} (h : k ≠ n) :
    findStream (part (setStream p n none s) p) k = findStream (part s p) k := by
  rw [setStream, part_onPart_of_default s rfl, findStream, findStream, List.append_nil, List.find?_filter]
  refine congrArg (fun f => List.find? f (part s p).streams) (funext fun x => ?_)
  by_cases hx : x.num = k <;> simp [hx, h]

/-- A stream context that no command named for 600 s closes, and no other (R307). -/
theorem streamContextTimeout_closes {s : State} {p n : Nat} {x : Stream} (h : findStream (part s p) n = some x) :
    (x.lastUse + 600000000 ≤ s.time → ∃ t, exec (.streamContextTimeout p n) s = .next t ∧ findStream (part t p) n = none ∧
      (∀ k, k ≠ n → findStream (part t p) k = findStream (part s p) k) ∧ t = { s with parts := t.parts }) ∧
    (s.time < x.lastUse + 600000000 → exec (.streamContextTimeout p n) s = .next s) := by
  rw [exec_streamContextTimeout h]
  refine ⟨fun hdue => ⟨_, congrArg Host.Outcome.next (if_pos hdue), findStream_closed s p n,
    fun k hk => findStream_closed_other s p hk, rfl⟩, fun hearly => ?_⟩
  rw [if_neg (Nat.not_le.mpr hearly)]

end Sys2Proof.Proofs
end

