-- ==== Sys2Proof/Proofs/GrammarSteps.lean ====
section
/-! Sys2Proof/Proofs/GrammarSteps.lean: GRM_STEP (R311, R314–R317): its checks, the configuration it starts from, what it refuses,
the mask it serves, and what it sends to the host. -/
namespace Sys2Proof.Proofs
open Sys2Proof.Machine Sys2Proof.Safety

/-! ## What has been issued stays issued -/

theorem issueHost_issued_prefix (fn : Nat) (o : Out) (s : State) : s.issued <+: (issueHost fn o s).issued := by
  unfold issueHost
  split
  · exact List.prefix_rfl
  · split
    · exact List.prefix_rfl
    · exact List.prefix_append _ _

theorem sendMsix_issued_prefix (fn v : Nat) (s : State) : s.issued <+: (sendMsix fn v s).issued := by
  unfold sendMsix
  split
  · exact List.prefix_rfl
  · exact issueHost_issued_prefix _ _ s

theorem sendMsix_if_issued_prefix (b : Bool) (fn v : Nat) (s : State) :
    s.issued <+: (if b then sendMsix fn v s else s).issued := by
  cases b
  · exact List.prefix_rfl
  · exact sendMsix_issued_prefix fn v s

theorem setLpeStatus_issued_prefix (b : Reg) (s : State) : s.issued <+: (setLpeStatus b s).issued := by
  unfold setLpeStatus raising
  dsimp only
  split
  · refine List.IsPrefix.trans ?_ (sendMsix_issued_prefix 0 1 _)
    exact List.prefix_rfl
  · exact List.prefix_rfl

theorem trace_issued_prefix (a b c d e : Nat) (s : State) : s.issued <+: (trace a b c d e s).issued := by
  unfold trace
  dsimp only
  split
  · split
    · refine List.IsPrefix.trans ?_ (setLpeStatus_issued_prefix 1 _)
      exact List.prefix_rfl
    · exact List.prefix_rfl
  · exact List.prefix_rfl

theorem completeSq_issued_prefix (p sq tag ctx : Nat) (ni : Bool) (st c a b : Nat) (s : State) :
    s.issued <+: (completeSq p sq tag ctx ni st c a b s).issued := by
  unfold completeSq
  split
  · exact List.prefix_rfl
  · unfold complete
    split
    · exact List.prefix_rfl
    · split
      · exact List.prefix_rfl
      · split
        · exact List.prefix_rfl
        · unfold writeCompletion
          dsimp only
          refine List.IsPrefix.trans ?_ (sendMsix_if_issued_prefix _ _ _ _)
          exact issueHost_issued_prefix _ _ s

theorem queue_issued_prefix {s : State} {q : SqReq} {op : Nat} {body : State → QRes} (h : Takes s q op none)
    (hr : (body (entryBegun q op s)).run = none) :
    (body (entryBegun q op s)).st.issued <+: (queue q op body s).issued := by
  have hanswer : answerEntry q op none body (takeEntry q s) = if (body (entryBegun q op s)).run.isSome then
      body (entryBegun q op s) else { body (entryBegun q op s) with
        st := trace 0 q.part 1 (entryTrace op q.tag q.sq (body (entryBegun q op s)).status) (body (entryBegun q op s)).cond
          (body (entryBegun q op s)).st } := by
    unfold answerEntry
    rw [h.entry]
    rfl
  unfold queue queueFull
  rw [if_pos h.begins, hanswer]
  generalize body (entryBegun q op s) = x at hr ⊢
  rw [hr]
  unfold settleEntry
  dsimp only [Option.isSome]
  rw [if_neg (by decide)]
  dsimp only
  rw [hr]
  exact (trace_issued_prefix _ _ _ _ _ _).trans (completeSq_issued_prefix _ _ _ _ _ _ _ _ _ _)

/-- What a command's own rules issue is issued. -/
theorem exec_issues {c : Instr} {q : SqReq} {op : Nat} {body : State → QRes} {s : State} {o : Out}
    (hex : exec c s = .next (queue q op body s)) (h : Takes s q op none)
    (hb : ∀ b, Settled s b → (body b).run = none ∧ o ∈ (body b).st.issued) :
    ∃ t, exec c s = .next t ∧ o ∈ t.issued := by
  obtain ⟨hr, ho⟩ := hb _ (Laws.entryBegun_settled q op s)
  exact ⟨_, hex, (queue_issued_prefix h hr).subset ho⟩

theorem hostWrite_issues {fn addr : Nat} {bs : List Byte} {s : State} (hbs : bs ≠ []) (hl : s.landing.linkActive = true)
    (hb : landingBlocked s fn = false) : Out.hostWrite fn addr bs ∈ (hostWrite fn addr bs s).issued := by
  unfold hostWrite issueHost
  rw [if_neg hbs, hl, hb]
  exact List.mem_append_right _ List.mem_cons_self

/-- An entry begins only while its function may reach host memory (R466). -/
theorem takes_unblocked {s : State} {q : SqReq} {op : Nat} {bl : Option Nat} (h : Takes s q op bl) :
    landingBlocked s (1 + q.part) = false := by
  have hbegins := h.begins
  simp only [mayBegin, Bool.and_eq_true, Bool.not_eq_true'] at hbegins
  exact hbegins.1.2

theorem fitBytes_ne_nil {n : Nat} (h : n ≠ 0) (bs : List Byte) : fitBytes n bs ≠ [] := by
  refine List.ne_nil_of_length_pos ?_
  rw [fitBytes, List.length_append, List.length_take, zeros_length]
  omega

/-! ## The parts of a step -/

/-- The mask goes to the host, but with NO_MASK. -/
def writeMask (p : Nat) (a : GrmStepArgs) (g : Grammar) (m : List Byte) (s : State) : State :=
  if a.noMask then s else hostWrite (1 + p) a.maskAddr (fitBytes g.maskBytes m) s

theorem writeMask_settled (p : Nat) (a : GrmStepArgs) (g : Grammar) (m : List Byte) (s : State) :
    Settled s (writeMask p a g m s) := by
  unfold writeMask
  split
  · exact .refl s
  · exact (Laws.hostWrite_shown _ _ _ s).settled

/-- The conditions of a step: those of reduced service (R314). -/
def stepCond (s : State) : Nat := if reducedService s then condReduced else 0

/-- No token other than EOS_ID is allowed by the mask, and the configuration is not accepting (R311). -/
def deadEnd (g : Grammar) (v : Vocab) (d : Conf) (m : List Byte) : Bool :=
  !gramAccepts g d && (List.range v.tokens.length).all (fun t => decide (t = v.eos) || !maskBit m t)

/-- STATUS of a step whose mask is served. -/
def servedStatus (wrong : Option Nat) (dead : Bool) (cond : Nat) : Nat :=
  if wrong.isSome then St.maskMismatch else if dead then St.grammarDeadEnd else statusOfConditions cond

/-- DETAIL_B of a step whose mask is served: the index of a wrong entry stands in place of the state (R315). -/
def servedDetail (g : Grammar) (d : Conf) (pre : Bool) (wrong : Option Nat) : Nat :=
  match wrong with
  | some i => grmDetail g d pre - d.state % 65536 + i
  | none => grmDetail g d pre

/-- The mask written: a dead end allows nothing (R311). -/
def servedMask (dead : Bool) (m : List Byte) : List Byte := if dead then [] else m

/-- The step that ends in `d` with the mask `m`. -/
def servedStep (p : Nat) (a : GrmStepArgs) (g : Grammar) (v : Vocab) (d : Conf) (m : List Byte) (pre : Bool) (wrong : Option Nat)
    (s : State) : QRes :=
  { st := grmPut p a d (deadEnd g v d m) (writeMask p a g (servedMask (deadEnd g v d m) m) s)
    status := servedStatus wrong (deadEnd g v d m) (stepCond s)
    cond := if wrong.isSome || deadEnd g v d m then 0 else stepCond s
    dA := maskCount v (servedMask (deadEnd g v d m) m)
    dB := servedDetail g d pre wrong }

/-- An empty mask marks no token. -/
theorem maskCount_nil (v : Vocab) : maskCount v [] = 0 := by
  simp [maskCount, maskBit]

/-! ## `grmAdvance`, case by case (R316) -/

section
variable {p : Nat} {a : GrmStepArgs} {g : Grammar} {v : Vocab} {c : Conf} {s : State}

theorem grmAdvance_verify_refused (hv : a.verify = true) (hp : preOnly s v = true) :
    grmAdvance p a g v c s = .fail s (St.notReady, 0) := by
  unfold grmAdvance
  exact if_pos ⟨hv, hp⟩

variable (hn : a.verify = true → preOnly s v = false)
include hn

/-- VERIFY is refused only while masks come from precomputed entries. -/
theorem grmAdvance_not_refused : ¬(a.verify = true ∧ preOnly s v = true) := by
  rintro ⟨hv, hp⟩
  rw [hn hv] at hp
  exact Bool.false_ne_true hp

theorem grmAdvance_invalid_token (ht : a.hasToken = true) (hr : v.tokens.length ≤ a.token) :
    grmAdvance p a g v c s = .fail s (St.invalidToken, 0) := by
  unfold grmAdvance
  dsimp only
  rw [if_neg (grmAdvance_not_refused hn), if_pos ⟨ht, hr⟩]

theorem grmAdvance_token_not_allowed (ht : a.hasToken = true) (hr : a.token < v.tokens.length)
    (ha : gramAllows g v c a.token = false) : grmAdvance p a g v c s = .fail s (St.tokenNotAllowed, 0) := by
  unfold grmAdvance
  dsimp only
  rw [if_neg (grmAdvance_not_refused hn), if_neg (fun h => Nat.not_le.mpr hr h.2),
    if_pos ⟨ht, by rw [ha]; exact Bool.false_ne_true⟩]

/-- An allowed EOS_ID halts the stream. -/
theorem grmAdvance_eos (ht : a.hasToken = true) (hr : a.token < v.tokens.length) (ha : gramAllows g v c a.token = true)
    (he : a.token = v.eos) : grmAdvance p a g v c s =
      { st := grmPut p a c true (writeMask p a g [] s), status := statusOfConditions (stepCond s), cond := stepCond s
        dB := grmDetail g c false } := by
  unfold grmAdvance
  dsimp only
  rw [if_neg (grmAdvance_not_refused hn), if_neg (fun h => Nat.not_le.mpr hr h.2), if_neg (fun h => h.2 ha), if_pos ⟨ht, he⟩]
  rfl

/-- The configuration in which the step stands once its token, if it has one, is taken. -/
def StepsTo (g : Grammar) (v : Vocab) (a : GrmStepArgs) (c d : Conf) : Prop :=
  a.hasToken = false ∧ d = c ∨ a.hasToken = true ∧ a.token < v.tokens.length ∧
    gramAllows g v c a.token = true ∧ a.token ≠ v.eos ∧ gramBytes g c (v.text a.token) = some d

theorem grmAdvance_of_stepsTo {d : Conf} (h : StepsTo g v a c d) :
    grmAdvance p a g v c s = match serveMask (preOnly s v) g v a.verify d with
      | none => .fail s (St.notReady, 0)
      | some (m, pre, wrong) => servedStep p a g v d m pre wrong s := by
  unfold grmAdvance
  dsimp only
  rw [if_neg (grmAdvance_not_refused hn)]
  obtain ⟨ht, rfl⟩ | ⟨ht, hr, ha, he, hd⟩ := h
  · rw [ht, if_neg (fun h => Bool.false_ne_true h.1), if_neg (fun h => Bool.false_ne_true h.1),
      if_neg (fun h => Bool.false_ne_true h.1), if_neg Bool.false_ne_true]
    rfl
  · rw [if_neg (fun h => Nat.not_le.mpr hr h.2), if_neg (fun h => h.2 ha), if_neg (fun h => he h.2), if_pos ht, hd]
    rfl

theorem grmAdvance_unserved {d : Conf} (h : StepsTo g v a c d) (hm : serveMask (preOnly s v) g v a.verify d = none) :
    grmAdvance p a g v c s = .fail s (St.notReady, 0) := by rw [grmAdvance_of_stepsTo hn h, hm]

theorem grmAdvance_served {d : Conf} {m : List Byte} {pre : Bool} {wrong : Option Nat} (h : StepsTo g v a c d)
    (hm : serveMask (preOnly s v) g v a.verify d = some (m, pre, wrong)) :
    grmAdvance p a g v c s = servedStep p a g v d m pre wrong s := by rw [grmAdvance_of_stepsTo hn h, hm]

end

/-! ## The body of GRM_STEP -/

/-- The machine in which a step meets its checks. -/
def stepping (a : GrmStepArgs) (p : Nat) (s : State) : State := naming a.open_ p a.stream s

theorem stepCond_of_settled {s b : State} {a : GrmStepArgs} {p : Nat} (hs : Settled (stepping a p s) b) :
    stepCond b = stepCond s := by
  rw [stepCond, stepCond, settled_reducedService hs, stepping, reducedService_naming]

theorem preOnly_of_settled {s b : State} {a : GrmStepArgs} {p : Nat} (hs : Settled (stepping a p s) b) (v : Vocab) :
    preOnly b v = preOnly s v := by
  rw [settled_preOnly hs, stepping, preOnly_naming]

theorem grmStepChecks_settled {s t : State} (h : Settled s t) (p : Nat) (a : GrmStepArgs) :
    grmStepChecks t p a = grmStepChecks s p a := by
  simp only [grmStepChecks, settled_findGrammar h, settled_streamChecks h]

theorem grmStepBody_of_fail {p : Nat} {a : GrmStepArgs} {b : State} {e : Nat × Nat}
    (h : firstFail (grmStepChecks (stepping a p b) p a) = some e) : grmStepBody p a b = .fail (stepping a p b) e :=
  qchecked_of_fail _ h

/-- CLOSE alone. -/
def closesAlone (a : GrmStepArgs) : Bool := a.close && !a.hasToken && !a.verify

/-- Where an entry's checks pass on the state `s`, what a step then finds: its partition, grammar and vocabulary. -/
structure StepFinds (s : State) (p : Nat) (a : GrmStepArgs) (g : Grammar) (v : Vocab) : Prop where
  inRange : p < s.parts.length
  checks : firstFail (grmStepChecks (stepping a p s) p a) = none
  grammar : findGrammar (part s p) a.grammar = some g
  vocab : findVocab (part s p) g.vocab = some v

/-- The stream context in which the step continues: none for one that it opens. -/
def stepContext (a : GrmStepArgs) (p : Nat) (s : State) : Option Stream :=
  if a.open_ then none else findStream (part s p) a.stream

/-- What a step does once its checks pass. -/
def stepFrom (p : Nat) (a : GrmStepArgs) (g : Grammar) (v : Vocab) (x : Option Stream) (s : State) : QRes :=
  match x with
  | some { kind := .gram _ c halted, .. } =>
    if closesAlone a then { st := setStream p a.stream none s, dB := grmDetail g c false }
    else if halted then .fail s (St.streamHalted, 0)
    else grmAdvance p a g v c s
  | _ => grmAdvance p a g v { state := g.start, stack := [] } s

theorem grmStepBody_of_finds {s b : State} {p : Nat} {a : GrmStepArgs} {g : Grammar} {v : Vocab} (h : StepFinds s p a g v)
    (hb : Settled s b) :
    grmStepBody p a b = stepFrom p a g v (stepContext a p (stepping a p b)) (stepping a p b) := by
  have hu : Settled (stepping a p s) (stepping a p b) := naming_settled hb a.open_ p a.stream
  have hg : findGrammar (part (stepping a p b) p) a.grammar = some g := by
    rw [settled_findGrammar hu, stepping, findGrammar_naming h.inRange, h.grammar]
  have hv : findVocab (part (stepping a p b) p) g.vocab = some v := by
    rw [settled_findVocab hu, stepping, findVocab_naming h.inRange, h.vocab]
  refine (qchecked_of_pass (s := stepping a p b) _ ?_).trans ?_
  · exact (congrArg firstFail (grmStepChecks_settled hu p a)).trans h.checks
  · rw [show findGrammar (part (if a.open_ then b else touchStream p a.stream b) p) a.grammar = some g from hg]
    dsimp only
    rw [show findVocab (part (if a.open_ then b else touchStream p a.stream b) p) g.vocab = some v from hv]
    rfl

/-- The context of an open stream is that of before, used now. -/
theorem stepContext_stepping {s b : State} {p : Nat} {a : GrmStepArgs} {x : Stream} (hp : p < s.parts.length) (hb : Settled s b)
    (ho : a.open_ = false) (hx : findStream (part s p) a.stream = some x) :
    stepContext a p (stepping a p b) = some { x with lastUse := s.time } := by
  have hu : Settled (touchStream p a.stream s) (touchStream p a.stream b) := touchStream_settled hb p a.stream
  have hname : stepping a p b = touchStream p a.stream b := by rw [stepping, naming, ho]; rfl
  rw [stepContext, hname, ho, if_neg Bool.false_ne_true, settled_findStream hu, findStream_touchStream hp, hx]
  rfl

/-- The step starts from configuration `c`: START_STATE where it opens its stream, else the one its stream holds. -/
def StartsAt (s : State) (p : Nat) (a : GrmStepArgs) (g : Grammar) (c : Conf) : Prop :=
  a.open_ = true ∧ c = { state := g.start, stack := [] } ∨
    a.open_ = false ∧ closesAlone a = false ∧
      ∃ n h l, findStream (part s p) a.stream = some { num := n, kind := .gram h c false, lastUse := l }

theorem grmStepBody_advances {s b : State} {p : Nat} {a : GrmStepArgs} {g : Grammar} {v : Vocab} {c : Conf}
    (h : StepFinds s p a g v) (hc : StartsAt s p a g c) (hb : Settled s b) :
    grmStepBody p a b = grmAdvance p a g v c (stepping a p b) := by
  rw [grmStepBody_of_finds h hb]
  obtain ⟨ho, rfl⟩ | ⟨ho, halone, n, k, l, hx⟩ := hc
  · rw [stepContext, if_pos ho]
    rfl
  · rw [stepContext_stepping h.inRange hb ho hx]
    simp only [stepFrom, halone, Bool.false_eq_true, if_false]

/-- The stream set, or closed, by a step that ends in `d`. -/
def stepPut (a : GrmStepArgs) (p : Nat) (d : Conf) (halted : Bool) (s : State) : State :=
  grmPut p a d halted (stepping a p s)

theorem stepPut_settled {s b : State} {a : GrmStepArgs} {p : Nat} (hs : Settled (stepping a p s) b) (g : Grammar) (m : List Byte)
    (d : Conf) (halted : Bool) : Settled (stepPut a p d halted s) (grmPut p a d halted (writeMask p a g m b)) :=
  setStream_settled (hs.trans (writeMask_settled p a g m b)) p a.stream _

theorem grmAdvance_served_of_settled {s b : State} {p : Nat} {a : GrmStepArgs} {g : Grammar} {v : Vocab} {c d : Conf}
    {m : List Byte} {pre : Bool} {wrong : Option Nat} (hn : a.verify = true → preOnly s v = false) (hd : StepsTo g v a c d)
    (hm : serveMask (preOnly s v) g v a.verify d = some (m, pre, wrong)) (hs : Settled (stepping a p s) b) :
    grmAdvance p a g v c b = servedStep p a g v d m pre wrong b :=
  grmAdvance_served (fun hv => (preOnly_of_settled hs v).trans (hn hv)) hd (by rw [preOnly_of_settled hs, hm])

/-! ## GRM_STEP completes -/

section
variable {s : State} {q : SqReq} {a : GrmStepArgs}

theorem grmStep_fails {e : Nat × Nat} (h : Takes s q Op.grmStep none)
    (hc : firstFail (grmStepChecks (stepping a q.part s) q.part a) = some e) :
    Completes (.grmStep q a) q e.1 0 e.2 0 (stepping a q.part s) s := by
  refine completes_of_settled (body := grmStepBody q.part a) rfl h (fun b hb =>
    ⟨_, ?_, naming_settled hb a.open_ q.part a.stream⟩)
  refine grmStepBody_of_fail ?_
  rw [stepping, grmStepChecks_settled (naming_settled hb a.open_ q.part a.stream)]
  exact hc

variable {g : Grammar} {v : Vocab} {c : Conf} (h : Takes s q Op.grmStep none) (hf : StepFinds s q.part a g v)
include h hf

theorem grmStep_closes {n k l : Nat} {halted : Bool} (ho : a.open_ = false)
    (hx : findStream (part s q.part) a.stream = some { num := n, kind := .gram k c halted, lastUse := l })
    (ha : closesAlone a = true) :
    Completes (.grmStep q a) q St.ok 0 0 (grmDetail g c false) (setStream q.part a.stream none (stepping a q.part s)) s := by
  refine completes_of_settled (body := grmStepBody q.part a) rfl h (fun b hb =>
    ⟨_, ?_, setStream_settled (naming_settled hb a.open_ q.part a.stream) q.part a.stream none⟩)
  rw [grmStepBody_of_finds hf hb, stepContext_stepping hf.inRange hb ho hx]
  simp only [stepFrom, ha, if_true]
  rfl

theorem grmStep_halted {n k l : Nat} (ho : a.open_ = false)
    (hx : findStream (part s q.part) a.stream = some { num := n, kind := .gram k c true, lastUse := l })
    (ha : closesAlone a = false) :
    Completes (.grmStep q a) q St.streamHalted 0 0 0 (stepping a q.part s) s := by
  refine completes_of_settled (body := grmStepBody q.part a) rfl h (fun b hb =>
    ⟨_, ?_, naming_settled hb a.open_ q.part a.stream⟩)
  rw [grmStepBody_of_finds hf hb, stepContext_stepping hf.inRange hb ho hx]
  simp only [stepFrom, ha, Bool.false_eq_true, if_false, if_true]
  rfl

variable (hc : StartsAt s q.part a g c)
include hc

/-- A step completes as `grmAdvance` does on every state that the queues' changes may have left. -/
theorem grmStep_completes {status cond dA dB : Nat} {u : State}
    (hb : ∀ b, Settled (stepping a q.part s) b →
      ∃ st, grmAdvance q.part a g v c b = { st := st, status := status, cond := cond, dA := dA, dB := dB } ∧ Settled u st) :
    Completes (.grmStep q a) q status cond dA dB u s := by
  refine completes_of_settled (body := grmStepBody q.part a) rfl h (fun b hs => ?_)
  rw [grmStepBody_advances hf hc hs]
  exact hb _ (naming_settled hs a.open_ q.part a.stream)

theorem grmStep_refused {st : Nat}
    (hb : ∀ b, preOnly b v = preOnly s v → grmAdvance q.part a g v c b = .fail b (st, 0)) :
    Completes (.grmStep q a) q st 0 0 0 (stepping a q.part s) s :=
  grmStep_completes h hf hc (fun b hs => ⟨b, hb b (preOnly_of_settled hs v), hs⟩)

variable (hn : a.verify = true → preOnly s v = false)
include hn

/-- An allowed EOS_ID. -/
theorem grmStep_eos (ht : a.hasToken = true) (hr : a.token < v.tokens.length) (ha : gramAllows g v c a.token = true)
    (he : a.token = v.eos) :
    Completes (.grmStep q a) q (statusOfConditions (stepCond s)) (stepCond s) 0 (grmDetail g c false)
      (stepPut a q.part c true s) s := by
  refine grmStep_completes h hf hc (fun b hs => ⟨_, ?_, stepPut_settled hs g [] c true⟩)
  rw [grmAdvance_eos (fun hv => (preOnly_of_settled hs v).trans (hn hv)) ht hr ha he, stepCond_of_settled hs]

variable {d : Conf} (hd : StepsTo g v a c d)
include hd

theorem grmStep_unserved (hm : serveMask (preOnly s v) g v a.verify d = none) :
    Completes (.grmStep q a) q St.notReady 0 0 0 (stepping a q.part s) s :=
  grmStep_refused h hf hc (fun b hb => grmAdvance_unserved (fun hv => hb.trans (hn hv)) hd (by rw [hb, hm]))

variable {m : List Byte} {pre : Bool} {wrong : Option Nat}
  (hm : serveMask (preOnly s v) g v a.verify d = some (m, pre, wrong))
include hm

/-- A step whose mask is served. -/
theorem grmStep_served :
    Completes (.grmStep q a) q (servedStatus wrong (deadEnd g v d m) (stepCond s))
      (if wrong.isSome || deadEnd g v d m then 0 else stepCond s) (maskCount v (servedMask (deadEnd g v d m) m))
      (servedDetail g d pre wrong) (stepPut a q.part d (deadEnd g v d m) s) s := by
  refine grmStep_completes h hf hc (fun b hs =>
    ⟨_, ?_, stepPut_settled hs g (servedMask (deadEnd g v d m) m) d (deadEnd g v d m)⟩)
  rw [grmAdvance_served_of_settled hn hd hm hs, servedStep, stepCond_of_settled hs]

theorem grmStep_completes_with_mask (hw : wrong = none) (hdead : deadEnd g v d m = false) :
    Completes (.grmStep q a) q (statusOfConditions (stepCond s)) (stepCond s) (maskCount v m) (grmDetail g d pre)
      (stepPut a q.part d false s) s := by
  have hserved := grmStep_served h hf hc hn hd hm
  subst hw
  rw [hdead] at hserved
  exact hserved

/-- R311: where no token is allowed the stream halts. -/
theorem grmStep_dead_end (hw : wrong = none) (hdead : deadEnd g v d m = true) :
    Completes (.grmStep q a) q St.grammarDeadEnd 0 0 (grmDetail g d pre) (stepPut a q.part d true s) s := by
  have hserved := grmStep_served h hf hc hn hd hm
  subst hw
  rw [hdead, servedMask, if_pos rfl, maskCount_nil] at hserved
  exact hserved

/-- R315: the walked mask of an entry that differs is served all the same. -/
theorem grmStep_mask_mismatch {i : Nat} (hw : wrong = some i) (hdead : deadEnd g v d m = false) :
    Completes (.grmStep q a) q St.maskMismatch 0 (maskCount v m) (grmDetail g d pre - d.state % 65536 + i)
      (stepPut a q.part d false s) s := by
  have hserved := grmStep_served h hf hc hn hd hm
  subst hw
  rw [hdead] at hserved
  exact hserved

/-- The mask goes out whatever the step completes with (R317). -/
theorem grmStep_writes_mask (hw : a.noMask = false) (hg : g.maskBytes ≠ 0) (hl : s.landing.linkActive = true) :
    ∃ t, exec (.grmStep q a) s = .next t ∧
      Out.hostWrite (1 + q.part) a.maskAddr (fitBytes g.maskBytes (servedMask (deadEnd g v d m) m)) ∈ t.issued := by
  refine exec_issues (body := grmStepBody q.part a) rfl h (fun b hs => ?_)
  have hu : Settled (stepping a q.part s) (stepping a q.part b) := naming_settled hs a.open_ q.part a.stream
  rw [grmStepBody_advances hf hc hs, grmAdvance_served_of_settled hn hd hm hu]
  refine ⟨rfl, ?_⟩
  show _ ∈ (writeMask q.part a g (servedMask (deadEnd g v d m) m) (stepping a q.part b)).issued
  rw [writeMask, hw, if_neg Bool.false_ne_true]
  refine hostWrite_issues (fitBytes_ne_nil hg _) ?_ ?_
  · rw [settled_linkActive hu, stepping, linkActive_naming, hl]
  · rw [settled_landingBlocked hu, stepping, landingBlocked_naming, takes_unblocked h]

end

/-! ## The statement -/

/-- Settles O41, conjunct by conjunct: the loads, the unloads, TRIE_REBUILD, the time-out of a stream, and GRM_STEP, by where it
starts, what its token is and what mask is served. -/
theorem imagesLoadAndGrammarsStep : Obligations.ImagesLoadAndGrammarsStep := by
  unfold Obligations.ImagesLoadAndGrammarsStep
  refine ⟨fun s r a _ h => ⟨exec_vocabLoad_zero s, fun hi => ⟨fun e => vocabLoad_fails h hi, fun hc => ?_⟩⟩,
    fun s r a v _ h hv => ⟨exec_grmLoad_zero s, fun hi => ⟨fun e => grmLoad_fails h hi, fun hc => ?_⟩⟩,
    fun s r n _ hlo hhi => ⟨fun v => vocabUnload_accepted hlo hhi, fun g addr => grmUnload_accepted hlo hhi⟩,
    fun s p v done => trieRebuild_marks, fun s p n x => streamContextTimeout_closes,
    fun s q a hp h => ⟨fun e => grmStep_fails h, fun g v hcs hg hv => ?_⟩⟩
  · obtain ⟨base, hb⟩ := allocObj_of_textLoadChecks (firstFail_append_none (l := [_, _]) hc)
    exact ⟨base, hb, vocabLoad_accepted h hi hc hb⟩
  · obtain ⟨base, hb⟩ := allocObj_of_textLoadChecks (firstFail_append_none hc)
    exact ⟨base, hb, grmLoad_accepted h hi hc hv hb⟩
  · have hf : StepFinds s q.part a g v := ⟨hp, hcs, hg, hv⟩
    refine ⟨fun n k c halted l ho hx => ⟨fun hclose htok hver => ?_, fun hh => grmStep_halted h hf ho (hh ▸ hx)⟩,
      fun c hc => ⟨fun hv hpre => ?_, fun hn => ⟨fun ht hr => ?_, fun ht hr ha => ?_, grmStep_eos h hf hc hn, fun d hd => ?_⟩⟩⟩
    · exact grmStep_closes h hf ho hx (by simp [closesAlone, hclose, htok, hver])
    · exact grmStep_refused h hf hc (fun b hb => grmAdvance_verify_refused hv (hb.trans hpre))
    · exact grmStep_refused h hf hc (fun b hb => grmAdvance_invalid_token (fun hv => hb.trans (hn hv)) ht hr)
    · exact grmStep_refused h hf hc (fun b hb => grmAdvance_token_not_allowed (fun hv => hb.trans (hn hv)) ht hr ha)
    · exact ⟨grmStep_unserved h hf hc hn hd, fun m pre wrong hm => ⟨grmStep_completes_with_mask h hf hc hn hd hm,
        grmStep_dead_end h hf hc hn hd hm, fun i => grmStep_mask_mismatch h hf hc hn hd hm,
        grmStep_writes_mask h hf hc hn hd hm⟩⟩

end Sys2Proof.Proofs
end

