-- ==== Sys2Proof/Proofs/FirmwareMessages.lean ====
section
/-! Sys2Proof/Proofs/FirmwareMessages.lean: a message that firmware's queue pair holds stays held while others are given to it
(R53, R424, R430). -/
namespace Sys2Proof.Proofs
open Sys2Proof.Machine Sys2Proof.Safety

/-! ## Firmware's queue pairs as a table -/

theorem isFwQp_iff {d p : Nat} {q : FwQp} : isFwQp d p q = true ↔ q.device = d ∧ q.part = p := by
  simp [isFwQp]

theorem fwQpOf_key (s : State) (d p : Nat) : (fwQpOf s d p).device = d ∧ (fwQpOf s d p).part = p := by
  unfold fwQpOf
  cases h : s.fabric.fwQps.find? (isFwQp d p) with
  | none => exact ⟨rfl, rfl⟩
  | some q => exact isFwQp_iff.mp (List.find?_some h)

theorem fwQpOf_setFwQp_same {q : FwQp} {d p : Nat} (s : State) (h : q.device = d ∧ q.part = p) :
    fwQpOf (setFwQp q s) d p = q := by
  obtain ⟨rfl, rfl⟩ := h
  have hgone : (s.fabric.fwQps.filter (fun x => !isFwQp q.device q.part x)).find? (isFwQp q.device q.part) = none :=
    List.find?_eq_none.mpr (fun x hx => by simpa using (List.mem_filter.mp hx).2)
  unfold fwQpOf setFwQp
  dsimp only
  rw [List.find?_append, hgone, Option.none_or, List.find?_cons_of_pos (isFwQp_iff.mpr ⟨rfl, rfl⟩)]
  rfl

theorem fwQpOf_setFwQp_other {q : FwQp} {d p : Nat} (s : State) (h : ¬(q.device = d ∧ q.part = p)) :
    fwQpOf (setFwQp q s) d p = fwQpOf s d p := by
  have hkept (x : FwQp) : decide ((!isFwQp q.device q.part x) = true ∧ isFwQp d p x = true) = isFwQp d p x := by
    rw [Bool.eq_iff_iff, decide_eq_true_eq, and_iff_right_iff_imp, Bool.not_eq_true', Bool.eq_false_iff, ne_eq, isFwQp_iff,
      isFwQp_iff]
    rintro ⟨rfl, rfl⟩ ⟨hd, hp⟩
    exact h ⟨hd.symm, hp.symm⟩
  unfold fwQpOf setFwQp
  dsimp only
  rw [List.find?_append, List.find?_filter, funext hkept, List.find?_cons_of_neg (by rwa [isFwQp_iff]), List.find?_nil,
    Option.or_none]

theorem fwQpOf_inject (x : Packet) (s : State) (d p : Nat) : fwQpOf (inject x s) d p = fwQpOf s d p := by
  unfold inject
  dsimp only
  split
  · unfold enqueueAt
    split <;> rfl
  · rfl

/-! ## What a queue pair holds -/

/-- The messages of a queue pair in order: those sent and not yet acknowledged, then those to be sent. -/
def qpMessages (q : FwQp) : List (Option FwMsg) := (q.unacked ++ q.todo).map Packet.fw

def heldMessages (s : State) (d p : Nat) : List (Option FwMsg) := qpMessages (fwQpOf s d p)

theorem fwHolds_iff (s : State) (d p : Nat) (m : FwMsg) : fwHolds s d p m ↔ some m ∈ heldMessages s d p :=
  List.mem_map.symm

theorem heldMessages_setFwQp_same {q : FwQp} {d p : Nat} (s : State) (h : q.device = d ∧ q.part = p) :
    heldMessages (setFwQp q s) d p = qpMessages q :=
  congrArg qpMessages (fwQpOf_setFwQp_same s h)

theorem heldMessages_setFwQp_other {q : FwQp} {d p : Nat} (s : State) (h : ¬(q.device = d ∧ q.part = p)) :
    heldMessages (setFwQp q s) d p = heldMessages s d p :=
  congrArg qpMessages (fwQpOf_setFwQp_other s h)

theorem heldMessages_inject (x : Packet) (s : State) (d p : Nat) : heldMessages (inject x s) d p = heldMessages s d p :=
  congrArg qpMessages (fwQpOf_inject x s d p)

/-- Replacing a queue pair by one with the same messages. -/
theorem heldMessages_setFwQp {q : FwQp} {d p : Nat} (s : State) (h : q.device = d ∧ q.part = p)
    (hq : qpMessages q = heldMessages s d p) (d' p' : Nat) : heldMessages (setFwQp q s) d' p' = heldMessages s d' p' := by
  by_cases hkey : q.device = d' ∧ q.part = p'
  · obtain ⟨rfl, rfl⟩ := h
    obtain ⟨rfl, rfl⟩ := hkey
    exact (heldMessages_setFwQp_same s ⟨rfl, rfl⟩).trans hq
  · exact heldMessages_setFwQp_other s hkey

/-- Packets that begin move from those to be sent to those kept, in order. -/
theorem heldMessages_pumpFw (d p n : Nat) (s : State) (d' p' : Nat) :
    heldMessages (pumpFw d p n s) d' p' = heldMessages s d' p' := by
  induction n generalizing s with
  | zero => rfl
  | succ n ih =>
    unfold pumpFw
    dsimp only
    split
    · rfl
    next x xs htodo =>
      split
      · rfl
      rw [ih, heldMessages_inject]
      refine heldMessages_setFwQp (d := d) (p := p) s ?_ ?_ d' p'
      · exact fwQpOf_key s d p
      · simp [heldMessages, qpMessages, htodo]

theorem heldMessages_sendPeer_same {s : State} {x : Packet} (h : x.dest ∉ s.fabric.lost) :
    heldMessages (sendPeer x s) x.dest x.partition = heldMessages s x.dest x.partition ++ [x.fw] := by
  unfold sendPeer
  rw [if_neg h]
  refine (heldMessages_pumpFw _ _ _ _ _ _).trans ((heldMessages_setFwQp_same s ?_).trans ?_)
  · exact fwQpOf_key s x.dest x.partition
  · simp [heldMessages, qpMessages]

theorem heldMessages_sendPeer_other {s : State} {x : Packet} {d p : Nat} (h : ¬(x.dest = d ∧ x.partition = p)) :
    heldMessages (sendPeer x s) d p = heldMessages s d p := by
  obtain ⟨hd, hp⟩ := fwQpOf_key s x.dest x.partition
  unfold sendPeer
  split
  · rfl
  · exact (heldMessages_pumpFw _ _ _ _ _ _).trans (heldMessages_setFwQp_other s (by rwa [hd, hp]))

theorem mem_heldMessages_sendPeer {s : State} {d p : Nat} {m : Option FwMsg} (x : Packet) (h : m ∈ heldMessages s d p) :
    m ∈ heldMessages (sendPeer x s) d p := by
  by_cases hlost : x.dest ∈ s.fabric.lost
  · rwa [sendPeer, if_pos hlost]
  by_cases hkey : x.dest = d ∧ x.partition = p
  · obtain ⟨rfl, rfl⟩ := hkey
    rw [heldMessages_sendPeer_same hlost]
    exact List.mem_append_left _ h
  · rwa [heldMessages_sendPeer_other hkey]

/-- A message to a device that is not declared lost is held from then on. -/
theorem fwHolds_sendFw {s : State} {d : Nat} (p : Nat) (m : FwMsg) (h : d ∉ s.fabric.lost) : fwHolds (sendFw d p m s) d p m :=
  (fwHolds_iff _ d p m).mpr
    ((heldMessages_sendPeer_same (x := { fwPacket (ownId s) d p .send with fw := some m }) h).symm ▸
      List.mem_append_right _ List.mem_cons_self)

theorem fwHolds_sendFw_of_holds {s : State} {d p : Nat} {m : FwMsg} (d' p' : Nat) (m' : FwMsg) (h : fwHolds s d p m) :
    fwHolds (sendFw d' p' m' s) d p m :=
  (fwHolds_iff _ d p m).mpr (mem_heldMessages_sendPeer _ ((fwHolds_iff s d p m).mp h))

theorem fwHolds_storeAtHolders_of_holds {s : State} {d p : Nat} {m : FwMsg} (u : Machine.PUnit) (h : fwHolds s d p m) :
    fwHolds (storeAtHolders u s) d p m :=
  List.foldlRecOn (motive := fun t => fwHolds t d p m) u.holders _ h (fun _ ht d' _ => fwHolds_sendFw_of_holds d' _ _ ht)

end Sys2Proof.Proofs
end

