-- ==== Sys2Proof/Proofs/Placement.lean ====
section
/-! Sys2Proof/Proofs/Placement.lean: what Skidder's operations on units keep: partitions, time, memory but for
regions granted, and the units as a view of them sees them (R330, R335, R340). -/
namespace Sys2Proof.Proofs
open Sys2Proof.Machine Sys2Proof.Safety

/-! ## Deck's programming and Loupe's records -/

/-- `t` is `s` but for Deck, Loupe, what has been issued and what Landing holds back. -/
def DeckOnly (s t : State) : Prop := ∃ d l i w, t = { reshown l i w s with deck := d }

theorem DeckOnly.refl (s : State) : DeckOnly s s := ⟨s.deck, s.loupe, s.issued, s.landing.waiting, rfl⟩

theorem DeckOnly.trans {s t u : State} (a : DeckOnly s t) (b : DeckOnly t u) : DeckOnly s u := by
  obtain ⟨_, _, _, _, rfl⟩ := a
  obtain ⟨d, l, i, w, rfl⟩ := b
  exact ⟨d, l, i, w, rfl⟩

theorem DeckOnly.fold {α : Type} (f : State → α → State) (h : ∀ s x, DeckOnly s (f s x)) (l : List α) (s : State) :
    DeckOnly s (l.foldl f s) :=
  List.foldlRecOn (motive := DeckOnly s) l f (.refl s) (fun t ht x _ => ht.trans (h t x))

theorem DeckOnly.ite {c : Prop} [Decidable c] {s t : State} (h : DeckOnly s t) : DeckOnly s (if c then t else s) := by
  split
  · exact h
  · exact .refl s

theorem DeckOnly.skidder {s t : State} (h : DeckOnly s t) : t.skidder = s.skidder := by
  obtain ⟨_, _, _, _, rfl⟩ := h
  rfl

theorem DeckOnly.mem {s t : State} (h : DeckOnly s t) : t.mem = s.mem := by
  obtain ⟨_, _, _, _, rfl⟩ := h
  rfl

theorem DeckOnly.parts {s t : State} (h : DeckOnly s t) : t.parts = s.parts := by
  obtain ⟨_, _, _, _, rfl⟩ := h
  rfl

theorem DeckOnly.time {s t : State} (h : DeckOnly s t) : t.time = s.time := by
  obtain ⟨_, _, _, _, rfl⟩ := h
  rfl

theorem onDeck_deckOnly (f : Deck → Deck) (s : State) : DeckOnly s (onDeck f s) :=
  ⟨f s.deck, s.loupe, s.issued, s.landing.waiting, rfl⟩

theorem trace_deckOnly (a b c d e : Nat) (s : State) : DeckOnly s (trace a b c d e s) := by
  obtain ⟨l, i, w, h⟩ := Laws.trace_shape a b c d e s
  exact ⟨s.deck, l, i, w, h⟩

theorem programDevice_deckOnly (p n : Nat) (s : State) : DeckOnly s (programDevice p n s) :=
  (onDeck_deckOnly _ s).trans (DeckOnly.fold _ (fun t _ => trace_deckOnly _ _ _ _ _ t) _ _)

theorem onDeckPages_deckOnly (f : Deck → Deck) (s : State) : DeckOnly s (onDeckPages f s) :=
  ((onDeck_deckOnly f s).trans (DeckOnly.fold _ (fun t _ => trace_deckOnly _ _ _ _ _ t) _ _)).trans
    (DeckOnly.fold _ (fun t _ => trace_deckOnly _ _ _ _ _ t) _ _)

theorem programUnit_deckOnly (u : Machine.PUnit) (s : State) : DeckOnly s (programUnit u s) := by
  unfold programUnit
  split
  · split
    · exact .refl s
    · split
      · exact onDeckPages_deckOnly _ s
      · exact .refl s
  · exact programDevice_deckOnly _ _ s

theorem moveUnits_deckOnly (f : Machine.PUnit → Machine.PUnit) (s : State) :
    DeckOnly (onUnits (fun us => us.map f) s) (moveUnits f s) :=
  DeckOnly.fold _ (fun t _ => trace_deckOnly _ _ _ _ _ t) _ _

theorem FabricOnly.mem {s t : State} (h : FabricOnly s t) : t.mem = s.mem := by
  obtain ⟨_, rfl⟩ := h
  rfl

theorem FabricOnly.parts {s t : State} (h : FabricOnly s t) : t.parts = s.parts := by
  obtain ⟨_, rfl⟩ := h
  rfl

/-! ## Memory but for the regions granted (R340) -/

theorem KeepsMem.refl (s : State) : KeepsMem s s := fun _ => .inl rfl

theorem KeepsMem.of_eq {s t : State} (h : t.mem = s.mem) : KeepsMem s t := fun a => .inl (congrArg (cellsRead · a) h)

theorem KeepsMem.trans {s t u : State} (a : KeepsMem s t) (b : KeepsMem t u) : KeepsMem s u := fun x => by
  obtain hb | hb := b x
  · rw [hb]
    exact a x
  · exact .inr hb

/-- Each stack's regions lie in HBM's range of addresses. -/
theorem regionAddr_in_hbm {die i : Nat} (hd : die < 8) (hi : i < regionCount) :
    hbmBase ≤ regionAddr die i ∧ regionAddr die i + 2097152 ≤ objRegion := by
  have hle := regionCount_bounds.2
  unfold regionAddr hbmBase objRegion
  omega

theorem grantRegion_keepsMem (p : Nat) {die : Nat} (hd : die < 8) (s : State) : KeepsMem s (grantRegion p die s) := by
  unfold grantRegion
  split
  next i hi =>
    intro a
    obtain ⟨hlo, hhi⟩ := regionAddr_in_hbm hd (nextRegion_lt hi)
    dsimp only
    rw [Laws.read_clear]
    split
    · exact .inl rfl
    · exact .inr ⟨by omega, by omega, rfl⟩
  next => exact KeepsMem.refl s

/-! ## What a view of the units, the partitions and time keep -/

/-- Time and every partition are as they were, memory too but for regions granted, and the units look the same to `view`. -/
structure Keeps {β : Type} (view : List Machine.PUnit → β) (s t : State) : Prop where
  time : t.time = s.time
  parts : t.parts = s.parts
  mem : KeepsMem s t
  units : view t.skidder.units = view s.skidder.units

section
variable {β : Type} {view : List Machine.PUnit → β} {s t u : State}

theorem Keeps.refl (s : State) : Keeps view s s := ⟨rfl, rfl, KeepsMem.refl s, rfl⟩

theorem Keeps.trans (a : Keeps view s t) (b : Keeps view t u) : Keeps view s u :=
  ⟨b.time.trans a.time, b.parts.trans a.parts, KeepsMem.trans a.mem b.mem, b.units.trans a.units⟩

theorem Keeps.fold {α : Type} {f : State → α → State} {l : List α} (h : ∀ t, ∀ x ∈ l, Keeps view t (f t x)) (s : State) :
    Keeps view s (l.foldl f s) :=
  List.foldlRecOn (motive := Keeps view s) l f (.refl s) (fun t ht x hx => ht.trans (h t x hx))

theorem Keeps.of_same (h : Keeps id s t) : Keeps view s t := ⟨h.time, h.parts, h.mem, congrArg view h.units⟩

theorem DeckOnly.keeps (h : DeckOnly s t) : Keeps view s t :=
  ⟨h.time, h.parts, KeepsMem.of_eq h.mem, by rw [h.skidder]⟩

theorem FabricOnly.keeps (h : FabricOnly s t) : Keeps view s t := by
  obtain ⟨f, rfl⟩ := h
  exact ⟨rfl, rfl, KeepsMem.refl s, rfl⟩

/-- An update of Skidder that the view does not see. -/
theorem keeps_skidder {k : Skidder} (h : view k.units = view s.skidder.units) : Keeps view s { s with skidder := k } :=
  ⟨rfl, rfl, KeepsMem.refl s, h⟩

end

theorem grantRegion_keeps (p : Nat) {die : Nat} (hd : die < 8) (s : State) : Keeps id s (grantRegion p die s) := by
  have hm := grantRegion_keepsMem p hd s
  unfold grantRegion at hm ⊢
  split at hm
  · exact ⟨rfl, rfl, hm, rfl⟩
  · exact .refl s

theorem settleDie_keeps (p : Nat) {die : Nat} (hd : die < 8) (s : State) : Keeps id s (settleDie p s die) := by
  unfold settleDie
  dsimp only
  split
  · exact Keeps.fold (fun t _ _ => grantRegion_keeps p hd t) s
  · exact keeps_skidder rfl

theorem settlePart_keeps {β : Type} {view : List Machine.PUnit → β} (p : Nat) (s : State) : Keeps view s (settlePart p s) :=
  Keeps.of_same (Keeps.fold (fun t _ hd => settleDie_keeps p (List.mem_range.mp hd) t) s)

theorem settleRegions_keeps {β : Type} {view : List Machine.PUnit → β} (s : State) : Keeps view s (settleRegions s) :=
  Keeps.fold (fun t p _ => settlePart_keeps p t) s

theorem storeAtHolders_fabricOnly (u : Machine.PUnit) (s : State) : FabricOnly s (storeAtHolders u s) :=
  FabricOnly.fold _ (fun t d => sendFw_fabricOnly d _ _ t) _ s

theorem freeHolders_fabricOnly (p : Nat) (u : Machine.PUnit) (s : State) : FabricOnly s (freeHolders p u s) :=
  FabricOnly.fold _ (fun t d => sendFw_fabricOnly d _ _ t) _ s

theorem bumpFree_keeps {β : Type} {view : List Machine.PUnit → β} (s : State) : Keeps view s (bumpFree s) :=
  ⟨rfl, rfl, KeepsMem.refl s, rfl⟩

/-- A change of the units that the view does not see. -/
theorem onUnits_keeps {β : Type} {view : List Machine.PUnit → β} {f : List Machine.PUnit → List Machine.PUnit} {s : State}
    (h : view (f s.skidder.units) = view s.skidder.units) : Keeps view s (onUnits f s) := keeps_skidder h

theorem moveUnits_units (f : Machine.PUnit → Machine.PUnit) (s : State) :
    (moveUnits f s).skidder.units = s.skidder.units.map f := by
  rw [(moveUnits_deckOnly f s).skidder]
  rfl

theorem moveUnits_keeps {β : Type} {view : List Machine.PUnit → β} {f : Machine.PUnit → Machine.PUnit} {s : State}
    (h : view (s.skidder.units.map f) = view s.skidder.units) : Keeps view s (moveUnits f s) :=
  (onUnits_keeps (f := fun us => us.map f) h).trans (moveUnits_deckOnly f s).keeps

/-! ## Units by their id -/

theorem unitById_id {s : State} {n : Nat} {u : Machine.PUnit} (h : unitById s n = some u) : u.id = n := by
  simpa using List.find?_some h

/-- Units added (R333) leave every partition as it was. -/
theorem addUnit_parts (p : Nat) (k : UnitKind) (cls : Nat) (loc : UnitLoc) (size addr : Nat) (s : State) :
    (addUnit p k cls loc size addr s).parts = s.parts := by
  unfold addUnit
  exact (settlePart_keeps (view := id) p _).parts.trans (programDevice_deckOnly _ _ s).ite.parts

theorem segmentUnits_parts (p : Nat) (c : Coll) (g : Segment) (s : State) : (segmentUnits p c g s).parts = s.parts := by
  unfold segmentUnits
  refine (foldl_keeps State.parts (fun t r => ?_) _ _).trans
    (foldl_keeps State.parts (fun t b => addUnit_parts _ _ _ _ _ _ t) _ s)
  split
  · exact addUnit_parts _ _ _ _ _ _ t
  · rfl

end Sys2Proof.Proofs
end

