-- ==== Sys2Proof/Proofs/PlacementPlan.lean ====
section
/-! Sys2Proof/Proofs/PlacementPlan.lean: every step of the placement plan keeps what a unit is, and where a PINNED_HBM unit is
(R330, R335, R337). -/
namespace Sys2Proof.Proofs
open Sys2Proof.Machine Sys2Proof.Safety

/-! ## What a plan keeps of a unit -/

/-- What a unit is, whatever its place: id, partition, kind, class, size and heat. -/
def identity (u : Machine.PUnit) : Nat × Nat × UnitKind × Nat × Nat × Nat := (u.id, u.part, u.kind, u.cls, u.size, u.heat)

/-- The place of a PINNED_HBM unit; none for a unit that Skidder may move. -/
def pinnedPlace (u : Machine.PUnit) : Option UnitLoc := if u.cls = 0 then some u.loc else none

def fixedTraits (u : Machine.PUnit) : (Nat × Nat × UnitKind × Nat × Nat × Nat) × Option UnitLoc := (identity u, pinnedPlace u)

theorem fixedTraits_id {u v : Machine.PUnit} (h : fixedTraits u = fixedTraits v) : u.id = v.id := congrArg (fun x => x.1.1) h

theorem fixedTraits_cls {u v : Machine.PUnit} (h : fixedTraits u = fixedTraits v) : u.cls = v.cls :=
  congrArg (fun x => x.1.2.2.2.1) h

/-- A unit that is not pinned may take another place, other holders and other copies. -/
theorem fixedTraits_moved {u : Machine.PUnit} (h : u.cls ≠ 0) (l : UnitLoc) (c : Nat) (hs : List Nat) :
    fixedTraits { u with loc := l, copies := c, holders := hs } = fixedTraits u := by
  simp [fixedTraits, pinnedPlace, h, identity]

/-- Partitions and time kept, memory but for regions granted, and of each unit what no plan changes. -/
def Plans (s t : State) : Prop := Keeps (List.map fixedTraits) s t

theorem Plans.refl (s : State) : Plans s s := Keeps.refl s

theorem Plans.trans {s t u : State} (a : Plans s t) (b : Plans t u) : Plans s u := Keeps.trans a b

theorem Keeps.plans {s t : State} (h : Keeps (List.map fixedTraits) s t) : Plans s t := h

/-- No two units share an id. -/
def Distinct (s : State) : Prop := (s.skidder.units.map PUnit.id).Nodup

/-- A unit of the state, as it is now or as it was before moves. -/
def Known (s : State) (u : Machine.PUnit) : Prop := fixedTraits u ∈ s.skidder.units.map fixedTraits

theorem known_of_mem {s : State} {u : Machine.PUnit} (h : u ∈ s.skidder.units) : Known s u := List.mem_map_of_mem h

theorem Plans.known {s t : State} {u : Machine.PUnit} (h : Plans s t) (hu : Known s u) : Known t u := by
  unfold Known
  rwa [h.units]

theorem distinct_iff (s : State) : Distinct s ↔ ((s.skidder.units.map fixedTraits).map (fun x => x.1.1)).Nodup := by
  rw [List.map_map]
  rfl

theorem Plans.distinct {s t : State} (h : Plans s t) (hd : Distinct s) : Distinct t :=
  (distinct_iff t).mpr (h.units.symm ▸ (distinct_iff s).mp hd)

theorem eq_of_id {us : List Machine.PUnit} {v w : Machine.PUnit} (hd : (us.map Machine.PUnit.id).Nodup) (hv : v ∈ us)
    (hw : w ∈ us) (hid : w.id = v.id) : w = v := by
  induction us with
  | nil => cases hv
  | cons u us ih =>
    obtain ⟨hnew, hrest⟩ := List.nodup_cons.mp hd
    obtain rfl | hvs := List.mem_cons.mp hv
    · obtain rfl | hws := List.mem_cons.mp hw
      · rfl
      · exact absurd (hid ▸ List.mem_map_of_mem hws) hnew
    · obtain rfl | hws := List.mem_cons.mp hw
      · exact absurd (hid.symm ▸ List.mem_map_of_mem hvs) hnew
      · exact ih hrest hvs hws

theorem Known.eq_of_id {s : State} {u w : Machine.PUnit} (hu : Known s u) (hd : Distinct s) (hw : w ∈ s.skidder.units)
    (hid : w.id = u.id) : fixedTraits w = fixedTraits u := by
  obtain ⟨v, hv, he⟩ := List.mem_map.mp hu
  have hwv : w = v := Proofs.eq_of_id hd hv hw (hid.trans (fixedTraits_id he).symm)
  rw [hwv, he]

/-! ## The moves of one unit -/

theorem map_fixedTraits_of_id {n : Nat} {f : Machine.PUnit → Machine.PUnit} {us : List Machine.PUnit}
    (h : ∀ w ∈ us, w.id = n → fixedTraits (f w) = fixedTraits w) :
    (us.map (fun w => if w.id = n then f w else w)).map fixedTraits = us.map fixedTraits := by
  rw [List.map_map]
  refine List.map_congr_left (fun w hw => ?_)
  dsimp only [Function.comp]
  split
  next hn => exact h w hw hn
  next => rfl

theorem moveUnit_plans {s : State} {n : Nat} {f : Machine.PUnit → Machine.PUnit}
    (h : ∀ w ∈ s.skidder.units, w.id = n → fixedTraits (f w) = fixedTraits w) : Plans s (moveUnit n f s) :=
  moveUnits_keeps (map_fixedTraits_of_id h)

theorem onUnit_plans {s : State} {n : Nat} {f : Machine.PUnit → Machine.PUnit}
    (h : ∀ w ∈ s.skidder.units, w.id = n → fixedTraits (f w) = fixedTraits w) : Plans s (onUnit n f s) :=
  onUnits_keeps (by simpa only [mapWhere, decide_eq_true_eq] using map_fixedTraits_of_id h)

theorem onUnit_copies_plans (n : Nat) (g : Machine.PUnit → Nat) (s : State) :
    Plans s (onUnit n (fun u => { u with copies := g u }) s) := onUnit_plans (fun _ _ _ => rfl)

/-- PINNED_HBM has no place to be demoted to. -/
theorem demotePlace_pinned {u : Machine.PUnit} (s : State) (h : u.cls = 0) : demotePlace s u = none := if_pos h

theorem demote_pinned {u : Machine.PUnit} (s : State) (h : u.cls = 0) : demote u s = s := by
  unfold demote
  rw [demotePlace_pinned s h]

theorem demote_plans {s : State} {u : Machine.PUnit} (hd : Distinct s) (hu : Known s u) : Plans s (demote u s) := by
  by_cases hcls : u.cls = 0
  · rw [demote_pinned s hcls]
    exact .refl s
  unfold demote
  split
  · exact .refl s
  next x _ =>
    have hprog : Plans s (if x.1 = .flash then programUnit u s else s) := (programUnit_deckOnly u s).ite.keeps
    dsimp only
    generalize (if x.1 = .flash then programUnit u s else s) = t at hprog ⊢
    have hmove : Plans t (moveUnit u.id (fun _ => { u with loc := x.1, holders := x.2, copies := 0 }) t) :=
      moveUnit_plans (fun w hw hid =>
        (fixedTraits_moved hcls _ _ _).trans ((hprog.known hu).eq_of_id (hprog.distinct hd) hw hid).symm)
    exact hprog.trans (hmove.trans ((settlePart_keeps _ _).plans.trans
      ((storeAtHolders_fabricOnly _ _).keeps.plans.trans ((bumpFree_keeps _).plans.trans (keeps_skidder rfl)))))

theorem promote_plans {s : State} {u : Machine.PUnit} (hd : Distinct s) (hu : Known s u) (hcls : u.cls ≠ 0) :
    Plans s (promote u s) := by
  have hmove : Plans s (moveUnit u.id (fun u => { u with loc := .hbm, copies := 0, holders := [] }) s) :=
    moveUnit_plans (fun w hw hid => fixedTraits_moved (fixedTraits_cls (hu.eq_of_id hd hw hid) ▸ hcls) _ _ _)
  have hsettled := hmove.trans (settlePart_keeps u.part _)
  unfold promote
  generalize settlePart u.part _ = t at hsettled ⊢
  exact hsettled.trans (keeps_skidder rfl)

/-! ## The steps of the plan -/

theorem firstBy_mem {α : Type} {lt : α → α → Bool} {l : List α} {x : α} (h : firstBy lt l = some x) : x ∈ l := by
  induction l generalizing x with
  | nil => cases h
  | cons y ys ih =>
    unfold firstBy at h
    split at h
    next z hz =>
      split at h
      · exact List.mem_cons_of_mem _ (ih (Option.some.inj h ▸ hz))
      · exact Option.some.inj h ▸ List.mem_cons_self
    next => exact Option.some.inj h ▸ List.mem_cons_self

theorem mem_victims {s : State} {withHot : Bool} {u : Machine.PUnit} (h : u ∈ victims s withHot) : u ∈ s.skidder.units := by
  have hp := (List.mem_filter.mp h).1
  split at hp
  · exact (List.mem_filter.mp hp).1
  · exact (List.mem_filter.mp (List.mem_filter.mp hp).1).1

theorem trimKv_plans (n : Nat) {s : State} (hd : Distinct s) : Plans s (trimKv n s) := by
  induction n generalizing s with
  | zero => exact .refl s
  | succ n ih =>
    unfold trimKv
    split
    · split
      next u hu =>
        have hin : u ∈ s.skidder.units := (List.mem_filter.mp (List.mem_filter.mp (firstBy_mem hu)).1).1
        have hstep := demote_plans hd (known_of_mem hin)
        exact hstep.trans (ih (hstep.distinct hd))
      next => exact .refl s
    · exact .refl s

theorem demoteAll_plans (us : List Machine.PUnit) {s : State} (hd : Distinct s) (hus : ∀ u ∈ us, Known s u) :
    Plans s (us.foldl (fun s u => demote u s) s) := by
  induction us generalizing s with
  | nil => exact .refl s
  | cons u us ih =>
    obtain ⟨hu, hrest⟩ := List.forall_mem_cons.mp hus
    have hstep := demote_plans hd hu
    exact hstep.trans (ih (hstep.distinct hd) (fun v hv => hstep.known (hrest v hv)))

theorem sendPool_plans {s : State} (hd : Distinct s) : Plans s (sendPool s) :=
  demoteAll_plans _ hd (fun _ hu => known_of_mem (List.mem_filter.mp hu).1)

theorem dropCopies_plans (n : Nat) (s : State) : Plans s (dropCopies n s) := by
  induction n generalizing s with
  | zero => exact .refl s
  | succ n ih =>
    unfold dropCopies
    split
    · split
      · exact (onUnit_copies_plans _ _ s).trans (ih _)
      · exact .refl s
    · exact .refl s

theorem demoteLow_plans (n b : Nat) {s : State} (hd : Distinct s) : Plans s (demoteLow n b s).2 := by
  induction n generalizing b s with
  | zero => exact .refl s
  | succ n ih =>
    unfold demoteLow
    split
    · split
      next v hv =>
        have hstep := demote_plans hd (known_of_mem (mem_victims (firstBy_mem hv)))
        exact hstep.trans (ih _ (hstep.distinct hd))
      next => exact .refl s
    · exact .refl s

theorem displace_plans (u : Machine.PUnit) (n b : Nat) {s : State} (hd : Distinct s) : Plans s (displace u n b s).2.2 := by
  induction n generalizing b s with
  | zero => exact .refl s
  | succ n ih =>
    unfold displace
    split
    · split
      next v hv =>
        split
        · exact .refl s
        · have hstep := demote_plans hd (known_of_mem (mem_victims (firstBy_mem hv)))
          exact hstep.trans (ih _ (hstep.distinct hd))
      next => exact .refl s
    · exact .refl s

theorem promoteAll_plans (us : List Machine.PUnit) (b : Nat) {s : State} (hd : Distinct s)
    (hus : ∀ u ∈ us, Known s u ∧ u.cls ≠ 0) : Plans s (promoteAll us b s).2 := by
  induction us generalizing b s with
  | nil => exact .refl s
  | cons u us ih =>
    obtain ⟨⟨hu, hcls⟩, hrest⟩ := List.forall_mem_cons.mp hus
    unfold promoteAll
    split
    · exact ih b hd hrest
    split
    · exact .refl s
    have hroom := displace_plans u (s.skidder.units.length + 1) b hd
    generalize displace u (s.skidder.units.length + 1) b s = x at hroom ⊢
    obtain ⟨fits, left, t⟩ := x
    cases fits with
    | true =>
      have hstep := hroom.trans (promote_plans (hroom.distinct hd) (hroom.known hu) hcls)
      exact hstep.trans (ih _ (hstep.distinct hd) (fun v hv => (hrest v hv).imp_left hstep.known))
    | false => exact hroom.trans (ih _ (hroom.distinct hd) (fun v hv => (hrest v hv).imp_left hroom.known))

theorem mem_insertBy {α : Type} {lt : α → α → Bool} {x y : α} {l : List α} : y ∈ insertBy lt x l ↔ y = x ∨ y ∈ l := by
  induction l with
  | nil => exact List.mem_cons
  | cons z zs ih =>
    unfold insertBy
    split
    · exact List.mem_cons
    · rw [List.mem_cons, ih, List.mem_cons]
      exact or_left_comm

theorem mem_sortBy {α : Type} {lt : α → α → Bool} {y : α} {l : List α} : y ∈ sortBy lt l ↔ y ∈ l := by
  induction l with
  | nil => exact Iff.rfl
  | cons z zs ih =>
    rw [List.mem_cons, ← ih]
    exact mem_insertBy

theorem mem_promotable {s : State} {u : Machine.PUnit} (h : u ∈ promotable s) : u ∈ s.skidder.units ∧ u.cls ≠ 0 := by
  obtain ⟨hin, hp⟩ := List.mem_filter.mp (mem_sortBy.mp h)
  simp only [Bool.and_eq_true, Bool.or_eq_true, decide_eq_true_eq] at hp
  exact ⟨hin, by omega⟩

theorem addCopies_plans (us : List Machine.PUnit) (b : Nat) (s : State) : Plans s (addCopies us b s).2 := by
  induction us generalizing b s with
  | nil => exact .refl s
  | cons u us ih =>
    unfold addCopies
    split
    · exact (onUnit_copies_plans _ _ s).trans (ih _ _)
    · exact ih _ _

/-- The plan's note of its time, for any state `t`: were `t` the plan's own moves, the kernel would evaluate them. -/
theorem Plans.noted {s t : State} {now : Nat} (h : Plans s t) (hnow : now = s.time) :
    Plans s { t with skidder := { t.skidder with lastPlan := now } } ∧
      ({ t with skidder := { t.skidder with lastPlan := now } } : State).skidder.lastPlan = s.time :=
  ⟨h.trans (keeps_skidder rfl), hnow⟩

/-- The time that the plan notes is the one at which its first moves ended, which is the present one. -/
theorem runPlan_plans {s : State} (hd : Distinct s) : Plans s (runPlan s) ∧ (runPlan s).skidder.lastPlan = s.time := by
  unfold runPlan
  extract_lets n sent cooled x y z t
  have hsent : Plans s sent := by
    have htrimmed := trimKv_plans n hd
    exact htrimmed.trans (sendPool_plans (htrimmed.distinct hd))
  clear_value sent
  have hcooled : Plans s cooled := hsent.trans (dropCopies_plans (4 * n) sent)
  clear_value cooled
  have hx : Plans s x.2 := hcooled.trans (demoteLow_plans n 1000000000 (hcooled.distinct hd))
  clear_value x
  have hy : Plans s y.2 := hx.trans (promoteAll_plans (promotable x.2) x.1 (hx.distinct hd)
    (fun u hu => (mem_promotable hu).imp_left known_of_mem))
  clear_value y
  have hz : Plans s z.2 := hy.trans (addCopies_plans (copyable y.2) y.1 y.2)
  clear_value z
  have ht : Plans s t := hz.trans (settleRegions_keeps z.2)
  clear_value t
  exact ht.noted hcooled.time

theorem Plans.identities {s t : State} (h : Plans s t) : t.skidder.units.map identity = s.skidder.units.map identity := by
  have hi := congrArg (List.map Prod.fst) h.units
  rwa [List.map_map, List.map_map] at hi

theorem Plans.pinned_stays {s t : State} (h : Plans s t) {u : Machine.PUnit} (hu : u ∈ t.skidder.units) (hcls : u.cls = 0) :
    ∃ v ∈ s.skidder.units, v.id = u.id ∧ v.loc = u.loc := by
  have hin := known_of_mem hu
  unfold Known at hin
  rw [h.units] at hin
  obtain ⟨v, hv, he⟩ := List.mem_map.mp hin
  have hplace : pinnedPlace v = pinnedPlace u := congrArg Prod.snd he
  unfold pinnedPlace at hplace
  rw [fixedTraits_cls he, if_pos hcls, if_pos hcls] at hplace
  exact ⟨v, hv, fixedTraits_id he, Option.some.inj hplace⟩

end Sys2Proof.Proofs
end

