-- ==== Sys2Proof/Proofs/UnitMoves.lean ====
section
/-! Sys2Proof/Proofs/UnitMoves.lean: heat, the placement plan, moves of one unit, copy-up, pool holders and replica rebuilding
(R330–R351, R572). -/
namespace Sys2Proof.Proofs
open Sys2Proof.Machine Sys2Proof.Safety

/-! ## Heat (R334, R337, R572) -/

theorem heatDecay_held {s : State} (h : holding s = true) : exec .heatDecay s = .next s := by
  show execHeatDecay s = _
  simp [execHeatDecay, h]

theorem heatDecay_halves {s : State} (hr : s.power.phase = .running) (h : holding s = false) :
    exec .heatDecay s = .next (onUnits (fun us => us.map (fun u =>
      { u with heat := u.heat / 2, copies := if u.heat / 2 < 256 then 0 else u.copies })) s) := by
  show execHeatDecay s = _
  simp [execHeatDecay, hr, h]

/-! ## The plan (R335) -/

theorem exec_placementPlan {s : State} (h : skidderRuns s = true) : exec .placementPlan s = .next (runPlan s) := by
  show execPlacementPlan s = _
  unfold execPlacementPlan
  rw [if_pos h]

/-! ## A move of one unit (R343, R344) -/

section
variable {s : State} {a : UnitMoveArgs} {u : Machine.PUnit} (hrun : skidderRuns s = true) (hu : unitById s a.unit = some u)
include hrun hu

theorem unitMove_promotes (hto : a.toHbm = true) (hloc : u.loc = .flash) (hcls : u.cls = 1 ∨ u.cls = 2)
    (hmay : mayPromote s u = true) (hroom : u.span ≤ freeHbm s) : exec (.unitMove a) s = .next (promote u s) := by
  show execUnitMove a s = _
  simp [execUnitMove, hu, hrun, hto, hloc, hcls, hmay, hroom]

theorem unitMove_abandoned (hto : a.toHbm = false) (hd : a.dirtied = true) : exec (.unitMove a) s = .next s := by
  show execUnitMove a s = _
  simp [execUnitMove, hu, hrun, hto, hd]

theorem unitMove_demotes (hto : a.toHbm = false) (hd : a.dirtied = false) (hloc : u.loc = .hbm) :
    exec (.unitMove a) s = .next (demote u s) := by
  show execUnitMove a s = _
  simp [execUnitMove, hu, hrun, hto, hd, hloc]

theorem unitMove_elsewhere (hto : a.toHbm = false) (hloc : u.loc ≠ .hbm) : exec (.unitMove a) s = .next s := by
  show execUnitMove a s = _
  simp [execUnitMove, hu, hrun, hto, hloc]

/-- A PINNED_HBM unit in HBM has no place to go, and elsewhere there is nothing to demote. -/
theorem unitMove_pinned (hto : a.toHbm = false) (hcls : u.cls = 0) : exec (.unitMove a) s = .next s := by
  by_cases hloc : u.loc = .hbm
  · cases hd : a.dirtied with
    | true => exact unitMove_abandoned hrun hu hto hd
    | false => rw [unitMove_demotes hrun hu hto hd hloc, demote_pinned s hcls]
  · exact unitMove_elsewhere hrun hu hto hloc

end

/-! ## Copy-up (R345, R346) -/

/-- Forget the flash images of an extent. -/
def trimImages (p h e : Nat) (s : State) : State :=
  onDeck (fun d => { d with images := d.images.filter (fun i => !isImg p h e i) }) s

section
variable {s : State} {a : CopyUpArgs} {u : Machine.PUnit} (hr : s.power.phase = .running) (hu : unitById s a.unit = some u)
  (hloc : u.loc ≠ .hbm)
include hr hu hloc

theorem copyUp_fails (hok : a.ok = false) : exec (.copyUp a) s = .next (unitUnreadable u s) := by
  show execCopyUp a s = _
  simp [execCopyUp, hu, hr, hloc, hok]

theorem copyUp_poisoned {h e : Nat} (hok : a.ok = true) (hk : u.kind = .extent h e) (hp : isPoisoned s u.part h e = true) :
    exec (.copyUp a) s = .next (unitUnreadable u s) := by
  show execCopyUp a s = _
  simp [execCopyUp, hu, hr, hloc, hok, hk, hp]

theorem copyUp_extent {h e : Nat} (hok : a.ok = true) (hk : u.kind = .extent h e) (hp : isPoisoned s u.part h e = false) :
    exec (.copyUp a) s = .next (writeInUnit u a.addr a.data (trimImages u.part h e (copyUpUnit u s))) := by
  show execCopyUp a s = _
  simp [execCopyUp, hu, hr, hloc, hok, hk, hp, trimImages]

theorem copyUp_device (hok : a.ok = true) (hk : ∀ h e, u.kind ≠ .extent h e) :
    exec (.copyUp a) s = .next (copyUpUnit u s) := by
  show execCopyUp a s = _
  simp only [execCopyUp, hu, hr, hloc, hok]
  cases hkind : u.kind with
  | extent h e => exact absurd hkind (hk h e)
  | _ => simp

end

theorem objStore_nil (r : ObjRange) (x : Nat) (s : State) : objStore r x [] s = s := by
  unfold objStore
  split <;> rfl

theorem writeInUnit_nil (u : Machine.PUnit) (x : Nat) (s : State) : writeInUnit u x [] s = s := by
  unfold writeInUnit
  split
  · rw [objStore_nil]
    exact ite_self s
  · rfl

theorem trimImages_gone {p h e : Nat} {s : State} {i : FlashImage} (hi : i ∈ (trimImages p h e s).deck.images) :
    isImg p h e i = false := by
  simpa using (List.mem_filter.mp hi).2

theorem mem_map_byId {n : Nat} {f : Machine.PUnit → Machine.PUnit} {us : List Machine.PUnit} {v : Machine.PUnit}
    (hv : v ∈ us.map (fun w => if w.id = n then f w else w)) (hid : v.id = n) : ∃ w ∈ us, v = f w := by
  obtain ⟨w, hw, rfl⟩ := List.mem_map.mp hv
  by_cases h : w.id = n
  · exact ⟨w, hw, if_pos h⟩
  · rw [if_neg h] at hid
    exact absurd hid h

/-- The unit once its copy stands in HBM. -/
def raised (u : Machine.PUnit) : Machine.PUnit := { u with loc := .hbm, copies := 0, holders := [] }

theorem copyUpUnit_keeps {β : Type} {view : List Machine.PUnit → β} (u : Machine.PUnit) (s : State) :
    Keeps view (moveUnit u.id raised s) (copyUpUnit u s) :=
  ((settlePart_keeps u.part _).trans (freeHolders_fabricOnly u.part u _).keeps).trans (keeps_skidder rfl)

theorem copyUpUnit_units (u : Machine.PUnit) (s : State) :
    (copyUpUnit u s).skidder.units = s.skidder.units.map (fun w => if w.id = u.id then raised w else w) :=
  (copyUpUnit_keeps (view := id) u s).units.trans (moveUnits_units _ s)

theorem copyUpUnit_keepsMem (u : Machine.PUnit) (s : State) : KeepsMem s (copyUpUnit u s) :=
  KeepsMem.trans (KeepsMem.of_eq (moveUnits_deckOnly _ s).mem) (copyUpUnit_keeps (view := id) u s).mem

theorem copyUpUnit_raised {s : State} {u v : Machine.PUnit} (hv : v ∈ (copyUpUnit u s).skidder.units) (hid : v.id = u.id) :
    v.loc = .hbm ∧ v.holders = [] := by
  rw [copyUpUnit_units] at hv
  obtain ⟨w, _, rfl⟩ := mem_map_byId hv hid
  exact ⟨rfl, rfl⟩

/-! ## Holders lost (R349) -/

section
variable {s : State} {unit lost : Nat} {u : Machine.PUnit} (hrun : firmwareRuns s = true) (hu : unitById s unit = some u)
  (hloc : u.loc = .pool) (hlost : lost ∈ u.holders)
include hrun hu hloc hlost

theorem poolUnitRecopy_unreadable (new : Nat) (hleft : u.holders.filter (fun d => d ≠ lost) = []) :
    exec (.poolUnitRecopy unit lost new) s =
      .next (unitUnreadable u (onUnit unit (fun u => { u with holders := [] }) s)) := by
  show execPoolUnitRecopy unit lost new s = _
  simp only [execPoolUnitRecopy, hu, hrun, hloc, hlost, hleft]
  simp

theorem poolUnitRecopy_recopies {new other : Nat} (hleft : u.holders.filter (fun d => d ≠ lost) = [other])
    (hnew : new ≠ other) (hown : new ≠ ownId s) :
    exec (.poolUnitRecopy unit lost new) s = .next (onUnit unit (fun u => { u with holders := [other, new] })
      (storeAtHolders { u with holders := [new] } (sendFw other u.part (.poolRead unit) s))) := by
  show execPoolUnitRecopy unit lost new s = _
  simp only [execPoolUnitRecopy, hu, hrun, hloc, hlost, hleft, unitById_id hu]
  simp [hnew, hown]

end

theorem onUnit_holders {n : Nat} {hs : List Nat} {s : State} {v : Machine.PUnit}
    (hv : v ∈ (onUnit n (fun u => { u with holders := hs }) s).skidder.units) (hid : v.id = n) : v.holders = hs := by
  simp only [onUnit, onUnits, mapWhere, decide_eq_true_eq] at hv
  obtain ⟨w, _, rfl⟩ := mem_map_byId hv hid
  rfl

theorem recopy_fabricOnly (u : Machine.PUnit) (d p : Nat) (m : FwMsg) (s : State) :
    FabricOnly s (storeAtHolders u (sendFw d p m s)) :=
  (sendFw_fabricOnly d p m s).trans (storeAtHolders_fabricOnly u _)

/-! ## Holding for other owners (R349) -/

/-- The unit of this owner, partition and key. -/
def heldAs (owner p key : Nat) (h : PoolHeld) : Bool := h.owner = owner && h.part = p && h.key = key

/-- The device holds nothing more under this owner, partition and key. -/
def freeHeld (owner p key : Nat) (s : State) : State :=
  { s with skidder := { s.skidder with held := s.skidder.held.filter (fun h => !heldAs owner p key h) } }

/-- The device holds this unit too. -/
def addHeld (h : PoolHeld) (s : State) : State := { s with skidder := { s.skidder with held := s.skidder.held ++ [h] } }

theorem heldFor_freeHeld (owner p key : Nat) (s : State) : heldFor (freeHeld owner p key s) owner p key = none :=
  List.find?_eq_none.mpr (fun h hh => (by simpa using (List.mem_filter.mp hh).2 : ¬heldAs owner p key h = true))

theorem freeHeld_of_none {owner p key : Nat} {s : State} (h : heldFor s owner p key = none) : freeHeld owner p key s = s := by
  have hall : s.skidder.held.filter (fun h => !heldAs owner p key h) = s.skidder.held :=
    List.filter_eq_self.mpr (fun x hx => by
      have hx : ¬heldAs owner p key x = true := List.find?_eq_none.mp h x hx
      simpa using hx)
  unfold freeHeld
  rw [hall]

section
variable {s : State} {owner p key : Nat} (hr : s.power.phase = .running) (hserves : s.deck.inService = true)
include hr hserves

theorem poolHolderRequest_stores {data : List Byte} (hh : holding s = false) (hnone : heldFor s owner p key = none)
    (hmay : mayHold s data.length = true) :
    exec (.poolHolderRequest owner p 0 key data) s =
      .next (programDevice p data.length (addHeld { owner := owner, part := p, key := key, data := data } s)) := by
  have hfree := freeHeld_of_none hnone
  have hfits : (!holding s && mayHold (freeHeld owner p key s) data.length) = true := by rw [hh, hfree, hmay]; rfl
  have hstore : holderRequest owner p 0 key data s = programDevice p data.length
      (addHeld { owner := owner, part := p, key := key, data := data } (freeHeld owner p key s)) :=
    (if_neg (by simp [hr, hserves])).trans ((if_pos rfl).trans (if_pos hfits))
  show Host.Outcome.next (holderRequest owner p 0 key data s) = _
  rw [hstore, hfree]

theorem poolHolderRequest_returns {h : PoolHeld} (data : List Byte) (hh : heldFor s owner p key = some h) :
    exec (.poolHolderRequest owner p 1 key data) s = .next (sendFw owner p (.poolData key h.data) s) := by
  show Host.Outcome.next (holderRequest owner p 1 key data s) = _
  simp [holderRequest, hr, hserves, hh]

theorem poolHolderRequest_frees (data : List Byte) :
    exec (.poolHolderRequest owner p 2 key data) s = .next (freeHeld owner p key s) := by
  show Host.Outcome.next (holderRequest owner p 2 key data s) = _
  simp [holderRequest, hr, hserves, freeHeld, heldAs]

end

theorem heldFor_programDevice (owner p key q n : Nat) (s : State) :
    heldFor (programDevice q n s) owner p key = heldFor s owner p key := by
  unfold heldFor
  rw [(programDevice_deckOnly q n s).skidder]

theorem heldFor_addHeld {s : State} {h : PoolHeld} (hnone : heldFor s h.owner h.part h.key = none) :
    heldFor (addHeld h s) h.owner h.part h.key = some h := by
  unfold heldFor addHeld at *
  simp [List.find?_append, hnone]

/-! ## Replicas (R350, R351) -/

theorem findColl_num {s : State} {p n : Nat} {c : Coll} (h : findColl s p n = some c) : c.num = n := by
  simpa using List.find?_some h

theorem findColl_onColl {s : State} {p n : Nat} {c : Coll} {f : Coll → Coll} (hp : p < s.parts.length)
    (hf : ∀ x, (f x).num = x.num) (h : findColl s p n = some c) : findColl (onColl p n f s) p n = some (f c) := by
  have hkey : ((fun x : Coll => decide (x.num = n)) ∘ fun x => if decide (x.num = n) = true then f x else x) =
      fun x => decide (x.num = n) := by
    funext x
    dsimp only [Function.comp]
    split
    · rw [hf]
    · rfl
  unfold findColl onColl at *
  rw [Laws.part_onPart_same _ _ _ hp]
  unfold mapWhere
  rw [List.find?_map, hkey, h, Option.map_some, if_pos (decide_eq_true (findColl_num h))]

theorem findColl_of_parts {s t : State} (h : t.parts = s.parts) (p n : Nat) : findColl t p n = findColl s p n := by
  unfold findColl part
  rw [h]

theorem findColl_added {s : State} {p n : Nat} {c : Coll} (hp : p < s.parts.length) (hn : c.num = n)
    (h : findColl s p n = none) : findColl (onPart p (fun t => { t with colls := t.colls ++ [c] }) s) p n = some c := by
  unfold findColl at *
  rw [Laws.part_onPart_same _ _ _ hp, List.find?_append, h, Option.none_or]
  simp [hn]

/-- The primary's record of its replicas once `number` stands at `device`. -/
def replicaRecorded (number device : Nat) (c : Coll) : Coll → Coll := fun x =>
  { x with replicaSet := addReplica (number, device) c.replicaSet, rebuilding := x.rebuilding.filter (fun n => n ≠ number) }

theorem mem_addReplica (x : Nat × Nat) (set : List (Nat × Nat)) : x ∈ addReplica x set := mem_insertBy.mpr (.inl rfl)

theorem findColl_rebuildFrom {s : State} {p n number device : Nat} {c : Coll} (hp : p < s.parts.length)
    (h : findColl s p n = some c) :
    findColl (rebuildFrom p c number device s) p n = some (replicaRecorded number device c c) := by
  have hnum := findColl_num h
  unfold rebuildFrom
  dsimp only
  rw [hnum]
  refine (findColl_of_parts (foldl_keeps State.parts (fun t d => ?_) _ _) p n).trans ?_
  · exact (sendFw_fabricOnly d p _ t).parts
  · have hsent := (FabricOnly.keeps (view := id) (sendFw_fabricOnly device p (.shardCopy number
      { c with num := collNumber c, role := number, primary := ownId s, replicaSet := addReplica (number, device) c.replicaSet
               rebuilding := [], busy := false }) s)).parts
    exact findColl_onColl (f := replicaRecorded number device c) (hsent.symm ▸ hp) (fun _ => rfl)
      ((findColl_of_parts hsent p n).trans h)

theorem replicaRebuild_primary {s : State} {p coll number device : Nat} {c : Coll} (hrun : skidderRuns s = true)
    (hc : findColl s p coll = some c) (hrole : c.role = 0) (hmissing : number ∈ c.rebuilding)
    (hplace : replicaPlace s c number device = true) :
    exec (.replicaRebuild p coll number device none) s = .next (rebuildFrom p c number device s) := by
  show execReplicaRebuild p coll number device none s = _
  simp [execReplicaRebuild, hrun, hc, hrole, hmissing, hplace]

theorem replicaRebuild_chosen {s : State} {p coll number : Nat} {c : Coll} (hrun : skidderRuns s = true) (hnum : c.num = coll) :
    exec (.replicaRebuild p coll number (ownId s) (some c)) s = .next (installReplica p number c s) := by
  show execReplicaRebuild p coll number (ownId s) (some c) s = _
  simp [execReplicaRebuild, hrun, hnum]

/-- The number that a copied shard takes: the collection's own unless the partition has it already (R626). -/
def replicaNum (s : State) (p : Nat) (c : Coll) : Nat :=
  if (findColl s p c.num).isNone then c.num else replicaKey c.num c.shardOrdinal

theorem findColl_replicaNum {s : State} {p : Nat} {c : Coll}
    (h : findColl s p c.num = none ∨ findColl s p (replicaKey c.num c.shardOrdinal) = none) :
    findColl s p (replicaNum s p c) = none := by
  unfold replicaNum
  split
  next hn => exact Option.isNone_iff_eq_none.mp hn
  next hn => exact h.resolve_left (fun he => hn (Option.isNone_iff_eq_none.mpr he))

theorem findColl_installReplica {s : State} {p number : Nat} {c : Coll} (hactive : (part s p).state = .active)
    (hnew : findShard s p c.num c.shardOrdinal = none) (hn : number ≠ 0) (hp : p < s.parts.length)
    (hfree : findColl s p (replicaNum s p c) = none) :
    findColl (installReplica p number c s) p (replicaNum s p c) =
      some { c with role := number, num := replicaNum s p c } := by
  unfold installReplica
  rw [if_pos ⟨hactive, Option.isNone_iff_eq_none.mpr hnew, hn⟩]
  exact (findColl_of_parts (foldl_keeps State.parts (fun t g => segmentUnits_parts p _ g t) _ _) p _).trans
    (findColl_added hp rfl hfree)

/-! ## The statement -/

/-- Settles O32, conjunct by conjunct: heat, the plan, a move of one unit, copy-up, a pool unit's second holder, units held for
other owners, and replicas at the primary and at the device chosen. -/
theorem skidderPlacesAndMovesUnits : Obligations.SkidderPlacesAndMovesUnits := by
  unfold Obligations.SkidderPlacesAndMovesUnits
  refine ⟨fun s hr => ⟨heatDecay_held, fun hh => ⟨_, heatDecay_halves hr hh, rfl, rfl⟩⟩, fun s hrun hd => ?_,
    fun s a u hrun hu => ⟨unitMove_promotes hrun hu, unitMove_abandoned hrun hu, unitMove_pinned hrun hu,
      unitMove_demotes hrun hu⟩,
    fun s a u hr hu hloc => ⟨copyUp_fails hr hu hloc, fun h e => copyUp_poisoned hr hu hloc, fun h e hok hk hp hdata => ?_,
      copyUp_device hr hu hloc⟩,
    fun s unit lost new u other hrun hu hloc hlost => ⟨fun hleft hnew hown => ?_,
      poolUnitRecopy_unreadable hrun hu hloc hlost new⟩,
    fun s owner p key data hr hserves => ⟨fun hh hnone hmay => ?_,
      fun h hheld => poolHolderRequest_returns hr hserves data hheld,
      ⟨_, poolHolderRequest_frees hr hserves data, heldFor_freeHeld owner p key s, rfl⟩⟩,
    fun s p coll number device c hrun => ⟨fun hc hrole hmissing hplace hp => ?_,
      fun hdev hnum hactive hnew hn hp _ hfree => ?_⟩⟩
  · obtain ⟨hplan, hlast⟩ := runPlan_plans hd
    exact ⟨_, exec_placementPlan hrun, hlast, hplan.mem, hplan.parts, hplan.identities, fun u => hplan.pinned_stays⟩
  · rw [copyUp_extent hr hu hloc hok hk hp, hdata, writeInUnit_nil]
    exact ⟨_, rfl, fun v hv hid => copyUpUnit_raised hv (hid.trans (unitById_id hu).symm), copyUpUnit_keepsMem u s,
      fun i => trimImages_gone⟩
  · have hsent := recopy_fabricOnly { u with holders := [new] } other u.part (.poolRead unit) s
    exact ⟨_, poolUnitRecopy_recopies hrun hu hloc hlost hleft hnew hown, fun v => onUnit_holders,
      fun hother => fwHolds_storeAtHolders_of_holds _ (fwHolds_sendFw u.part _ hother), hsent.mem,
      hsent.parts⟩
  · exact ⟨_, poolHolderRequest_stores hr hserves hh hnone hmay,
      (heldFor_programDevice owner p key p data.length _).trans (heldFor_addHeld hnone),
      (programDevice_deckOnly p data.length _).mem⟩
  · exact ⟨_, _, replicaRebuild_primary hrun hc hrole hmissing hplace, findColl_rebuildFrom hp hc, mem_addReplica _ _,
      fun hin => of_decide_eq_true (List.mem_filter.mp hin).2 rfl, rfl, rfl⟩
  · subst hdev hnum
    exact ⟨_, _, replicaRebuild_chosen hrun rfl, rfl, findColl_installReplica hactive hnew hn hp (findColl_replicaNum hfree)⟩

end Sys2Proof.Proofs
end
